-- ==== Sys2Proof/Word.lean ====
section
/-! DEFINITION. The word types of the model: bytes and the register words of the management space. -/

namespace Sys2Proof

/-- One byte of a descriptor, message, record, image or yard. -/
abbrev Byte := BitVec 8

/-- One 32-bit word: a management register or an FP32 encoding. -/
abbrev Word := BitVec 32

/-- One 64-bit word: a plumb count or a counter of the counter block. -/
abbrev Word64 := BitVec 64

end Sys2Proof
end

