-- ==== Sys2Proof/Syntax.lean ====
section
/-! DEFINITION. The commands of the block: one constructor for each of the 103 rows of spec/opcode_table.json, in the
table's order, with the operands that reach the block from outside. -/

namespace Sys2Proof

/-- A flit as it reaches a port: its bytes, or flit `i` of the 1,088 received symbols of a codeword pair (12_ R304). -/
inductive FlitRx where
  | bytes (b : List Byte)
  | ofPair (symbols : List (BitVec 10)) (i : Fin 5)
  deriving DecidableEq, Repr

/-- A piece of running work: the descriptor at the head of a channel, or a share of the share queue by its number. -/
inductive Part where
  | chan (c : Fin 16)
  | share (id : Nat)
  deriving DecidableEq, Repr, Inhabited

/-- The 16-byte envelope of a message between instances (12_ Table 12.7). -/
structure Envelope where
  cls : Nat
  hops : Nat := 0
  len : Nat := 0
  dest : Nat := 0
  src : Nat := 0
  head : Nat := 0
  ch : Fin 16 := 0
  attempt : Nat := 0
  seq : Nat := 0
  deriving DecidableEq, Repr, Inhabited

/-- The release-order rings whose records are acknowledged: a channel's shavings ring, its story pole, the offcut bin. -/
inductive RingSite where
  | shave (c : Fin 16)
  | pole (c : Fin 16)
  | offcut
  deriving DecidableEq, Repr, Inhabited

/-- What discovery finds of the flash device (13_ R343). -/
inductive NvDevice where
  | ok | noSfdp | noQuad | tooSmall
  deriving DecidableEq, Repr, Inhabited

/-- A number as a lane holds it before its final rounding (04_ R126): NaN, an infinity, a signed zero, a non-zero rational. -/
inductive LaneNum where
  | nan | inf (neg : Bool) | zero (neg : Bool) | num (q : Rat)
  deriving DecidableEq, Repr, Inhabited

/-- What a lane's check sees of one element: the result format's code, the result `p` before its final rounding, the estimate `e` (04_ R126). -/
structure LaneSeen where
  fmt : Nat
  p : LaneNum
  e : LaneNum
  deriving DecidableEq, Repr, Inhabited

/-- One failure of the power-up self-test (13_ R346): a lane (64 is the spare), the tallies, the yard, the tap buffer. -/
inductive SelfFail where
  | lane (n : Nat) | tally | yard | tap
  deriving DecidableEq, Repr, Inhabited

/-- The commands, in the order of spec/opcode_table.json. -/
inductive Instr where
  | post (src : Nat) (msg : List Byte) (parityOk : Bool)
  | doorbell (src : Nat) (msg : List Byte) (parityOk : Bool)
  | malformedMessage (src : Nat) (msg : List Byte)
  | validateDescriptor (c : Fin 16)
  | validationBlockReadDone (c : Fin 16) (blk : Nat) (err : Bool) (data : List Byte)
  | descriptorStart (p : Part)
  | launchConditionMet (c : Fin 16)
  | descriptorRetire (p : Part)
  | releasePackage (c : Fin 16)
  | completionRecordWriteAck (c : Fin 16) (err : Bool)
  | slotBoundary
  | handoverGapEnd
  | memoryReadResponse (tag status : Nat) (data : List Byte) (parityOk : Bool)
  | memoryWriteAck (tag status : Nat)
  | memoryResponseTimeout (tag : Nat)
  | tapBeat (bay : Fin 16) (data : List Word) (par : List Bool)
  | laneCheck (bay : Fin 16) (lane op : Nat) (seen : LaneSeen)
  | spareMapInDone (bay : Fin 16)
  | scrub
  | attemptDrained (p : Part)
  | reexecutionStart (c : Fin 16)
  | gangLostWaitExpiry (c : Fin 16)
  | ringRecordWriteAck (r : RingSite) (err : Bool)
  | ringSpacePoll (r : RingSite)
  | offcutEndRecord (p : Part)
  | heldTileWrite
  | share (env : Envelope) (body : List Byte)
  | report (env : Envelope) (body : List Byte)
  | partialMsg (env : Envelope) (body : List Byte)
  | tile (env : Envelope) (body : List Byte)
  | tileAck (env : Envelope) (body : List Byte)
  | segval (env : Envelope) (body : List Byte)
  | scarf (env : Envelope) (body : List Byte)
  | scarfPeriodic
  | scarfTimeout (sin : Nat)
  | raise (env : Envelope) (body : List Byte)
  | cancel (env : Envelope) (body : List Byte)
  | raiseAck (env : Envelope) (body : List Byte)
  | raiseDeadline
  | raiseEdge
  | ringTime (env : Envelope) (body : List Byte)
  | reservedClassMessage (env : Envelope) (body : List Byte)
  | messageForward (env : Envelope) (body : List Byte)
  | tieRingBeat (cw : Bool) (data : List Byte) (par : List Bool)
  | dataFlit (port : Fin 2) (flit : FlitRx)
  | idleFlit (port : Fin 2) (flit : FlitRx)
  | replayTimeout (port : Fin 2)
  | resendLimitRetrain (port : Fin 2)
  | timeFlit (port : Fin 2) (flit : FlitRx) (arrival : Word64)
  | timeFlitSend (port : Fin 2) (departure : Word64)
  | syncInEdge (ts pulse : Nat)
  | syncOutPulse
  | hello (port : Fin 2) (flit : FlitRx)
  | trainingFrame (port : Fin 2) (lane : Nat) (marker : Word) (control status : Nat)
  | trainingFrameSend (port : Fin 2)
  | trainingPhaseDone (port : Fin 2)
  | trainingPhaseTimeout (port : Fin 2)
  | freezeFrame (fromPort : Option (Fin 2)) (frame : FlitRx)
  | freezeInEdge
  | freezeComplete
  | claim (m : Fin 4)
  | release (m : Fin 4) (withClaim : Bool)
  | handover (m : Fin 4) (target : Fin 4)
  | handoverExpired
  | ownerBeat (m : Fin 4) (beat : Word)
  | lapse
  | irqStatusClear (m : Fin 4) (mask : Word)
  | quiesce (m : Fin 4)
  | raiseLocal (m : Fin 4)
  | raiseGang (m : Fin 4) (gang : Nat)
  | raiseAtWrite (m : Fin 4) (high : Bool) (value : Word)
  | shadowWrite (m : Fin 4) (off : Nat) (value : Word)
  | nextseqWrite (m : Fin 4) (g : Fin 4) (value : Word)
  | channelEnable (m : Fin 4) (c : Fin 16)
  | channelDisable (m : Fin 4) (c : Fin 16)
  | freeze (m : Fin 4) (value : Word)
  | thaw (m : Fin 4) (value : Word) (freezeIn : Bool)
  | retrain (m : Fin 4) (bits : Nat)
  | logTailWrite (m : Fin 4) (value : Word)
  | readoutWindowRead (m : Fin 4) (k : Nat)
  | registerWrite (m : Fin 4) (off : Nat) (value : Word)
  | mgmtBadAddress (m : Fin 4) (write : Bool)
  | resetAssert
  | resetRelease (fuses : Nat) (ssc : Bool)
  | pllLockDone (avs : Nat)
  | nvDiscoveryDone (dev : NvDevice) (headers : List (List Byte)) (logs : List (List Byte))
  | imageSlotReadDone (bytes : List Byte)
  | selfTestDone (fails : List (Fin 16 × SelfFail))
  | loadEnd (programmed : Bool)
  | trainingWindowEnd
  | plumbAlignmentEnd
  | bootLogErase (ok : Bool)
  | nvRelease
  | idcode
  | fuseRead
  | scanEn
  | mbistRun (write : Bool)
  | mbistDone (pass : Bool) (firstFail : Nat)
  | mbistStatus
  | bypass (code : Nat)
  | testReset
  | lowWordRead (m : Fin 4) (off : Nat)
  | railsWithinRange (core sram : Bool)
  deriving DecidableEq, Repr, Inhabited

end Sys2Proof
end

