-- ==== Sys2Proof/WellFormed.lean ====
section
/-! DEFINITION. Which commands can occur at all: operand ranges that the wires and fields of the spec bound (16_ Tables
16.1 and 16.2, 03_ R69, 12_ Table 12.7, 14_ R354). Meanings are total, so nothing is refused for want of it. -/

namespace Sys2Proof

/-- Is an envelope's every field within its bits (Table 12.7)? -/
def Envelope.wf (e : Envelope) : Bool :=
  decide (e.cls < 256) && decide (e.hops < 8) && decide (e.len ≤ 2048) && decide (e.dest < 4096) && decide (e.src < 4096) &&
    decide (e.head < 4096) && decide (e.attempt < 256) && decide (e.seq < 2 ^ 32)

/-- A message of a class, its body as long as LENGTH says (R308). -/
def bodyWf (cls : Nat) (e : Envelope) (b : List Byte) : Bool := e.wf && e.cls == cls && e.len == b.length

/-- A flit has 256 bytes, a codeword pair 1,088 symbols (R304). -/
def FlitRx.wf : FlitRx → Bool
  | .bytes b => b.length == 256
  | .ofPair l _ => l.length == 1088

/-- Is a command well formed? -/
def Instr.wf : Instr → Bool
  | .post src msg _ => decide (src < 65536) && msg.length == 144 && (msg.headD 0#8) == 1#8
  | .doorbell src msg _ => decide (src < 65536) && msg.length == 16 && (msg.headD 0#8) == 2#8
  | .malformedMessage src msg => decide (src < 65536) && decide (16 ≤ msg.length) &&
      !((msg.headD 0#8 == 1#8 && msg.length == 144) || (msg.headD 0#8 == 2#8 && msg.length == 16))
  | .memoryReadResponse tag st data _ => decide (tag < 1024) && decide (st < 4) && data.length % 64 == 0
  | .memoryWriteAck tag st => decide (tag < 1024) && decide (st < 4)
  | .memoryResponseTimeout tag => decide (tag < 1024)
  | .tapBeat _ data par => data.length == 64 && par.length == 64
  | .laneCheck _ lane op x => decide (lane ≤ 64) && decide (op < 64) && decide (x.fmt < 16) && x.p != .num 0 && x.e != .num 0
  | .share e b => bodyWf 1 e b && decide (144 ≤ b.length)
  | .report e b => bodyWf 2 e b && b.length == 24
  | .partialMsg e b => bodyWf 3 e b && decide (16 ≤ b.length)
  | .tile e b => bodyWf 4 e b && decide (33 ≤ b.length ∧ b.length ≤ 256)
  | .tileAck e b => bodyWf 5 e b && b.length == 16
  | .segval e b => bodyWf 6 e b && decide (24 ≤ b.length)
  | .scarf e b => bodyWf 7 e b && b.length == 64
  | .raise e b => bodyWf 8 e b && b.length == 16
  | .cancel e b => bodyWf 8 e b && b.length == 16
  | .raiseAck e b => bodyWf 9 e b && b.length == 8
  | .ringTime e b => bodyWf 10 e b && b.length == 8
  | .reservedClassMessage e b => e.wf && (e.cls == 0 || decide (10 < e.cls)) && e.len == b.length
  | .messageForward e b => e.wf && e.len == b.length
  | .tieRingBeat _ data par => data.length == 32 && par.length == 8
  | .dataFlit _ f => f.wf
  | .idleFlit _ f => f.wf
  | .timeFlit _ f _ => f.wf
  | .hello _ f => f.wf
  | .trainingFrame _ lane _ control status => decide (lane < 8) && decide (control < 65536) && decide (status < 65536)
  | .freezeFrame (some _) f => f.wf
  | .freezeFrame none f => match f with | .bytes b => decide (9 ≤ b.length) | .ofPair _ _ => false
  | .raiseGang _ g => decide (1 ≤ g ∧ g < 4096)
  | .shadowWrite _ off _ => [0xC0, 0xC4, 0xC8, 0xCC, 0xD0, 0xD4].contains off
  | .retrain _ bits => decide (bits < 4)
  | .readoutWindowRead _ k => k % 4 == 0 && decide (k < 0x4000)
  | .registerWrite _ off _ => off % 4 == 0 && decide (off < 65536)
  | .resetRelease fuses _ => decide (fuses < 65536)
  | .pllLockDone avs => decide (avs ≤ 30)
  | .nvDiscoveryDone _ hs ls => hs.length == 2 && hs.all (·.length == 64) && ls.length == 2 && ls.all (·.length == 4096)
  | .mbistDone _ first => decide (first < 131072)
  | .bypass code => decide (code < 64) && !([0x01, 0x02, 0x10, 0x11, 0x12].contains code)
  | .lowWordRead _ off => off % 4 == 0 && decide (off < 65536)
  | .scarfTimeout sin => decide (sin < 4096)
  | _ => true

end Sys2Proof
end

