-- ==== Sys2Proof/Config.lean ====
section
/-! DEFINITION. The free values: what the spec leaves open and no proof may see.
Each is an opaque constant without a body (assumption log 5, 8, 9, 10, 11). -/

namespace Sys2Proof.Config

/-- Log 5, DESIGN CHOICE. The bits the Wosum model gives a U1 result (R109, R111): opcode, operand encodings. -/
opaque wosumU1 : Nat → List Nat → Nat

/-- Log 5, DESIGN CHOICE. The bits the Wosum model gives a P46 pair, hi in bits 31..0 and lo in bits 63..32 (R110, R111). -/
opaque wosumP46 : Nat → List Nat → Nat

/-- Log 8, DESIGN CHOICE. A byte the spec calls undefined (R242, R383): the mark's number, the physical yard address. -/
opaque undefByte : Nat → Nat → Byte

/-- Log 9, DESIGN CHOICE. A byte of another member's holding yard read as an input: head SIN, gang yard address. -/
opaque peerYardByte : Nat → Nat → Byte

/-- Log 9, DESIGN CHOICE. The enabled bay count of a member this instance has no SCARF entry for. -/
opaque peerBays : Nat → Nat

/-- Log 9, DESIGN CHOICE. The smallest STACK_RESERVE of the other members of a gang, which only its head learns (R242, R316): head SIN,
Gang ID. -/
opaque peerReserve : Nat → Nat → Nat

/-- Log 9, DESIGN CHOICE. A level-0 node value (a half) that no SEGVAL delivered: stream, segment, half. -/
opaque spanNode : Nat → Nat → Nat → BitVec 64

/-- Log 10, DESIGN CHOICE. A capture-set byte whose place the spec does not lay out: free counter, capture offset. -/
opaque captureByte : Nat → Nat → Byte

/-- Log 10, DESIGN CHOICE. LG_VERSION.ROM (R375): "Silicon". -/
opaque romRevision : BitVec 16

/-- Log 12, DESIGN CHOICE. The TRIM the servo chooses (R322), before the bounds of R317: free counter. -/
opaque servoTrim : Nat → Int

/-- Log 12, DESIGN CHOICE. The transmit-equaliser request a receiver in training makes (R302): port, lane, free counter. -/
opaque eqRequest : Nat → Nat → Nat → BitVec 16

/-- Log 12, DESIGN CHOICE. Whether an offset with half a unit is shown rounded up in KL_THETA (R324, R375 gives no rounding). -/
opaque thetaUp : Int → Bool

/-- Log 20, DESIGN CHOICE. The high word of a 64-bit register read by a master that has not read its low word (R357): free counter. -/
opaque unlatchedHigh : Nat → Word

/-- Log 9, DESIGN CHOICE. Is a member's offcut ring absent, empty or malformed when its head validates (R287), which no message tells: SIN,
count. -/
opaque peerOffcutBad : Nat → Nat → Bool

/-- Log 24, DESIGN CHOICE. The ARITH cycles a plumb descriptor takes to its retire edge, where the spec gives no count (R98): the slot table,
the cycles of its tap beats, its bytes, its blocks and the indices of a gather; no operand of a lane operation (R18). -/
opaque plumbCycles : List Nat → List Nat → List (List Byte) → Nat

/-- Log 14, DESIGN CHOICE. The code of the grid format of QGRAD when OUT_FMT is not a grid of Table 8.3 (R217). -/
opaque qgradFormat : Nat

/-- Log 13, DESIGN CHOICE. A result of a rounding that the enclosures did not decide within the fuel: the two candidates' choice. -/
opaque undecided : Nat → Bool

/-- Log 17, DESIGN CHOICE. CODE of the head's error-log entry for a fault a member reported (R391 names none): free counter. -/
opaque reportedCode : Nat → Nat

/-- Log 17, DESIGN CHOICE. DETAIL of that entry, but for GANG_LOST: free counter. -/
opaque reportedDetail : Nat → Nat

/-- Log 18, DESIGN CHOICE. DETAIL of a MSG_DISCARD entry for a message between instances (Table 15.3 lists no unit for it): free counter. -/
opaque discardDetail : Nat → Nat

end Sys2Proof.Config
end

