-- ==== Sys2Proof/Machine/Bytes.lean ====
section
/-! DEFINITION. Byte order, bit fields and small list helpers (00_ R10: little-endian, bit 0 least significant). -/

namespace Sys2Proof.Machine

/-- The unsigned value of little-endian bytes (R10). -/
def leNat : List Byte → Nat
  | [] => 0
  | b :: bs => b.toNat + 256 * leNat bs

/-- `n` little-endian bytes of `v`, truncated (R10). -/
def natLE : Nat → Nat → List Byte
  | 0, _ => []
  | n + 1, v => BitVec.ofNat 8 v :: natLE n (v / 256)

/-- Bits [lo + len - 1 : lo] of `v`. -/
def bitsOf (v lo len : Nat) : Nat := v / 2 ^ lo % 2 ^ len

/-- Bit `i` of `v`. -/
def bitOf (v i : Nat) : Bool := bitsOf v i 1 == 1

/-- The `len` bytes at offset `off`; bytes beyond the end are absent. -/
def sliceOf (b : List Byte) (off len : Nat) : List Byte := (b.drop off).take len

/-- The little-endian field of `len` bytes at offset `off`. -/
def fieldAt (b : List Byte) (off len : Nat) : Nat := leNat (sliceOf b off len)

/-- The signed value of an `n`-bit two's-complement field. -/
def signedOf (n v : Nat) : Int := if v < 2 ^ (n - 1) then (v : Int) else (v : Int) - (2 ^ n : Nat)

/-- The `n`-bit two's-complement field of a signed value. -/
def unsignedOf (n : Nat) (v : Int) : Nat := (v % ((2 ^ n : Nat) : Int)).toNat

/-- 1 for true and 0 for false. -/
def b2n (b : Bool) : Nat := if b then 1 else 0

/-- `n` zero bytes. -/
def zeros (n : Nat) : List Byte := List.replicate n 0#8

/-- `b` followed by zero bytes up to `n` bytes, cut at `n`. -/
def padTo (n : Nat) (b : List Byte) : List Byte := (b ++ zeros (n - b.length)).take n

/-- `b` followed by zero bytes up to a multiple of `m`. -/
def padMul (m : Nat) (b : List Byte) : List Byte := b ++ zeros ((m - b.length % m) % m)

/-- Every byte is 0 (R13). -/
def allZero (b : List Byte) : Bool := b.all (· == 0#8)

/-- `a` divided by `b`, rounded up. -/
def ceilDiv (a b : Nat) : Nat := (a + b - 1) / b

/-- `l` cut into pieces of `n`, the last shorter; at most `fuel` pieces. -/
def chunksFuel {α : Type} (n : Nat) : Nat → List α → List (List α)
  | 0, _ => []
  | _, [] => []
  | f + 1, l => l.take n :: chunksFuel n f (l.drop n)

/-- `l` cut into pieces of `n`, the last shorter. -/
def chunksOf {α : Type} (n : Nat) (l : List α) : List (List α) := chunksFuel n (if n = 0 then 0 else l.length) l

/-- `l` with its element at `i` changed by `f`. -/
def modifyAt {α : Type} (l : List α) (i : Nat) (f : α → α) : List α := l.modify i f

/-- `l` with place `i` set; unchanged when there is no such place. -/
def setAt {α : Type} (l : List α) (i : Nat) (x : α) : List α := l.set i x

/-- The least multiple of `m` at or above `v`. -/
def roundUp (v m : Nat) : Nat := ceilDiv v m * m

/-- Do the byte ranges [a, a + n) and [b, b + m) overlap? Empty ranges overlap nothing. -/
def rangesMeet (a n b m : Nat) : Bool := decide (0 < n ∧ 0 < m ∧ a < b + m ∧ b < a + n)

end Sys2Proof.Machine
end

