-- ==== Sys2Proof/Machine/Values.lean ====
section
/-! DEFINITION. Exact values, the thirteen tensor formats, decoding and the one rounding of every conversion
(00_ R5 to R9, 02_ R46 to R68). A finite value is an exact rational; the formats appear only at the two ends. -/

namespace Sys2Proof.Machine

/-- The sticky IEEE flags of a record (Table 3.12, FLAGS [3:0]). -/
structure Flags where
  inv : Bool := false
  dz : Bool := false
  ovf : Bool := false
  unf : Bool := false
  deriving DecidableEq, Repr, Inhabited

/-- The OR of two sets of sticky flags (R67). -/
def Flags.or (a b : Flags) : Flags := ⟨a.inv || b.inv, a.dz || b.dz, a.ovf || b.ovf, a.unf || b.unf⟩

/-- FLAGS [3:0] of the completion record. -/
def Flags.toNat (f : Flags) : Nat := b2n f.inv + 2 * b2n f.dz + 4 * b2n f.ovf + 8 * b2n f.unf

/-- FLAGS [3:0] read back from a REPORT. -/
def Flags.ofNat (n : Nat) : Flags := ⟨bitOf n 0, bitOf n 1, bitOf n 2, bitOf n 3⟩

/-- No flag. -/
def noFlags : Flags := ⟨false, false, false, false⟩
/-- The invalid flag alone. -/
def invFlag : Flags := ⟨true, false, false, false⟩
/-- The divide-by-zero flag alone. -/
def dzFlag : Flags := ⟨false, true, false, false⟩
/-- The overflow flag alone. -/
def ovfFlag : Flags := ⟨false, false, true, false⟩

/-- A value a lane form holds exactly (R60): NaN, an infinity, a signed zero, or a non-zero rational. -/
inductive Val where
  | nan
  | inf (neg : Bool)
  | zero (neg : Bool)
  | num (q : Rat)
  deriving DecidableEq, Repr, Inhabited

/-- An exact real before its one rounding: a value, or a real known through enclosures that shrink with the
precision and never contain 0. -/
inductive Ex where
  | val (v : Val)
  | real (enc : Nat → Rat × Rat)

/-- The value of an exact rational, +0 or -0 by `neg` when it is zero (R7, R119). -/
def Val.ofRat (q : Rat) (neg : Bool := false) : Val := if q = 0 then .zero neg else .num q

/-- Is the sign negative (a NaN has none)? -/
def Val.isNeg : Val → Bool
  | .nan => false
  | .inf n => n
  | .zero n => n
  | .num q => decide (q < 0)

/-- Is it a zero of either sign? -/
def Val.isZero : Val → Bool
  | .zero _ => true
  | _ => false

/-- Is it finite? -/
def Val.isFinite : Val → Bool
  | .zero _ => true
  | .num _ => true
  | _ => false

/-- Is a value an infinity? -/
def Val.isInf : Val → Bool
  | .inf _ => true
  | _ => false

/-- The exact real 0 of a pseudocode line that states no sign is +0 (R7). -/
def Val.unsignZero : Val → Val
  | .zero _ => .zero false
  | v => v

/-- The rational of a finite value, 0 otherwise. -/
def Val.rat : Val → Rat
  | .num q => q
  | _ => 0

/-- Negation, NaN kept. -/
def Val.neg : Val → Val
  | .nan => .nan
  | .inf n => .inf (!n)
  | .zero n => .zero (!n)
  | .num q => .num (-q)

/-- Absolute value; -0 counts as +0 (R206). -/
def Val.abs : Val → Val
  | .nan => .nan
  | .inf _ => .inf false
  | .zero _ => .zero false
  | .num q => .num (if q < 0 then -q else q)

/-- The exact product with IEEE special operands; true when it is 0 × ∞ (R119, R149). -/
def Val.mul (a b : Val) : Val × Bool :=
  match a, b with
  | .nan, _ => (.nan, false)
  | _, .nan => (.nan, false)
  | .inf _, .zero _ => (.nan, true)
  | .zero _, .inf _ => (.nan, true)
  | .num p, .num q => (.num (p * q), false)
  | .inf s, y => (.inf (s != y.isNeg), false)
  | x, .inf s => (.inf (x.isNeg != s), false)
  | .zero s, y => (.zero (s != y.isNeg), false)
  | x, .zero s => (.zero (x.isNeg != s), false)

/-- The exact sum with IEEE special operands; true when it is ∞ - ∞. A zero sum is -0 only when both are -0 (R119). -/
def Val.add (a b : Val) : Val × Bool :=
  match a, b with
  | .nan, _ => (.nan, false)
  | _, .nan => (.nan, false)
  | .inf s, .inf t => if s = t then (.inf s, false) else (.nan, true)
  | .inf s, _ => (.inf s, false)
  | _, .inf s => (.inf s, false)
  | .zero s, .zero t => (.zero (s && t), false)
  | .zero _, y => (y, false)
  | x, .zero _ => (x, false)
  | .num p, .num q => (Val.ofRat (p + q), false)

/-- x × y + z, exact; invalid for 0 × ∞ whatever z is, and for ∞ - ∞ (R119). -/
def Val.fma (x y z : Val) : Val × Bool :=
  match x.mul y with
  | (_, true) => (.nan, true)
  | (p, false) => p.add z

/-- The rank of R164 as a key: NaN above +∞ above finite above -∞; +0 above -0. True when `a` ranks above `b`. -/
def Val.above (a b : Val) : Bool :=
  match a, b with
  | .nan, .nan => false
  | .nan, _ => true
  | _, .nan => false
  | .inf s, .inf t => !s && t
  | .inf s, _ => !s
  | _, .inf t => t
  | .zero s, .zero t => !s && t
  | .zero _, .num q => decide (q < 0)
  | .num p, .zero _ => decide (0 < p)
  | .num p, .num q => decide (q < p)

/-- x < y on exact values, zeros equal; false with a NaN (R135). -/
def Val.lt (a b : Val) : Bool :=
  match a, b with
  | .nan, _ => false
  | _, .nan => false
  | .inf s, .inf t => s && !t
  | .inf s, _ => s
  | _, .inf t => !t
  | x, y => decide (x.rat < y.rat)

/-! ### The formats (R46, Tables 2.1 and 2.2) -/

/-- The tensor formats of Table 2.1. -/
inductive Fmt where
  | fp32 | fp64 | fp32p | fp16 | bf16 | e4m3 | e5m2 | e3m2 | e2m3 | e2m1 | int8 | int4 | ng4
  deriving DecidableEq, Repr, Inhabited

/-- The format of a 4-bit code; 0xD, 0xE and 0xF are reserved (R46). -/
def Fmt.ofCode : Nat → Option Fmt
  | 0 => some .fp32
  | 1 => some .fp64
  | 2 => some .fp32p
  | 3 => some .fp16
  | 4 => some .bf16
  | 5 => some .e4m3
  | 6 => some .e5m2
  | 7 => some .e3m2
  | 8 => some .e2m3
  | 9 => some .e2m1
  | 10 => some .int8
  | 11 => some .int4
  | 12 => some .ng4
  | _ => none

/-- The code of a format (Table 2.1). -/
def Fmt.code : Fmt → Nat
  | .fp32 => 0 | .fp64 => 1 | .fp32p => 2 | .fp16 => 3 | .bf16 => 4 | .e4m3 => 5 | .e5m2 => 6
  | .e3m2 => 7 | .e2m3 => 8 | .e2m1 => 9 | .int8 => 10 | .int4 => 11 | .ng4 => 12

/-- Bits per element (Table 2.1). -/
def Fmt.bits : Fmt → Nat
  | .fp32 => 32 | .fp64 => 64 | .fp32p => 64 | .fp16 => 16 | .bf16 => 16 | .e4m3 => 8 | .e5m2 => 8
  | .e3m2 => 6 | .e2m3 => 6 | .e2m1 => 4 | .int8 => 8 | .int4 => 4 | .ng4 => 4

/-- Is the format of class W8 (R16)? -/
def Fmt.isW8 : Fmt → Bool
  | .e4m3 | .e5m2 | .e3m2 | .e2m3 | .e2m1 | .int8 | .int4 | .ng4 => true
  | _ => false

/-- Is it one of the two integer formats? -/
def Fmt.isInt : Fmt → Bool
  | .int8 | .int4 => true
  | _ => false

/-- Is it FP64 or FP32P? -/
def Fmt.isWide : Fmt → Bool
  | .fp64 | .fp32p => true
  | _ => false

/-- The parameters of a floating format (Table 2.2): exponent and fraction bits, bias, code of the largest finite,
codes of infinity and of the Output NaN where the format has them. -/
structure FPar where
  e : Nat
  m : Nat
  bias : Nat
  maxCode : Nat
  infCode : Option Nat
  nanCode : Option Nat
  deriving DecidableEq, Repr

/-- Table 2.2; none for FP32P, the integers and NG4. -/
def Fmt.par : Fmt → Option FPar
  | .fp64 => some ⟨11, 52, 1023, 0x7FEFFFFFFFFFFFFF, some 0x7FF0000000000000, some 0x7FF8000000000000⟩
  | .fp32 => some ⟨8, 23, 127, 0x7F7FFFFF, some 0x7F800000, some 0x7FC00000⟩
  | .fp16 => some ⟨5, 10, 15, 0x7BFF, some 0x7C00, some 0x7E00⟩
  | .bf16 => some ⟨8, 7, 127, 0x7F7F, some 0x7F80, some 0x7FC0⟩
  | .e4m3 => some ⟨4, 3, 7, 0x7E, none, some 0x7F⟩
  | .e5m2 => some ⟨5, 2, 15, 0x7B, some 0x7C, some 0x7E⟩
  | .e3m2 => some ⟨3, 2, 3, 0x1F, none, none⟩
  | .e2m3 => some ⟨2, 3, 1, 0x1F, none, none⟩
  | .e2m1 => some ⟨2, 1, 1, 0x7, none, none⟩
  | _ => none

/-- Two to an integer power. -/
def pow2 (e : Int) : Rat :=
  match e with
  | .ofNat n => ((2 ^ n : Nat) : Rat)
  | .negSucc n => mkRat 1 (2 ^ (n + 1))

/-- The value of a floating code by R49 and the special encodings of Table 2.2. -/
def FPar.decode (p : FPar) (c : Nat) : Val :=
  let w := p.e + p.m
  let neg := bitOf c w
  let body := c % 2 ^ w
  let E := body / 2 ^ p.m
  let M := body % 2 ^ p.m
  if body ≤ p.maxCode then
    let mag : Rat :=
      if E = 0 then (M : Rat) * pow2 (1 - (p.bias : Int) - (p.m : Int))
      else ((2 ^ p.m + M : Nat) : Rat) * pow2 ((E : Int) - (p.bias : Int) - (p.m : Int))
    if mag = 0 then .zero neg else .num (if neg then -mag else mag)
  else if p.infCode = some body then .inf neg
  else .nan

/-- NG4's grid times 1024 (Table 2.4). -/
def ng4Grid : List Int := [-1024, -705, -523, -383, -263, -154, -51, 0, 43, 130, 221, 318, 427, 555, 724, 1024]

/-- The value of an NG4 code (R55). -/
def ng4Value (c : Nat) : Val := Val.ofRat (mkRat (ng4Grid.getD (c % 16) 0) 1024)

/-- The FP32 parameters of Table 2.2. -/
def parFp32 : FPar := ⟨8, 23, 127, 0x7F7FFFFF, some 0x7F800000, some 0x7FC00000⟩

/-- The value of an FP32P pair, hi in bits 31..0 and lo in bits 63..32, and its flag (R52). -/
def decodePair (c : Nat) : Val × Flags :=
  let hi := parFp32.decode (c % 2 ^ 32)
  let lo := parFp32.decode (c / 2 ^ 32 % 2 ^ 32)
  match hi, lo with
  | .nan, _ => (.nan, noFlags)
  | _, .nan => (.nan, noFlags)
  | .inf s, _ => (.inf s, noFlags)
  | _, .inf _ => (.nan, invFlag)
  | h, l => (Val.ofRat (h.rat + l.rat) h.isNeg, noFlags)

/-- The exact value of an element's code and the flag its reading sets (R49 to R55, R60). -/
def decodeFmt (f : Fmt) (c : Nat) : Val × Flags :=
  match f with
  | .fp32p => decodePair c
  | .int8 => (Val.ofRat ((signedOf 8 (c % 256) : Int) : Rat), noFlags)
  | .int4 => (Val.ofRat ((signedOf 4 (c % 16) : Int) : Rat), noFlags)
  | .ng4 => (ng4Value c, noFlags)
  | f => (((f.par.map fun p => p.decode c).getD .nan), noFlags)

/-- The value of an E8M0 block scale (R58). -/
def e8m0Value (k : Nat) : Val := if k = 255 then .nan else .num (pow2 ((k : Int) - 127))

/-! ### Rounding an exact rational (R5, R8, R64, R65) -/

/-- n / d rounded to the nearest integer, ties to even. -/
def rheNat (n d : Nat) : Nat :=
  let q := n / d
  let r := n % d
  if d < 2 * r ∨ (2 * r = d ∧ q % 2 = 1) then q + 1 else q

/-- A rational rounded to the nearest integer, ties to even. -/
def rheInt (q : Rat) : Int :=
  if q < 0 then -(rheNat q.num.natAbs q.den : Int) else (rheNat q.num.natAbs q.den : Int)

/-- ⌊log₂ q⌋ for q > 0. -/
def floorLog2 (q : Rat) : Int :=
  let n := q.num.natAbs
  let l : Int := (n.log2 : Int) - (q.den.log2 : Int)
  if pow2 l ≤ q then l else l - 1

/-- |q| in units of 2^(max(e, emin) - (p - 1)), rounded to nearest even: the units and the unit's exponent. -/
def roundUnits (p : Nat) (emin : Int) (q : Rat) : Nat × Int :=
  let e := floorLog2 q
  let qe := max e emin - ((p : Int) - 1)
  let x := q * pow2 (-qe)
  (rheNat x.num.natAbs x.den, qe)

/-- Is the positive q tiny: below the smallest normal after rounding to precision p without exponent bound (R8)? -/
def isTiny (p : Nat) (emin : Int) (q : Rat) : Bool :=
  let e := floorLog2 q
  let r := roundUnits p e q
  decide ((r.1 : Rat) * pow2 r.2 < pow2 emin)

/-- Rounding a non-zero rational to a floating format under SAT (`ieee` false) or IEEE. `inexact` says that the
true value differs from every rational. Code and flags (R8, R64, R65). -/
def FPar.round (p : FPar) (ieee inexact : Bool) (q : Rat) : Nat × Flags :=
  let neg := decide (q < 0)
  let a := if neg then -q else q
  let sgn := if neg then 2 ^ (p.e + p.m) else 0
  let emin : Int := 1 - (p.bias : Int)
  let r := roundUnits (p.m + 1) emin a
  let code := ((r.2 + (p.m : Int) + (p.bias : Int)).toNat) * 2 ^ p.m + r.1 - 2 ^ p.m
  if p.maxCode < code then
    match ieee, p.infCode with
    | true, some i => (sgn + i, ovfFlag)
    | _, _ => (sgn + p.maxCode, ovfFlag)
  else
    let ex := inexact || decide ((r.1 : Rat) * pow2 r.2 ≠ a)
    (sgn + code, { unf := ex && isTiny (p.m + 1) emin a })

/-- The integer range of INT8 or INT4. -/
def intRange (f : Fmt) : Int × Int := if f = .int4 then (-8, 7) else (-128, 127)

/-- Rounding to INT8 or INT4, clamped at the range ends (R64, R65). -/
def roundInt (f : Fmt) (q : Rat) : Nat × Flags :=
  let v := rheInt q
  let lo := (intRange f).1
  let hi := (intRange f).2
  let c := max lo (min hi v)
  (unsignedOf f.bits c, { ovf := decide (c ≠ v) })

/-- The decision boundaries of NG4 times 2048, boundary i between codes i and i + 1 (R56, Table 2.5). -/
def ng4Bounds : List Int := List.zipWith (· + ·) ng4Grid (ng4Grid.drop 1)

/-- Rounding to NG4 (R56): the code of the nearest grid value, the even code on a tie, clamped at the ends. -/
def roundNg4 (q : Rat) : Nat × Flags :=
  let c := ((ng4Bounds.zipIdx).filter fun (b, i) =>
    let x := mkRat b 2048
    decide (x < q ∨ (x = q ∧ i % 2 = 1))).length
  (c, { ovf := decide (1 < q ∨ q < -1) })

/-- The R53 pair of an exact rational, SAT applied to hi; hi in bits 31..0, lo in bits 63..32. Where lo rounds to half an ulp of
an odd hi, the pair of R53 is not canonical by R51; it is written as R53 gives it (log 69, DEDUCED). -/
def roundPair (ieee inexact : Bool) (q : Rat) : Nat × Flags :=
  let h := parFp32.round ieee inexact q
  if h.2.ovf then (h.1, ovfFlag)
  else
    let hv := (parFp32.decode h.1).rat
    let d := q - hv
    let l := if d = 0 then 0 else (parFp32.round true false d).1
    let lv := (parFp32.decode l).rat
    let l := if lv = 0 then 0 else l
    let a := if q < 0 then -q else q
    (h.1 + 2 ^ 32 * l, { unf := (inexact || decide (hv + lv ≠ q)) && isTiny 24 (-126) a })

/-- Rounding a non-zero exact rational to any format (R64). -/
def roundRat (f : Fmt) (ieee inexact : Bool) (q : Rat) : Nat × Flags :=
  match f with
  | .fp32p => roundPair ieee inexact q
  | .int8 => roundInt .int8 q
  | .int4 => roundInt .int4 q
  | .ng4 => roundNg4 q
  | f => match f.par with
    | some p => p.round ieee inexact q
    | none => (0, noFlags)

/-- The code of a NaN source (Table 2.8). -/
def nanCode (f : Fmt) : Nat × Flags :=
  match f with
  | .fp32p => (0x7FC00000, noFlags)
  | .ng4 => (7, invFlag)
  | f => match f.par with
    | some p => match p.nanCode with
      | some c => (c, noFlags)
      | none => (0, invFlag)
    | none => (0, invFlag)

/-- The code of an infinite source (Table 2.8). -/
def infCode (f : Fmt) (neg : Bool) : Nat × Flags :=
  match f with
  | .fp32p => (0x7F800000 + (if neg then 2 ^ 31 else 0), noFlags)
  | .int8 => (if neg then 0x80 else 0x7F, ovfFlag)
  | .int4 => (if neg then 0x8 else 0x7, ovfFlag)
  | .ng4 => (if neg then 0x0 else 0xF, ovfFlag)
  | f => match f.par with
    | some p =>
      let sgn := if neg then 2 ^ (p.e + p.m) else 0
      match p.infCode with
      | some c => (sgn + c, noFlags)
      | none => (sgn + p.maxCode, ovfFlag)
    | none => (0, noFlags)

/-- The code of a signed zero (Table 2.8). -/
def zeroCode (f : Fmt) (neg : Bool) : Nat :=
  match f with
  | .fp32p => if neg then 2 ^ 31 else 0
  | .ng4 => 7
  | f => match f.par with
    | some p => if neg then 2 ^ (p.e + p.m) else 0
    | none => 0

/-- Settle a quantity that is constant on a small enough enclosure: refine until both ends agree. -/
def settle {α : Type} [DecidableEq α] (g : Rat → α) (enc : Nat → Rat × Rat) : Nat → Nat → α
  | 0, p => if Config.undecided p then g (enc p).1 else g (enc p).2
  | fuel + 1, p =>
    let e := enc p
    let a := g e.1
    if a = g e.2 then a else settle g enc fuel (2 * p)

/-- rnfmt(f, x): the one rounding of an exact value to a format (R5, R64 to R66). -/
def rnfmt (f : Fmt) (ieee : Bool) (x : Ex) : Nat × Flags :=
  match x with
  | .val .nan => nanCode f
  | .val (.inf n) => infCode f n
  | .val (.zero n) => (zeroCode f n, noFlags)
  | .val (.num q) => roundRat f ieee false q
  | .real enc => settle (roundRat f ieee true) enc 10 64

/-- A rounding read back as a value. -/
def rnVal (f : Fmt) (ieee : Bool) (x : Ex) : Val × Flags :=
  let r := rnfmt f ieee x
  ((decodeFmt f r.1).1, r.2)

/-- Conversion of an element between formats (R64, R67). -/
def convertCode (src dst : Fmt) (ieee : Bool) (c : Nat) : Nat × Flags :=
  let v := decodeFmt src c
  let r := rnfmt dst ieee (.val v.1)
  (r.1, v.2.or r.2)

/-- The FP64 encoding of a value (R169): exact but for an FP32P value of more than 53 bits, which is rounded to nearest, without flags
(log 71, DESIGN CHOICE). -/
def fp64Code (v : Val) : Nat := (rnfmt .fp64 true (.val v)).1

end Sys2Proof.Machine
end

