-- ==== Sys2Proof/Machine/Reals.lean ====
section
/-! DEFINITION. Enclosures of the exact reals of Table 4.1 (04_ R105): intervals with rational ends that shrink as the
precision grows. Series run in fixed point with 64 guard bits; a margin of 2^40 units covers every truncation.
Nothing here rounds a result: `rnfmt` does, once (R108). -/

namespace Sys2Proof.Machine

/-- An interval of rationals that holds a real. -/
abbrev Span := Rat × Rat

/-- `q` rounded down to `p` significant bits. -/
def roundDown (p : Nat) (q : Rat) : Rat :=
  if q = 0 then 0
  else
    let s := (p : Int) - floorLog2 (if q < 0 then -q else q)
    ((q * pow2 s).floor : Rat) * pow2 (-s)

/-- `q` rounded up to `p` significant bits. -/
def roundUpRat (p : Nat) (q : Rat) : Rat := -(roundDown p (-q))

/-- An interval widened to ends of `p + 64` significant bits. -/
def Span.trim (p : Nat) (e : Span) : Span := (roundDown (p + 64) e.1, roundUpRat (p + 64) e.2)

/-- The smaller of two rationals. -/
def ratMin (a b : Rat) : Rat := if a < b then a else b

/-- The larger of two rationals. -/
def ratMax (a b : Rat) : Rat := if a < b then b else a

/-- The sum of two intervals. -/
def Span.add (a b : Span) : Span := (a.1 + b.1, a.2 + b.2)

/-- The product of two intervals. -/
def Span.mul (a b : Span) : Span :=
  (ratMin (ratMin (a.1 * b.1) (a.1 * b.2)) (ratMin (a.2 * b.1) (a.2 * b.2)),
   ratMax (ratMax (a.1 * b.1) (a.1 * b.2)) (ratMax (a.2 * b.1) (a.2 * b.2)))

/-- The interval of the reciprocals of an interval that holds no 0. -/
def Span.inv (a : Span) : Span := (1 / a.2, 1 / a.1)

/-- An exact rational as an interval. -/
def Span.pt (q : Rat) : Span := (q, q)

/-- The fixed-point margin that covers the truncations of one series. -/
def seriesMargin : Int := 2 ^ 40

/-- The fixed-point integer ⌊q × 2^w⌋. -/
def toFix (w : Nat) (q : Rat) : Int := (q * pow2 w).floor

/-- The interval of a fixed-point integer with its margin. -/
def ofFix (w : Nat) (v : Int) : Span :=
  (((v - seriesMargin : Int) : Rat) * pow2 (-(w : Int)), ((v + seriesMargin : Int) : Rat) * pow2 (-(w : Int)))

/-- ⌊√n⌋ by Newton steps from above. -/
def isqrtFuel : Nat → Nat → Nat → Nat
  | 0, _, x => x
  | f + 1, n, x =>
    let y := (x + n / x) / 2
    if y < x then isqrtFuel f n y else x

/-- ⌊√n⌋. -/
def isqrt (n : Nat) : Nat := if n = 0 then 0 else isqrtFuel (n.log2 + 4) n (2 ^ (n.log2 / 2 + 1))

/-! ### Constants -/

/-- Σ 1 / ((2k + 1) m^(2k+1)), alternating when `alt`, in fixed point: atanh(1/m) or atan(1/m). -/
def arcInvFuel (m : Nat) (alt : Bool) : Nat → Nat → Int → Int → Int
  | 0, _, _, acc => acc
  | f + 1, k, t, acc =>
    if t = 0 then acc
    else arcInvFuel m alt f (k + 1) (t / ((m * m : Nat) : Int))
      (acc + (if alt && k % 2 == 1 then -(t / ((2 * k + 1 : Nat) : Int)) else t / ((2 * k + 1 : Nat) : Int)))

/-- atan(1/m) or atanh(1/m) in fixed point. -/
def arcInv (m : Nat) (alt : Bool) (w : Nat) : Int := arcInvFuel m alt (w + 2) 0 ((2 ^ w / m : Nat) : Int) 0

/-- ln 2 in fixed point. -/
def ln2Fix (w : Nat) : Int := 2 * arcInv 3 false w

/-- π in fixed point. -/
def piFix (w : Nat) : Int := 16 * arcInv 5 true w - 4 * arcInv 239 true w

/-- √(2/π) as an interval. -/
def sqrtTwoOverPi (p : Nat) : Span :=
  let w := p + 64
  let n := (2 * 2 ^ (3 * w)) / (piFix w).toNat
  Span.trim p (ofFix w (isqrt n : Int))

/-! ### Exponential and logarithm -/

/-- Σ x^k / k! from a term on, in fixed point. -/
def expSeries (w : Nat) (x : Int) : Nat → Nat → Int → Int → Int
  | 0, _, _, acc => acc
  | f + 1, k, t, acc =>
    let t' := Int.tdiv (Int.tdiv (t * x) ((2 ^ w : Nat) : Int)) (k : Int)
    if t' = 0 then acc else expSeries w x f (k + 1) t' (acc + t')

/-- e^r for a rational r of moderate size. -/
def expSpan (p : Nat) (r : Rat) : Span :=
  let w := p + 64
  let l := ln2Fix w
  let x := toFix w r
  let k := x / l
  let one : Int := ((2 ^ w : Nat) : Int)
  let e := expSeries w (x - k * l) (w + 8) 1 one one
  (ofFix w e).mul (Span.pt (pow2 k))

/-- Beyond this magnitude an exponent leaves every format far behind. -/
def expLimit : Rat := 4096

/-- A magnitude beyond every format (R65), and one below the smallest subnormal of every format. -/
def hugeMag : Rat := pow2 5000
/-- A magnitude below half the smallest subnormal of every format. -/
def tinyMag : Rat := pow2 (-5000)

/-- e^r for any interval of exponents, saturated where every format saturates. -/
def expOf (p : Nat) (r : Span) : Span :=
  let lo := if r.1 > expLimit then hugeMag else if r.1 < -expLimit then tinyMag else (expSpan p r.1).1
  let hi := if r.2 > expLimit then hugeMag else if r.2 < -expLimit then tinyMag else (expSpan p r.2).2
  (lo, hi)

/-- e^r - 1 for a non-zero rational r, relative near 0. -/
def expm1Of (p : Nat) (r : Rat) : Span :=
  if r < 1 / 2 ∧ -1 / 2 < r then
    let w := p + 64
    let one : Int := ((2 ^ w : Nat) : Int)
    let s := expSeries w (toFix w r) (w + 8) 2 one one
    (ofFix w s).mul (Span.pt r)
  else if r < -expLimit then (-1 + pow2 (-5000), -1 + pow2 (-5000))
  else (expOf p (Span.pt r)).add (Span.pt (-1))

/-- Σ y^k / (2k + 1), in fixed point. -/
def atanhSeries (w : Nat) (y : Int) : Nat → Nat → Int → Int → Int
  | 0, _, _, acc => acc
  | f + 1, k, t, acc =>
    let t' := t * y / ((2 ^ w : Nat) : Int)
    if t' = 0 then acc else atanhSeries w y f (k + 1) t' (acc + t' / ((2 * k + 1 : Nat) : Int))

/-- ln q for a positive rational q other than 1, relative near 1. -/
def logSpan (p : Nat) (q : Rat) : Span :=
  let l := floorLog2 q
  let m := q * pow2 (-l)
  let up := decide (m > 3 / 2)
  let m := if up then m / 2 else m
  let l := if up then l + 1 else l
  let z := (m - 1) / (m + 1)
  let w := p + 64
  let one : Int := ((2 ^ w : Nat) : Int)
  let s := atanhSeries w (toFix w (z * z)) (w + 8) 1 one one
  let a := (ofFix w s).mul (Span.pt (2 * z))
  if l = 0 then a else ((ofFix w (ln2Fix w)).mul (Span.pt (l : Rat))).add a

/-- ln over an interval of positive rationals that holds no 1. -/
def logOf (p : Nat) (q : Span) : Span := ((logSpan p q.1).1, (logSpan p q.2).2)

/-! ### Roots -/

/-- √q of a positive rational as an interval. -/
def sqrtSpan (p : Nat) (q : Rat) : Span :=
  let k := floorLog2 q / 2
  let w := p + 8
  let n := (q * pow2 (2 * ((w : Int) - k))).floor.toNat
  let r := isqrt n
  ((r : Rat) * pow2 (k - (w : Int)), ((r + 1 : Nat) : Rat) * pow2 (k - (w : Int)))

/-- The exact square root of a rational that is a square. -/
def exactSqrt (q : Rat) : Option Rat :=
  let n := isqrt q.num.natAbs
  let d := isqrt q.den
  if 0 ≤ q.num ∧ n * n = q.num.natAbs ∧ d * d = q.den then some (mkRat n d) else none

/-- √q of a positive rational, exact when it is rational. -/
def sqrtEx (q : Rat) : Ex :=
  match exactSqrt q with
  | some r => .val (Val.ofRat r)
  | none => .real fun p => sqrtSpan p q

/-- 1 / √q of a positive rational, exact when it is rational. -/
def rsqrtEx (q : Rat) : Ex := sqrtEx (1 / q)

/-! ### Sine and cosine (R118) -/

/-- Σ (-y)^k × c! / (2k + c)! in fixed point, c 0 for the cosine and 1 for the sine over r. -/
def trigSeries (w : Nat) (y : Int) : Nat → Nat → Int → Int → Int
  | 0, _, _, acc => acc
  | f + 1, c, t, acc =>
    let t' := -(Int.tdiv (Int.tdiv (t * y) ((2 ^ w : Nat) : Int)) (((c + 1) * (c + 2) : Nat) : Int))
    if t' = 0 then acc else trigSeries w y f (c + 2) t' (acc + t')

/-- sin r for a rational |r| below 1, relative. -/
def sinSmall (p : Nat) (r : Rat) : Span :=
  let w := p + 64
  let one : Int := ((2 ^ w : Nat) : Int)
  (ofFix w (trigSeries w (toFix w (r * r)) (w + 8) 1 one one)).mul (Span.pt r)

/-- cos r for a rational |r| below 1. -/
def cosSmall (p : Nat) (r : Rat) : Span :=
  let w := p + 64
  let one : Int := ((2 ^ w : Nat) : Int)
  ofFix w (trigSeries w (toFix w (r * r)) (w + 8) 0 one one)

/-- x less the nearest multiple k of π/2, and k modulo 4 (R118). -/
def reducePi (p : Nat) (x : Rat) : Rat × Nat :=
  let a := if x < 0 then -x else x
  if a < 3 / 4 then (x, 0)
  else
    let w := p + 256 + (max 0 (floorLog2 a)).toNat
    let h := piFix w
    let xi := toFix w x
    let k := (4 * xi + h) / (2 * h)
    (((2 * xi - k * h : Int) : Rat) * pow2 (-(w : Int) - 1), (k % 4).toNat)

/-- The negation of an interval. -/
def Span.neg (a : Span) : Span := (-a.2, -a.1)

/-- sin x, `shift` 0, or cos x, `shift` 1, of a non-zero rational. -/
def trigOf (shift p : Nat) (x : Rat) : Span :=
  let r := reducePi p x
  match (r.2 + shift) % 4 with
  | 0 => sinSmall p r.1
  | 1 => cosSmall p r.1
  | 2 => (sinSmall p r.1).neg
  | _ => (cosSmall p r.1).neg

/-! ### The composite functions -/

/-- 1 / (1 + e^(-x)) of a rational, relative at both ends. -/
def sigmoidSpan (p : Nat) (x : Rat) : Span :=
  if 0 ≤ x then ((expOf p (Span.pt (-x))).add (Span.pt 1)).inv
  else
    let e := expOf p (Span.pt x)
    e.mul (e.add (Span.pt 1)).inv

/-- 1 / (1 + e^(-x)) over an interval. -/
def sigmoidOf (p : Nat) (x : Span) : Span := ((sigmoidSpan p x.1).1, (sigmoidSpan p x.2).2)

/-- tanh of a non-zero rational, relative near 0. -/
def tanhOf (p : Nat) (x : Rat) : Span :=
  let a := if x < 0 then -x else x
  let v := if a > 1024 then (1 - pow2 (-2000), 1 - pow2 (-2000))
    else
      let e := expm1Of p (2 * a)
      e.mul (e.add (Span.pt 2)).inv
  if x < 0 then Span.neg v else v

/-- Σ s^k / (2k + 1)!! in fixed point. -/
def gaussSeries (w : Nat) (s : Int) : Nat → Nat → Int → Int → Int
  | 0, _, _, acc => acc
  | f + 1, k, t, acc =>
    let t' := t * s / ((2 ^ w : Nat) : Int) / ((2 * k + 1 : Nat) : Int)
    if t' = 0 then acc else gaussSeries w s f (k + 1) t' (acc + t')

/-- erf(x / √2) / x from s = x² : √(2/π) e^(-s/2) Σ s^k / (2k + 1)!!. -/
def erfRootTwo (p : Nat) (s : Rat) : Span :=
  let w := p + 64
  let one : Int := ((2 ^ w : Nat) : Int)
  let g := gaussSeries w (toFix w s) (w + 4 * s.ceil.toNat + 64) 1 one one
  let g : Span := ((g : Rat) * pow2 (-(w : Int)) * (1 - pow2 (40 - (w : Int))), (g : Rat) * pow2 (-(w : Int)) * (1 + pow2 (40 - (w : Int))))
  Span.trim p ((sqrtTwoOverPi p).mul ((expSpan p (-s / 2)).mul (g.trim p)))

/-- erf of a non-zero rational: √2 times the form above at s = 2x². -/
def erfOf (p : Nat) (x : Rat) : Span :=
  let a := if x < 0 then -x else x
  let v := if a > 20 then (1 - pow2 (-500), 1 - pow2 (-500))
    else ((sqrtSpan (p + 16) 2).mul (erfRootTwo (p + 8) (2 * a * a))).mul (Span.pt a)
  if x < 0 then Span.neg v else v

/-- GELU of a non-zero rational: x × ½ × (1 + erf(x / √2)), relative on both sides. -/
def geluOf (p : Nat) (x : Rat) : Span :=
  if x > 64 then (x * (1 - pow2 (-2900)), x * (1 - pow2 (-2900)))
  else if x < -64 then (-tinyMag, -tinyMag)
  else
    let extra := if x < 0 then 2 * (x * x).ceil.toNat + 16 else 0
    let e := (erfRootTwo (p + extra) (x * x)).mul (Span.pt x)
    ((e.add (Span.pt 1)).trim p).mul (Span.pt (x / 2))

/-- GELU_T of a non-zero rational: x / (1 + e^(-2u)), u = √(2/π) × (x + 0.044715 x³) (R105). -/
def geluTOf (p : Nat) (x : Rat) : Span :=
  let c := x + mkRat 44715 1000000 * x * x * x
  if c > 4096 then (x * (1 - pow2 (-2900)), x * (1 - pow2 (-2900)))
  else if c < -4096 then (-tinyMag, -tinyMag)
  else ((sigmoidOf p ((sqrtTwoOverPi (p + 16)).mul (Span.pt (2 * c)))).trim p).mul (Span.pt x)

/-- SILU of a non-zero rational: x / (1 + e^(-x)). -/
def siluOf (p : Nat) (x : Rat) : Span :=
  if x > expLimit then (x * (1 - pow2 (-2900)), x * (1 - pow2 (-2900)))
  else if x < -expLimit then (-tinyMag, -tinyMag)
  else (sigmoidSpan p x).mul (Span.pt x)

/-- SOFTPLUS of a rational: ln(1 + e^x). -/
def softplusOf (p : Nat) (x : Rat) : Span :=
  if x > expLimit then (x * (1 + pow2 (-2900)), x * (1 + pow2 (-2900)))
  else if x < -expLimit then (tinyMag, tinyMag)
  else if 0 < x then (Span.pt x).add (logOf p ((expOf p (Span.pt (-x))).add (Span.pt 1)))
  else logOf p ((expOf p (Span.pt x)).add (Span.pt 1))

/-! ### Powers (R117, case 12) -/

/-- The exact 2^j-th root of a rational that has one, j counted down. -/
def exactRoot : Nat → Rat → Option Rat
  | 0, q => some q
  | j + 1, q => (exactSqrt q).bind (exactRoot j)

/-- The exponent when a positive rational is a power of two. -/
def log2Exact (q : Rat) : Option Int :=
  let l := floorLog2 q
  if pow2 l = q then some l else none

/-- 2^e, held at a magnitude beyond or below every format. -/
def pow2Sat (e : Int) : Rat := pow2 (max (-5000) (min 5000 e))

/-- q^n for an integer n. -/
def ratPow (q : Rat) (n : Int) : Rat :=
  let m := n.natAbs
  if n < 0 then mkRat (1 : Int) 1 * (1 / q) ^ m else q ^ m

/-- x^y for x > 0, x ≠ 1, y ≠ 0: exact where it is rational, otherwise e^(y ln x). -/
def powEx (x y : Rat) : Ex :=
  let j := y.den.log2
  let root := if j ≤ 12 then exactRoot j x else none
  let real : Ex := .real fun p =>
    let p' := p + 64
    let t := (logSpan p' x).mul (Span.pt y)
    expOf p' (t.trim p')
  match root with
  | none => real
  | some r =>
    match log2Exact r with
    | some e => .val (.num (pow2Sat (e * y.num)))
    | none =>
      if y.num.natAbs * (r.num.natAbs.log2 + r.den.log2 + 2) ≤ 8192 then .val (.num (ratPow r y.num)) else real

end Sys2Proof.Machine
end

