-- ==== Sys2Proof/Machine/Functions.lean ====
section
/-! DEFINITION. The opcodes of Table 4.1: exact values, special inputs, accuracy classes and delivery
(04_ R104 to R123), and the user curves of 05_ (R130 to R137). -/

namespace Sys2Proof.Machine

/-- Is the code one of the built-in functions of Table 4.1 (0x01 to 0x1E)? -/
def isBuiltIn (op : Nat) : Bool :=
  [0x01, 0x02, 0x03, 0x04, 0x05, 0x06, 0x08, 0x09, 0x0A, 0x0B, 0x0C, 0x10, 0x11, 0x18, 0x19, 0x1A, 0x1B, 0x1C, 0x1D, 0x1E].contains op

/-- Is the code listed in Table 4.1, NONE included (R104)? -/
def isOpcode (op : Nat) : Bool := op == 0 || isBuiltIn op || (0x20 ≤ op && op ≤ 0x28)

/-- The code of CURVE. -/
def opCurve : Nat := 0x28

/-- The number of operands of an opcode (Table 4.1). -/
def opArity (op : Nat) : Nat :=
  if op == 0 then 0
  else if op == 0x09 || op == 0x0C || op == 0x21 || op == 0x22 || op == 0x23 || op == 0x24 then 2
  else if op == 0x20 || op == 0x25 || op == 0x26 then 3 else 1

/-- An invalid operation: NaN with the invalid flag (R113). -/
def invalid : Ex × Flags := (.val .nan, invFlag)

/-- An infinity at a pole (R113). -/
def pole (neg : Bool) : Ex × Flags := (.val (.inf neg), dzFlag)

/-- An exact value without flags of its own. -/
def exact (v : Val) : Ex × Flags := (.val v, noFlags)

/-- A real without flags of its own. -/
def real (f : Nat → Span) : Ex × Flags := (.real f, noFlags)

/-- The exact value 1. -/
def one : Val := .num 1

/-- EXP, EXP2 and EXPM1 (Table 4.3). -/
def expExact (op : Nat) (x : Val) : Ex × Flags :=
  match x with
  | .nan => exact .nan
  | .inf true => exact (if op == 0x03 then .num (-1) else .zero false)
  | .inf false => exact (.inf false)
  | .zero n => exact (if op == 0x03 then .zero n else one)
  | .num q =>
    if op == 0x01 then real fun p => expOf p (Span.pt q)
    else if op == 0x03 then
      if q > expLimit then real fun _ => (hugeMag, hugeMag) else real fun p => expm1Of p q
    else if q.den = 1 then exact (.num (pow2Sat q.num))
    else if q > 5000 then real fun _ => (hugeMag, hugeMag)
    else if q < -5000 then real fun _ => (tinyMag, tinyMag)
    else real fun p => expOf p (((ofFix (p + 64) (ln2Fix (p + 64))).mul (Span.pt q)).trim (p + 32))

/-- LOG and LOG2 (Table 4.3). -/
def logExact (base2 : Bool) (x : Val) : Ex × Flags :=
  match x with
  | .nan => exact .nan
  | .inf true => invalid
  | .inf false => exact (.inf false)
  | .zero _ => pole true
  | .num q =>
    if q < 0 then invalid
    else if q = 1 then exact (.zero false)
    else match base2, log2Exact q with
      | true, some n => exact (.num n)
      | true, none => real fun p => (logSpan p q).mul (ofFix (p + 64) (ln2Fix (p + 64))).inv
      | false, _ => real fun p => logSpan p q

/-- LOG1P (Table 4.3). -/
def log1pExact (x : Val) : Ex × Flags :=
  match x with
  | .nan => exact .nan
  | .inf true => invalid
  | .inf false => exact (.inf false)
  | .zero n => exact (.zero n)
  | .num q => if q < -1 then invalid else if q = -1 then pole true else real fun p => logSpan p (1 + q)

/-- DIV (Table 4.4, R116). -/
def divExact (x y : Val) : Ex × Flags :=
  let neg := x.isNeg != y.isNeg
  match x, y with
  | .nan, _ => exact .nan
  | _, .nan => exact .nan
  | .zero _, .zero _ => invalid
  | .inf _, .inf _ => invalid
  | .inf _, _ => exact (.inf neg)
  | _, .inf _ => exact (.zero neg)
  | .zero _, _ => exact (.zero neg)
  | .num _, .zero _ => pole neg
  | .num p, .num q => exact (.num (p / q))

/-- SQRT and RSQRT (Table 4.3). -/
def rootExact (recip : Bool) (x : Val) : Ex × Flags :=
  match x with
  | .nan => exact .nan
  | .inf true => invalid
  | .inf false => exact (if recip then .zero false else .inf false)
  | .zero n => if recip then pole n else exact (.zero n)
  | .num q => if q < 0 then invalid else (if recip then rsqrtEx q else sqrtEx q, noFlags)

/-- Is a value a finite odd integer? -/
def Val.isOdd : Val → Bool
  | .num q => q.den == 1 && q.num.natAbs % 2 == 1
  | _ => false

/-- The negation of an exact real. -/
def Ex.neg : Ex → Ex
  | .val v => .val v.neg
  | .real e => .real fun p => Span.neg (e p)

/-- POW (R117), its twelve cases in order. -/
def powExact (x y : Val) : Ex × Flags :=
  let odd := y.isOdd
  let yneg := y.isNeg
  if y.isZero then exact one
  else if x = one then exact one
  else match x, y with
    | .nan, _ => exact .nan
    | _, .nan => exact .nan
    | .zero n, _ =>
      if yneg then
        if odd then pole n else if y = .inf true then exact (.inf false) else pole false
      else exact (.zero (n && odd))
    | .num q, .inf s =>
      let a := if q < 0 then -q else q
      if a = 1 then exact one
      else exact (if decide (a < 1) == s then .inf false else .zero false)
    | .inf _, .inf s => exact (if s then .zero false else .inf false)
    | .inf n, _ => exact (if yneg then .zero (n && odd) else .inf (n && odd))
    | .num q, y =>
      let e := y.rat
      if q < 0 then
        if e.den ≠ 1 then invalid
        else
          let v : Ex := if q = -1 then .val one else powEx (-q) e
          (if odd then v.neg else v, noFlags)
      else (powEx q e, noFlags)

/-- SIN, shift 0, and COS, shift 1 (Table 4.3, R118). -/
def trigExact (shift : Nat) (x : Val) : Ex × Flags :=
  match x with
  | .nan => exact .nan
  | .inf _ => invalid
  | .zero n => exact (if shift = 0 then .zero n else one)
  | .num q => real fun p => trigOf shift p q

/-- The sigmoidal functions and activations (Table 4.3). -/
def activationExact (op : Nat) (x : Val) : Ex × Flags :=
  match x with
  | .nan => exact .nan
  | .inf neg =>
    if op == 0x18 || op == 0x1A then exact (.num (if neg then -1 else 1))
    else if op == 0x19 then exact (if neg then .zero false else one)
    else if op == 0x1E then exact (if neg then .zero false else .inf false)
    else exact (if neg then .zero true else .inf false)
  | .zero n =>
    if op == 0x19 then exact (.num (1 / 2))
    else if op == 0x1E then real fun p => ofFix (p + 64) (ln2Fix (p + 64))
    else exact (.zero n)
  | .num q =>
    if op == 0x18 then real fun p => tanhOf p q
    else if op == 0x19 then real fun p => sigmoidSpan p q
    else if op == 0x1A then real fun p => erfOf p q
    else if op == 0x1B then real fun p => geluOf p q
    else if op == 0x1C then real fun p => geluTOf p q
    else if op == 0x1D then real fun p => siluOf p q
    else real fun p => softplusOf p q

/-- The exact value of a built-in function and the flags of R113. -/
def functionExact (op : Nat) (x y : Val) : Ex × Flags :=
  if op == 0x01 || op == 0x02 || op == 0x03 then expExact op x
  else if op == 0x04 then logExact false x
  else if op == 0x05 then logExact true x
  else if op == 0x06 then log1pExact x
  else if op == 0x08 then divExact one x
  else if op == 0x09 then divExact x y
  else if op == 0x0A then rootExact false x
  else if op == 0x0B then rootExact true x
  else if op == 0x0C then powExact x y
  else if op == 0x10 then trigExact 0 x
  else if op == 0x11 then trigExact 1 x
  else activationExact op x

/-! ### Delivery by accuracy class (R107 to R111) -/

/-- A key of an operand's value for the free values of log 5. -/
def Val.key : Val → List Nat
  | .nan => [0]
  | .inf n => [1, b2n n]
  | .zero n => [2, b2n n]
  | .num q => [3, b2n (decide (q < 0)), q.num.natAbs, q.den]

/-- ulp of a positive rational in FP64 (R9). -/
def ulp64 (a : Rat) : Rat := pow2 (max (floorLog2 a) (-1022) - 52)

/-- The magnitude of a rational. -/
def ratAbs (q : Rat) : Rat := if q < 0 then -q else q

/-- The largest distance of `r` from an interval's points. -/
def spanDist (r : Rat) (e : Span) : Rat := ratMax (ratAbs (r - e.1)) (ratAbs (r - e.2))

/-- The FP64 parameters of Table 2.2. -/
def parFp64 : FPar := ⟨11, 52, 1023, 0x7FEFFFFFFFFFFFFF, some 0x7FF0000000000000, some 0x7FF8000000000000⟩

/-- The enclosure of a finite non-zero exact value at 256 bits; a point for an exact one. -/
def Ex.span : Ex → Span
  | .val v => Span.pt v.rat
  | .real e => e 256

/-- Is a non-zero exact value one with an enclosure (finite, non-zero)? -/
def Ex.isNum : Ex → Bool
  | .val (.num _) => true
  | .val _ => false
  | .real _ => true

/-- Is the FP64 code `c` within R109 of the exact value: finite, and within one ulp? -/
def u1Admits (x : Ex) (c : Nat) : Bool :=
  let e := x.span
  match parFp64.decode c with
  | .nan => false
  | .inf _ => false
  | v =>
    let a := ratMin (ratAbs e.1) (ratAbs e.2)
    decide (spanDist v.rat e < ulp64 a) && (v.isNeg == decide (e.1 < 0))

/-- Does a delivered code with this value differ from the exact one? -/
def Ex.differs (x : Ex) (q : Rat) : Bool :=
  match x with
  | .val v => decide (v.rat ≠ q)
  | .real _ => true

/-- Is the operand row of a built-in function one of §4.4, whose result the tables give in every class (R109, R110, R115 to
R117): a NaN, an infinity or a zero, an integer of EXP2, a power of 2 of LOG2, 1 of LOG, POW with base 1? -/
def specialRow (op : Nat) (args : List Val) : Bool :=
  args.any (fun v => !v.isFinite || v.isZero) ||
    (match op, args with
     | 0x02, [.num q] => q.den == 1
     | 0x05, [.num q] => (log2Exact q).isSome
     | 0x04, [v] => v == one
     | 0x0C, [v, _] => v == one
     | _, _ => false)

/-- Does a code's value stand at 1 or -1? A finite result within half an ulp of them, whose correct rounding this is, is that value
(R115). -/
def atOne (v : Val) : Bool := v.abs == one

/-- A U1 result (R109, R111): a special row exactly, and ±1 next to ±1 (R115); otherwise the Wosum bits where they lie within R109, or
else the correctly rounded value. -/
def deliverU1 (op : Nat) (ieee : Bool) (args : List Val) (x : Ex) : Nat × Flags :=
  let cr := rnfmt .fp64 ieee x
  let near := parFp64.decode cr.1
  if x.isNum && !cr.2.ovf && !(specialRow op args) && !(atOne near) && x.differs near.rat then
    let c := Config.wosumU1 op (args.flatMap Val.key) % 2 ^ 64
    if u1Admits x c then
      let e := x.span
      (c, { unf := x.differs (parFp64.decode c).rat && isTiny 53 (-1022) (ratAbs e.1) })
    else cr
  else cr

/-- Is a pair code canonical (R51)? -/
def pairCanonical (c : Nat) : Bool :=
  let hi := parFp32.decode (c % 2 ^ 32)
  let loCode := c / 2 ^ 32 % 2 ^ 32
  let lo := parFp32.decode loCode
  match hi, lo with
  | .num h, .num l => decide (h + l ≠ 0) && (rnfmt .fp32 true (.val (.num (h + l)))).1 == c % 2 ^ 32
  | .nan, _ => loCode == 0
  | .inf _, _ => loCode == 0
  | .zero _, _ => loCode == 0
  | .num _, .zero n => !n
  | _, _ => false

/-- The canonical pair next to a pair of R53: where its lo is half an ulp of an odd hi, the lo before it (R51, R110). -/
def canonPair (c : Nat) : Nat := if pairCanonical c then c else c - 2 ^ 32

/-- Is the pair within R110 of the exact value, with its sign (R115, Table 2.8)? -/
def p46Admits (x : Ex) (c : Nat) : Bool :=
  let e := x.span
  let v := decodePair c
  let a := ratMin (ratAbs e.1) (ratAbs e.2)
  v.1.isFinite && pairCanonical c && v.1.isNeg == decide (e.1 < 0) && decide (spanDist v.1.rat e ≤ ratMax (pow2 (-46) * a) (pow2 (-149)))

/-- The operands a free P46 pair depends on: RCP is DIV of 1, bit for bit (R115). -/
def p46Key (op : Nat) (args : List Val) : Nat × List Nat :=
  if op = 0x08 then (0x09, (one :: args).flatMap Val.key) else (op, args.flatMap Val.key)

/-- A P46 result (R110, R111): of a special row the pair that is the tables' result, ±1 where the pair of R53 is (R115; log 77, DESIGN
CHOICE: no rule gives an ulp of FP32P); otherwise the Wosum bits where they lie within R110, or else the R53 pair made canonical. A value
the format holds exactly sets no flag (R114). -/
def deliverP46 (op : Nat) (ieee : Bool) (args : List Val) (x : Ex) : Nat × Flags :=
  let cr := rnfmt .fp32p ieee x
  if x.isNum && !cr.2.ovf && !(specialRow op args) && !(atOne (decodePair cr.1).1) then
    let k := p46Key op args
    let c := Config.wosumP46 k.1 k.2 % 2 ^ 64
    if p46Admits x c then
      let e := x.span
      (c, { unf := x.differs (decodePair cr.1).1.rat && x.differs (decodePair c).1.rat && isTiny 24 (-126) (ratAbs e.1) })
    else (canonPair cr.1, cr.2)
  else cr

/-- Is the built-in function of class CR with result FP64 (Table 4.2)? -/
def crAt64 (op : Nat) : Bool := [0x01, 0x04, 0x08, 0x09, 0x0A, 0x0B, 0x10, 0x11].contains op

/-- A built-in function with its accuracy class (R107). -/
def evalFunction (op : Nat) (r : Fmt) (ieee : Bool) (x y : Val) : Nat × Flags :=
  let v := functionExact op x y
  let args := if opArity op == 2 then [x, y] else [x]
  let d :=
    match r with
    | .fp64 => if crAt64 op then rnfmt .fp64 ieee v.1 else deliverU1 op ieee args v.1
    | .fp32p => deliverP46 op ieee args v.1
    | r => rnfmt r ieee v.1
  (d.1, v.2.or d.2)

/-! ### The element-wise opcodes (R119 to R123) -/

/-- A value with an invalid mark, delivered to r. -/
def deliverInv (r : Fmt) (ieee : Bool) (v : Val × Bool) : Nat × Flags :=
  let d := rnfmt r ieee (.val v.1)
  (d.1, d.2.or { inv := v.2 })

/-- MAX of R120 on exact values. -/
def Val.max (a b : Val) : Val :=
  match a, b with
  | .nan, _ => .nan
  | _, .nan => .nan
  | a, b => if b.above a then b else a

/-- MIN of R120 on exact values. -/
def Val.min (a b : Val) : Val :=
  match a, b with
  | .nan, _ => .nan
  | _, .nan => .nan
  | a, b => if a.above b then b else a

/-- CLAMP of R121 on exact values. -/
def Val.clamp (x lo hi : Val) : Val := (x.max lo).min hi

/-! ### User curves (05_) -/

/-- One curve table (Table 5.3), FP32 encodings. -/
structure Curve where
  degree : Nat
  isLocal : Bool
  edge : Bool
  xmax : Nat
  low : Nat
  high : Nat
  b : List Nat
  c : List (List Nat)
  deriving DecidableEq, Repr, Inhabited

/-- The value of an FP32 encoding. -/
def val32 (c : Nat) : Val := parFp32.decode c

/-- fma32 of R135: one rn32, IEEE overflow. -/
def fma32 (x y z : Val) : Val × Flags :=
  let v := x.fma y z
  let r := rnVal .fp32 true (.val v.1)
  (r.1, r.2.or { inv := v.2 })

/-- sub32 of R135. -/
def sub32 (x y : Val) : Val × Flags := fma32 (.num (-1)) y x

/-- a ≤ b on exact values. -/
def Val.le (a b : Val) : Bool := !(b.lt a) && a ≠ .nan && b ≠ .nan

/-- The FP32 value p of R135 and the flags of its steps. -/
def Curve.eval (k : Curve) (x : Val) : Val × Flags :=
  let b0 := val32 (k.b.headD 0)
  if k.edge && x.lt b0 then (val32 k.low, noFlags)
  else if k.edge && (val32 k.xmax).lt x then (val32 k.high, noFlags)
  else
    let i := (k.b.filter fun b => (val32 b).le x).length - 1
    let c := k.c.getD i []
    if k.degree = 0 then (val32 (c.headD 0), noFlags)
    else
      let t := if k.isLocal then sub32 x (val32 (k.b.getD i 0)) else (x, noFlags)
      let top := val32 (c.getD k.degree 0)
      ((c.take k.degree).reverse).foldl
        (fun s ck => let r := fma32 s.1 t.1 (val32 ck); (r.1, s.2.or r.2)) (top, t.2)

/-- The CURVE opcode (R135, R136). -/
def evalCurve (k : Option Curve) (r : Fmt) (ieee : Bool) (x : Val) : Nat × Flags :=
  match x, k with
  | .nan, _ => nanCode r
  | _, none => nanCode r
  | x, some k =>
    let p := k.eval x
    let d := rnfmt r ieee (.val p.1)
    (d.1, p.2.or d.2)

/-! ### One step of a body -/

/-- An opcode on exact operands with result format r (R106, R112 to R123). -/
def evalOp (op : Nat) (curve : Option Curve) (r : Fmt) (ieee : Bool) (args : List Val) : Nat × Flags :=
  let x := args.getD 0 .nan
  let y := args.getD 1 .nan
  let z := args.getD 2 .nan
  if isBuiltIn op then evalFunction op r ieee x y
  else if op == 0x20 then deliverInv r ieee (x.fma y z)
  else if op == 0x21 then deliverInv r ieee (x.add y)
  else if op == 0x22 then deliverInv r ieee (x.mul y)
  else if op == 0x23 then rnfmt r ieee (.val (x.max y))
  else if op == 0x24 then rnfmt r ieee (.val (x.min y))
  else if op == 0x25 then rnfmt r ieee (.val (x.clamp y z))
  else if op == 0x26 then rnfmt r ieee (.val (if x.isZero then z else y))
  else if op == opCurve then evalCurve curve r ieee x
  else rnfmt r ieee (.val x)

/-- An opcode's result read back as a value of format r, with its flags. -/
def evalOpVal (op : Nat) (curve : Option Curve) (r : Fmt) (ieee : Bool) (args : List Val) : Val × Flags :=
  let d := evalOp op curve r ieee args
  ((decodeFmt r d.1).1, d.2)

/-- A curve's parse from the bytes of the curve area (Tables 5.1 to 5.3). -/
def Curve.parse (area : List Byte) (id : Nat) : Option Curve :=
  if bitOf (fieldAt area 4 4) id then
    let t := area.drop (fieldAt area (0x10 + 8 * id) 4)
    let n := fieldAt t 0 2
    let d := fieldAt t 2 1
    let fl := fieldAt t 3 1
    let words := fun (off count : Nat) => (chunksOf 4 (sliceOf t off (4 * count))).map leNat
    some
      { degree := d, isLocal := bitOf fl 0, edge := bitOf fl 1, xmax := fieldAt t 4 4, low := fieldAt t 8 4,
        high := fieldAt t 12 4, b := words 0x10 n,
        c := chunksOf (d + 1) (words (0x10 + 16 * ceilDiv n 4) (n * (d + 1))) }
  else none

end Sys2Proof.Machine
end

