-- ==== Sys2Proof/Machine/Descriptor.lean ====
section
/-! DEFINITION. The 128-byte descriptor (03_ R75, Tables 3.3 to 3.5), the chains of Table 9.1 with their streams, and
the addresses of every stream's rows (R79 to R81, R222, R223, R228, R229). -/

namespace Sys2Proof.Machine

/-! ### Fields -/

/-- A descriptor's fields (Tables 3.3, 3.4, 3.5); `strm` lists the five streams IN, OUT, X1, X2, X3 as format code,
kind and address. -/
structure Desc where
  chain : Nat
  rmode : Nat
  lapped : Bool
  ieee : Bool
  rank : Nat
  fence : Bool
  capture : Bool
  ledger : Bool
  ledgerIn : Bool
  accum : Bool
  folded : Bool
  resCtrl : Bool
  hw : Nat
  zpRaw : Nat
  opA : Nat
  opB : Nat
  curveId : Nat
  red : Nat
  k : Nat
  grain : Nat
  resOpw : Bool
  fold : Nat
  cmplK : Nat
  strideK : Nat
  scaleK : Nat
  gaugeK : Nat
  spillK : Nat
  seq : Nat
  step : Nat
  launch : Nat
  ext : List Nat
  fill : Nat
  eps : Nat
  clipLimit : Nat
  strm : List (Nat × Nat × Nat)
  scaleP : Nat
  gaugeP : Nat
  cmplP : Nat
  strideP : Nat
  spillP : Nat
  resTail : Bool
  deriving DecidableEq, Repr, Inhabited

/-- The fields of a descriptor's bytes. -/
def Desc.parse (b : List Byte) : Desc :=
  let c := fieldAt b 0x00 8
  let o := fieldAt b 0x08 8
  { chain := bitsOf c 0 10, rmode := bitsOf c 10 2, lapped := bitOf c 12, ieee := bitOf c 13, rank := bitsOf c 14 3,
    fence := bitOf c 17, capture := bitOf c 18, ledger := bitOf c 19, ledgerIn := bitOf c 20, accum := bitOf c 21,
    folded := bitOf c 22, resCtrl := bitOf c 23 || bitsOf c 44 4 != 0 || bitOf c 63, hw := bitsOf c 48 7,
    zpRaw := bitsOf c 55 8, opA := bitsOf o 0 6, opB := bitsOf o 6 6, curveId := bitsOf o 12 5, red := bitsOf o 17 4,
    k := bitsOf o 21 7, grain := bitsOf o 28 2, resOpw := bitsOf o 30 2 != 0, fold := bitsOf o 32 16,
    cmplK := bitsOf o 58 2, strideK := bitsOf o 60 1, scaleK := bitsOf o 61 1, gaugeK := bitsOf o 62 1,
    spillK := bitsOf o 63 1, seq := fieldAt b 0x10 4, step := fieldAt b 0x14 4, launch := fieldAt b 0x18 8,
    ext := (List.range 5).map fun i => fieldAt b (0x20 + 4 * i) 4, fill := fieldAt b 0x34 4, eps := fieldAt b 0x38 4,
    clipLimit := fieldAt b 0x3C 4,
    strm := (List.range 5).map fun i => (bitsOf c (24 + 4 * i) 4, bitsOf o (48 + 2 * i) 2, fieldAt b (0x40 + 6 * i) 6),
    scaleP := fieldAt b 0x5E 6, gaugeP := fieldAt b 0x64 6, cmplP := fieldAt b 0x6A 6, strideP := fieldAt b 0x70 6,
    spillP := fieldAt b 0x78 6,
    resTail := !(allZero (sliceOf b 0x76 2)) || !(allZero (sliceOf b 0x7E 2)) }

/-- The stream numbers. -/
def sIn : Nat := 0
/-- Stream OUT. -/
def sOut : Nat := 1
/-- Stream X1. -/
def sX1 : Nat := 2
/-- Stream X2. -/
def sX2 : Nat := 3
/-- Stream X3. -/
def sX3 : Nat := 4

/-- A stream's format code. -/
def Desc.fmtCode (d : Desc) (s : Nat) : Nat := (d.strm.getD s (0, 3, 0)).1
/-- A stream's kind: 0 MEM, 1 YARD, 2 TAP, 3 NONE. -/
def Desc.kind (d : Desc) (s : Nat) : Nat := (d.strm.getD s (0, 3, 0)).2.1
/-- A stream's address. -/
def Desc.addr (d : Desc) (s : Nat) : Nat := (d.strm.getD s (0, 3, 0)).2.2
/-- A stream's format. -/
def Desc.fmt (d : Desc) (s : Nat) : Fmt := (Fmt.ofCode (d.fmtCode s)).getD .fp32
/-- Is a stream present? -/
def Desc.has (d : Desc) (s : Nat) : Bool := d.kind s != 3
/-- The signed zero point field (R196). -/
def Desc.zp (d : Desc) : Int := signedOf 8 d.zpRaw

/-- EXT_k, 1 for k ≥ RANK (R174). -/
def Desc.e (d : Desc) (k : Nat) : Nat := if k < d.rank then d.ext.getD k 1 else 1

/-! ### The chains of Table 9.1 -/

/-- The stream shapes of Table 9.2, with the blocks and trees of 10_. -/
inductive Shape where
  | t | tSwap | table | gathered | index | v0 | vc | chan | one | reduced | plank | hyper | treeOut | treeIn | locate
  deriving DecidableEq, Repr, Inhabited

/-- A chain's use of one stream: its shape, whether the chain writes it, whether it may be absent. -/
structure Role where
  shape : Shape
  out : Bool := false
  opt : Bool := false
  deriving DecidableEq, Repr, Inhabited

/-- An input of shape T. -/
def inT : Option Role := some { shape := .t }
/-- An output of shape T. -/
def outT : Option Role := some { shape := .t, out := true }
/-- An optional input vector of shape V0. -/
def optV0 : Option Role := some { shape := .v0, opt := true }
/-- A required input vector of shape V0. -/
def reqV0 : Option Role := some { shape := .v0 }
/-- An optional input vector of shape VC. -/
def optVC : Option Role := some { shape := .vc, opt := true }

/-- The streams of a chain in the order IN, OUT, X1, X2, X3 (Table 9.1). -/
def chainStreams (d : Desc) : List (Option Role) :=
  match d.chain with
  | 1 | 2 | 20 | 21 | 26 | 27 | 38 | 39 | 40 => [inT, outT, none, none, none]
  | 3 | 4 | 5 => [inT, outT, inT, none, none]
  | 6 => [inT, outT, reqV0, reqV0, none]
  | 7 => [inT, outT, reqV0, none, none]
  | 8 => [inT, outT, reqV0, inT, none]
  | 9 => [inT, outT, some { shape := .one }, some { shape := .one }, none]
  | 10 => [inT, outT, inT, inT, none]
  | 11 => [inT, some { shape := .tSwap, out := true }, none, none, none]
  | 12 | 13 => [some { shape := .table }, some { shape := .gathered, out := true }, some { shape := .index }, none, none]
  | 14 | 15 | 16 | 17 => [inT, outT, optV0, optV0, none]
  | 18 => [inT, outT, inT, optV0, optV0]
  | 19 => [inT, outT, optVC, optVC, none]
  | 22 | 23 | 25 => [inT, some { shape := .reduced, out := true, opt := true }, some { shape := .reduced, out := true, opt := true }, none, none]
  | 24 => [inT, some { shape := .reduced, out := true }, none, none, none]
  | 28 => [inT, outT, reqV0, none, none]
  | 29 => [inT, outT, inT, some { shape := if d.grain = 0 then .one else .chan, out := true }, none]
  | 30 | 31 => [inT, outT, inT, optV0, none]
  | 32 => [inT, outT, inT, optVC, none]
  | 33 | 34 => [inT, some { shape := .v0, out := true, opt := true }, inT, some { shape := .v0, out := true, opt := true }, none]
  | 35 => [inT, some { shape := .vc, out := true, opt := true }, inT, some { shape := .vc, out := true, opt := true }, none]
  | 36 | 37 => [inT, outT, inT, none, none]
  | 41 | 42 | 43 => [inT, outT, some { shape := .plank }, some { shape := .hyper }, none]
  | 44 => [inT, none, inT, none, none]
  | 45 | 46 => [none, none, some { shape := .plank }, none, none]
  | 47 => [inT, some { shape := .treeOut, out := true }, none, none, none]
  | 48 => [some { shape := .treeIn }, some { shape := .locate, out := true }, some { shape := .treeIn }, none, none]
  | _ => [none, none, none, none, none]

/-- A chain's role for one stream. -/
def chainRole (d : Desc) (s : Nat) : Option Role := (chainStreams d).getD s none

/-- Does the chain take IN from a tap (Table 9.1)? -/
def chainTap (c : Nat) : Bool := (1 ≤ c && c ≤ 9) || (14 ≤ c && c ≤ 28) || (38 ≤ c && c ≤ 40)

/-- Does the chain's epilogue quantise (R195)? -/
def chainQuant (c : Nat) : Bool := c == 15 || c == 17 || c == 26 || c == 27 || c == 28

/-- Does the chain reduce (Table 9.1)? -/
def chainReduce (c : Nat) : Bool := c == 22 || c == 23 || c == 24 || c == 25

/-- Is it a forward normalisation of an affine kind? -/
def chainNorm (c : Nat) : Bool := 14 ≤ c && c ≤ 19

/-- Does the chain form sums under RMODE (Table 9.3)? -/
def chainSums (c : Nat) : Bool := (14 ≤ c && c ≤ 25) || (29 ≤ c && c ≤ 37)

/-- Is it a send chain (R234)? -/
def chainSend (c : Nat) : Bool := c == 38 || c == 39

/-- Does the chain use EPS (Table 9.3, R176, R250)? -/
def chainEps (c : Nat) : Bool := (14 ≤ c && c ≤ 19) || (30 ≤ c && c ≤ 35) || c == 41

/-- The number of joints (Table 9.1). -/
def chainJoints (d : Desc) : Nat :=
  match d.chain with
  | 2 | 4 | 5 | 15 | 17 | 18 | 25 | 27 => 1
  | 7 => if d.opA = 0 then 0 else 1
  | 8 => 2
  | 28 => if d.opA = 0 then 1 else 2
  | _ => 0

/-- The formats of the streams a chain uses. -/
def streamFmts (d : Desc) : List Fmt :=
  ((List.range 5).filter fun s => d.has s && (chainRole d s).isSome).map d.fmt

/-- The joint format J (R237). -/
def jointFmt (d : Desc) : Fmt :=
  let l := streamFmts d
  if l.contains .fp64 then .fp64 else if l.contains .fp32p then .fp32p else .fp32

/-- The format a joint rounds to: J under FLUSH, FP32P under LAPPED (R237). -/
def jointTo (d : Desc) : Fmt := if d.lapped then .fp32p else jointFmt d

/-- The accumulation format a (R152, R177): over the reduced stream or IN, dy where read, and OUT. What chains 18 and 25
reduce is their joint, of format J whatever JOINTS says (R177, R238). R177 names the field OUT_FMT, which enters it whatever
OUT_KIND says (log 59, DEDUCED). -/
def accFmt (d : Desc) : Fmt :=
  let reduced := if d.chain = 25 || d.chain = 18 then [jointFmt d] else [d.fmt sIn]
  let dy := if (29 ≤ d.chain ∧ d.chain ≤ 37) then [d.fmt sX1] else []
  let l := reduced ++ dy ++ [d.fmt sOut]
  if l.contains .fp64 then .fp64 else if l.contains .fp32p then .fp32p else .fp32

/-- The effective fold count F of R158 on B bays; 0 for RMODE TALLY and GREEN. -/
def effFold (d : Desc) (b : Nat) : Nat :=
  if d.rmode = 1 then (if d.fold = 0 then b else d.fold) else if d.rmode = 2 then 64 else 0

/-! ### Rows and addresses -/

/-- Row bytes of `n` elements (R79). -/
def rowBytes (f : Fmt) (n : Nat) : Nat :=
  if f.bits = 4 then ceilDiv n 2 else if f.bits = 6 then 3 * ceilDiv n 4 else n * (f.bits / 8)

/-- A stream's layout: format, elements of a row, the further dimensions inner first as extent and stride, and the
base address. -/
structure Layout where
  fmt : Fmt
  kind : Nat
  base : Nat
  len : Nat
  dims : List (Nat × Nat)
  deriving DecidableEq, Repr, Inhabited

/-- The number of rows. -/
def Layout.rows (l : Layout) : Nat := l.dims.foldl (fun n x => n * x.1) 1

/-- The offset of row `r` (linear, inner dimension fastest). -/
def rowOffset : List (Nat × Nat) → Nat → Nat
  | [], _ => 0
  | (e, s) :: l, r => (if e = 0 then 0 else r % e) * s + rowOffset l (if e = 0 then 0 else r / e)

/-- The address of row `r`. -/
def Layout.row (l : Layout) (r : Nat) : Nat := l.base + rowOffset l.dims r

/-- Bytes of one row. -/
def Layout.rowBytes (l : Layout) : Nat := Machine.rowBytes l.fmt l.len

/-- Is the layout empty? -/
def Layout.isEmpty (l : Layout) : Bool := l.len == 0 || l.dims.any fun x => x.1 == 0

/-- The bytes from the address to the end of the last element (R81). -/
def Layout.span (l : Layout) : Nat :=
  if l.isEmpty then 0 else l.rowBytes + (l.dims.map fun x => (x.1 - 1) * x.2).sum

/-- Dense strides over extents, from the bytes of a row (R80). -/
def denseDims (rb : Nat) : List Nat → List (Nat × Nat)
  | [] => []
  | e :: l => (e, rb) :: denseDims (rb * e) l

/-- The stride entry S_k of stream s (R80). -/
def strideOf (strides : List Nat) (s k : Nat) : Nat := strides.getD (4 * s + (k - 1)) 0

/-- The reduced extents of R223, innermost first. -/
def reducedExts (d : Desc) : List Nat :=
  let base := match d.chain with
    | 22 | 25 => (List.range (d.rank - 1)).map fun i => d.e (i + 1)
    | 23 => d.e 0 :: (List.range (d.rank - 2)).map fun i => d.e (i + 2)
    | _ => []
  if d.red = 11 then d.k :: base else base

/-- Channel extent C of CH_DIM (R197). -/
def chanExtent (d : Desc) (chDim : Nat) : Nat := d.e chDim

/-- The layout of a stream; `strides` is the stride block's 20 entries, none when STRIDE_PTR = 0; `chDim` is
QCTRL.CH_DIM (R79, R80, R222, R223, R228; R229 with log 71, DEDUCED, for the dimension-2 entry of X1). -/
def layoutOf (d : Desc) (strides : Option (List Nat)) (chDim s : Nat) (shape : Shape) : Layout :=
  let f := d.fmt s
  let mk := fun (len : Nat) (dims : List (Nat × Nat)) => ({ fmt := f, kind := d.kind s, base := d.addr s, len := len, dims := dims } : Layout)
  let strided := fun (len : Nat) (exts : List (Nat × Nat)) =>
    match strides with
    | some st => mk len (exts.map fun x => (x.1, strideOf st s x.2))
    | none => mk len (denseDims (rowBytes f len) (exts.map (·.1)))
  match shape with
  | .t => strided (d.e 0) [(d.e 1, 1), (d.e 2, 2), (d.e 3, 3), (d.e 4, 4)]
  | .tSwap => strided (d.e 1) [(d.e 0, 1), (d.e 2, 2), (d.e 3, 3), (d.e 4, 4)]
  | .table => strided (d.e 0) [(d.e 1, 1), (d.e 3, 3), (d.e 4, 4)]
  | .gathered => strided (d.e 0) [(d.e 2, 2), (d.e 3, 3), (d.e 4, 4)]
  | .index => strided (d.e 2) [(d.e 3, 3), (d.e 4, 4)]
  | .v0 => mk (d.e 0) []
  | .vc => mk (d.e 1 * d.e 2) []
  | .chan => mk (chanExtent d chDim) []
  | .one => mk 1 []
  | .reduced =>
    let e := reducedExts d
    let exts := (e.drop 1).zipIdx.map fun x => (x.1, x.2 + 1)
    if 4 < e.length then mk (e.headD 1) (denseDims (rowBytes f (e.headD 1)) (e.drop 1)) else strided (e.headD 1) exts
  | .plank => mk 8 []
  | .hyper => mk 32 []
  | .treeOut => mk 0 []
  | .treeIn => mk 0 []
  | .locate => mk (2 + 2 * d.e 0) []

/-- The dimensions whose stride entries a shape uses (R80, R222, R223, R229). The dimension-2 entry of a gather's X1 is used by R229's
list and absent from its address formula: it is checked for alignment and has no effect (log 71, DEDUCED). -/
def usedDims (d : Desc) (shape : Shape) : List Nat :=
  match shape with
  | .t | .tSwap => (List.range 4).map (· + 1) |>.filter (· < d.rank)
  | .table => [1, 3, 4].filter (· < d.rank)
  | .gathered => [2, 3, 4].filter (· < d.rank)
  | .index => [2, 3, 4].filter (· < d.rank)
  | .reduced =>
    let n := (reducedExts d).length
    if 4 < n then [] else (List.range (n - 1)).map (· + 1)
  | _ => []

/-- The number of elements of the descriptor (the product of its extents). -/
def elemCount (d : Desc) : Nat := ((List.range 5).map d.e).foldl (· * ·) 1

/-- The dimensions over which the work of a descriptor is laid out: EXT0 to EXT4, with dimension 1 of the row gather
left out, since its work is its output rows (R229). -/
def workExt (d : Desc) (k : Nat) : Nat := if (d.chain = 12 ∨ d.chain = 13) ∧ k = 1 then 1 else d.e k

/-- The number of work elements. -/
def workCount (d : Desc) : Nat := ((List.range 5).map (workExt d)).foldl (· * ·) 1

/-- The coordinates i0 … i4 of a work element. -/
def coords (d : Desc) (i : Nat) : List Nat :=
  let f := fun (st : Nat × List Nat) (k : Nat) =>
    let e := workExt d k
    if e = 0 then (st.1, st.2 ++ [0]) else (st.1 / e, st.2 ++ [st.1 % e])
  ((List.range 5).foldl f (i, [])).2

/-- The linear row number of a layout at the coordinates of the dimensions it runs over, inner first. -/
def linearOf : List (Nat × Nat) → Nat
  | [] => 0
  | (i, e) :: l => i + e * linearOf l

/-! ### Sets and directions -/

/-- The directions over which statistics are taken (Tables 6.2, 7.1, R190, R206). -/
inductive Dir where
  | row | col | all | group | ch0 | ch1 | chG
  deriving DecidableEq, Repr, Inhabited

/-- The number of a work element's set and its index in the set. -/
def dirKey (d : Desc) (dir : Dir) (i : Nat) : Nat × Nat :=
  let c := coords d i
  let g := fun k => c.getD k 0
  match dir with
  | .row => (linearOf [(g 1, d.e 1), (g 2, d.e 2), (g 3, d.e 3), (g 4, d.e 4)], g 0)
  | .col => (linearOf [(g 0, d.e 0), (g 2, d.e 2), (g 3, d.e 3), (g 4, d.e 4)], g 1)
  | .all => (0, i)
  | .group => (linearOf [(g 2, d.e 2), (g 3, d.e 3), (g 4, d.e 4)], linearOf [(g 0, d.e 0), (g 1, d.e 1)])
  | .ch0 => (g 0, linearOf [(g 1, d.e 1), (g 2, d.e 2), (g 3, d.e 3), (g 4, d.e 4)])
  | .ch1 => (g 1, linearOf [(g 0, d.e 0), (g 2, d.e 2), (g 3, d.e 3), (g 4, d.e 4)])
  | .chG => (linearOf [(g 1, d.e 1), (g 2, d.e 2)], linearOf [(g 0, d.e 0), (g 3, d.e 3), (g 4, d.e 4)])

/-- The elements of a set. -/
def dirSize (d : Desc) (dir : Dir) : Nat :=
  match dir with
  | .row => d.e 0
  | .col => d.e 1
  | .all => elemCount d
  | .group => d.e 0 * d.e 1
  | .ch0 => d.e 1 * d.e 2 * d.e 3 * d.e 4
  | .ch1 => d.e 0 * d.e 2 * d.e 3 * d.e 4
  | .chG => d.e 0 * d.e 3 * d.e 4

/-- The number of sets. -/
def dirSets (d : Desc) (dir : Dir) : Nat :=
  match dir with
  | .row => d.e 1 * d.e 2 * d.e 3 * d.e 4
  | .col => d.e 0 * d.e 2 * d.e 3 * d.e 4
  | .all => 1
  | .group => d.e 2 * d.e 3 * d.e 4
  | .ch0 => d.e 0
  | .ch1 => d.e 1
  | .chG => d.e 1 * d.e 2

/-- The direction of a chain's first statistic. -/
def chainDir (d : Desc) : Dir :=
  match d.chain with
  | 19 | 32 | 35 => .group
  | 23 => .col
  | 24 => .all
  | _ => .row

end Sys2Proof.Machine
end

