-- ==== Sys2Proof/Machine/Digests.lean ====
section
/-! DEFINITION. SHA-256 (13_ R334, R341; 05_ R141), the two CRC-64 halves of the Siade digest and its tree
(10_ R264, R265), and the CRC-32 of a flit (12_ R305). -/

namespace Sys2Proof.Machine

/-! ### SHA-256 -/

/-- Is a number below 324 prime: no divisor from 2 to 17 but itself? -/
def primeBelow324 (n : Nat) : Bool := decide (2 ≤ n) && (List.range 16).all fun d => n == d + 2 || n % (d + 2) != 0

/-- The first 64 primes. -/
def shaPrimes : List Nat := (List.range 312).filter primeBelow324

/-- The first 32 bits of the fraction of the `k`-th root of a number below 4,096: the constants of SHA-256 are such fractions. -/
def rootFraction (k p : Nat) : BitVec 32 :=
  BitVec.ofNat 32 ((List.range 38).foldr (fun i r => if (r + 2 ^ i) ^ k ≤ p * 2 ^ (32 * k) then r + 2 ^ i else r) 0)

/-- The round constants: of the cube roots of the first 64 primes. -/
def shaConstants : List (BitVec 32) := shaPrimes.map (rootFraction 3)

/-- The first hash value: of the square roots of the first 8 primes. -/
def shaStart : List (BitVec 32) := (shaPrimes.take 8).map (rootFraction 2)

/-- The message with its padding to whole blocks: 0x80, zeros, the bit length as 8 big-endian bytes. -/
def shaPad (m : List Byte) : List Byte :=
  let tail := (natLE 8 (8 * m.length)).reverse
  padTo (roundUp (m.length + 9) 64 - 8) (m ++ [0x80#8]) ++ tail

/-- The XOR of a word's rotations to the right. -/
def turned (x : BitVec 32) (l : List Nat) : BitVec 32 := l.foldl (fun y n => y ^^^ x.rotateRight n) 0#32

/-- The schedule grown by a word; `w` holds the latest word first. -/
def shaGrow (w : List (BitVec 32)) : List (BitVec 32) :=
  let old := w.getD 14 0#32
  let new := w.getD 1 0#32
  (w.getD 15 0#32 + w.getD 6 0#32 + (turned old [7, 18] ^^^ old.ushiftRight 3) + (turned new [17, 19] ^^^ new.ushiftRight 10)) :: w

/-- The 64 words of a block's schedule: its own 16, big-endian, then 48 more. -/
def shaSchedule (block : List Byte) : List (BitVec 32) :=
  let own := (chunksOf 4 block).map fun x => BitVec.ofNat 32 (leNat x.reverse)
  ((List.range 48).foldl (fun w _ => shaGrow w) own.reverse).reverse

/-- One round on the eight working words; `x` is the sum of its constant and its schedule word. -/
def shaRound (v : List (BitVec 32)) (x : BitVec 32) : List (BitVec 32) :=
  match v with
  | [a, b, c, d, e, f, g, h] =>
    let chosen := g ^^^ (e &&& (f ^^^ g))
    let most := (a &&& (b ||| c)) ||| (b &&& c)
    let p := x + chosen + turned e [6, 11, 25] + h
    [most + turned a [2, 13, 22] + p, a, b, c, p + d, e, f, g]
  | _ => v

/-- The hash value after one more block. -/
def shaBlock (hash : List (BitVec 32)) (block : List Byte) : List (BitVec 32) :=
  let sums := shaConstants.zipWith (· + ·) (shaSchedule block)
  (sums.foldl shaRound hash).zipWith (· + ·) hash

/-- SHA-256 of a byte string, digest byte 0 first. -/
def sha256 (m : List Byte) : List Byte :=
  ((chunksOf 64 (shaPad m)).foldl shaBlock shaStart).flatMap fun w => (natLE 4 w.toNat).reverse

/-! ### CRCs (reflected input and output) -/

/-- `n` bit steps of a reflected CRC on a Nat register with the reflected polynomial `p`. -/
def crcBits (p : Nat) : Nat → Nat → Nat
  | 0, c => c
  | n + 1, c => crcBits p n (if c % 2 = 1 then (c / 2) ^^^ p else c / 2)

/-- A reflected CRC of `w` bits over `m`, starting from all ones and ending with an XOR by all ones. -/
def crcReflected (w p : Nat) (m : List Byte) : Nat :=
  (m.foldl (fun c b => crcBits p 8 (c ^^^ b.toNat)) (2 ^ w - 1)) ^^^ (2 ^ w - 1)

/-- CRC A, the ECMA-182 polynomial 0x42F0_E1EB_A9EA_3693 reflected (R264). -/
def crcA (m : List Byte) : Nat := crcReflected 64 0xC96C5795D7870F42 m

/-- CRC B, the ISO 3309 polynomial 0x1B reflected (R264). -/
def crcB (m : List Byte) : Nat := crcReflected 64 0xD800000000000000 m

/-- The CRC-32 of IEEE 802.3 (R305). -/
def crc32 (m : List Byte) : Nat := crcReflected 32 0xEDB88320 m

/-! ### The Siade digest (R263 to R265) -/

/-- A node value: CRC A then CRC B, 16 bytes (R264). -/
def nodeValue (m : List Byte) : List Byte := natLE 8 (crcA m) ++ natLE 8 (crcB m)

/-- The level-0 value of segment `i` (R265). -/
def leafValue (i : Nat) (seg : List Byte) : List Byte := nodeValue (natLE 8 i ++ seg)

/-- The value of node `i` of level `k ≥ 1` over its children's values (R265). -/
def innerValue (k i : Nat) (children : List (List Byte)) : List Byte :=
  nodeValue (natLE 8 (k * 2 ^ 56 + i) ++ children.flatten)

/-- The 4 KiB segments of a byte string (R258, R263). -/
def segmentsOf (b : List Byte) : List (List Byte) := chunksOf 4096 b

/-- The level-0 node values of a byte string, the first segment numbered `first`. -/
def leafValues (first : Nat) (b : List Byte) : List (List Byte) :=
  (segmentsOf b).mapIdx fun i s => leafValue (first + i) s

/-- The levels above `nodes`, this one included, until one holds a single node (R265); at most 15 more. -/
def treeLevels : Nat → Nat → List (List Byte) → List (List (List Byte))
  | 0, _, nodes => [nodes]
  | f + 1, k, nodes =>
    if nodes.length ≤ 1 then [nodes]
    else nodes :: treeLevels f (k + 1) ((chunksOf 16 nodes).mapIdx fun i c => innerValue (k + 1) i c)

/-- The digest over level-0 node values: the single node of the top level, 0 for none (R265). -/
def digestOfLeaves (leaves : List (List Byte)) : List Byte :=
  match (treeLevels 15 0 leaves).getLast? with
  | some [v] => v
  | _ => zeros 16

/-- The Siade digest of a byte string (R265). -/
def siade (b : List Byte) : List Byte := digestOfLeaves (leafValues 0 b)

end Sys2Proof.Machine
end

