-- ==== Sys2Proof/Machine/Blocks.lean ====
section
/-! DEFINITION. The blocks a descriptor names: scale block (08_ R197), plank and hyper blocks (10_ R245, R247), ring
block (11_ R287), with their malformed forms; and the string of a descriptor (11_ R273, R274). -/

namespace Sys2Proof.Machine

/-! ### The scale block (Tables 8.1 and 8.2) -/

/-- A scale block's fields. -/
structure ScaleBlock where
  outT : Nat
  inT : Nat
  gauge : Nat
  chDim : Nat
  role : Nat
  inAct : Bool
  inGrain : Nat
  outScK : Nat
  inScK : Nat
  sideK : Nat
  gmode : Nat
  resQ : Bool
  inZp : Nat
  sideFmt : Nat
  gscale : Nat
  outSc : Nat
  inSc : Nat
  side : Nat
  resTail : Bool
  hwList : List Nat
  deriving DecidableEq, Repr, Inhabited

/-- A scale block and its heartwood list read from bytes. -/
def ScaleBlock.parse (hw : Nat) (b : List Byte) : ScaleBlock :=
  let q := fieldAt b 0x08 2
  { outT := fieldAt b 0 4, inT := fieldAt b 4 4, gauge := bitsOf q 0 2, chDim := bitsOf q 2 1, role := bitsOf q 3 2,
    inAct := bitOf q 5, inGrain := bitsOf q 6 2, outScK := bitsOf q 8 1, inScK := bitsOf q 9 1, sideK := bitsOf q 10 1,
    gmode := bitsOf q 11 2, resQ := bitsOf q 13 3 != 0, inZp := fieldAt b 0x0A 1, sideFmt := fieldAt b 0x0B 1,
    gscale := fieldAt b 0x0C 4, outSc := fieldAt b 0x10 6, inSc := fieldAt b 0x16 6, side := fieldAt b 0x1C 6,
    resTail := !(allZero (sliceOf b 0x22 0x1E)),
    hwList := (List.range hw).map fun i => fieldAt b (0x40 + 4 * i) 4 }

/-- SOURCE = GAUGE. -/
def ScaleBlock.fromGauge (s : ScaleBlock) : Bool := s.gauge == 1

/-- The heartwood side format (Table 8.1). -/
def ScaleBlock.sideFormat (s : ScaleBlock) : Fmt := if s.sideFmt = 4 then .bf16 else .fp32

/-- Bytes of the scale block with its heartwood list. -/
def scaleBytes (d : Desc) : Nat := 64 + 4 * d.hw

/-- Does input scaling apply (R195)? The chains are those whose row of Table 9.3 lists SCALE_PTR for input scaling, which are the ones marked
Tap = Yes; chain 29, which requires a scale block for its grid, is none of them (log 77, DEDUCED). -/
def inputScaled (d : Desc) : Bool :=
  (chainTap d.chain) && d.scaleP != 0 && (d.kind sIn == 2 || (d.fmt sIn).isW8)

/-- Does IN_ZP apply (R196)? -/
def inZpUsed (d : Desc) (s : ScaleBlock) : Bool := s.inAct && (d.fmt sIn).isInt && d.kind sIn != 2

/-- Q_f and E_f of Table 8.3. -/
def gridLimit (f : Fmt) : Rat × Int :=
  match f with
  | .fp16 => (65504, 15)
  | .bf16 => ((2 - pow2 (-7)) * pow2 127, 127)
  | .e4m3 => (448, 8)
  | .e5m2 => (57344, 15)
  | .e3m2 => (28, 4)
  | .e2m3 => (15 / 2, 2)
  | .e2m1 => (6, 2)
  | .int8 => (127, 6)
  | .int4 => (7, 2)
  | .ng4 => (1, 0)
  | _ => (1, 0)

/-- Blocks of 32 in a row of `n` elements (R58). -/
def blocks32 (n : Nat) : Nat := ceilDiv n 32

/-- Bytes of a scale table of the grain (R198): channel table, block table, or one value. -/
def tableBytes (d : Desc) (chDim grain : Nat) : Nat :=
  if grain = 1 then 4 * chanExtent d chDim
  else if grain = 2 then dirSets d .row * blocks32 (d.e 0)
  else 4

/-- The heartwood elements of the output (R213). -/
def sideCount (d : Desc) (s : ScaleBlock) : Nat :=
  let c := chanExtent d s.chDim
  if c = 0 then 0 else d.hw * (elemCount d / c)

/-- Is an FP32 encoding finite? -/
def finite32 (c : Nat) : Bool := bitsOf c 23 8 != 255

/-- Is an FP32 encoding finite with sign bit 0 (R176)? -/
def finiteNonneg32 (c : Nat) : Bool := finite32 c && !(bitOf c 31)

/-! ### Plank and hyper blocks (Tables 10.1 and 10.2) -/

/-- A plank block's fields. -/
structure Plank where
  cur : Nat
  curStep : Nat
  base : Nat
  kind : Nat
  bytes : Nat
  head : Nat
  tail : Nat
  bad : Bool
  deriving DecidableEq, Repr, Inhabited

/-- Is a ring size 0, or a multiple of 4 KiB of at least 8 KiB (R245, R287)? -/
def ringSizeOk (n : Nat) : Bool := n == 0 || (n % 4096 == 0 && 8192 ≤ n)

/-- A plank block read from its 32 bytes. -/
def Plank.parse (b : List Byte) : Plank :=
  { cur := bitsOf (fieldAt b 0 1) 0 1, curStep := fieldAt b 4 4, base := fieldAt b 8 6, kind := bitsOf (fieldAt b 0x0E 1) 0 1,
    bytes := fieldAt b 0x10 4, head := fieldAt b 0x14 4, tail := fieldAt b 0x18 4,
    bad := bitsOf (fieldAt b 0 1) 1 7 != 0 || !(allZero (sliceOf b 1 3)) || bitsOf (fieldAt b 0x0E 1) 1 7 != 0 ||
      fieldAt b 0x0F 1 != 0 || !(allZero (sliceOf b 0x1C 4)) || fieldAt b 8 6 % 32 != 0 || !(ringSizeOk (fieldAt b 0x10 4)) }

/-- A hyper block's fields; `tens` lists the A and B addresses of MASTER, M, V, MSC, WORK. -/
structure Hyper where
  lr : Nat
  beta1 : Nat
  beta2 : Nat
  wd : Nat
  maxNorm : Nat
  gnorm : Nat
  gradScale : Nat
  wscale : Nat
  tensorId : Nat
  masterFmt : Nat
  mFmt : Nat
  vFmt : Nat
  shave : Bool
  stateK : Nat
  resFlags : Bool
  tens : List (Nat × Nat)
  resTail : Bool
  deriving DecidableEq, Repr, Inhabited

/-- A hyper block read from its 128 bytes. -/
def Hyper.parse (b : List Byte) : Hyper :=
  let fl := fieldAt b 0x27 1
  { lr := fieldAt b 0 4, beta1 := fieldAt b 4 4, beta2 := fieldAt b 8 4, wd := fieldAt b 0x0C 4, maxNorm := fieldAt b 0x10 4,
    gnorm := fieldAt b 0x14 4, gradScale := fieldAt b 0x18 4, wscale := fieldAt b 0x1C 4, tensorId := fieldAt b 0x20 4,
    masterFmt := fieldAt b 0x24 1, mFmt := fieldAt b 0x25 1, vFmt := fieldAt b 0x26 1, shave := bitOf fl 0,
    stateK := bitsOf fl 1 1, resFlags := bitsOf fl 2 6 != 0,
    tens := (List.range 5).map fun i => (fieldAt b (0x28 + 12 * i) 6, fieldAt b (0x2E + 12 * i) 6),
    resTail := !(allZero (sliceOf b 0x64 28)) }

/-- The formats of MASTER, M, V and the working copy; MSC is a byte table. -/
def Hyper.fmtOf (h : Hyper) (d : Desc) (i : Nat) : Fmt :=
  match i with
  | 0 => (Fmt.ofCode h.masterFmt).getD .fp32
  | 1 => (Fmt.ofCode h.mFmt).getD .fp32
  | 2 => (Fmt.ofCode h.vFmt).getD .fp32
  | _ => d.fmt sOut

/-- Does the chain have the plank tensor (Table 10.2): V for OPT_ADAMW, MSC for an E4M3 moment? -/
def Hyper.has (h : Hyper) (d : Desc) (i : Nat) : Bool :=
  if i = 2 then d.chain == 41 else if i = 3 then h.mFmt == 5 else true

/-- A plank tensor's address on plank `p` (0 A, 1 B). -/
def Hyper.tensor (h : Hyper) (i p : Nat) : Nat := let x := h.tens.getD i (0, 0); if p = 0 then x.1 else x.2

/-- A plank tensor's dense layout (R247). -/
def Hyper.layout (h : Hyper) (d : Desc) (i p : Nat) : Layout :=
  let f := h.fmtOf d i
  { fmt := f, kind := h.stateK, base := h.tensor i p, len := d.e 0,
    dims := denseDims (rowBytes f (d.e 0)) [d.e 1, d.e 2, d.e 3, d.e 4] }

/-- Bytes of a plank tensor. -/
def Hyper.bytesOf (h : Hyper) (d : Desc) (i : Nat) : Nat :=
  if i = 3 then tableBytes d 0 2 else (h.layout d i 0).span

/-- Is a hyper-block field out of its stated range, or a reserved field non-zero (R248)? -/
def Hyper.bad (h : Hyper) (d : Desc) : Bool :=
  let beta := fun c => !(finiteNonneg32 c) || !((val32 c).lt one)
  !(finite32 h.lr) || beta h.beta1 || (if d.chain = 42 then h.beta2 != 0 else beta h.beta2) || !(finiteNonneg32 h.wd) ||
  !(finiteNonneg32 h.maxNorm) || !(finiteNonneg32 h.gnorm) || !(finite32 h.gradScale) || (val32 h.gradScale).isZero ||
  !(finiteNonneg32 h.wscale) || (val32 h.wscale).isZero || (!((d.fmt sOut).isW8) && h.wscale != 0x3F800000) ||
  !(h.masterFmt == 0 || h.masterFmt == 2) || !(h.mFmt == 0 || h.mFmt == 4 || h.mFmt == 5) ||
  (if d.chain = 41 then !(h.vFmt == 0 || h.vFmt == 4) else h.vFmt != 0) || h.resFlags || h.resTail ||
  (d.chain != 41 && h.tens.getD 2 (0, 0) != (0, 0)) || (h.mFmt != 5 && h.tens.getD 3 (0, 0) != (0, 0))

/-! ### Ring blocks (Table 11.4) -/

/-- A ring block's fields. -/
structure RingBlock where
  base : Nat
  bytes : Nat
  head : Nat
  tail : Nat
  res : Bool
  deriving DecidableEq, Repr, Inhabited

/-- A ring block read from its 32 bytes. -/
def RingBlock.parse (b : List Byte) : RingBlock :=
  { base := fieldAt b 0 6, bytes := fieldAt b 8 4, head := fieldAt b 0x0C 4, tail := fieldAt b 0x10 4,
    res := !(allZero (sliceOf b 6 2)) || !(allZero (sliceOf b 0x14 12)) }

/-- Is the ring absent of size, or malformed (R287, R288)? -/
def RingBlock.unusable (r : RingBlock) : Bool :=
  r.bytes == 0 || r.base % 32 != 0 || !(ringSizeOk r.bytes) || decide (2 ^ 48 < r.base + r.bytes) || r.res

/-! ### The descriptor string (R273, R274) -/

/-- Bytes with the `len` at `off` replaced by zeros. -/
def zeroAt (off len : Nat) (b : List Byte) : List Byte := b.take off ++ zeros len ++ b.drop (off + len)

/-- The canonical descriptor on B bays (R273). -/
def canonical (b : List Byte) (bays : Nat) : List Byte :=
  let d := Desc.parse b
  let c := fieldAt b 0 8
  let c := c - (b2n d.fence * 2 ^ 17 + b2n d.capture * 2 ^ 18 + b2n d.ledger * 2 ^ 19 + b2n d.ledgerIn * 2 ^ 20 + b2n d.accum * 2 ^ 21)
  let o := fieldAt b 8 8
  let kinds := ((List.range 5).map fun s => (if d.kind s = 3 then 3 else if d.kind s = 2 then 2 else 0) * 2 ^ (48 + 2 * s)).sum
  let f := if d.rmode = 1 then (effFold d bays - 1) % 65536 else d.fold
  let o := o % 2 ^ 32 + f * 2 ^ 32 + kinds
  natLE 8 c ++ natLE 8 o ++ sliceOf b 0x10 8 ++ zeros 8 ++ sliceOf b 0x20 0x20 ++ zeros 54 ++ sliceOf b 0x76 2 ++ zeros 6 ++ sliceOf b 0x7E 2

/-- The descriptor string of R274: canonical descriptor, then the scale, plank and hyper blocks with their places
removed. Chain 44 names no plank block (R255). -/
def descString (b : List Byte) (bays : Nat) (scale plank hyper : List Byte) : List Byte :=
  let d := Desc.parse b
  let q := fieldAt scale 8 2
  let sc := scale.take 8 ++ natLE 2 (q % 2 ^ 8 + bitsOf q 11 5 * 2 ^ 11) ++ scale.drop 10
  let sc := zeroAt 0x10 18 sc
  let hf := fieldAt hyper 0x27 1
  let hy := hyper.take 0x27 ++ natLE 1 (hf - 2 * b2n (bitOf hf 1)) ++ zeros 60 ++ hyper.drop 0x64
  canonical b bays ++ (if d.scaleP ≠ 0 then sc else []) ++
    (if 41 ≤ d.chain ∧ d.chain ≤ 46 ∧ d.chain ≠ 44 then zeroAt 0 4 (zeroAt 8 24 plank) else []) ++
    (if 41 ≤ d.chain ∧ d.chain ≤ 43 then hy else [])

end Sys2Proof.Machine
end

