-- ==== Sys2Proof/Machine/Tally.lean ====
section
/-! DEFINITION. Tallies, fold trees, GREEN and selections, and the partials that carry them between members
(06_ R147 to R170). -/

namespace Sys2Proof.Machine

/-! ### The tally (R147 to R151) -/

/-- A 640-bit tally: its integer T in units of 2^-320 and the five side bits (R147). -/
structure Tally where
  t : Int := 0
  nan : Bool := false
  posInf : Bool := false
  negInf : Bool := false
  nonempty : Bool := false
  notNegZero : Bool := false
  deriving DecidableEq, Repr, Inhabited

/-- A tally opened for a new reduced row (R147). -/
def Tally.empty : Tally := {}

/-- Adding one addend (R149). -/
def Tally.add (t : Tally) (v : Val) : Tally :=
  let t := { t with nonempty := true, notNegZero := t.notNegZero || v ≠ .zero true }
  match v with
  | .nan => { t with nan := true }
  | .inf false => { t with posInf := true }
  | .inf true => { t with negInf := true }
  | .zero _ => t
  | .num q => { t with t := t.t + (q * pow2 320).floor }

/-- Merging two tallies (R149). -/
def Tally.merge (a b : Tally) : Tally :=
  { t := a.t + b.t, nan := a.nan || b.nan, posInf := a.posInf || b.posInf, negInf := a.negInf || b.negInf,
    nonempty := a.nonempty || b.nonempty, notNegZero := a.notNegZero || b.notNegZero }

/-- The exact value a closed tally stands for (R151), and whether its closing is invalid (case 2). -/
def Tally.value (t : Tally) : Val × Bool :=
  if t.nan then (.nan, false)
  else if t.posInf && t.negInf then (.nan, true)
  else if t.posInf then (.inf false, false)
  else if t.negInf then (.inf true, false)
  else if t.t = 0 ∧ t.nonempty ∧ ¬t.notNegZero then (.zero true, false)
  else (Val.ofRat ((t.t : Rat) * pow2 (-320)), false)

/-- Closing a tally to format r (R151). -/
def Tally.close (t : Tally) (r : Fmt) (ieee : Bool) : Nat × Flags := deliverInv r ieee t.value

/-! ### Accumulation format and fold trees (R152, R158) -/

/-- rna of R152: one rounding to the accumulation format, infinite on overflow. -/
def rna (a : Fmt) (x : Ex) : Val × Flags := rnVal a true x

/-- rna of an exact value. -/
def rnaVal (a : Fmt) (v : Val) : Val × Flags := rna a (.val v)

/-- rna of an exact sum with its invalid case. -/
def rnaAdd (a : Fmt) (x y : Val) : Val × Flags :=
  let s := x.add y
  let r := rnaVal a s.1
  (r.1, r.2.or { inv := s.2 })

/-- An addend: its exact value, and whether forming it was invalid (0 × ∞). -/
abbrev Addend := Val × Bool

/-- The value v[f] of one fold over its addends in order (R158). -/
def foldValue (a : Fmt) (ys : List Addend) : Val × Flags :=
  match ys with
  | [] => (.zero false, noFlags)
  | y :: ys =>
    let s := ys.foldl (fun s z => let r := rnaAdd a s.1 z.1; (r.1, s.2.or (r.2.or { inv := z.2 })))
      (y.1, ({ inv := y.2 } : Flags))
    let v := rnaVal a s.1
    (v.1, s.2.or v.2)

/-- One level of the pairwise tree (R158). -/
def treeLevel (a : Fmt) : List Val → List Val × Flags
  | x :: y :: l =>
    let s := rnaAdd a x y
    let r := treeLevel a l
    (s.1 :: r.1, s.2.or r.2)
  | l => (l, noFlags)

/-- The root of the pairwise tree over the fold values (R158). -/
def treeRoot (a : Fmt) : Nat → List Val → Val × Flags
  | 0, l => (l.headD (.zero false), noFlags)
  | f + 1, l =>
    match l with
    | [] => (.zero false, noFlags)
    | [v] => (v, noFlags)
    | l =>
      let s := treeLevel a l
      let r := treeRoot a f s.1
      (r.1, s.2.or r.2)

/-- The number of non-empty folds min(n, F) (R158). -/
def foldCount (n f : Nat) : Nat := min n f

/-- The start of fold `f` of F over n addends, n for f ≥ F (R158). -/
def foldStart (n ff f : Nat) : Nat := f * (n / ff) + min f (n % ff)

/-- The fold that holds addend `i` (R158). -/
def foldOf (n ff i : Nat) : Nat :=
  let q := n / ff
  let rem := n % ff
  if i < rem * (q + 1) then i / (q + 1) else if q = 0 then i else rem + (i - rem * (q + 1)) / q

/-! ### Selections (R164) -/

/-- A ranked entry: value and index. -/
abbrev Ranked := Val × Nat

/-- Does `a` rank above `b` (R164): higher value, or equal value and lower index? -/
def Ranked.above (a b : Ranked) : Bool := a.1.above b.1 || (!(b.1.above a.1) && decide (a.2 < b.2))

/-- An entry placed in a list in descending rank. -/
def insertRanked (x : Ranked) : List Ranked → List Ranked
  | [] => [x]
  | y :: l => if Ranked.above x y then x :: y :: l else y :: insertRanked x l

/-- The list in descending rank. -/
def rankAll (l : List Ranked) : List Ranked := l.foldr insertRanked []

/-- Does `a` go before `b` for MIN and ARGMIN: NaN kept, then the lower rank, ties to the lower index (R164, Table 6.8)? -/
def minBefore (a b : Ranked) : Bool :=
  if a.1 = .nan ∧ b.1 = .nan then decide (a.2 < b.2)
  else if a.1 = .nan then true
  else if b.1 = .nan then false
  else b.1.above a.1 || (!(a.1.above b.1) && decide (a.2 < b.2))

/-- The better of two entries for a selection kind: 6 MAX, 7 MIN, 8 ARGMAX, 9 ARGMIN (Table 6.1). -/
def pickRanked (red : Nat) (a b : Ranked) : Ranked :=
  if red = 7 ∨ red = 9 then (if minBefore b a then b else a) else (if Ranked.above b a then b else a)

/-! ### What is gathered for one sum or selection -/

/-- What a row's SUB has gathered: an exact tally, fold values by number, GREEN arrivals by member position with their
ARITH cycle, or ranked entries. -/
inductive Agg where
  | tally (t : Tally)
  | folds (l : List (Nat × Val))
  | green (l : List (Nat × Nat × Val))
  | ranked (red : Nat) (l : List Ranked)
  deriving DecidableEq, Repr, Inhabited

/-- A fold value placed by its number, once. -/
def placeFold (f : Nat) (v : Val) : List (Nat × Val) → List (Nat × Val)
  | [] => [(f, v)]
  | (g, w) :: l => if f < g then (f, v) :: (g, w) :: l else if f = g then (f, v) :: l else (g, w) :: placeFold f v l

/-- A GREEN arrival: behind every earlier one; partials of one ARITH cycle by ascending member position (R161). -/
def placeGreen (p c : Nat) (v : Val) : List (Nat × Nat × Val) → List (Nat × Nat × Val)
  | [] => [(p, c, v)]
  | (q, e, w) :: l => if c = e ∧ p < q then (p, c, v) :: (q, e, w) :: l else (q, e, w) :: placeGreen p c v l

/-- Merging what was gathered (R170, Table 6.8). `k` bounds a TOPK list. -/
def Agg.merge (k : Nat) (a b : Agg) : Agg :=
  match a, b with
  | .tally s, .tally t => .tally (s.merge t)
  | .folds l, .folds m => .folds (m.foldl (fun l x => placeFold x.1 x.2 l) l)
  | .green l, .green m => .green (m.foldl (fun l x => placeGreen x.1 x.2.1 x.2.2 l) l)
  | .ranked r l, .ranked _ m =>
    if r = 11 then .ranked r ((rankAll (l ++ m)).take k)
    else match l ++ m with
      | [] => .ranked r []
      | x :: xs => .ranked r [xs.foldl (pickRanked r) x]
  | _, b => b

/-- The combined value of a sum or a selection, as a member uses it (Table 7.8). -/
inductive Ret where
  | tally (t : Tally)
  | val (v : Val)
  | ranked (l : List Ranked)
  deriving DecidableEq, Repr, Inhabited

/-- The head's arrival-order accumulation of R161. -/
def greenAcc (a : Fmt) : List Val → Val × Flags
  | [] => (.zero false, noFlags)
  | v :: l => l.foldl (fun s x => let r := rnaAdd a s.1 x; (r.1, s.2.or r.2)) (v, noFlags)

/-- Is a list in strictly ascending order? -/
def ascending : List Nat → Bool
  | a :: b :: l => decide (a < b) && ascending (b :: l)
  | _ => true

/-- What was gathered, combined: the return, the flags of the combination, and 1 when a GREEN sum of two or more
partials was combined out of member order (R158, R161, R162). -/
def Agg.combine (a : Fmt) (g : Agg) : Ret × Flags × Nat :=
  match g with
  | .tally t => (.tally t, noFlags, 0)
  | .folds l =>
    let r := treeRoot a 20 (l.map (·.2))
    (.val r.1, r.2, 0)
  | .green l =>
    let r := greenAcc a (l.map (·.2.2))
    (.val r.1, r.2, if ascending (l.map (·.1)) then 0 else 1)
  | .ranked _ l => (.ranked l, noFlags, 0)

/-- A return as the value of its Σ, with the invalid case of R151. -/
def Ret.sum : Ret → Addend
  | .tally t => t.value
  | .val v => (v, false)
  | .ranked l => ((l.headD (.nan, 0)).1, false)

/-! ### Partials on the wire (R167 to R169) -/

/-- A partial's header and body, decoded (Tables 6.7 and 6.8). -/
structure Partial where
  kind : Nat
  pflags : Nat := 0
  mask : Nat := 0
  sub : Nat
  foldix : Nat := 0
  row : Nat
  body : List Byte := []
  deriving DecidableEq, Repr, Inhabited

/-- The bytes of a partial (Table 6.7). -/
def Partial.bytes (p : Partial) : List Byte :=
  natLE 1 p.kind ++ natLE 1 p.pflags ++ natLE 2 p.mask ++ natLE 2 p.sub ++ natLE 2 p.foldix ++ natLE 8 p.row ++ p.body

/-- A partial read from bytes. -/
def Partial.ofBytes (b : List Byte) : Partial :=
  { kind := fieldAt b 0 1, pflags := fieldAt b 1 1, mask := fieldAt b 2 2, sub := fieldAt b 4 2,
    foldix := fieldAt b 6 2, row := fieldAt b 8 8, body := b.drop 16 }

/-- The non-zero limbs of a magnitude with their numbers (R168). -/
def limbsOf (m : Nat) : List (Nat × Nat) :=
  ((List.range 10).map fun j => (j, bitsOf m (64 * j) 64)).filter fun x => x.2 ≠ 0

/-- A tally as a partial (R168). -/
def tallyPartial (sub row : Nat) (t : Tally) : Partial :=
  let l := limbsOf t.t.natAbs
  { kind := 0x01, sub := sub, row := row,
    pflags := b2n (decide (t.t < 0)) + 2 * b2n t.nan + 4 * b2n t.posInf + 8 * b2n t.negInf + 16 * b2n t.nonempty +
      32 * b2n t.notNegZero,
    mask := l.foldl (fun m x => m + 2 ^ x.1) 0, body := l.flatMap fun x => natLE 8 x.2 }

/-- The magnitude whose limbs a mask and a body give (R168). -/
def limbsValue (mask : Nat) (body : List Byte) : Nat :=
  ((((List.range 10).filter fun j => bitOf mask j).zipIdx).map fun (j, i) => fieldAt body (8 * i) 8 * 2 ^ (64 * j)).sum

/-- A tally read from a partial (R168). -/
def Partial.tally (p : Partial) : Tally :=
  let m := limbsValue p.mask p.body
  { t := if bitOf p.pflags 0 then -(m : Int) else m, nan := bitOf p.pflags 1, posInf := bitOf p.pflags 2,
    negInf := bitOf p.pflags 3, nonempty := bitOf p.pflags 4, notNegZero := bitOf p.pflags 5 }

/-- An a-value as 8 bytes (Table 6.8, FOLDV). -/
def aBytes (a : Fmt) (v : Val) : List Byte := natLE 8 ((rnfmt a true (.val v)).1)

/-- An a-value read from 8 bytes. -/
def aValue (a : Fmt) (b : List Byte) : Val :=
  (decodeFmt a (if a = .fp32 then fieldAt b 0 4 else fieldAt b 0 8)).1

/-- A ranked entry as 16 bytes (Table 6.8, ARGMAX; R169). -/
def rankedBytes (x : Ranked) : List Byte := natLE 8 (fp64Code x.1) ++ natLE 4 x.2 ++ zeros 4

/-- A ranked entry read from 16 bytes. -/
def rankedOf (b : List Byte) : Ranked := ((decodeFmt .fp64 (fieldAt b 0 8)).1, fieldAt b 8 4)

/-- The KIND of a selection's partial (Table 6.8). -/
def rankedKind (red : Nat) : Nat := if red = 7 then 0x05 else if red = 8 then 0x06 else if red = 9 then 0x07
  else if red = 11 then 0x08 else 0x04

/-- What was gathered as partials of one ROW and SUB. -/
def Agg.partials (a : Fmt) (sub row : Nat) (g : Agg) : List Partial :=
  match g with
  | .tally t => [tallyPartial sub row t]
  | .folds l => l.map fun x => { kind := 0x02, sub := sub, foldix := x.1, row := row, body := aBytes a x.2 }
  | .green l => l.map fun x => { kind := 0x03, sub := sub, row := row, body := aBytes a x.2.2 }
  | .ranked red l =>
    if red = 11 then [{ kind := 0x08, sub := sub, row := row, mask := l.length, body := l.flatMap rankedBytes }]
    else if red = 8 ∨ red = 9 then l.map fun x => { kind := rankedKind red, sub := sub, row := row, body := rankedBytes x }
    else l.map fun x => { kind := rankedKind red, sub := sub, row := row, body := natLE 8 (fp64Code x.1) }

/-- A partial's content as what its receiver gathers; `pos` the sender's position, `cyc` the arrival cycle (R170). -/
def Partial.agg (a : Fmt) (pos cyc : Nat) (p : Partial) : Agg :=
  if p.kind = 0x01 then .tally p.tally
  else if p.kind = 0x02 then .folds [(p.foldix, aValue a p.body)]
  else if p.kind = 0x03 then .green [(pos, cyc, aValue a p.body)]
  else if p.kind = 0x08 then .ranked 11 ((chunksOf 16 (p.body.take (16 * p.mask))).map rankedOf)
  else if p.kind = 0x06 then .ranked 8 [rankedOf p.body]
  else if p.kind = 0x07 then .ranked 9 [rankedOf p.body]
  else .ranked (if p.kind = 0x05 then 7 else 6) [((decodeFmt .fp64 (fieldAt p.body 0 8)).1, 0)]

/-- A return as the partial of Table 7.8. -/
def Ret.partial (a : Fmt) (green : Bool) (sub row : Nat) (r : Ret) : Partial :=
  match r with
  | .tally t => tallyPartial sub row t
  | .val v => { kind := if green then 0x03 else 0x02, sub := sub, row := row, body := aBytes a v }
  | .ranked l => { kind := 0x04, sub := sub, row := row, body := natLE 8 (fp64Code (l.headD (.nan, 0)).1) }

/-- A return read from its partial. -/
def Partial.ret (a : Fmt) (p : Partial) : Ret :=
  if p.kind = 0x01 then .tally p.tally
  else if p.kind = 0x02 ∨ p.kind = 0x03 then .val (aValue a p.body)
  else .ranked [((decodeFmt .fp64 (fieldAt p.body 0 8)).1, 0)]

end Sys2Proof.Machine
end

