-- ==== Sys2Proof/Machine/Elements.lean ====
section
/-! DEFINITION. What a descriptor's elements are worth: reading a code, input scaling (08_ R200, R201), the body steps and
joints of Table 9.1 (09_ R225, R237), packing (02_ R47, R48). Everything here is a function of the bytes read. -/

namespace Sys2Proof.Machine

/-- What an execution evaluates against: the descriptor, its blocks, the curve, the bay count of the executing gang, and
the bytes read, by kind and address, the taps' rows, the work intervals this execution holds, whether it reads every element of the sets
it needs though other members hold some of them, by SUB, row and fold what another member has accumulated of a fold begun there (R158, R231),
and in pass 2 of a two-pass form the
held bytes read back by element, which are those of e_i after the second traversal of chain 20 (R243). -/
structure Env where
  d : Desc
  strides : Option (List Nat)
  scale : ScaleBlock
  plank : Plank
  hyper : Hyper
  curve : Option Curve
  bays : Nat
  rd : Nat → Nat → Byte
  tap : Nat → Nat → Nat
  own : List (Nat × Nat) := []
  wide : Bool := false
  carry : Nat → Nat → Nat → Option Val := fun _ _ _ => none
  back : Nat → Option (List Byte) := fun _ => none
  backE : Bool := false

/-- `n` bytes read at an address of a kind. -/
def Env.bytes (e : Env) (kind addr n : Nat) : List Byte := (List.range n).map fun i => e.rd kind (addr + i)

/-- The work elements of a list of intervals [lo, hi). -/
def intervalElems (l : List (Nat × Nat)) : List Nat := l.flatMap fun x => (List.range (x.2 - x.1)).map (x.1 + ·)

/-- The layout of a stream. -/
def Env.lay (e : Env) (s : Nat) : Layout :=
  layoutOf e.d e.strides e.scale.chDim s (((chainRole e.d s).map (·.shape)).getD .t)

/-- The channel of a work element under CH_DIM (R197). -/
def chanOf (d : Desc) (chDim i : Nat) : Nat := (coords d i).getD chDim 0

/-- The row number and position of a work element in a stream of the shape (Table 9.2, R228, R229). -/
def placeOf (d : Desc) (shape : Shape) (chDim i : Nat) : Nat × Nat :=
  let c := coords d i
  let g := fun k => c.getD k 0
  match shape with
  | .t => (linearOf [(g 1, d.e 1), (g 2, d.e 2), (g 3, d.e 3), (g 4, d.e 4)], g 0)
  | .tSwap => (linearOf [(g 0, d.e 0), (g 2, d.e 2), (g 3, d.e 3), (g 4, d.e 4)], g 1)
  | .gathered => (linearOf [(g 2, d.e 2), (g 3, d.e 3), (g 4, d.e 4)], g 0)
  | .index => (linearOf [(g 3, d.e 3), (g 4, d.e 4)], g 2)
  | .v0 => (0, g 0)
  | .vc => (0, linearOf [(g 1, d.e 1), (g 2, d.e 2)])
  | .chan => (0, g chDim)
  | _ => (0, 0)

/-- The code at a row and position of a layout (R47, R48). -/
def Env.codeAt (e : Env) (l : Layout) (row pos : Nat) : Nat :=
  if l.kind = 2 then e.tap row pos
  else
    let a := l.row row
    let b := l.fmt.bits
    if b = 4 then bitsOf (e.rd l.kind (a + pos / 2)).toNat (4 * (pos % 2)) 4
    else if b = 6 then bitsOf (leNat (e.bytes l.kind (a + 3 * (pos / 4)) 3)) (6 * (pos % 4)) 6
    else leNat (e.bytes l.kind (a + pos * (b / 8)) (b / 8))

/-- The code of a work element in a stream. -/
def Env.code (e : Env) (s i : Nat) : Nat :=
  let sh := ((chainRole e.d s).map (·.shape)).getD .t
  let p := placeOf e.d sh e.scale.chDim i
  e.codeAt (e.lay s) p.1 p.2

/-! ### Held values (R241, R243) -/

/-- Bytes of one held value (R241). -/
def heldBytes (d : Desc) : Nat :=
  let j := jointFmt d
  if j ≠ .fp32 then 8 else if d.lapped ∧ (d.chain = 18 ∨ d.chain = 25 ∨ d.chain = 27 ∨ d.chain = 28) then 8 else 4

/-- The format a value of a source format is held in: its own pairs, otherwise an exact encoding (R241). -/
def heldFmt (d : Desc) (src : Fmt) : Fmt :=
  let n := heldBytes d
  if src = .fp32p ∨ (n = 8 ∧ jointFmt d ≠ .fp64) then .fp32p else if n = 8 then .fp64 else .fp32

/-- A value as it is held. -/
def heldCode (d : Desc) (src : Fmt) (v : Val) : List Byte := natLE (heldBytes d) (rnfmt (heldFmt d src) true (.val v)).1

/-- The `k`-th held value of an element as pass 2 reads it back; none in pass 1 (R243). -/
def Env.heldVal (e : Env) (k : Nat) (src : Fmt) (i : Nat) : Option Val :=
  (e.back i).map fun b => (decodeFmt (heldFmt e.d src) (fieldAt b (k * heldBytes e.d) (heldBytes e.d))).1

/-- A value with its flags, or the held one in its place: reading it back raises none. -/
def heldOr (h : Option Val) (x : Val × Flags) : Val × Flags := match h with | some v => (v, noFlags) | none => x

/-- A work element of a stream as an exact value, unscaled, with the flag of its reading; dy of a backward chain is held. -/
def Env.raw (e : Env) (s i : Nat) : Val × Flags :=
  heldOr (if s = sX1 ∧ 30 ≤ e.d.chain ∧ e.d.chain ≤ 37 then e.heldVal 1 (e.d.fmt sX1) i else none) (decodeFmt (e.d.fmt s) (e.code s i))

/-! ### Scales (R200, R201) -/

/-- The grain scale of an element: an FP32 table entry by channel, or an E8M0 code by block (R198). -/
def Env.grainScale (e : Env) (kind addr chDim grain i : Nat) : Val :=
  if grain = 1 then val32 (leNat (e.bytes kind (addr + 4 * chanOf e.d chDim i) 4))
  else
    let k := dirKey e.d .row i
    e8m0Value (e.rd kind (addr + k.1 * blocks32 (e.d.e 0) + k.2 / 32)).toNat

/-- The effective scale from tensor and grain scale (R200). -/
def effScale (grain : Nat) (sT sG : Val) : Val × Flags :=
  if grain = 0 then (sT, noFlags)
  else
    let p := sT.mul sG
    let r := rnVal .fp32 true (.val p.1.unsignZero)
    (r.1, r.2.or { inv := p.2 })

/-- The input's effective scale (R200, FOLDED included). -/
def Env.inScale (e : Env) (i : Nat) : Val × Flags :=
  let s := e.scale
  if e.d.folded || s.inGrain == 0 then (val32 s.inT, noFlags)
  else effScale s.inGrain (val32 s.inT) (e.grainScale s.inScK s.inSc s.chDim s.inGrain i)

/-- A scaled input element: rn32((c - z) × s) (R201). -/
def scaleIn (z : Int) (s : Val × Flags) (c : Val × Flags) : Val × Flags :=
  let c0 := if z = 0 then c.1 else match c.1 with
    | .zero _ => Val.ofRat (-(z : Rat))
    | .num q => Val.ofRat (q - z)
    | v => v
  if c0 = .nan ∨ s.1 = .nan then (.nan, c.2.or s.2)
  else
    let p := c0.mul s.1
    let r := rnVal .fp32 true (.val p.1.unsignZero)
    (r.1, (c.2.or s.2).or (r.2.or { inv := p.2 }))

/-- The main input element as it enters the lane, scaled where R195 applies; held in pass 2. -/
def Env.x (e : Env) (i : Nat) : Val × Flags :=
  let c := e.raw sIn i
  heldOr (e.heldVal 0 (e.d.fmt sIn) i)
    (if inputScaled e.d then scaleIn (if inZpUsed e.d e.scale then signedOf 8 e.scale.inZp else 0) (e.inScale i) c else c)

/-! ### Body steps -/

/-- One body step to format r. -/
def Env.step (e : Env) (op : Nat) (r : Fmt) (args : List (Val × Flags)) : Nat × Flags :=
  let v := evalOp op e.curve r e.d.ieee (args.map (·.1))
  (v.1, args.foldl (fun f a => f.or a.2) v.2)

/-- One body step to a joint, read back (R237). -/
def Env.joint (e : Env) (op : Nat) (args : List (Val × Flags)) : Val × Flags :=
  let r := jointTo e.d
  let v := e.step op r args
  ((decodeFmt r v.1).1, v.2)

/-- CONVERT (R123). -/
def opConvert : Nat := 0x27

/-- The table row that the index of a work element names, none when it is out of range (R229, R230). -/
def Env.tableRow (e : Env) (i : Nat) : Option Nat :=
  let idx := e.code sX1 i
  let c := coords e.d i
  if e.d.e 1 ≤ idx then none else some (linearOf [(idx, e.d.e 1), (c.getD 3 0, e.d.e 3), (c.getD 4 0, e.d.e 4)])

/-- What a gather reads for a work element, none when its index is out of range (R229, R230). -/
def Env.gathered (e : Env) (i : Nat) : Option (Val × Flags) :=
  let l := e.lay sIn
  (e.tableRow i).map fun r => decodeFmt l.fmt (e.codeAt l r ((coords e.d i).getD 0 0))

/-- The element code an elementwise chain writes, its flags, and 1 when it came from FILL (Table 9.1). SELECT reads its mask p whatever
it selects, with the flag of R52 (log 77, DEDUCED). -/
def Env.writeCode (e : Env) (i : Nat) : Nat × Flags × Nat :=
  let d := e.d
  let r := d.fmt sOut
  let x := fun (_ : Unit) => e.x i
  let y := fun s => e.raw s i
  let fin := fun (v : Nat × Flags) => (v.1, v.2, 0)
  match d.chain with
  | 1 => fin (e.step d.opA r [x ()])
  | 2 => fin (e.step d.opB r [e.joint d.opA [x ()]])
  | 3 => fin (e.step d.opA r [x (), y sX1])
  | 4 => fin (e.step d.opB r [e.joint d.opA [x (), y sX1]])
  | 5 => fin (e.step d.opB r [e.joint d.opA [x ()], y sX1])
  | 6 => fin (e.step 0x20 r [x (), y sX1, y sX2])
  | 7 => if d.opA = 0 then fin (e.step 0x21 r [x (), y sX1]) else fin (e.step d.opA r [e.joint 0x21 [x (), y sX1]])
  | 8 => fin (e.step 0x21 r [e.joint d.opA [e.joint 0x21 [x (), y sX1]], y sX2])
  | 9 => fin (e.step 0x25 r [x (), y sX1, y sX2])
  | 10 =>
    let p := x ()
    fin (e.step opConvert r [((if p.1.isZero then y sX2 else y sX1).1, (if p.1.isZero then y sX2 else y sX1).2.or p.2)])
  | 12 | 13 =>
    match e.gathered i with
    | some v => fin (e.step (if d.chain = 13 then d.opA else opConvert) r [v])
    | none => let f := rnfmt r d.ieee (.val (val32 d.fill)); (f.1, f.2, 1)
  | 39 => fin (e.step d.opA r [x ()])
  | 40 =>
    let v := x ()
    let c := e.step opConvert r [v]
    (c.1, c.2.or { inv := !v.1.isFinite }, 0)
  | _ => fin (e.step opConvert r [x ()])

/-- The value an epilogue receives: the input, or the last joint of the body (Tables 9.1 and 9.4), which is held. -/
def Env.bodyVal (e : Env) (i : Nat) : Val × Flags :=
  let d := e.d
  let held := heldOr (e.heldVal 0 (jointTo d) i)
  match d.chain with
  | 18 => held (e.joint 0x21 [e.x i, e.raw sX1 i])
  | 25 | 27 => held (e.joint d.opA [e.x i])
  | 28 =>
    let j := e.joint 0x21 [e.x i, e.raw sX1 i]
    held (if d.opA = 0 then j else e.joint d.opA [j])
  | _ => e.x i

/-! ### Packing stores (R47, R48) -/

/-- Codes packed from a byte or group boundary on. -/
def packCodes (f : Fmt) (cs : List Nat) : List Byte :=
  natLE (rowBytes f cs.length) ((cs.zipIdx).foldl (fun n x => n + x.1 * 2 ^ (f.bits * x.2)) 0)

/-- A piece of an output: its tag, kind, address, offset in the byte string of the tag, bytes. Tags 1 to 4 are the
streams OUT, X1, X2, X3; 5 the side stream, 6 the output scale table, 7 the gauge table, 8 the spill region, 10 to 13 the
staged master, M, V and MSC, 14 the plank block. -/
structure Piece where
  tag : Nat
  kind : Nat
  addr : Nat
  off : Nat
  bytes : List Byte
  deriving DecidableEq, Repr, Inhabited

/-- The byte of a row where position `pos` begins. -/
def posByte (f : Fmt) (pos : Nat) : Nat :=
  if f.bits = 4 then pos / 2 else if f.bits = 6 then 3 * (pos / 4) else pos * (f.bits / 8)

/-- Written elements (row, position, code) gathered into runs of one row; a run starts where the previous one breaks. -/
def packRuns : List (Nat × Nat × Nat) → List (Nat × Nat × List Nat)
  | [] => []
  | (r, p, c) :: l =>
    match packRuns l with
    | (r', p', cs) :: m => if r' = r ∧ p' = p + 1 then (r, p, c :: cs) :: m else (r, p, [c]) :: (r', p', cs) :: m
    | [] => [(r, p, [c])]

/-- The pieces of a stream from its written elements. -/
def packPieces (tag : Nat) (l : Layout) (es : List (Nat × Nat × Nat)) : List Piece :=
  (packRuns es).map fun (r, p, cs) =>
    { tag := tag, kind := l.kind, addr := l.row r + posByte l.fmt p, off := r * l.rowBytes + posByte l.fmt p,
      bytes := packCodes l.fmt cs }

end Sys2Proof.Machine
end

