-- ==== Sys2Proof/Machine/Stats.lean ====
section
/-! DEFINITION. The statistics of reductions, normalisations and quantisation: which sums and selections a chain forms in
which order (06_ Table 6.7, 07_ Tables 7.1, 7.2, 7.9, 08_ R212, R217), their addends, and what is gathered for them. -/

namespace Sys2Proof.Machine

/-- One quantity a chain exchanges: its SUB, the direction of its sets, and its selection code, 0 for a sum. -/
structure StatKey where
  sub : Nat
  dir : Dir
  sel : Nat := 0
  deriving DecidableEq, Repr, Inhabited

/-- Is the chain a layer or group normalisation, forward or backward? -/
def isLayer (c : Nat) : Bool := c == 14 || c == 15 || c == 19 || c == 30 || c == 32 || c == 33 || c == 35

/-- Is the chain an RMS normalisation, forward or backward? -/
def isRms (c : Nat) : Bool := c == 16 || c == 17 || c == 18 || c == 31 || c == 34

/-- The direction of channel sums of PGRAD (R190). -/
def pgradDir (d : Desc) : Dir := if d.chain = 35 then .chG else .ch0

/-- The channel direction of CH_DIM. -/
def chDir (chDim : Nat) : Dir := if chDim = 1 then .ch1 else .ch0

/-- Is a gauge gathered: for the gauge table, or for scales that need the whole channel or tensor (R206, R208)? -/
def needsGauge (d : Desc) (s : ScaleBlock) : Bool := chainQuant d.chain && (s.gmode != 0 || (s.fromGauge && d.grain != 2))

/-- The direction of the gauge: one over the tensor when only its scale needs it, else by channel (R212). -/
def gaugeDir (d : Desc) (s : ScaleBlock) : Dir := if s.gmode = 0 ∧ d.grain = 0 then .all else chDir s.chDim

/-- The exchanges of a chain, in order (Table 7.9; R167 for the SUB numbers). -/
def stages (d : Desc) (s : ScaleBlock) : List (List StatKey) :=
  let dir := chainDir d
  let norm := if isLayer d.chain then [[{ sub := 0, dir := dir }], [{ sub := 1, dir := dir }]]
    else if isRms d.chain then [[{ sub := 0, dir := dir }]] else ([] : List (List StatKey))
  let pg := ((if d.has sOut then [({ sub := 4, dir := pgradDir d } : StatKey)] else []) ++
    (if d.has sX2 then [{ sub := 5, dir := pgradDir d }] else []))
  let body : List (List StatKey) := match d.chain with
    | 20 | 21 => [[{ sub := 0, dir := .row, sel := 6 }], [{ sub := 1, dir := .row }]]
    | 22 | 23 | 24 | 25 =>
      if d.red = 4 then [[{ sub := 0, dir := dir }], [{ sub := 1, dir := dir }]]
      else if d.red = 10 then [[{ sub := 0, dir := dir, sel := 6 }], [{ sub := 1, dir := dir }]]
      else if d.red = 1 ∨ d.red = 2 ∨ d.red = 3 ∨ d.red = 5 then [[{ sub := 0, dir := dir }]]
      else [[{ sub := 0, dir := dir, sel := d.red }]]
    | 29 => [[{ sub := 9, dir := if d.grain = 0 then .all else chDir s.chDim }]]
    | 30 | 32 => norm ++ [[{ sub := 2, dir := dir }, { sub := 3, dir := dir }]]
    | 31 => norm ++ [[{ sub := 3, dir := dir }]]
    | 33 | 34 | 35 => norm ++ [pg]
    | 36 | 37 => [[{ sub := 2, dir := .row }]]
    | _ => norm
  body ++ (if needsGauge d s then [[{ sub := 8, dir := gaugeDir d s, sel := 6 }]] else [])

/-- The returns an evaluation has, by SUB and ROW. -/
abbrev Rets := List ((Nat × Nat) × Ret)

/-- The return of a SUB and ROW. -/
def retOf (r : Rets) (sub row : Nat) : Ret := (r.lookup (sub, row)).getD (.val (.zero false))

/-! ### Exact arithmetic with the invalid mark -/

/-- x + y with its invalid cases. -/
def xAdd (x y : Addend) : Addend := let s := x.1.add y.1; (s.1, x.2 || y.2 || s.2)
/-- x × y with its invalid cases. -/
def xMul (x y : Addend) : Addend := let s := x.1.mul y.1; (s.1, x.2 || y.2 || s.2)
/-- -x. -/
def xNeg (x : Addend) : Addend := (x.1.neg, x.2)
/-- A value as an addend. -/
def xOf (v : Val) : Addend := (v, false)
/-- x / n for a positive n; zeros, infinities and NaN kept. -/
def xDivN (x : Addend) (n : Nat) : Addend := (match x.1 with | .num q => .num (q / n) | v => v, x.2)

/-- The exact real 0 of a pseudocode line that states no sign is +0 (R7). -/
def plus0 (x : Addend) : Addend := (x.1.unsignZero, x.2)

/-- rna of an exact value with its invalid mark. -/
def rnaX (a : Fmt) (x : Addend) : Val × Flags := let r := rnaVal a x.1; (r.1, r.2.or { inv := x.2 })

/-- rnfmt of an exact value with its invalid mark. -/
def rnX (r : Fmt) (ieee : Bool) (x : Addend) : Nat × Flags := deliverInv r ieee x

/-! ### The statistics of a set (R178, R179) -/

/-- The statistics of one set: mean, stabilised inverse deviation, whether it is flat, and the flags of the lines. -/
structure SetStat where
  mu : Val
  s : Val
  flat : Bool
  fl : Flags
  deriving DecidableEq, Repr, Inhabited

/-- t and s of lines 4 and 5 of R178 from the variance or mean square. -/
def stabilise (a : Fmt) (eps : Val) (v : Val × Flags) (mu : Val) : SetStat :=
  let t := rnaAdd a v.1 eps
  let s := (rootExact true t.1).1
  let s' := rna a s
  { mu := mu, s := s'.1, flat := t.1.isZero, fl := (v.2.or t.2).or (if t.1.isZero then noFlags else s'.2) }

/-- The row of a work element's set in the direction of the chain. -/
def Env.rowOf (e : Env) (i : Nat) : Nat := (dirKey e.d (chainDir e.d) i).1

/-- The elements of a set, where this execution knows every one: it holds them all, or reads the whole set (log 70, DEDUCED). -/
def Env.setElems (e : Env) (row : Nat) : Option (List Nat) :=
  let own := (intervalElems e.own).filter fun i => e.rowOf i == row
  if own.length = dirSize e.d (chainDir e.d) then some own
  else if e.wide then some ((List.range (workCount e.d)).filter fun i => e.rowOf i == row)
  else none

/-- Do the elements of a set a chain reads satisfy a test, as far as this execution knows them all? -/
def Env.setHas (e : Env) (row : Nat) (f : Val → Bool) : Option Bool :=
  (e.setElems row).map fun es => es.any fun i => f (e.bodyVal i).1

/-- Could the sums of the chain's first statistic miss the mean of equal elements: those that round each addition, each share, or to
pairs (R154)? -/
def sumsRound (d : Desc) : Bool := d.rmode != 0 || accFmt d == .fp32p

/-- The value of a row of equal finite elements, where the accumulation could miss it: then m is that value and every d_i is +0
(R154, R182; log 70, DEDUCED). -/
def Env.constRow (e : Env) (row : Nat) : Option Val :=
  if !(isLayer e.d.chain || e.d.red == 4) || !(sumsRound e.d) then none
  else match (e.setElems row).map fun es => es.map fun i => (e.bodyVal i).1 with
    | some (v :: l) => if v.isFinite && l.all (· == v) then some v else none
    | _ => none

/-- Does a set of an RMS normalisation hold an infinity (R183)? -/
def Env.infRow (e : Env) (r : Rets) (row : Nat) : Bool :=
  isRms e.d.chain && (if sumsRound e.d then e.setHas row Val.isInf else none).getD (retOf r 0 row).sum.1.isInf

/-- Is a SOFTMAX row of the backward pass fully masked: every y_i is +0 (R191; log 70)? -/
def Env.maskedRow (e : Env) (r : Rets) (row : Nat) : Bool :=
  match e.setHas row fun v => v != .zero false with
  | some other => !other
  | none => (retOf r 2 row).sum.1.isZero &&
      ((intervalElems e.own).filter fun i => e.rowOf i == row).all fun i => (e.bodyVal i).1 == .zero false

/-- mu of R178 line 1. A zero keeps the sign of the sum (R154). -/
def Env.mean (e : Env) (r : Rets) (row : Nat) : Val × Flags :=
  match e.constRow row with
  | some c => ((rnaVal (accFmt e.d) c).1, noFlags)
  | none => rnaX (accFmt e.d) (xDivN (retOf r 0 row).sum (dirSize e.d (chainDir e.d)))

/-- The statistics of a set. -/
def Env.setStat (e : Env) (r : Rets) (row : Nat) : SetStat :=
  let a := accFmt e.d
  let n := dirSize e.d (chainDir e.d)
  let eps := val32 e.d.eps
  if isRms e.d.chain then stabilise a eps (rnaX a (xDivN (retOf r 0 row).sum n)) (.zero false)
  else
    let m := e.mean r row
    let st := stabilise a eps (rnaX a (xDivN (retOf r 1 row).sum n)) m.1
    { st with fl := st.fl.or m.2 }

/-- d_i of R178 line 2, or x_i of RMSNORM. -/
def Env.dev (e : Env) (r : Rets) (i : Nat) : Val × Flags :=
  let x := e.bodyVal i
  if isRms e.d.chain then x
  else
    let m := e.mean r (e.rowOf i)
    if (e.constRow (e.rowOf i)).isSome then (.zero false, x.2)
    else
      let v := rnaX (accFmt e.d) (plus0 (xAdd (xOf x.1) (xOf m.1.neg)))
      (v.1, x.2.or (m.2.or v.2))

/-- h_i of R178 line 6; +0 in a flat set (R190); a zero from s = +0 in a set with an infinity keeps the sign of x_i (R183), any other
exact zero is +0 (R7). -/
def Env.h (e : Env) (r : Rets) (i : Nat) : Val × Flags :=
  let st := e.setStat r (e.rowOf i)
  if st.flat then (.zero false, st.fl)
  else
    let dv := e.dev r i
    let p := xMul (xOf dv.1) (xOf st.s)
    let v := rnaX (accFmt e.d) (if st.s.isZero && e.infRow r (e.rowOf i) then p else plus0 p)
    (v.1, (st.fl.or dv.2).or v.2)

/-- g_i of R187 line 7. -/
def Env.g (e : Env) (i : Nat) : Val × Flags :=
  let dy := e.raw sX1 i
  if e.d.has sX2 then
    let y := e.raw sX2 i
    let v := rnaX (accFmt e.d) (plus0 (xMul (xOf dy.1) (xOf y.1)))
    (v.1, (dy.2.or y.2).or v.2)
  else
    let v := rnaVal (accFmt e.d) dy.1
    (v.1, dy.2.or v.2)

/-- The selection of a row (R164): the return, or the selection over the FP32P elements of a set that this execution knows, whose values
a partial of FP64 can round (R169; log 71). -/
def Env.chosen (e : Env) (r : Rets) (row : Nat) : Ret :=
  let sel := if e.d.chain = 20 ∨ e.d.chain = 21 ∨ e.d.red = 10 then 6 else e.d.red
  match (if e.wide && accFmt e.d == .fp32p then e.setElems row else none) with
  | some es =>
    let l : List Ranked := es.map fun i => ((e.bodyVal i).1, (dirKey e.d (chainDir e.d) i).2)
    .ranked (if sel = 11 then (rankAll l).take e.d.k else match l with
      | [] => []
      | x :: xs => [xs.foldl (pickRanked sel) x])
  | none => retOf r 0 row

/-- The maximum of a row as a value (R153, R184). -/
def Env.maxOf (e : Env) (r : Rets) (row : Nat) : Val := (e.chosen r row).sum.1

/-- e_i := rna(e^(x_i - m)) for a finite m (R153, R184); in the third traversal of chain 20 the e_i held (R243). -/
def Env.expTerm (e : Env) (r : Rets) (i : Nat) : Val × Flags :=
  let x := e.bodyVal i
  let z := x.1.add (e.maxOf r (e.rowOf i)).neg
  let v := rna (accFmt e.d) (expExact 0x01 z.1).1
  heldOr (if e.backE then e.heldVal 0 (accFmt e.d) i else none) (v.1, x.2.or v.2)

/-! ### The quantiser (R203 to R210, R217) -/

/-- u = v / s, or u + zp for an integer format, with the flags of the division (R203). -/
def quotient (f : Fmt) (zp : Int) (s v : Val) : Val × Flags :=
  let u := divExact v s
  let w : Val := match u.1 with | .val w => w | .real _ => .nan
  if f.isInt ∧ zp ≠ 0 then
    (match w with | .num q => Val.ofRat (q + zp) | .zero _ => Val.ofRat (zp : Rat) | w => w, u.2)
  else (w, u.2)

/-- Is an element clipped (R204)? -/
def isClipped (f : Fmt) (u : Val) : Bool :=
  match u with
  | .nan => false
  | .inf _ => true
  | .zero _ => false
  | .num q =>
    if f.isInt then decide (q < ((intRange f).1 : Rat)) || decide (((intRange f).2 : Rat) < q)
    else decide ((gridLimit f).1 < ratAbs q)

/-- The code of a sapwood element, its flags, whether it is clipped (R203, R204). -/
def quantCode (f : Fmt) (ieee : Bool) (zp : Int) (s v : Val) : Nat × Flags × Bool :=
  let u := quotient f zp s v
  let c := rnfmt f ieee (.val u.1)
  (c.1, u.2.or c.2, isClipped f u.1)

/-- The zero code (R205). -/
def zeroCodeOf (f : Fmt) (zp : Int) : Nat :=
  match f with
  | .ng4 => 7
  | f => if f.isInt then unsignedOf f.bits zp else 0

/-- The least FP32 encoding not below a positive rational (R208). -/
def leastFp32 (q : Rat) : Nat :=
  let c := (rnfmt .fp32 true (.val (.num q))).1
  match val32 c with
  | .num r => if r < q then c + 1 else c
  | .zero _ => 1
  | _ => c

/-- The derived FP32 scale of a gauge: encoding, and whether it is a zero gauge (R208 to R210). -/
def gaugeScale (f : Fmt) (g : Val) : Nat × Bool :=
  match g with
  | .nan => (0x7FC00000, false)
  | .inf _ => (0x7FC00000, false)
  | .zero _ => (0x3F800000, true)
  | .num q => (leastFp32 (q / (gridLimit f).1), false)

/-- The derived E8M0 code of a block gauge, and whether it is a zero gauge (R208 to R210). -/
def gaugeBlock (f : Fmt) (g : Val) : Nat × Bool :=
  match g with
  | .nan => (0xFF, false)
  | .inf _ => (0xFF, false)
  | .zero _ => (0x7F, true)
  | .num q => ((min (max (floorLog2 q - (gridLimit f).2 + 127) 0) 254).toNat, false)

/-- The highest-ranked of a list of magnitudes, +0 for none (R206). -/
def gaugeMax (l : List Val) : Val := l.foldl (fun m v => if v.abs.above m then v.abs else m) (.zero false)

/-- Is a channel heartwood (R213)? -/
def isHeart (s : ScaleBlock) (c : Nat) : Bool := s.hwList.contains c

/-- QGRAD's scale s for an element (R200, R217). -/
def Env.outScale (e : Env) (i : Nat) : Val × Flags :=
  let s := e.scale
  effScale e.d.grain (val32 s.outT) (if e.d.grain = 0 then .zero false else e.grainScale s.outScK s.outSc s.chDim e.d.grain i)

/-- The grid format of QGRAD: OUT_FMT where Table 8.3 lists it, otherwise unstated (R203, R217; log 14, DESIGN CHOICE). -/
def qgradGrid (d : Desc) : Fmt :=
  let f := d.fmt sOut
  if f.isW8 || f == .fp16 || f == .bf16 then f
  else
    let g := (Fmt.ofCode Config.qgradFormat).getD .int8
    if g.isW8 || g == .fp16 || g == .bf16 then g else .int8

/-- QGRAD's residual e_i, whether the element is clipped, and its flags (R217). -/
def Env.residual (e : Env) (i : Nat) : Val × Bool × Flags :=
  let f := qgradGrid e.d
  let v := e.raw sIn i
  let s := e.outScale i
  let zp := if f.isInt then e.d.zp else 0
  let u := quotient f zp s.1 v.1
  let q := (decodeFmt f (rnfmt f e.d.ieee (.val u.1)).1).1
  let z := Val.ofRat (-(zp : Rat))
  let clip := isClipped f u.1
  let fl := (v.2.or s.2).or u.2
  if clip then ((plus0 (xAdd (xOf q) (xOf z))).1, true, fl)
  else
    let w := rnaX .fp32 (plus0 (xAdd (xAdd (xOf q) (xOf z)) (xAdd (xOf u.1.neg) (xOf (if u.1.isFinite then Val.ofRat (zp : Rat) else .zero false)))))
    (w.1, false, fl.or w.2)

end Sys2Proof.Machine
end

