-- ==== Sys2Proof/Machine/Evaluate.lean ====
section
/-! DEFINITION. One execution of a descriptor, or of a member's share of it, as a function of the bytes read: what each
exchange gathers, and the outputs, flags and counts after the last return (06_ to 09_, 11_ R281). Chains 41 to 48 are in
Optimiser.lean. -/

namespace Sys2Proof.Machine

/-- The counts of a record (Table 3.12) and of DRIFT (R255), before saturation. -/
structure Counts where
  clip : Nat := 0
  oob : Nat := 0
  flat : Nat := 0
  green : Nat := 0
  drift : Nat := 0
  deriving DecidableEq, Repr, Inhabited

/-- The sum of two sets of counts (R41, R102). -/
def Counts.add (a b : Counts) : Counts :=
  ⟨a.clip + b.clip, a.oob + b.oob, a.flat + b.flat, a.green + b.green, a.drift + b.drift⟩

/-- A count of the record stops at 0xFFFF_FFFF (R102). -/
def sat32 (n : Nat) : Nat := min n 0xFFFFFFFF

/-- Each count saturated (R102). -/
def Counts.sat (c : Counts) : Counts := ⟨sat32 c.clip, sat32 c.oob, sat32 c.flat, sat32 c.green, c.drift⟩

/-- What an execution writes, with its flags and counts. -/
structure Result where
  pieces : List Piece := []
  fl : Flags := noFlags
  counts : Counts := {}
  deriving DecidableEq, Repr, Inhabited

/-- Two results together. -/
def Result.add (a b : Result) : Result := ⟨a.pieces ++ b.pieces, a.fl.or b.fl, a.counts.add b.counts⟩

/-- The results of a list, in order. -/
def Result.all (l : List Result) : Result := l.foldl Result.add {}

/-- A list without repeats, first occurrences kept. -/
def dedup (l : List Nat) : List Nat := l.foldl (fun m x => if m.contains x then m else m ++ [x]) []

/-! ### Addends (R148, R153, R178, R184, R187, R190, R191, R217) -/

/-- The format of the last line's result: OUT_FMT, or the joint in front of the quantiser (R177). -/
def Env.lineFmt (e : Env) : Fmt := if chainQuant e.d.chain then jointTo e.d else e.d.fmt sOut

/-- The addend of an element in the sum SUB, none for a row that contributes nothing, and its flags. The later sums of a flat set or of a
softmax row whose m is not finite are exchanged all the same, without addends (R192; log 70, DESIGN CHOICE). -/
def Env.addend (e : Env) (r : Rets) (sub i : Nat) : Option Addend × Flags :=
  let d := e.d
  let row := e.rowOf i
  let prod := fun (x y : Val × Flags) => (some (xMul (xOf x.1) (xOf y.1)), x.2.or y.2)
  let single := fun (x : Val × Flags) => (some (xOf x.1), x.2)
  if sub = 9 then
    if isHeart e.scale (chanOf d e.scale.chDim i) then (none, noFlags)
    else
      let v := e.residual i
      let dy := e.raw sX1 i
      (some (xMul (xOf dy.1) (xOf v.1)), dy.2.or v.2.2)
  else if sub = 5 then single (e.raw sX1 i)
  else if sub = 4 then prod (e.raw sX1 i) (e.h r i)
  else if sub = 3 then
    if (e.setStat r row).flat then (none, noFlags) else prod (e.g i) (e.h r i)
  else if sub = 2 then
    match d.chain with
    | 36 => prod (e.raw sX1 i) (e.x i)
    | 37 => single (e.raw sX1 i)
    | _ => if (e.setStat r row).flat then (none, noFlags) else single (e.g i)
  else if sub = 1 then
    if d.chain = 20 ∨ d.chain = 21 ∨ d.red = 10 then
      if (e.maxOf r row).isFinite then single (e.expTerm r i) else (none, noFlags)
    else
      let v := e.dev r i
      (some (xMul (xOf v.1) (xOf v.1)), v.2)
  else
    let x := e.bodyVal i
    if isRms d.chain ∨ d.red = 2 ∨ d.red = 5 then (some (xMul (xOf x.1) (xOf x.1)), x.2) else single x

/-- The value of an element in a selection: the element, or the magnitude the gauge ranks (R164, R206). -/
def Env.selected (e : Env) (q : Nat → Val × Flags) (sub i : Nat) : Option Val × Flags :=
  if sub = 8 then
    if gaugeDir e.d e.scale = .all ∧ isHeart e.scale (chanOf e.d e.scale.chDim i) then (none, noFlags)
    else let v := q i; (some v.1.abs, v.2)
  else let v := e.bodyVal i; (some v.1, v.2)

/-! ### The output line of a normalisation (R180, R181, R184, R185) -/

/-- γ and β streams of a normalising chain (Table 9.1). -/
def affineStreams (c : Nat) : Nat × Nat := if c = 18 then (sX2, sX3) else (sX1, sX2)

/-- y_i of Table 7.4 to format r. In a flat set γ is not read, so a pair of it raises no flag of its reading (R181; log 77, DEDUCED). -/
def Env.affineLine (e : Env) (r : Rets) (f : Fmt) (i : Nat) : Nat × Flags :=
  let st := e.setStat r (e.rowOf i)
  let gs := affineStreams e.d.chain
  let beta := if e.d.has gs.2 then some (e.raw gs.2 i) else none
  if st.flat then
    match beta with
    | some b => let c := rnfmt f e.d.ieee (.val b.1); (c.1, (st.fl.or b.2).or c.2)
    | none => (zeroCode f false, st.fl)
  else
    let gamma := if e.d.has gs.1 then some (e.raw gs.1 i) else none
    match gamma, beta with
    | none, none =>
      let dv := e.dev r i
      let c := rnX f e.d.ieee (xMul (xOf dv.1) (xOf st.s))
      (c.1, (st.fl.or dv.2).or c.2)
    | some g, none =>
      let h := e.h r i
      let c := rnX f e.d.ieee (xMul (xOf h.1) (xOf g.1))
      (c.1, (h.2.or g.2).or c.2)
    | none, some b =>
      let h := e.h r i
      let c := rnX f e.d.ieee (xAdd (xOf h.1) (xOf b.1))
      (c.1, (h.2.or b.2).or c.2)
    | some g, some b =>
      let h := e.h r i
      let v := h.1.fma g.1 b.1
      let c := rnX f e.d.ieee v
      (c.1, ((h.2.or g.2).or b.2).or c.2)

/-- The exact value (x_i - m) - ln S of LOGSOFTMAX for a finite m (R184). -/
def logSoftEx (z s : Val) : Ex × Flags :=
  match z, s with
  | .num p, .num q => if q = 1 then (.val z, noFlags) else (.real fun n => (Span.pt p).add (logSpan n q).neg, noFlags)
  | .zero _, .num q => if q = 1 then (.val (.zero false), noFlags) else (.real fun n => (logSpan n q).neg, noFlags)
  | z, _ => (.val z, noFlags)

/-- y_i of SOFTMAX and LOGSOFTMAX (R184, Table 7.6). -/
def Env.softLine (e : Env) (r : Rets) (i : Nat) : Nat × Flags :=
  let d := e.d
  let f := d.fmt sOut
  let row := e.rowOf i
  let m := e.maxOf r row
  let x := e.bodyVal i
  match m with
  | .nan => let c := nanCode f; (c.1, c.2.or x.2)
  | .inf false => let c := nanCode f; (c.1, (c.2.or x.2).or invFlag)
  | .inf true => if d.chain = 20 then (zeroCode f false, x.2) else let c := infCode f true; (c.1, c.2.or x.2)
  | m =>
    let s := rnaX (accFmt d) (retOf r 1 row).sum
    if d.chain = 20 then
      let t := e.expTerm r i
      let c := rnfmt f d.ieee (divExact t.1 s.1).1
      (c.1, (t.2.or s.2).or c.2)
    else
      let c := rnfmt f d.ieee (logSoftEx (x.1.add m.neg).1 s.1).1
      (c.1, ((x.2.or (e.expTerm r i).2).or s.2).or c.2)

/-- dx_i of the backward normalisations (R187, R188, R191); an exact zero is +0 but where the rule names the product's sign, in a fully
masked row, whose P is +0, or the conversion of dy_i (R7, R191). -/
def Env.backLine (e : Env) (r : Rets) (i : Nat) : Nat × Flags :=
  let d := e.d
  let f := d.fmt sOut
  let a := accFmt d
  let n := dirSize d (chainDir d)
  if d.chain = 36 then
    let y := e.x i
    let dy := e.raw sX1 i
    let masked := e.maskedRow r (e.rowOf i)
    let p := if masked then (Val.zero false, noFlags) else rnaX a (retOf r 2 (e.rowOf i)).sum
    let w := if masked then xMul (xOf y.1) (xOf dy.1) else plus0 (xMul (xOf y.1) (xAdd (xOf dy.1) (xOf p.1.neg)))
    let c := rnX f d.ieee w
    (c.1, ((y.2.or dy.2).or p.2).or c.2)
  else if d.chain = 37 then
    let y := e.x i
    let dy := e.raw sX1 i
    let g := rnaX a (retOf r 2 (e.rowOf i)).sum
    let fl := (y.2.or dy.2).or g.2
    match y.1, dy.1, g.1 with
    | .num q, .num p, .num w =>
      let c := rnfmt f d.ieee (.real fun n => (Span.pt p).add ((expOf n (Span.pt q)).mul (Span.pt w)).neg)
      (c.1, fl.or c.2)
    | .num q, .zero _, .num w =>
      let c := rnfmt f d.ieee (.real fun n => ((expOf n (Span.pt q)).mul (Span.pt w)).neg)
      (c.1, fl.or c.2)
    | .inf true, dv, .num _ => let c := rnfmt f d.ieee (.val dv); (c.1, fl.or c.2)
    | .inf true, dv, .zero _ => let c := rnfmt f d.ieee (.val dv); (c.1, fl.or c.2)
    | yv, dv, gv =>
      let ex : Val := match yv with
        | .nan => .nan
        | .inf true => .zero false
        | .inf false => .inf false
        | _ => one
      let c := rnX f d.ieee (plus0 (xAdd (xOf dv) (xNeg (xMul (xOf ex) (xOf gv)))))
      (c.1, fl.or c.2)
  else
    let st := e.setStat r (e.rowOf i)
    if st.flat then (zeroCode f false, st.fl)
    else
      let h := e.h r i
      let g := e.g i
      let mgh := rnaX a (xDivN (retOf r 3 (e.rowOf i)).sum n)
      let mg := if d.chain = 31 then (Val.zero false, noFlags) else rnaX a (xDivN (retOf r 2 (e.rowOf i)).sum n)
      let base := if d.chain = 31 then xOf g.1 else xAdd (xOf g.1) (xOf mg.1.neg)
      let v := xMul (xOf st.s) (xAdd base (xNeg (xMul (xOf h.1) (xOf mgh.1))))
      let c := rnX f d.ieee (plus0 v)
      (c.1, ((h.2.or g.2).or (mg.2.or mgh.2)).or c.2)

/-- The value the quantiser receives (R202). -/
def Env.qval (e : Env) (r : Rets) (i : Nat) : Val × Flags :=
  if isLayer e.d.chain ∨ isRms e.d.chain then
    let f := jointTo e.d
    let c := e.affineLine r f i
    ((decodeFmt f c.1).1, c.2)
  else e.bodyVal i

/-! ### What one exchange gathers (R161, R167, R192, R212) -/

/-- What a member gathers for one ROW of a key from the elements it holds of it. The roundings of the first sum of a constant row raise no
flag (R154, R182; log 70). -/
def Env.gather (e : Env) (r : Rets) (k : StatKey) (held : List Nat) : Agg × Flags :=
  let d := e.d
  let a := accFmt d
  if k.sel ≠ 0 then
    let vs := held.map fun i => (e.selected (e.qval r) k.sub i, (dirKey d k.dir i).2)
    let l : List Ranked := vs.filterMap fun x => x.1.1.map fun v => (v, x.2)
    let fl := vs.foldl (fun f x => f.or x.1.2) noFlags
    let best := if k.sel = 11 then (rankAll l).take d.k
      else match l with
        | [] => []
        | x :: xs => [xs.foldl (pickRanked k.sel) x]
    (.ranked k.sel best, fl)
  else
    let vs := held.map fun i => (e.addend r k.sub i, (dirKey d k.dir i).2)
    let const0 := k.sub == 0 && ((held.head?).bind fun i => e.constRow (e.rowOf i)).isSome
    let fl := vs.foldl (fun f x => (f.or x.1.2).or { inv := (x.1.1.map (·.2)).getD false }) noFlags
    if d.rmode = 1 ∨ d.rmode = 2 then
      let n := dirSize d k.dir
      let ff := effFold d e.bays
      let fs := dedup (vs.map fun x => foldOf n ff x.2)
      let row := (dirKey d k.dir (held.headD 0)).1
      let begun := fun f => ((e.carry k.sub row f).map fun v => ((v, false) : Addend)).toList
      let l := fs.map fun f =>
        (f, foldValue a (begun f ++ (vs.filter fun x => foldOf n ff x.2 = f).filterMap fun x => x.1.1))
      (.folds (l.foldl (fun m x => placeFold x.1 x.2.1 m) []),
        if const0 then fl else l.foldl (fun f x => f.or x.2.2) fl)
    else
      let t := vs.foldl (fun t x => match x.1.1 with | some v => t.add v.1 | none => t) Tally.empty
      if d.rmode = 3 ∧ held.length < dirSize d k.dir then
        let v := rnaX a t.value
        (.green [(0, 0, v.1)], if const0 then fl else fl.or v.2)
      else (.tally t, fl)

/-- What a member gathers for one exchange over the elements it holds of each quantity: by SUB and ROW, with the flags. -/
def Env.stage (e : Env) (r : Rets) (keys : List StatKey) (held : StatKey → List Nat) : List ((Nat × Nat) × Agg) × Flags :=
  let l := keys.flatMap fun k =>
    let es := held k
    (dedup (es.map fun i => (dirKey e.d k.dir i).1)).map fun row =>
      ((k.sub, row), e.gather r k (es.filter fun i => (dirKey e.d k.dir i).1 = row))
  (l.map fun x => (x.1, x.2.1), l.foldl (fun f x => f.or x.2.2) noFlags)

/-- What was gathered under each SUB and ROW, combined into returns, with flags and GREEN counts (R192). -/
def Env.combine (e : Env) (l : List ((Nat × Nat) × Agg)) : Rets × Flags × Nat :=
  let cs := l.map fun x =>
    let c := x.2.combine (accFmt e.d)
    (x.1, c.1, if x.1.1 = 0 ∧ (e.constRow x.1.2).isSome then noFlags else c.2.1, c.2.2)
  (cs.map fun x => (x.1, x.2.1), cs.foldl (fun f x => f.or x.2.2.1) noFlags, (cs.map fun x => x.2.2.2).sum)

/-! ### Reductions' outputs (R153, R154, R164 to R166) -/

/-- The most negative value of a format, for an empty MAX (Table 6.6). -/
def emptyMax (f : Fmt) : Nat := (infCode f true).1
/-- The largest value of a format, for an empty MIN (Table 6.6). -/
def emptyMin (f : Fmt) : Nat := (infCode f false).1

/-- The result of a sum reduction of a non-empty row (R153, R154). -/
def Env.sumResult (e : Env) (r : Rets) (row : Nat) : Nat × Flags :=
  let d := e.d
  let f := d.fmt sOut
  let n := dirSize d (chainDir d)
  let s0 := (retOf r 0 row).sum
  match d.red with
  | 3 => rnX f d.ieee (xDivN s0 n)
  | 4 =>
    let m := e.mean r row
    let c := rnX f d.ieee (xDivN (retOf r 1 row).sum n)
    (c.1, m.2.or c.2)
  | 5 =>
    let v := rootExact false s0.1
    let c := rnfmt f d.ieee v.1
    (c.1, (v.2.or c.2).or { inv := s0.2 })
  | 10 =>
    match e.maxOf r row with
    | .nan => nanCode f
    | .inf neg => infCode f neg
    | m =>
      let s := rnaX (accFmt d) (retOf r 1 row).sum
      let v := (logSoftEx m (match s.1 with | .num q => .num (1 / q) | v => v)).1
      let c := rnfmt f d.ieee v
      (c.1, s.2.or c.2)
  | _ => rnX f d.ieee s0

/-- The outputs of one reduced row: elements of OUT and of the index stream, each as row, position, code. -/
def Env.reducedRow (e : Env) (r : Rets) (row : Nat) : List (Nat × Nat × Nat) × List (Nat × Nat × Nat) × Flags :=
  let d := e.d
  let f := d.fmt sOut
  let inner := (reducedExts d).headD 1
  let n := dirSize d (chainDir d)
  let at1 := (if inner = 0 then 0 else row / inner, if inner = 0 then 0 else row % inner)
  if d.red = 11 then
    let l : List Ranked := match e.chosen r row with | .ranked l => l | _ => []
    let vs := (List.range d.k).map fun j => match l[j]? with
      | some x => (rnfmt f d.ieee (.val x.1), x.2)
      | none => ((emptyMax f, noFlags), 0xFFFFFFFF)
    ((vs.zipIdx.map fun x => (row, x.2, x.1.1.1)), (vs.zipIdx.map fun x => (row, x.2, x.1.2)),
      vs.foldl (fun g x => g.or x.1.2) noFlags)
  else if d.red = 8 ∨ d.red = 9 then
    let i := match e.chosen r row with | .ranked (x :: _) => x.2 | _ => 0xFFFFFFFF
    ([], [(at1.1, at1.2, if n = 0 then 0xFFFFFFFF else i)], noFlags)
  else
    let c := if n = 0 then
        (if d.red = 6 ∨ d.red = 10 then (emptyMax f, noFlags) else if d.red = 7 then (emptyMin f, noFlags)
         else (zeroCode f false, noFlags))
      else if d.red = 6 ∨ d.red = 7 then rnfmt f d.ieee (.val (e.chosen r row).sum.1)
      else e.sumResult r row
    ([(at1.1, at1.2, c.1)], [], c.2)

/-- Every reduced row's outputs, written by the head (R41). -/
def Env.reduceResult (e : Env) (r : Rets) : Result :=
  let rows := (List.range (dirSets e.d (chainDir e.d))).map (e.reducedRow r)
  { pieces := packPieces 1 (e.lay sOut) (rows.flatMap (·.1)) ++ packPieces 2 (e.lay sX1) (rows.flatMap (·.2.1)),
    fl := rows.foldl (fun f x => f.or x.2.2) noFlags }

/-- The parameter gradients and QGRAD's ds, written by the head (R190, R217). -/
def Env.channelResult (e : Env) (r : Rets) : Result :=
  let d := e.d
  let vec := fun (s sub : Nat) (dir : Dir) (scale : Option Val) =>
    if d.has s then
      let cs := (List.range (dirSets d dir)).map fun c =>
        let v := (retOf r sub c).sum
        let v := match scale with | some g => plus0 (xMul (xOf g) v) | none => v
        rnX (d.fmt s) d.ieee v
      ({ pieces := packPieces s (e.lay s) (cs.zipIdx.map fun x => (0, x.2, x.1.1)),
         fl := cs.foldl (fun f x => f.or x.2) noFlags } : Result)
    else {}
  if d.chain = 29 then vec sX2 9 (if d.grain = 0 then .all else chDir e.scale.chDim) (some (val32 e.scale.gscale))
  else (vec sOut 4 (pgradDir d) none).add (vec sX2 5 (pgradDir d) none)

/-! ### The quantising epilogue (R203 to R215) -/

/-- The gauge a channel's, or the tensor's, scale is derived from, and whether it has a sapwood element (R208, R214). -/
def Env.gaugeOf (e : Env) (r : Rets) (c : Nat) : Val × Bool :=
  let s := e.scale
  let g := fun x => match retOf r 8 x with | .ranked (v :: _) => (v.1, true) | _ => (Val.zero false, false)
  if e.d.grain = 0 then
    if gaugeDir e.d s = .all then g 0
    else
      let cs := (List.range (chanExtent e.d s.chDim)).filter fun c => !(isHeart s c)
      (gaugeMax (cs.map fun c => (g c).1), !cs.isEmpty)
  else (g c).1 |> fun v => (v, !(isHeart s c))

/-- The sapwood elements of a block: work elements of one row, 32 from the block's start (R58, R208). -/
def Env.blockElems (e : Env) (row j : Nat) : List Nat :=
  let n := e.d.e 0
  ((List.range (min 32 (n - 32 * j))).map fun k => row * n + 32 * j + k).filter
    fun i => !(isHeart e.scale (chanOf e.d e.scale.chDim i))

/-- The derived E8M0 code of a block, and whether it is a zero gauge of sapwood (R208 to R210). -/
def Env.blockScale (e : Env) (v : Nat → Val) (row j : Nat) : Nat × Bool :=
  let es := e.blockElems row j
  if es.isEmpty then (0x7F, false) else gaugeBlock (e.d.fmt sOut) (gaugeMax (es.map v))

/-- The scale of a sapwood element's code, whether every code under it is the zero code, and its flags (R200, R208). -/
def Env.codeScale (e : Env) (r : Rets) (i : Nat) : Val × Bool × Flags :=
  let s := e.scale
  let d := e.d
  if s.fromGauge then
    if d.grain = 2 then
      let k := dirKey d .row i
      let b := e.blockScale (fun j => (e.qval r j).1) k.1 (k.2 / 32)
      (e8m0Value b.1, b.2, noFlags)
    else
      let g := gaugeScale (d.fmt sOut) (e.gaugeOf r (chanOf d s.chDim i)).1
      (val32 g.1, g.2, noFlags)
  else
    let v := effScale d.grain (val32 s.outT) (if d.grain = 0 then .zero false else e.grainScale s.outScK s.outSc s.chDim d.grain i)
    (v.1, false, v.2)

/-- The place of a heartwood element in the dense side stream (R213). -/
def Env.sideIndex (e : Env) (i : Nat) : Nat :=
  let d := e.d
  let s := e.scale
  let c := coords d i
  let p := (s.hwList.findIdx? (· == chanOf d s.chDim i)).getD 0
  if s.chDim = 0 then (dirKey d .row i).1 * d.hw + p
  else linearOf [(c.getD 0 0, d.e 0), (p, d.hw), (c.getD 2 0, d.e 2), (c.getD 3 0, d.e 3), (c.getD 4 0, d.e 4)]

/-- The dense layout of the side stream, as one row. -/
def Env.sideLayout (e : Env) : Layout :=
  { fmt := e.scale.sideFormat, kind := e.scale.sideK, base := e.scale.side, len := sideCount e.d e.scale, dims := [] }

/-- Is the element the first of the channel, tensor or block its derived scale governs (R212)? -/
def Env.firstOfScale (e : Env) (i : Nat) : Bool :=
  let d := e.d
  if d.grain = 2 then (dirKey d .row i).2 % 32 == 0
  else if d.grain = 1 then (dirKey d (chDir e.scale.chDim) i).2 == 0
  else i == 0

/-- Zero gauges counted with the element they start at (R209). -/
def Env.zeroGauge (e : Env) (r : Rets) (i : Nat) : Nat :=
  let d := e.d
  if !e.scale.fromGauge || !e.firstOfScale i then 0
  else if d.grain = 2 then
    let k := dirKey d .row i
    b2n (e.blockScale (fun j => (e.qval r j).1) k.1 (k.2 / 32)).2
  else
    let g := e.gaugeOf r (chanOf d e.scale.chDim i)
    b2n (g.2 && (gaugeScale (d.fmt sOut) g.1).2)

/-- One element through the quantiser: main code, side code when heartwood, flags, clips, zero gauges. -/
def Env.quantElem (e : Env) (r : Rets) (i : Nat) : Nat × Option Nat × Flags × Counts :=
  let d := e.d
  let f := d.fmt sOut
  let zp := if f.isInt then d.zp else 0
  let v := e.qval r i
  let flat := e.zeroGauge r i
  if isHeart e.scale (chanOf d e.scale.chDim i) then
    let c := rnfmt e.scale.sideFormat d.ieee (.val v.1)
    (zeroCodeOf f zp, some c.1, v.2.or c.2, { flat := flat })
  else
    let s := e.codeScale r i
    if s.2.1 then (zeroCodeOf f zp, none, v.2, { flat := flat })
    else
      let c := quantCode f d.ieee zp s.1 v.1
      (c.1, none, (v.2.or s.2.2).or c.2.1, { clip := b2n c.2.2, flat := flat })

/-- The block-scale pieces of the blocks whose first element is held (R208). -/
def Env.blockPieces (e : Env) (r : Rets) (es : List Nat) : List Piece :=
  let s := e.scale
  if s.fromGauge && e.d.grain == 2 then
    (es.filter e.firstOfScale).map fun i =>
      let k := dirKey e.d .row i
      let o := k.1 * blocks32 (e.d.e 0) + k.2 / 32
      { tag := 6, kind := s.outScK, addr := s.outSc + o, off := o,
        bytes := natLE 1 (e.blockScale (fun j => (e.qval r j).1) k.1 (k.2 / 32)).1 }
  else []

/-- The gauge table and the derived FP32 scales, written by the head (R206 to R209, R212). -/
def Env.tableResult (e : Env) (r : Rets) : Result :=
  let d := e.d
  let s := e.scale
  let cs := List.range (chanExtent d s.chDim)
  let word := fun (tag kind addr c v : Nat) => ({ tag := tag, kind := kind, addr := addr + 4 * c, off := 4 * c, bytes := natLE 4 v } : Piece)
  let scales := if !s.fromGauge || d.grain == 2 then []
    else if d.grain = 0 then [word 6 s.outScK s.outSc 0 (gaugeScale (d.fmt sOut) (e.gaugeOf r 0).1).1]
    else cs.map fun c => word 6 s.outScK s.outSc c (if isHeart s c then 0x3F800000 else (gaugeScale (d.fmt sOut) (e.gaugeOf r c).1).1)
  let gs := if s.gmode = 0 then [] else cs.map fun c =>
    let g := rnfmt .fp32 true (.val (retOf r 8 c).sum.1)
    let old := leNat (e.bytes d.gaugeK (d.gaugeP + 4 * c) 4)
    let v := if s.gmode = 2 ∧ (val32 old).above (val32 g.1) then (rnfmt .fp32 true (.val (val32 old))).1 else g.1
    (word 7 d.gaugeK d.gaugeP c v, g.2)
  { pieces := scales ++ gs.map (·.1), fl := gs.foldl (fun f x => f.or x.2) noFlags }

/-! ### The held values as the spill region keeps them (R241, R243) -/

/-- The held values of an element as a traversal leaves them: `second` after the second one of chain 20, which holds e_i (Table 9.5,
R243). -/
def Env.held (e : Env) (r : Rets) (second : Bool) (i : Nat) : List Byte :=
  let d := e.d
  if d.chain = 20 ∧ second ∧ (e.maxOf r (e.rowOf i)).isFinite then heldCode d (accFmt d) (e.expTerm r i).1
  else if 30 ≤ d.chain ∧ d.chain ≤ 37 then
    heldCode d (d.fmt sIn) (e.x i).1 ++ heldCode d (d.fmt sX1) (e.raw sX1 i).1
  else if d.chain = 18 ∨ d.chain = 25 ∨ d.chain = 27 ∨ d.chain = 28 then heldCode d (jointTo d) (e.bodyVal i).1
  else heldCode d (d.fmt sIn) (e.bodyVal i).1

/-- Values held per element (Table 9.5); 0 for a chain that does not hold. -/
def heldCount (d : Desc) (s : ScaleBlock) : Nat :=
  match d.chain with
  | 14 | 15 | 16 | 17 | 18 | 19 | 20 | 21 => 1
  | 22 | 23 | 24 | 25 => if d.red = 4 ∨ d.red = 10 then 1 else 0
  | 26 | 27 | 28 => if s.fromGauge ∧ (d.grain = 0 ∨ (d.grain = 1 ∧ s.chDim = 0)) then 1 else 0
  | 30 | 31 | 32 | 33 | 34 | 35 | 36 | 37 => 2
  | _ => 0

/-- The elements of the largest set a chain holds (Table 9.5). -/
def heldSet (d : Desc) : Nat :=
  match d.chain with
  | 26 | 27 | 28 | 33 | 34 | 35 => elemCount d
  | 36 | 37 | 20 | 21 => d.e 0
  | _ => dirSize d (chainDir d)

/-- Does the descriptor run in one pass (R242)? -/
def onePass (d : Desc) (s : ScaleBlock) (bays reserve : Nat) : Bool :=
  heldCount d s == 0 || decide (ceilDiv (heldSet d) bays * heldCount d s * heldBytes d ≤ reserve)

/-- Bytes of the spill region (R243). -/
def spillBytes (d : Desc) (s : ScaleBlock) : Nat := elemCount d * heldCount d s * heldBytes d

/-- The place of an element's held values in the spill region, and their bytes (R243). -/
def Env.spillAt (e : Env) (i : Nat) : Nat × Nat := let n := heldCount e.d e.scale * heldBytes e.d; (e.d.spillP + i * n, n)

/-- The spill region's pieces for the elements held (R243). -/
def Env.spillPieces (e : Env) (r : Rets) (second : Bool) (es : List Nat) : List Piece :=
  es.map fun i => { tag := 8, kind := e.d.spillK, addr := (e.spillAt i).1, off := i * (e.spillAt i).2, bytes := e.held r second i }

/-- The flags of reading and forming the values held, raised in pass 1 (R243). -/
def Env.heldFlags (e : Env) (es : List Nat) : Flags :=
  es.foldl (fun f i => f.or ((e.bodyVal i).2.or (if 30 ≤ e.d.chain ∧ e.d.chain ≤ 37 then (e.raw sX1 i).2 else noFlags))) noFlags

/-! ### The outputs of the elements held -/

/-- Flat sets counted with their element 0 (R181, R185, R188). -/
def Env.flatCount (e : Env) (r : Rets) (i : Nat) : Nat :=
  let d := e.d
  let k := dirKey d (chainDir d) i
  if k.2 ≠ 0 then 0
  else if isLayer d.chain ∨ isRms d.chain then b2n (e.setStat r k.1).flat
  else if d.chain = 20 ∨ d.chain = 21 then b2n (e.maxOf r k.1 == .inf true)
  else 0

/-- Elements in ascending place of a stream. -/
def insertPlace (x : Nat × Nat × Nat) : List (Nat × Nat × Nat) → List (Nat × Nat × Nat)
  | [] => [x]
  | y :: l => if x.1 < y.1 ∨ (x.1 = y.1 ∧ x.2.1 < y.2.1) then x :: y :: l else y :: insertPlace x l

/-- The outputs of the elements a member holds, for chains 1 to 40 (Table 9.1). -/
def Env.ownResult (e : Env) (r : Rets) (es : List Nat) : Result :=
  let d := e.d
  let flat := (es.map (e.flatCount r)).sum
  let sh := ((chainRole d sOut).map (·.shape)).getD .t
  let place := fun (i c : Nat) => let p := placeOf d sh e.scale.chDim i; (p.1, p.2, c)
  let write := fun (l : List (Nat × Nat × Flags)) =>
    let w := l.map fun x => place x.1 x.2.1
    let w := if d.chain = 11 then w.foldr insertPlace [] else w
    ({ pieces := packPieces 1 (e.lay sOut) w, fl := l.foldl (fun f x => f.or x.2.2) noFlags } : Result)
  if chainReduce d.chain then {}
  else if 33 ≤ d.chain ∧ d.chain ≤ 35 then { counts := { flat := flat }, fl := es.foldl (fun f i => f.or (e.h r i).2) noFlags }
  else if chainQuant d.chain then
    let l := es.map fun i => (i, e.quantElem r i)
    let main := write (l.map fun x => (x.1, x.2.1, x.2.2.2.1))
    let side := l.filterMap fun x => x.2.2.1.map fun c => (0, e.sideIndex x.1, c)
    { main with
      pieces := main.pieces ++ packPieces 5 e.sideLayout side ++ e.blockPieces r es,
      counts := (l.foldl (fun (c : Counts) x => c.add x.2.2.2.2) {}).add { flat := flat } }
  else if d.chain = 29 then
    write (es.map fun i =>
      let dy := e.raw sX1 i
      let v := e.residual i
      if isHeart e.scale (chanOf d e.scale.chDim i) ∨ v.2.1 = false then
        let c := rnfmt (d.fmt sOut) d.ieee (.val dy.1)
        (i, c.1, dy.2.or c.2)
      else (i, zeroCode (d.fmt sOut) false, noFlags))
  else if isLayer d.chain ∨ isRms d.chain ∨ d.chain = 20 ∨ d.chain = 21 ∨ d.chain = 36 ∨ d.chain = 37 then
    let line := fun i => if 30 ≤ d.chain then e.backLine r i
      else if d.chain = 20 ∨ d.chain = 21 then e.softLine r i else e.affineLine r (d.fmt sOut) i
    let w := write (es.map fun i => (i, line i))
    { w with counts := { flat := flat } }
  else
    let l := es.map fun i => (i, e.writeCode i)
    let w := write (l.map fun x => (x.1, x.2.1, x.2.2.1))
    { w with counts := { oob := (l.map fun x => x.2.2.2).sum } }

/-- The outputs the head writes for the whole descriptor: reductions, parameter gradients, tables. -/
def Env.headResult (e : Env) (r : Rets) : Result :=
  let d := e.d
  if chainReduce d.chain then e.reduceResult r
  else if d.chain = 29 ∨ (33 ≤ d.chain ∧ d.chain ≤ 35) then e.channelResult r
  else if chainQuant d.chain then e.tableResult r
  else {}

/-- The outputs of chains 1 to 40 from the returns: the held elements, and the head's part. -/
def Env.finish (e : Env) (r : Rets) (owned : List (Nat × Nat)) (head : Bool) : Result :=
  (e.ownResult r (intervalElems owned)).add (if head then e.headResult r else {})

/-- Does a descriptor with an empty extent still write empty results (R84, R190)? -/
def writesEmpty (d : Desc) : Bool :=
  let zero := fun k => d.e k == 0
  match d.chain with
  | 22 | 25 => zero 0 && !(zero 1 || zero 2 || zero 3 || zero 4)
  | 23 => zero 1 && !(zero 0 || zero 2 || zero 3 || zero 4)
  | 24 => true
  | 33 | 34 => !(zero 0)
  | 35 => !(zero 1 || zero 2)
  | _ => false

/-- The empty results of R84: written by the head from no element. -/
def Env.emptyResult (e : Env) : Result := if writesEmpty e.d then e.headResult [] else {}

end Sys2Proof.Machine
end

