-- ==== Sys2Proof/Machine/Optimiser.lean ====
section
/-! DEFINITION. Chains 41 to 48 (10_): the update operations, CHECK_WORKING, the tree image and its descent, and the
shavings tokens. -/

namespace Sys2Proof.Machine

/-! ### The update operations (R249 to R252) -/

/-- The per-descriptor constants of R249: omb1, omb2, bc1, bc2, c. -/
structure OptConst where
  omb1 : Val
  omb2 : Val
  bc1 : Val
  bc2 : Val
  c : Val
  fl : Flags
  deriving DecidableEq, Repr, Inhabited

/-- rn32(1 - x). -/
def oneMinus (x : Val) : Val × Flags := rnaAdd .fp32 one x.neg

/-- The constants of R249. -/
def Env.optConst (e : Env) : OptConst :=
  let h := e.hyper
  let b1 := val32 h.beta1
  let b2 := val32 h.beta2
  let t := Val.ofRat (e.d.step : Rat)
  let adam := e.d.chain == 41
  let pw := fun b => let p := rnVal .fp32 true (powExact b t).1; let q := oneMinus p.1; (q.1, p.2.or q.2)
  let o1 := oneMinus b1
  let o2 := if e.d.chain = 42 then (one, noFlags) else oneMinus b2
  let p1 := if adam then pw b1 else (one, noFlags)
  let p2 := if adam then pw b2 else (one, noFlags)
  let mx := val32 h.maxNorm
  let gn := val32 h.gnorm
  let c := if mx.isZero ∨ gn.le mx then (one, noFlags) else
    let q := divExact mx gn
    let r := rnVal .fp32 true q.1
    (r.1, q.2.or r.2)
  { omb1 := o1.1, omb2 := o2.1, bc1 := p1.1, bc2 := p2.1, c := c.1,
    fl := ((o1.2.or o2.2).or (p1.2.or p2.2)).or c.2 }

/-- A plank tensor's element on plank `p`, an E4M3 moment scaled by its block (R250). -/
def Env.plankVal (e : Env) (t p i : Nat) : Val × Flags :=
  let h := e.hyper
  let l := h.layout e.d t p
  let k := placeOf e.d .t 0 i
  let v := decodeFmt l.fmt (e.codeAt l k.1 k.2)
  if t = 1 ∧ h.mFmt = 5 then
    let b := dirKey e.d .row i
    let s := e8m0Value (e.rd h.stateK (h.tensor 3 p + b.1 * blocks32 (e.d.e 0) + b.2 / 32)).toNat
    scaleIn 0 (s, noFlags) v
  else v

/-- rn32 of an exact value with its invalid mark. -/
def rn32X (x : Addend) : Val × Flags := rnaX .fp32 x

/-- rnw of an exact value: the code written, its value and the flags (R250, R251): rn32, or the pair of R53 with SAT applied to hi. -/
def Env.rnw (e : Env) (x : Addend) : Nat × Val × Flags :=
  let f := e.hyper.fmtOf e.d 0
  let r := rnfmt f (if f = .fp32p then e.d.ieee else true) (.val x.1)
  (r.1, (decodeFmt f r.1).1, r.2.or { inv := x.2 })

/-- New moment m1, second moment v1, and master w1 with its code, of one element, with the flags (R250). -/
def Env.update (e : Env) (k : OptConst) (i : Nat) : Val × Val × (Nat × Val) × Flags :=
  let h := e.hyper
  let cur := e.plank.cur
  let x := e.raw sIn i
  let w := e.plankVal 0 cur i
  let m := e.plankVal 1 cur i
  let b1 := xOf (val32 h.beta1)
  let b2 := xOf (val32 h.beta2)
  let lr := xOf (val32 h.lr)
  let wd := xOf (val32 h.wd)
  let g := rn32X (xMul (xMul (xOf x.1) (xOf (val32 h.gradScale))) (xOf k.c))
  let fl0 := ((x.2.or w.2).or m.2).or g.2
  let lin := fun (a p b q : Addend) => xAdd (xMul a p) (xMul b q)
  let step := fun (u : Val) => e.rnw (xAdd (xOf w.1) (xNeg (xMul lr (xAdd (xOf u) (xMul wd (xOf w.1))))))
  if e.d.chain = 42 then
    let m1 := rn32X (xAdd (xAdd (xMul b1 (xOf m.1)) (xOf g.1)) (xMul wd (xOf w.1)))
    let w1 := e.rnw (xAdd (xOf w.1) (xNeg (xMul lr (xOf m1.1))))
    (m1.1, .zero false, (w1.1, w1.2.1), (fl0.or m1.2).or w1.2.2)
  else if e.d.chain = 43 then
    let s := lin b1 (xOf m.1) (xOf k.omb1) (xOf g.1)
    let u : Val := match s.1 with
      | .nan => .nan
      | .zero _ => .zero false
      | v => if v.isNeg then .num (-1) else one
    let m1 := rn32X (lin b2 (xOf m.1) (xOf k.omb2) (xOf g.1))
    let w1 := step u
    (m1.1, .zero false, (w1.1, w1.2.1), ((fl0.or { inv := s.2 }).or m1.2).or w1.2.2)
  else
    let v := e.plankVal 2 cur i
    let m1 := rn32X (lin b1 (xOf m.1) (xOf k.omb1) (xOf g.1))
    let v1 := rn32X (xAdd (xMul b2 (xOf v.1)) (xMul (xMul (xOf k.omb2) (xOf g.1)) (xOf g.1)))
    let dv := fun (a b : Val) => let q := divExact a b; let r := rnVal .fp32 true q.1; (r.1, q.2.or r.2)
    let mh := dv m1.1 k.bc1
    let vh := dv v1.1 k.bc2
    let root := rootExact false vh.1
    let eps := val32 e.d.eps
    let den : Val × Flags := match root.1 with
      | .val r => let a := rnaAdd .fp32 r eps; (a.1, root.2.or a.2)
      | .real en => rnVal .fp32 true (.real fun p => Span.add (en p) (Span.pt eps.rat))
    let u := if den.1 = .zero false then (Val.zero false, noFlags) else dv mh.1 den.1
    let w1 := step u.1
    (m1.1, v1.1, (w1.1, w1.2.1), ((((fl0.or v.2).or (m1.2.or v1.2)).or (mh.2.or vh.2)).or (den.2.or u.2)).or w1.2.2)

/-- The pieces of a staged plank tensor from its codes in linear order. -/
def Env.plankPieces (e : Env) (tag t : Nat) (es : List Nat) (codes : List Nat) : List Piece :=
  packPieces tag (e.hyper.layout e.d t (1 - e.plank.cur))
    ((es.zip codes).map fun x => let p := placeOf e.d .t 0 x.1; (p.1, p.2, x.2))

/-- The E4M3 moment of a block run: codes, E8M0 codes, flags, clips, zero blocks (R251). -/
def momentBlock (ieee : Bool) (ms : List Val) : List Nat × Nat × Flags × Counts :=
  let b := gaugeBlock .e4m3 (gaugeMax ms)
  let cs := ms.map fun m => if b.2 then (0, noFlags, false) else quantCode .e4m3 ieee 0 (e8m0Value b.1) m
  (cs.map (·.1), b.1, cs.foldl (fun f x => f.or x.2.1) noFlags,
    { clip := (cs.filter fun x => x.2.2).length, flat := b2n b.2 })

/-- The staged plank and the working copy of the elements held, in ascending order (R251, R252); the blocks of an E4M3
moment are those whose first element is held. -/
def Env.optResult (e : Env) (es : List Nat) : Result :=
  let d := e.d
  let h := e.hyper
  let k := e.optConst
  let us := es.map (e.update k)
  let fl := us.foldl (fun f x => f.or x.2.2.2) k.fl
  let st := fun (f : Fmt) (v : Val) => rnfmt f d.ieee (.val v)
  let master := us.map fun x => x.2.2.1.1
  let wf := d.fmt sOut
  let work := us.map fun x => if wf.isW8 then quantCode wf d.ieee 0 (val32 h.wscale) x.2.2.1.2
    else let c := st wf x.2.2.1.2; (c.1, c.2, false)
  let vm := if h.has d 2 then us.map fun x => st (h.fmtOf d 2) x.2.1 else []
  let n := d.e 0
  let first := fun (i : Nat) => if n = 0 then 0 else i % n
  let blocks := if h.mFmt = 5 then
      (es.filter fun i => first i % 32 == 0).map fun i =>
        let j := first i / 32
        ((dirKey d .row i).1 * blocks32 n + j,
          momentBlock d.ieee ((List.range (min 32 (n - 32 * j))).map fun q => (e.update k (i + q)).1))
    else []
  let mom := if h.mFmt = 5 then [] else us.map fun x => st (h.fmtOf d 1) x.1
  let mcodes := if h.mFmt = 5 then blocks.flatMap fun b => b.2.1 else mom.map (·.1)
  let sp := 1 - e.plank.cur
  { pieces := e.plankPieces 10 0 es master ++ e.plankPieces 11 1 es mcodes ++ e.plankPieces 12 2 es (vm.map (·.1)) ++
      (blocks.map fun b => { tag := 13, kind := h.stateK, addr := h.tensor 3 sp + b.1, off := b.1, bytes := natLE 1 b.2.2.1 }) ++
      packPieces 1 (e.lay sOut) ((es.zip work).map fun x => let p := placeOf d .t 0 x.1; (p.1, p.2, x.2.1)),
    fl := (work.foldl (fun f x => f.or x.2.1) ((vm ++ mom).foldl (fun f x => f.or x.2) fl)).or
      (blocks.foldl (fun f b => f.or b.2.2.2.1) noFlags),
    counts := (blocks.foldl (fun (c : Counts) b => c.add b.2.2.2.2) {}).add { clip := (work.filter fun x => x.2.2).length } }

/-- CHECK_WORKING: the mismatching elements of those held (R255). -/
def Env.driftOf (e : Env) (es : List Nat) : Nat :=
  (es.filter fun i => e.code sX1 i != (rnfmt (e.d.fmt sX1) e.d.ieee (.val (e.raw sIn i).1)).1).length

/-! ### The byte string of a stream (R263) -/

/-- The bytes of a layout's rows in ascending linear row order. -/
def Env.streamBytes (e : Env) (l : Layout) : List Byte :=
  if l.isEmpty then []
  else (List.range l.rows).flatMap fun r =>
    if l.kind = 2 then (List.range l.len).flatMap fun p => natLE 4 (e.tap r p)
    else e.bytes l.kind (l.row r) l.rowBytes

/-! ### DIGEST and DIGEST_LOCATE (R268, R270) -/

/-- The nodes of a tree over `n` bytes: per level. -/
def nodeCounts (n : Nat) : Nat → List Nat
  | 0 => []
  | f + 1 => if n = 0 then [] else if n = 1 then [1] else n :: nodeCounts (ceilDiv n 16) f

/-- Bytes of the tree image of an input of `n` bytes (R268). -/
def treeBytes (n : Nat) : Nat := 64 + 16 * (nodeCounts (ceilDiv n 4096) 15).sum

/-- The tree image over the level-0 values of a byte string of `total` bytes (Table 10.4). -/
def treeImage (step total : Nat) (leaves : List (List Byte)) : List Byte :=
  let lv := if leaves.isEmpty then [] else treeLevels 15 0 leaves
  natLE 2 1 ++ natLE 1 lv.length ++ zeros 5 ++ natLE 8 total ++ natLE 8 leaves.length ++ natLE 4 step ++ zeros 4 ++
    digestOfLeaves leaves ++ zeros 16 ++ (lv.flatMap fun l => l.flatten)

/-- The image offset at which each level's nodes begin, for `n` segments. -/
def levelOffsets (counts : List Nat) : List Nat :=
  (counts.foldl (fun (s : Nat × List Nat) c => (s.1 + 16 * c, s.2 ++ [s.1])) (64, [])).2

/-- The entries of the descent from the differing nodes `ds` of level `k` (R270): level and index. -/
def descend (a b : Nat → Nat → List Byte) (counts : List Nat) : Nat → List Nat → List (Nat × Nat)
  | 0, ds => ds.map fun i => (0, i)
  | k + 1, ds =>
    let kids := ds.map fun i => (i, ((List.range 16).map (16 * i + ·)).filter fun j => decide (j < counts.getD k 0) && a k j != b k j)
    ((kids.filter fun x => x.2.isEmpty).map fun x => (k + 1, x.1)) ++ descend a b counts k (kids.flatMap (·.2))

/-- Entries in ascending level, then ascending index. -/
def insertEntry (x : Nat × Nat) : List (Nat × Nat) → List (Nat × Nat)
  | [] => [x]
  | y :: l => if x.1 < y.1 ∨ (x.1 = y.1 ∧ x.2 ≤ y.2) then x :: y :: l else y :: insertEntry x l

/-- Does a pair of tree headers differ in VERSION, LEVELS, TENSOR_BYTES or SEGMENTS (R270)? -/
def headersDiffer (a b : List Byte) : Bool :=
  sliceOf a 0 3 != sliceOf b 0 3 || sliceOf a 8 16 != sliceOf b 8 16

/-- The child groups that a descent from the differing nodes `ds` of level `k` reads: offset and bytes in both images; it goes on
below those read already (R270). -/
def groupsRead (known : Nat → Nat → Bool) (a b : Nat → List Byte) (counts offs : List Nat) : Nat → List Nat → List (Nat × Nat)
  | 0, _ => []
  | k + 1, ds =>
    let gs := ds.map fun i => (offs.getD k 64 + 256 * i, 16 * min 16 (counts.getD k 0 - 16 * i))
    let kids := ds.flatMap fun i => ((List.range 16).map (16 * i + ·)).filter fun j =>
      decide (j < counts.getD k 0) && a (offs.getD k 64 + 16 * j) != b (offs.getD k 64 + 16 * j)
    gs ++ (if gs.all fun g => known g.1 g.2 then groupsRead known a b counts offs k kids else [])

/-- What DIGEST_LOCATE reads of each of its images: the header, the top node, the children of every differing node (R270). -/
def locateReads (known : Nat → Nat → Bool) (a b : Nat → List Byte) (segs : Nat) : List (Nat × Nat) :=
  let counts := nodeCounts segs 15
  let offs := levelOffsets counts
  let top := offs.getD (counts.length - 1) 64
  if counts.isEmpty then [(0, 64)]
  else (0, 64) :: (top, 16) ::
    (if known top 16 && a top != b top then groupsRead known a b counts offs (counts.length - 1) [0] else [])

/-- The entries of the segment list DIGEST_LOCATE writes, in order (R270), from readers of the two images' nodes. -/
def locateEntries (a b : Nat → List Byte) (segs : Nat) : List (Nat × Nat) :=
  let counts := nodeCounts segs 15
  let offs := levelOffsets counts
  let top := counts.length
  let na := fun k j => a (offs.getD k 64 + 16 * j)
  let nb := fun k j => b (offs.getD k 64 + 16 * j)
  (if top = 0 then [] else if na (top - 1) 0 = nb (top - 1) 0 then [] else descend na nb counts (top - 1) [0]).foldr insertEntry []

/-- The 16-byte node at an offset of a tree image stream. -/
def Env.node (e : Env) (s off : Nat) : List Byte := e.bytes (e.d.kind s) (e.d.addr s + off) 16

/-- DIGEST_LOCATE over the entry positions held, `segs` the SEGMENTS of the images: COUNT with position 0, then the entries, 0 beyond
the last (R270). -/
def Env.locateResult (e : Env) (segs : Nat) (owned : List (Nat × Nat)) : Result :=
  let d := e.d
  let ents := locateEntries (e.node sIn) (e.node sX1) segs
  let entry := fun n => match ents[n]? with | some x => natLE 8 (x.2 + x.1 * 2 ^ 56) | none => natLE 8 0
  { pieces := owned.map fun w =>
      let off := if w.1 = 0 then 0 else 8 + 8 * w.1
      { tag := 1, kind := d.kind sOut, addr := d.addr sOut + off, off := off,
        bytes := (if w.1 = 0 then natLE 8 ents.length else []) ++ (List.range (w.2 - w.1)).flatMap fun i => entry (w.1 + i) } }

/-- DIGEST's tree image over the level-0 values of IN (R268). -/
def Env.treeResult (e : Env) (total : Nat) (leaves : List (List Byte)) : Result :=
  { pieces := [{ tag := 1, kind := e.d.kind sOut, addr := e.d.addr sOut, off := 0, bytes := treeImage e.d.step total leaves }] }

/-- Does the digest interval skip the descriptor (R269)? -/
def digestSkipped (d : Desc) (digestN : Nat) : Bool := d.chain == 47 && digestN ≥ 1 && d.step % digestN != 0

/-! ### Shavings (R258 to R262) -/

/-- A run of equal class taken from the front: zero words or non-zero words, at most 128. -/
def takeRun (zero : Bool) : Nat → List Nat → List Nat × List Nat
  | 0, l => ([], l)
  | _, [] => ([], [])
  | f + 1, w :: l => if (w == 0) == zero then let r := takeRun zero f l; (w :: r.1, r.2) else ([], w :: l)

/-- The tokens of a word string (R260). -/
def tokens : Nat → List Nat → List Byte
  | 0, _ => []
  | _, [] => []
  | f + 1, w :: l =>
    let r := takeRun (w == 0) 128 (w :: l)
    (if w = 0 then natLE 1 (r.1.length - 1) else natLE 1 (0x80 + (r.1.length - 1)) ++ r.1.flatMap (natLE 4)) ++ tokens f r.2

/-- The XOR words of two segments. -/
def xorWords (a b : List Byte) : List Nat := (chunksOf 4 (List.zipWith (· ^^^ ·) a b)).map leNat

/-- A shavings header (Table 10.3). -/
def shaveHeader (kind scope bytes tensor step seg payload segBytes seq : Nat) : List Byte :=
  natLE 1 kind ++ natLE 1 scope ++ zeros 2 ++ natLE 4 bytes ++ natLE 4 tensor ++ natLE 4 step ++ natLE 8 seg ++
    natLE 2 payload ++ natLE 2 segBytes ++ natLE 4 seq

/-- The SEGMENT record of one segment, none when nothing changed (R258 to R260). -/
def segmentRecord (tensor step seq seg : Nat) (old new : List Byte) : Option (List Byte) :=
  let ws := xorWords old new
  if ws.all (· == 0) then none
  else
    let p := tokens (ws.length + 1) ws
    let n := roundUp (32 + p.length) 32
    some (padTo n (shaveHeader 1 0 n tensor step seg p.length old.length seq ++ p))

/-- Every SEGMENT record of an update, in ascending segment order (R258). -/
def segmentRecords (tensor step seq : Nat) (old new : List Byte) : List (List Byte) :=
  ((segmentsOf old).zip (segmentsOf new)).zipIdx.filterMap fun x => segmentRecord tensor step seq x.2 x.1.1 x.1.2

/-- A RETRACT record of the shavings ring (R262). -/
def shaveRetract (scope step seq : Nat) : List Byte := shaveHeader 2 scope 32 0xFFFFFFFF step 0 0 0 seq

end Sys2Proof.Machine
end

