-- ==== Sys2Proof/Machine/Validate.lean ====
section
/-! DEFINITION. The checks of Table 3.6 that look at the descriptor and its blocks alone (03_ R76 to R82, R93, with the
constraints that 05_ to 11_ place under checks 2, 4, 5 and 6). Checks 0, 7 and 8 are the foreman's (Foreman.lean). -/

namespace Sys2Proof.Machine

/-- What the checks know of the channel and the instance: plumb or not, the executing gang's members and bays, its smallest
reserve, the curves present and whether every member has them, GREEN_OK, and the two ring blocks. -/
structure VCtx where
  plumb : Bool
  members : Nat
  bays : Nat
  reserve : Nat
  curves : Nat
  curvesAgree : Bool
  greenOk : Bool
  pole : Nat
  offcut : Nat
  peersBad : Bool := false
  deriving DecidableEq, Repr, Inhabited

/-- The blocks read at validation, by number: 0 stride, 1 scale, 2 plank, 3 hyper, 4 story-pole ring, 5 offcut ring,
6 and 7 the headers of the two tree images. -/
abbrev Blocks := List (Nat × List Byte)

/-- A block's bytes, empty when it was not read. -/
def blockOf (b : Blocks) (n : Nat) : List Byte := (b.lookup n).getD []

/-- The blocks a descriptor needs before checks 2 to 8: number, kind, address, bytes (R82, R199, R248, R270, R288). -/
def neededBlocks (d : Desc) (v : VCtx) : List (Nat × Nat × Nat × Nat) :=
  (if d.strideP ≠ 0 then [(0, d.strideK, d.strideP, 160)] else []) ++
  (if d.scaleP ≠ 0 then [(1, d.scaleK, d.scaleP, scaleBytes d)] else []) ++
  (if 41 ≤ d.chain ∧ d.chain ≤ 43 then [(2, d.kind sX1, d.addr sX1, 32), (3, d.kind sX2, d.addr sX2, 128)] else []) ++
  (if d.ledger ∧ v.pole ≠ 0 then [(4, 0, v.pole, 32)] else []) ++
  (if d.capture ∧ v.offcut ≠ 0 then [(5, 0, v.offcut, 32)] else []) ++
  (if d.chain = 48 then [(6, d.kind sIn, d.addr sIn, 64), (7, d.kind sX1, d.addr sX1, 64)] else [])

/-- The stride entries of a stride block, none when the streams are dense (R80). -/
def stridesOf (d : Desc) (b : Blocks) : Option (List Nat) :=
  if d.strideP = 0 then none else some ((chunksOf 8 (blockOf b 0)).map fun w => leNat (w.take 6))

/-- The environment of a validated descriptor over given bytes, with the work intervals held. -/
def envOf (d : Desc) (b : Blocks) (curve : Option Curve) (bays : Nat) (rd : Nat → Nat → Byte) (tap : Nat → Nat → Nat)
    (own : List (Nat × Nat)) : Env :=
  { d := d, strides := stridesOf d b, scale := ScaleBlock.parse d.hw (blockOf b 1), plank := Plank.parse (blockOf b 2),
    hyper := Hyper.parse (blockOf b 3), curve := curve, bays := bays, rd := rd, tap := tap, own := own }

/-! ### Check 2 without blocks (R46, R75, R76, R104, R131, R143 to R150, R157, R176, R195, R225, R226) -/

/-- The single-operand opcodes U of R225. -/
def isU (op : Nat) : Bool := (isBuiltIn op && op != 0x09 && op != 0x0C) || op == opConvert || op == opCurve

/-- The two-operand opcodes of R225. -/
def isBin (op : Nat) : Bool := [0x09, 0x0C, 0x21, 0x22, 0x23, 0x24].contains op

/-- Is OP_A unacceptable to the chain (R225)? -/
def badOpA (d : Desc) : Bool :=
  match d.chain with
  | 1 | 2 | 5 | 8 | 13 | 25 | 27 | 39 => !(isU d.opA)
  | 7 | 28 => !(isU d.opA || d.opA == 0)
  | 3 | 4 => !(isBin d.opA)
  | _ => d.opA != 0

/-- Is OP_B unacceptable to the chain (R225)? -/
def badOpB (d : Desc) : Bool :=
  match d.chain with
  | 2 | 4 => !(isU d.opB)
  | 5 => !(isBin d.opB)
  | _ => d.opB != 0

/-- Does the body contain CURVE? -/
def usesCurve (d : Desc) : Bool := d.opA == opCurve || d.opB == opCurve

/-- The operand formats of the CURVE steps (R131). -/
def curveOperands (d : Desc) : List Fmt :=
  let direct := d.chain == 1 || d.chain == 2 || d.chain == 5 || d.chain == 13 || d.chain == 25 || d.chain == 27 || d.chain == 39
  (if d.opA = opCurve then [if direct then d.fmt sIn else jointTo d] else []) ++
    (if d.opB = opCurve then [jointTo d] else [])

/-- Do the CURVE steps break R131? -/
def badCurve (d : Desc) (v : VCtx) : Bool :=
  usesCurve d && ((curveOperands d).any (·.isWide) || !(bitOf v.curves d.curveId) || (decide (1 < v.members) && !v.curvesAgree))

/-- Does a stream of the descriptor break its format, kind or presence rules (R46, R76, R77, Table 9.1)? -/
def badStream (d : Desc) (s : Nat) : Bool :=
  match chainRole d s with
  | none => d.kind s != 3 || d.fmtCode s != 0 || d.addr s != 0
  | some r =>
    (Fmt.ofCode (d.fmtCode s)).isNone ||
    (d.kind s == 3 && !r.opt) ||
    (d.kind s == 2 && (s != sIn || !(chainTap d.chain) || d.fmtCode s != 0 || d.addr s != 0))

/-- Addends an element of a reduced row gives the sum that takes most (R148, R150): one under FOLD and CANON (R158), else two of an
FP32P value and four of its square, the deviations and exponentials of an FP32P accumulation included. The squares of VAR count four by R148,
where R171 lists the intake of two (log 77, DEDUCED). -/
def addendsPer (d : Desc) : Nat :=
  let wide := if d.red = 4 ∨ d.red = 10 then accFmt d == .fp32p else d.fmt sIn == .fp32p
  if d.rmode = 1 ∨ d.rmode = 2 ∨ !wide then 1 else if d.red = 2 ∨ d.red = 5 ∨ d.red = 4 then 4 else 2

/-- Are the reduction fields unacceptable (R143, R145, R146, R150, R223)? -/
def badRed (d : Desc) : Bool :=
  if chainReduce d.chain then
    let arg := d.red == 8 || d.red == 9
    let topk := d.red == 11
    d.red == 0 || 12 ≤ d.red || ((arg || topk) && d.chain == 24) ||
      (if topk then d.k == 0 || 64 < d.k else d.k != 0) ||
      (d.has sX1 != (arg || topk)) || (d.has sOut == arg) || (d.has sX1 && d.fmtCode sX1 != 0) ||
      (d.chain == 24 && !(6 ≤ d.red && d.red ≤ 9) && d.red != 11 && decide (2 ^ 63 < elemCount d * addendsPer d))
  else d.red != 0 || d.k != 0

/-- Would a sum need an addend that is not FP32-domain (R157, R177)? -/
def badDomain (d : Desc) : Bool :=
  (d.rmode == 0 || d.rmode == 3) &&
  (if chainReduce d.chain then
    let joint := if d.chain = 25 then jointTo d else d.fmt sIn
    if d.red = 4 ∨ d.red = 10 then accFmt d == .fp64
    else if d.red = 1 ∨ d.red = 2 ∨ d.red = 3 ∨ d.red = 5 then joint == .fp64
    else false
  else if d.chain = 29 then false
  else chainSums d.chain && (accFmt d == .fp64 || (d.chain == 18 && jointTo d == .fp64)))

/-- Does the chain take SPILL_PTR (Table 9.3)? -/
def takesSpill (d : Desc) : Bool :=
  (14 ≤ d.chain && d.chain ≤ 21) || (chainReduce d.chain && (d.red == 4 || d.red == 10)) || (26 ≤ d.chain && d.chain ≤ 28) ||
    (30 ≤ d.chain && d.chain ≤ 37)

/-- Do the fields used by chain (Table 9.3) break their rules? HW_COUNT is not listed for chain 29 (R224; log 26, DEDUCED). -/
def badFields (d : Desc) : Bool :=
  let q := chainQuant d.chain || d.chain == 29
  (!(d.chain == 12 || d.chain == 13) && d.fill != 0) ||
  (if chainEps d.chain then !(finiteNonneg32 d.eps) else d.eps != 0) ||
  (!(chainQuant d.chain) && d.clipLimit != 0) ||
  (!(usesCurve d) && d.curveId != 0) ||
  (!(chainSums d.chain) && (d.rmode != 0 || d.fold != 0)) ||
  (d.fold != 0 && d.rmode != 1) ||
  (chainJoints d == 0 && d.lapped) ||
  (q && d.scaleP == 0) ||
  (!q && !(chainTap d.chain) && (d.scaleP != 0 || d.scaleK != 0)) ||
  (!q && d.grain != 0) || d.grain == 3 ||
  (!(chainQuant d.chain) && (d.gaugeP != 0 || d.gaugeK != 0)) ||
  (!q && d.zpRaw != 0) || (!(chainQuant d.chain) && d.hw != 0) || 64 < d.hw ||
  (d.folded && (!(chainTap d.chain) || d.scaleP == 0)) ||
  (!(takesSpill d) && (d.spillP != 0 || d.spillK != 0)) ||
  d.cmplK == 3 || (d.cmplK == 2 && d.cmplP != 0) || (d.ledgerIn && !d.ledger)

/-- Do the formats break a chain's own constraints (R195, R226, R245 to R248, R255, R256, R268, R270)? -/
def badFormats (d : Desc) (v : VCtx) : Bool :=
  let fmts := streamFmts d
  let inF := d.fmt sIn
  let outF := d.fmt sOut
  (d.chain == 12 || d.chain == 13) && d.fmtCode sX1 != 0 ||
  (11 ≤ d.chain && d.chain ≤ 13) && decide (d.rank < 2) ||
  (d.chain == 12 || d.chain == 13) && decide (d.rank < 3) ||
  (chainQuant d.chain || d.chain == 29) && fmts.any (·.isWide) ||
  chainQuant d.chain && !(outF == .fp16 || outF == .bf16 || outF.isW8) ||
  d.lapped && fmts.contains .fp64 ||
  chainSend d.chain && (decide (v.members < 2) || d.kind sOut != 1) ||
  (33 ≤ d.chain && d.chain ≤ 35) && !(d.has sOut || d.has sX2) ||
  d.chain == 40 && (!(outF == .bf16 || outF == .fp16) || !(inF == .fp32)) ||
  (41 ≤ d.chain && d.chain ≤ 46 && d.chain != 44) && (d.fmtCode sX1 != 0 || !(d.kind sX1 == 0 || d.kind sX1 == 1)) ||
  (41 ≤ d.chain && d.chain ≤ 43) && (d.fmtCode sX2 != 0 || inF.isWide || outF.isWide) ||
  d.chain == 44 && (!(inF == .fp32 || inF == .fp32p) || !(d.fmt sX1 == .fp32 || d.fmt sX1 == .fp16 || d.fmt sX1 == .bf16)) ||
  d.chain == 47 && d.fmtCode sOut != 0 ||
  d.chain == 48 && (d.fmtCode sOut != 0 || d.rank != 1)

/-- Check 2 of Table 3.6, as far as it needs no block. -/
def checkStatic (d : Desc) (v : VCtx) : Bool :=
  d.rank == 0 || 5 < d.rank || d.resCtrl || d.resOpw || d.resTail ||
  (d.ext.zipIdx.any fun x => d.rank ≤ x.2 && x.1 != 0) ||
  ((List.range 5).any (badStream d)) || badOpA d || badOpB d || badCurve d v || badRed d || badDomain d || badFields d ||
  badFormats d v || (d.ledger && v.pole == 0) || (d.capture && (v.offcut == 0 || v.peersBad))

/-! ### Check 2 over the blocks (R80, R196, R199, R218, R226, R248, R287) -/

/-- Does the stride block use a reserved bit or entry (R80)? -/
def badStrides (d : Desc) (b : List Byte) : Bool :=
  (List.range 20).any fun n =>
    let s := n / 4
    let k := n % 4 + 1
    let used := d.has s && d.kind s != 2 &&
      (match chainRole d s with
       | some r => (usedDims d r.shape).contains k
       | none => false)
    fieldAt b (8 * n + 6) 2 != 0 || (!used && fieldAt b (8 * n) 8 != 0)

/-- Is a zero point outside its format's range (R196)? -/
def badZp (f : Fmt) (z : Int) : Bool := f == .int4 && (decide (z < -8) || decide (7 < z))

/-- Does the scale block break check 2 (R195, R196, R197, R199, R218, R226)? CH_DIM = 1 with RANK 1 and an IN_ZP in range beside an
input that is not scaled are in no list of these rules, and pass. -/
def badScale (d : Desc) (s : ScaleBlock) : Bool :=
  let q := chainQuant d.chain
  let out := q || d.chain == 29
  let outF := d.fmt sOut
  let zpOk := out && s.role == 1 && outF.isInt
  let C := chanExtent d s.chDim
  s.resQ || s.resTail || 2 ≤ s.gauge || s.inGrain == 3 || s.gmode == 3 ||
  -- the output side (R195, R196)
  (!out && (s.outT != 0 || s.gscale != 0 || s.sideFmt != 0 || s.outSc != 0 || s.side != 0 || s.gauge != 0 || s.chDim != 0 ||
    s.role != 0 || s.outScK != 0 || s.sideK != 0 || s.gmode != 0)) ||
  (if zpOk then badZp outF d.zp else d.zpRaw != 0) ||
  (d.chain != 29 && s.gscale != 0) ||
  (s.fromGauge && (s.outT != 0 || d.zpRaw != 0)) ||
  (out && d.grain == 0 && !s.fromGauge && s.outSc != 0) ||
  -- heartwood
  (if d.hw = 0 then s.sideFmt != 0 || s.side != 0 else !(s.sideFmt == 0 || s.sideFmt == 4) || 2 ≤ s.role) ||
  !(ascending s.hwList) || (s.hwList.any fun c => C ≤ c) ||
  -- the gauge table
  ((s.gmode != 0) != (d.gaugeP != 0)) ||
  -- the input side (R195, R196)
  (if inputScaled d then
     (s.inGrain == 2 && !((d.fmt sIn).isW8)) || (d.folded && (s.inGrain != 1 || s.inSc != 0)) ||
     ((s.inGrain == 0) && s.inSc != 0)
   else s.inT != 0x3F800000 || s.inSc != 0 || s.inGrain != 0 || d.folded) ||
  (if inZpUsed d s then badZp (d.fmt sIn) (signedOf 8 s.inZp) else s.inZp != 0) ||
  -- chains 15, 17 and 29
  ((d.chain == 15 || d.chain == 17) && s.fromGauge && !(d.grain == 2 || (d.grain == 1 && s.chDim == 1))) ||
  (d.chain == 29 && (s.fromGauge || d.grain == 2))

/-! ### Ranges (R81, check 6) -/

/-- A byte range of a descriptor: kind, address, length, whether it is written, and the stream it belongs to
(9 for none). -/
structure Rng where
  kind : Nat
  addr : Nat
  len : Nat
  out : Bool
  tag : Nat
  deriving DecidableEq, Repr, Inhabited

/-- Bytes of IN's byte string. -/
def inBytes (d : Desc) (b : Blocks) : Nat :=
  let l := layoutOf d (stridesOf d b) 0 sIn .t
  if l.isEmpty then 0 else l.rowBytes * l.rows

/-- The range of one stream. -/
def streamRange (d : Desc) (b : Blocks) (chDim s : Nat) : List Rng :=
  match chainRole d s with
  | none => []
  | some r =>
    if d.kind s = 3 ∨ d.kind s = 2 then []
    else
      let len := match r.shape with
        | .treeOut => treeBytes (inBytes d b)
        | .treeIn => treeBytes (fieldAt (blockOf b (if s = sIn then 6 else 7)) 8 8)
        | .locate => 8 + 8 * d.e 0
        | sh => (layoutOf d (stridesOf d b) chDim s sh).span
      [{ kind := d.kind s, addr := d.addr s, len := len, out := r.out, tag := s }]

/-- Is the input's scale table read, at whatever address (R197, R200)? -/
def inTableUsed (d : Desc) (s : ScaleBlock) : Bool := inputScaled d && !d.folded && s.inGrain != 0

/-- Is the output's scale table read or written (R197, R198)? -/
def outTableUsed (d : Desc) (s : ScaleBlock) : Bool := (chainQuant d.chain || d.chain == 29) && (d.grain != 0 || s.fromGauge)

/-- Every range of a descriptor beyond its streams; of the current plank the working copy too (R81, R88, R198, R243, R245, R247). -/
def otherRanges (d : Desc) (b : Blocks) : List Rng :=
  let s := ScaleBlock.parse d.hw (blockOf b 1)
  let h := Hyper.parse (blockOf b 3)
  let p := Plank.parse (blockOf b 2)
  let mk := fun (kind addr len : Nat) (out : Bool) => ({ kind := kind, addr := addr, len := len, out := out, tag := 9 } : Rng)
  (if d.strideP ≠ 0 then [mk d.strideK d.strideP 160 false] else []) ++
  (if d.scaleP ≠ 0 then [mk d.scaleK d.scaleP (scaleBytes d) false] else []) ++
  (if inTableUsed d s then [mk s.inScK s.inSc (tableBytes d s.chDim s.inGrain) false] else []) ++
  (if outTableUsed d s then
    [mk s.outScK s.outSc (tableBytes d s.chDim d.grain) s.fromGauge] else []) ++
  (if chainQuant d.chain ∧ d.hw ≠ 0 then [mk s.sideK s.side (rowBytes s.sideFormat (sideCount d s)) true] else []) ++
  (if s.gmode ≠ 0 ∧ d.gaugeP ≠ 0 then [{ mk d.gaugeK d.gaugeP (4 * chanExtent d s.chDim) true with tag := 7 }] else []) ++
  (if takesSpill d ∧ d.spillP ≠ 0 then [mk d.spillK d.spillP (spillBytes d s) true] else []) ++
  (if 41 ≤ d.chain ∧ d.chain ≤ 43 then
    (([0, 1, 2, 3, 4].filter (h.has d)).map fun t => mk h.stateK (h.tensor t p.cur) (h.bytesOf d t) false) ++
      ([0, 1, 2, 3].filter (h.has d)).map fun t => mk h.stateK (h.tensor t (1 - p.cur)) (h.bytesOf d t) true
   else []) ++
  (if d.cmplK ≠ 2 then [mk d.cmplK d.cmplP 64 true] else [])

/-- Every range of a descriptor (R81). -/
def allRanges (d : Desc) (b : Blocks) : List Rng :=
  (List.range 5).flatMap (streamRange d b (ScaleBlock.parse d.hw (blockOf b 1)).chDim) ++ otherRanges d b

/-- Do two streams agree in address, format, shape and strides (R81)? -/
def sameStream (d : Desc) (b : Blocks) (s t : Nat) : Bool :=
  match chainRole d s, chainRole d t with
  | some x, some y =>
    x.shape == y.shape && d.kind s == d.kind t &&
      layoutOf d (stridesOf d b) 0 s x.shape == { layoutOf d (stridesOf d b) 0 t y.shape with kind := d.kind s }
  | _, _ => false

/-- Does an output lie in place on an input (R81, R226 item 8)? -/
def inPlace (d : Desc) (b : Blocks) : Bool :=
  let rs := (List.range 5).flatMap (streamRange d b 0)
  rs.any fun o => o.out && rs.any fun i => !i.out && o.kind == i.kind && rangesMeet o.addr o.len i.addr i.len && sameStream d b o.tag i.tag

/-- Does each dimension of more than one step leave room for what lies below it? Then no two rows overlap. -/
def nestedRows (l : Layout) : Bool :=
  let ds := l.dims.filter fun x => decide (1 < x.1)
  (ds.zip (l.rowBytes :: ds.map fun x => x.1 * x.2)).all fun x => decide (x.2 ≤ x.1.2)

/-- Do two rows of a stream overlap? -/
def rowsOverlap (l : Layout) : Bool :=
  (List.range l.rows).any fun a => (List.range a).any fun b => rangesMeet (l.row a) l.rowBytes (l.row b) l.rowBytes

/-- Do a stream's strides let output elements overlap (R81)? For every k with EXT_k > 1, S1 is at least the row bytes and S_k at least
EXT_(k-1) × S_(k-1). -/
def shortStrides (l : Layout) : Bool :=
  l.dims.any (fun x => decide (1 < x.1)) &&
    (decide ((l.dims.headD (1, 0)).2 < l.rowBytes) ||
     ((l.dims.drop 1).zip l.dims).any (fun x => decide (1 < x.1.1) && decide (x.1.2 < x.2.1 * x.2.2)) ||
     (!(nestedRows l) && rowsOverlap l))

/-- Does a range lie outside its space (check 6)? -/
def outOfSpace (yard kind addr len : Nat) : Bool :=
  if kind = 1 then decide (yard < addr + len) || (len == 0 && yard ≤ addr && 0 < addr) else decide (2 ^ 48 < addr + len)

/-- Do the ranges break R81? -/
def badOverlap (d : Desc) (b : Blocks) : Bool :=
  let rs := allRanges d b
  let outs := rs.filter (·.out)
  let ins := rs.filter fun r => !r.out
  (outs.zipIdx.any fun o =>
    (outs.zipIdx.any fun p => o.2 < p.2 && o.1.kind == p.1.kind && rangesMeet o.1.addr o.1.len p.1.addr p.1.len) ||
    (ins.any fun i => o.1.kind == i.kind && rangesMeet o.1.addr o.1.len i.addr i.len &&
      !(o.1.tag < 5 && i.tag < 5 && sameStream d b o.1.tag i.tag))) ||
  ((List.range 5).any fun s => match chainRole d s with
    | some r => r.out && d.has s && (r.shape == .t || r.shape == .tSwap || r.shape == .gathered || r.shape == .reduced) &&
        shortStrides (layoutOf d (stridesOf d b) 0 s r.shape)
    | none => false)

/-! ### The checks over blocks, in order -/

/-- Check 2 over the blocks read. -/
def checkBlocks (d : Desc) (b : Blocks) : Bool :=
  let p := Plank.parse (blockOf b 2)
  let h := Hyper.parse (blockOf b 3)
  (d.strideP != 0 && badStrides d (blockOf b 0)) ||
  (d.scaleP != 0 && badScale d (ScaleBlock.parse d.hw (blockOf b 1))) ||
  ((41 ≤ d.chain && d.chain ≤ 43) && (p.bad || h.bad d || d.step != (p.curStep + 1) % 2 ^ 32 || (d.chain == 41 && d.step == 0) ||
    (h.shave && p.bytes == 0))) ||
  (d.ledger && (RingBlock.parse (blockOf b 4)).unusable) ||
  (d.capture && (RingBlock.parse (blockOf b 5)).unusable) ||
  (d.chain == 48 && headersDiffer (blockOf b 6) (blockOf b 7)) ||
  (d.accum != inPlace d b)

/-- Check 4: the restrictions of a plumb channel (R93, R199, R248). -/
def checkPlumb (d : Desc) (v : VCtx) (b : Blocks) : Bool :=
  let s := ScaleBlock.parse d.hw (blockOf b 1)
  let h := Hyper.parse (blockOf b 3)
  let p := Plank.parse (blockOf b 2)
  v.plumb && (
    ((List.range 5).any fun k => match chainRole d k with
      | some r => d.has k && !(d.kind k == 1 || (!r.out && d.kind k == 2))
      | none => false) ||
    (d.scaleP != 0 && d.scaleK != 1) || (d.gaugeP != 0 && d.gaugeK != 1) || (d.strideP != 0 && d.strideK != 1) ||
    (d.spillP != 0 && d.spillK != 1) || d.cmplK == 0 || d.capture || d.ledger || chainSend d.chain ||
    (outTableUsed d s && s.outScK != 1) || (inTableUsed d s && s.inScK != 1) || (chainQuant d.chain && d.hw != 0 && s.sideK != 1) ||
    ((41 ≤ d.chain && d.chain ≤ 43) && (h.stateK != 1 || (h.shave && p.kind != 1))))

/-- The alignment of elements in bytes (R78). -/
def elemAlign (f : Fmt) : Nat := if f.bits < 8 then 1 else f.bits / 8

/-- Check 5: the alignments of R78. -/
def checkAlign (d : Desc) (b : Blocks) : Bool :=
  let s := ScaleBlock.parse d.hw (blockOf b 1)
  let h := Hyper.parse (blockOf b 3)
  let off := fun (a m : Nat) => a % m != 0
  ((List.range 5).any fun k => match chainRole d k with
    | some r =>
      d.has k && d.kind k != 2 &&
      (off (d.addr k) (match r.shape with | .plank => 32 | .hyper => 64 | .treeOut => 64 | .treeIn => 8 | .locate => 8 | _ => elemAlign (d.fmt k)) ||
       (match stridesOf d b with
        | some st => (usedDims d r.shape).any fun n => off (strideOf st k n) (elemAlign (d.fmt k))
        | none => false))
    | none => false) ||
  (d.cmplK != 2 && off d.cmplP 64) || off d.scaleP 64 || off d.strideP 32 || off d.gaugeP 32 || off d.spillP 32 ||
  (d.scaleP != 0 && (off s.outSc 32 || off s.inSc 32 || (d.hw != 0 && off s.side (elemAlign s.sideFormat)))) ||
  ((41 ≤ d.chain && d.chain ≤ 43) && ([0, 1, 2, 3, 4].filter (h.has d)).any fun t =>
    let m := if t = 3 then 1 else elemAlign (h.fmtOf d t)
    off (h.tensor t 0) m || off (h.tensor t 1) m)

/-- Check 6: the ranges, the two-pass form's spill region, and OUT of chains 41 to 43 (R81, R242, R248). -/
def checkAddr (d : Desc) (v : VCtx) (b : Blocks) : Bool :=
  let s := ScaleBlock.parse d.hw (blockOf b 1)
  let h := Hyper.parse (blockOf b 3)
  let p := Plank.parse (blockOf b 2)
  ((allRanges d b).any fun r => outOfSpace (v.bays * 2 ^ 20) r.kind r.addr r.len) || badOverlap d b ||
  (!(onePass d s v.bays v.reserve) && d.spillP == 0) ||
  ((41 ≤ d.chain && d.chain ≤ 43) && (d.addr sOut != h.tensor 4 (1 - p.cur) || d.kind sOut != h.stateK))

/-- Does the completion record's range overlap another range of the descriptor, as far as its blocks are read (R81, R101)? -/
def cmplOverlaps (d : Desc) (b : Blocks) : Bool :=
  d.cmplK != 2 && (allRanges d b).dropLast.any fun r => r.kind == d.cmplK && rangesMeet r.addr r.len d.cmplP 64

/-- Are a rejected descriptor's completion fields unusable, so that its record goes in the message (R101)? -/
def cmplUnusable (d : Desc) (b : Blocks) (yard : Nat) : Bool :=
  d.cmplK == 3 || (d.cmplK != 2 && (d.cmplP % 64 != 0 || outOfSpace yard d.cmplK d.cmplP 64)) || cmplOverlaps d b

/-- The STATUS codes of Table 3.8. -/
def stDone : Nat := 0x00
/-- STATUS SEASONING. -/
def stSeasoning : Nat := 0x01
/-- STATUS FAULT. -/
def stFault : Nat := 0x02
/-- STATUS BAD_CHAIN. -/
def stBadChain : Nat := 0x03
/-- STATUS BAD_DESC. -/
def stBadDesc : Nat := 0x04
/-- STATUS NOT_PERMITTED. -/
def stNotPermitted : Nat := 0x05
/-- STATUS BAD_SOURCE. -/
def stBadSource : Nat := 0x06
/-- STATUS BAD_ALIGN. -/
def stBadAlign : Nat := 0x07
/-- STATUS BAD_ADDR. -/
def stBadAddr : Nat := 0x08
/-- STATUS BAD_SEQ. -/
def stBadSeq : Nat := 0x09
/-- STATUS LATE. -/
def stLate : Nat := 0x0A
/-- STATUS STEP_MISMATCH. -/
def stStepMismatch : Nat := 0x0B
/-- STATUS ABORTED. -/
def stAborted : Nat := 0x0C
/-- STATUS BAD_CHANNEL. -/
def stBadChannel : Nat := 0x10
/-- STATUS NO_CREDIT. -/
def stNoCredit : Nat := 0x11
/-- STATUS BAD_DOORBELL. -/
def stBadDoorbell : Nat := 0x12

/-- Checks 1 and 2 before any block is read, and the range of every block (R82): the STATUS of the first failure. Where there are
several blocks, the range of each is tested before any is read, so BAD_ADDR of one precedes BAD_DESC of another's contents
(log 72, DEDUCED). -/
def validateHead (d : Desc) (v : VCtx) : Option Nat :=
  if d.chain = 0 ∨ 48 < d.chain then some stBadChain
  else if checkStatic d v then some stBadDesc
  else if (neededBlocks d v).any fun b => outOfSpace (v.bays * 2 ^ 20) b.2.1 b.2.2.1 b.2.2.2 then some stBadAddr
  else none

/-- Checks 2 to 6 once every block is read: the STATUS of the first failure. -/
def validateBlocks (d : Desc) (v : VCtx) (b : Blocks) : Option Nat :=
  if checkBlocks d b then some stBadDesc
  else if d.rmode = 3 ∧ v.greenOk = false then some stNotPermitted
  else if checkPlumb d v b then some stBadSource
  else if checkAlign d b then some stBadAlign
  else if checkAddr d v b then some stBadAddr
  else none

end Sys2Proof.Machine
end

