-- ==== Sys2Proof/Machine/Records.lean ====
section
/-! DEFINITION. The bytes of messages, completion records, story-pole entries and offcut records, and the ring rule of
R261 (03_ Tables 3.1, 3.12; 11_ Tables 11.5 to 11.8; 10_ R259, R261). -/

namespace Sys2Proof.Machine

/-! ### Messages on the message port (Table 3.1) -/

/-- A 16-byte message header. -/
def msgHeader (type ch count status seq credit refused : Nat) : List Byte :=
  natLE 1 type ++ natLE 1 ch ++ natLE 1 count ++ natLE 1 status ++ natLE 4 seq ++ natLE 1 credit ++ natLE 1 refused ++ zeros 6

/-- A REFUSE message (R69, R71): the header alone. -/
def refuseMsg (ch count status type : Nat) : List Byte := msgHeader 0x82 ch count status 0 0 type

/-- A COMPLETE message, the record after its header when it carries it (R101, R103). -/
def completeMsg (ch status seq : Nat) (credit : Bool) (record : List Byte) : List Byte :=
  msgHeader 0x81 ch 0 status seq (b2n credit) 0 ++ record

/-! ### The completion record (Table 3.12) -/

/-- The fields of a completion record. -/
structure Record where
  seq : Nat
  status : Nat
  flags : Nat := 0
  passes : Nat := 0
  ch : Nat
  clip : Nat := 0
  oob : Nat := 0
  flat : Nat := 0
  green : Nat := 0
  digest : List Byte := zeros 16
  start : Nat := 0
  stop : Nat := 0
  cycles : Nat := 0
  deriving DecidableEq, Repr, Inhabited

/-- The 64 bytes of a completion record. -/
def Record.bytes (r : Record) : List Byte :=
  natLE 4 r.seq ++ natLE 1 r.status ++ natLE 1 r.flags ++ natLE 1 r.passes ++ natLE 1 r.ch ++ natLE 4 r.clip ++ natLE 4 r.oob ++
    natLE 4 r.flat ++ natLE 4 r.green ++ padTo 16 r.digest ++ natLE 8 r.start ++ natLE 8 r.stop ++ natLE 8 (r.cycles % 2 ^ 48)

/-- FLAGS of a record (Table 3.12). -/
def recordFlags (f : Flags) (zeroExt widen green : Bool) : Nat :=
  f.toNat + 16 * b2n zeroExt + 32 * b2n widen + 64 * b2n green

/-! ### The story pole (Tables 11.5 and 11.6, R291) -/

/-- A 96-byte story-pole entry. -/
def poleEntry (r : Record) (ext : Bool) (step sin gang : Nat) (desc out image : List Byte) : List Byte :=
  natLE 1 1 ++ natLE 1 r.status ++ natLE 1 r.flags ++ natLE 1 (r.ch + 16 * r.passes + 64 * b2n ext) ++ natLE 4 r.seq ++
    natLE 4 step ++ natLE 2 sin ++ natLE 2 gang ++ padTo 16 desc ++ padTo 16 out ++ natLE 8 r.start ++ natLE 8 r.stop ++ padTo 32 image

/-- The 96-byte input extension; a digest per present slot. -/
def poleInputs (seq step : Nat) (digs : List (Option (List Byte))) : List Byte :=
  natLE 1 2 ++ natLE 1 ((digs.zipIdx.map fun x => b2n x.1.isSome * 2 ^ x.2).sum) ++ zeros 2 ++ natLE 4 seq ++ natLE 4 step ++ zeros 4 ++
    digs.flatMap fun d => padTo 16 (d.getD [])

/-- A RETRACT record of the story pole (R291). -/
def poleRetract (seq step sin gang ch : Nat) : List Byte :=
  padTo 96 (natLE 1 3 ++ natLE 1 stFault ++ natLE 1 0 ++ natLE 1 ch ++ natLE 4 seq ++ natLE 4 step ++ natLE 2 sin ++ natLE 2 gang)

/-! ### The offcut bin (Tables 11.7 and 11.8) -/

/-- An offcut record: header, payload, zero padding to a multiple of 32. -/
def offcutRecord (kind stream sin seq step seg off ch len : Nat) (payload : List Byte) : List Byte :=
  let n := roundUp (32 + payload.length) 32
  padTo n (natLE 1 kind ++ natLE 1 stream ++ natLE 2 sin ++ natLE 4 n ++ natLE 4 seq ++ natLE 4 step ++ natLE 8 seg ++ natLE 2 off ++
    natLE 2 len ++ natLE 1 ch ++ zeros 3 ++ payload)

/-- The DATA records of one run of a stream's byte string, cut at the segments (R293). -/
def offcutData (stream sin seq step ch : Nat) : Nat → Nat → List Byte → List (List Byte)
  | 0, _, _ => []
  | f + 1, off, b =>
    if b.isEmpty then []
    else
      let n := min b.length (4096 - off % 4096)
      offcutRecord 2 stream sin seq step (off / 4096) (off % 4096) ch n (b.take n) ::
        offcutData stream sin seq step ch f (off + n) (b.drop n)

/-- The END record's payload: five counts (Table 11.8). -/
def offcutEnd (sin seq step ch : Nat) (counts : List Nat) : List Byte :=
  offcutRecord 5 0 sin seq step 0 0 ch 40 (counts.flatMap (natLE 8))

/-! ### The ring rule (R261, R288) -/

/-- The rings a record can go to. -/
inductive RingId where
  | shave | pole | offcut
  deriving DecidableEq, Repr, Inhabited

/-- A PAD record's 32 bytes for the rest of a ring (R259, R291, R292). -/
def padRecord (id : RingId) (len sin : Nat) : List Byte :=
  match id with
  | .shave => shaveHeader 3 0 len 0xFFFFFFFF 0 0 0 0 0
  | .pole => padTo 32 (natLE 1 4)
  | .offcut => padTo 32 (natLE 1 4 ++ natLE 1 0 ++ natLE 2 sin ++ natLE 4 len)

/-- Where a ring stands: its kind, base and size, where its HEAD is kept, HEAD and TAIL as last read. -/
structure Ring where
  kind : Nat
  base : Nat
  bytes : Nat
  headKind : Nat
  headAddr : Nat
  head : Nat
  tail : Nat
  deriving DecidableEq, Repr, Inhabited

/-- Are HEAD and TAIL in form: multiples of 32 below the size (R261)? -/
def Ring.inForm (r : Ring) : Bool :=
  r.head % 32 == 0 && r.head < r.bytes && r.tail % 32 == 0 && r.tail < r.bytes

/-- Free bytes between HEAD and TAIL, modulo the ring size; the whole ring when they are equal (R261). -/
def Ring.free (r : Ring) : Nat := if r.head < r.tail then r.tail - r.head else r.bytes - (r.head - r.tail)

/-- The writes that place a record, and the HEAD after it; none when it cannot be placed yet (R261). -/
def Ring.place (r : Ring) (id : RingId) (sin : Nat) (rec : List Byte) : Option (List (Nat × List Byte) × Nat) :=
  if !r.inForm then none
  else
    let n := rec.length
    if r.head + n ≤ r.bytes then
      if n + 32 ≤ r.free then some ([(r.base + r.head, rec)], (r.head + n) % r.bytes) else none
    else
      let p := r.bytes - r.head
      if p + n + 32 ≤ r.free then some ([(r.base + r.head, padRecord id p sin), (r.base, rec)], n % r.bytes) else none

end Sys2Proof.Machine
end

