-- ==== Sys2Proof/Machine/Split.lean ====
section
/-! DEFINITION. The division of a gang-bound descriptor's work among logical bays and members (01_ R420, with R160, R212,
R231, R233, R234, R258). -/

namespace Sys2Proof.Machine

/-- The chains of which the head alone executes what there is: the send chains (R234, R420), and COMMIT_STEP and ABORT_STEP, which
process no tensor element (R244; assumption log 15, DEDUCED). -/
def headAlone (d : Desc) : Bool := chainSend d.chain || d.chain == 45 || d.chain == 46

/-- The first logical bay of each member, and the total (R36). -/
def bayStarts (bays : List Nat) : List Nat := (bays.foldl (fun s b => s ++ [s.getLastD 0 + b]) [0])

/-- Rows of the work: one per (i4, i3, i2, i1). -/
def workRows (d : Desc) : Nat := workExt d 1 * workExt d 2 * workExt d 3 * workExt d 4

/-- The work element at which logical bay `j` of B begins: whole rows, or near-equal parts (R231, R420). -/
def bayCut (d : Desc) (b j : Nat) : Nat :=
  if d.kind sIn = 2 ∨ b ≤ workRows d then foldStart (workRows d) b j * d.e 0 else foldStart (workCount d) b j

/-- The elements of OUT that share a byte or a 3-byte group (R47, R48, R233). -/
def packStep (d : Desc) : Nat :=
  let f := d.fmt sOut
  if d.has sOut ∧ f.bits = 4 then 2 else if d.has sOut ∧ f.bits = 6 then 4 else 1

/-- The element step a cut keeps inside a row: 32-element blocks, bytes or 3-byte groups (R212, R233). -/
def cutStep (d : Desc) (b : Blocks) : Nat :=
  let packed := packStep d
  if (chainQuant d.chain ∧ d.grain = 2) ∨ (41 ≤ d.chain ∧ d.chain ≤ 43 ∧ (Hyper.parse (blockOf b 3)).mFmt = 5) then 32 else packed

/-- The multiple of elements an optimiser's cut keeps: 4,096 bytes of the master (R258); 1 otherwise. -/
def masterStep (d : Desc) (b : Blocks) : Nat :=
  if 41 ≤ d.chain ∧ d.chain ≤ 43 then 4096 / (((Hyper.parse (blockOf b 3)).fmtOf d 0).bits / 8) else 1

/-- May a cut stand at an element (R420)? In chain 11 OUT runs along dimension 1 of the work (R228): where elements of OUT share a
byte, a cut stands between rows only, at a position that begins one (R233). -/
def cutAllowed (d : Desc) (b : Blocks) (c : Nat) : Bool :=
  let n := d.e 0
  if d.chain = 11 then packStep d == 1 || n == 0 || d.e 1 == 0 || (c % n == 0 && c / n % d.e 1 % packStep d == 0)
  else (n == 0 || c % n % cutStep d b == 0) && c % masterStep d b == 0

/-- The nearest allowed position at or below a cut (R420), searched downwards. -/
def alignCut (d : Desc) (b : Blocks) : Nat → Nat
  | 0 => 0
  | c + 1 => if cutAllowed d b (c + 1) then c + 1 else alignCut d b c

/-- Does OUT's byte string run in the order of the work, so that a cut has a place in it: OUT with the shape of the work or of its
gathered rows, and the entries of DIGEST_LOCATE? -/
def outInOrder (d : Desc) : Bool :=
  match chainRole d sOut with
  | some r => d.has sOut && (r.shape == .t || r.shape == .gathered || r.shape == .locate)
  | none => false

/-- The byte of OUT's byte string at a work element that begins a place, when OUT runs in the order of the work. -/
def outByte (d : Desc) (b : Blocks) (c : Nat) : Nat :=
  let sh : Shape := ((chainRole d sOut).map (·.shape)).getD .t
  let l := layoutOf d (stridesOf d b) 0 sOut sh
  let n := d.e 0
  if sh == .locate then 8 + 8 * c else if n = 0 then 0 else c / n * l.rowBytes + posByte l.fmt (c % n)

/-- The greatest aligned element at or below `c` whose OUT byte is a 4 KiB boundary; searched downwards. -/
def downTo4K (d : Desc) (b : Blocks) : Nat → Nat → Nat
  | 0, c => c
  | f + 1, c => if c = 0 then 0 else if outByte d b c % 4096 = 0 ∧ cutAllowed d b c then c else downTo4K d b f (c - 1)

/-- A cut between members: aligned, then down to a 4 KiB boundary of OUT where that stays above the previous cut (R420). A cut of
a tap-fed descriptor stays between the rows that the taps of the members present (R231; log 15, DEDUCED). -/
def moveCut (d : Desc) (b : Blocks) (prev c : Nat) : Nat :=
  if d.kind sIn = 2 then c
  else
    let a := alignCut d b c
    if outInOrder d then
      let k := downTo4K d b a a
      if prev < k then k else a
    else a

/-- The cuts between members, 0 first and the work count last (R420). -/
def memberCuts (d : Desc) (b : Blocks) (bays : List Nat) : List Nat :=
  let starts := bayStarts bays
  let total := starts.getLastD 0
  let inner := (starts.drop 1).dropLast
  let cs := inner.foldl (fun (s : List Nat) j => s ++ [max (s.getLastD 0) (moveCut d b (s.getLastD 0) (bayCut d total j))]) [0]
  cs ++ [workCount d]

/-! ### Division by folds (R160, R420) -/

/-- Is a descriptor's work divided by folds: FOLD or CANON sums, but for a tap-fed one, every fold of whose rows runs on the bay that
holds the row (R231, R420)? -/
def byFolds (d : Desc) : Bool := chainSums d.chain && (d.rmode == 1 || d.rmode == 2) && d.kind sIn != 2

/-- The direction whose folds divide the elements that write: of the sum of chain 29, else of the chain's first statistic. -/
def workDir (d : Desc) (b : Blocks) : Dir :=
  if d.chain = 29 then (if d.grain = 0 then .all else chDir (ScaleBlock.parse d.hw (blockOf b 1)).chDim) else chainDir d

/-- May a cut stand where position `p` of a row of a direction begins (R212, R233)? Along dimension 0 alone do elements share a block
or a byte. -/
def foldCutAllowed (d : Desc) (b : Blocks) (dir : Dir) (p : Nat) : Bool :=
  dir == .col || dir == .ch0 || d.e 0 == 0 || p % d.e 0 % cutStep d b == 0

/-- The last of the folds from `f` on that begin where no cut may stand: a cut in front of one of them moves down to the start of the
first, so all of them go to the member of the last (R420). -/
def foldLast (d : Desc) (b : Blocks) (dir : Dir) (n ff : Nat) : Nat → Nat → Nat
  | 0, f => f
  | k + 1, f =>
    if f + 1 < foldCount n ff ∧ foldCutAllowed d b dir (foldStart n ff (f + 1)) = false then foldLast d b dir n ff k (f + 1) else f

/-- The work elements whose folds in a direction satisfy a test, as unit intervals; `total` is the gang's bay count. -/
def foldWork (d : Desc) (b : Blocks) (total : Nat) (dir : Dir) (mine : Nat → Bool) : List (Nat × Nat) :=
  let n := dirSize d dir
  let ff := effFold d total
  ((List.range (workCount d)).filter fun i =>
    mine (foldLast d b dir n ff (foldCount n ff) (foldOf n ff (dirKey d dir i).2))).map fun i => (i, i + 1)

/-- Does fold `f` run on the logical bays [lo, hi) of B (R160)? -/
def foldOnBays (total lo hi f : Nat) : Bool := decide (lo ≤ f % total) && decide (f % total < hi)

/-- The work of member `m` of a gang for the sums of a direction, as intervals of work elements (R420): under FOLD and CANON each
sum's own folds divide its elements. -/
def memberWorkFor (d : Desc) (b : Blocks) (bays : List Nat) (m : Nat) (dir : Dir) : List (Nat × Nat) :=
  if headAlone d then (if m = 0 then [(0, workCount d)] else [])
  else
    let starts := bayStarts bays
    let total := starts.getLastD 0
    if byFolds d then foldWork d b total dir (foldOnBays total (starts.getD m 0) (starts.getD (m + 1) 0))
    else
      let cs := memberCuts d b bays
      let lo := cs.getD m 0
      let hi := cs.getD (m + 1) 0
      if lo < hi then [(lo, hi)] else []

/-- The elements whose outputs member `m` of a gang writes (R420). -/
def memberWork (d : Desc) (b : Blocks) (bays : List Nat) (m : Nat) : List (Nat × Nat) := memberWorkFor d b bays m (workDir d b)

/-- First unit and unit count of a member's work (R312): a fold, a row or an element. -/
def unitRange (d : Desc) (b : Blocks) (bays : List Nat) (m : Nat) : Nat × Nat :=
  let starts := bayStarts bays
  if headAlone d then (0, 0)
  else if byFolds d then
    let lo := starts.getD m 0
    let n := ((List.range (effFold d bays.sum)).filter (foldOnBays bays.sum lo (starts.getD (m + 1) 0))).length
    if n = 0 then (0, 0) else (lo, n)
  else match memberWork d b bays m with
    | x :: _ =>
      if d.kind sIn = 2 ∨ bays.sum ≤ workRows d then (x.1 / d.e 0, ceilDiv x.2 (d.e 0) - x.1 / d.e 0) else (x.1, x.2 - x.1)
    | [] => (0, 0)

/-- A work interval, its ends drawn in to those of R420 where a cut stands inside the interval's first or last row. -/
def drawIn (n : Nat) (w : Nat × Nat) (r : List (Nat × Nat)) : Nat × Nat :=
  match r with
  | x :: _ => (if x.1 / n = w.1 / n then max w.1 x.1 else w.1, if ceilDiv x.2 n = ceilDiv w.2 n then min w.2 x.2 else w.2)
  | [] => w

/-- The work of member `m` by the range its SHARE carries (R312, R420; log 9, DESIGN CHOICE): the `count` folds from `first` on that fall
to its bays, the rows or the elements. -/
def shareWork (d : Desc) (b : Blocks) (bays : List Nat) (m first count : Nat) (dir : Dir) : List (Nat × Nat) :=
  if headAlone d ∨ count = 0 then []
  else if byFolds d then
    let own := bays.getD m 0
    foldWork d b bays.sum dir fun f =>
      if count ≤ own then decide (first ≤ f) && decide (f < first + count) else foldOnBays bays.sum first (first + own) f
  else
    let n := if d.kind sIn = 2 ∨ bays.sum ≤ workRows d then d.e 0 else 1
    let w := drawIn n (first * n, min ((first + count) * n) (workCount d)) (memberWork d b bays m)
    if w.1 < w.2 then [w] else []

/-- The directions of a chain's sums: that of the elements that write, and the channels of the parameter gradients (R190). -/
def sumDirs (d : Desc) (b : Blocks) : List Dir :=
  if 33 ≤ d.chain ∧ d.chain ≤ 35 then [workDir d b, pgradDir d] else [workDir d b]

/-- Logical bays of one instance that hold the rows of a tap-fed descriptor: the first row and the row count of bay `j`
of B (R231). -/
def tapRows (d : Desc) (b j : Nat) : Nat × Nat :=
  let r := workRows d
  (foldStart r b j, foldStart r b (j + 1) - foldStart r b j)

end Sys2Proof.Machine
end

