-- ==== Sys2Proof/Machine/State.lean ====
section
/-! DEFINITION. The state of one instance: every register, queue, buffer, counter, mode and pin the spec gives the block,
the commands that are waiting, and the state right after reset release (16_ R412; assumption log 2, 3, 4). -/

namespace Sys2Proof.Machine

/-- Why the machine stops with a fault. No command of the spec raises one: its fault rules are effects on State
(15_ R377 to R396), so the type has no case. Safe. -/
inductive Fault where
  deriving DecidableEq, Repr

/-- Why a command is refused. -/
inductive Refusal where
  /-- A command without a meaning yet, rejected by name in exec; raised by no meaning. Safe. -/
  | notModelled (mnemonic : String)
  deriving DecidableEq, Repr

/-! ### Build parameters, clocks, pins -/

/-- What the integrator fixes (16_ R411) and the build's own facts: log 2. `ring` lists the SINs of the stops of the tie
ring in clockwise order (12_ R311) and `stop` is the place of this instance among them. -/
structure Params where
  baysBuilt : Nat := 16
  lanes : Nat := 8
  arithExternal : Bool := false
  arithMult : Nat := 38
  jtagMfr : Nat := 0
  stepB : Bool := true
  ring : List Nat := []
  stop : Nat := 0
  deriving DecidableEq, Repr, Inhabited

/-- The clocks: COUNT, FRAC, TRIM and the servo of the plumb counter (12_ R317, R321, R322; `theta` and `estimates` hold
the offset in units of 1/512 count, which is exact, R324; `rate` is the rate estimate that alignment left, log 12); cycles of ARITH and MGMT, and
the edges of the plumb clock, since reset release (log 3, DESIGN CHOICE). -/
structure Clk where
  count : Word64 := 0
  frac : Word := 0
  trim : Int := 0
  theta : Int := 0
  edges : Nat := 0
  arith : Nat := 0
  arithPhase : Nat := 0
  mgmt : Nat := 0
  locked : Bool := false
  stepped : Bool := false
  estimates : List Int := []
  ringTime : Option Nat := none
  rate : Int := 0
  deriving DecidableEq, Repr, Inhabited

/-- Pins and rails (16_ Tables 16.1, 16.2; R406, R412, R414). `nvSck`, `nvCsN` and `nvIo` are none at high impedance, and else what the port
drives between two accesses (log 74, DESIGN CHOICE); `syncOut` counts the pulses begun, `syncTill` is the count at which the last falls. -/
structure Pins where
  rstN : Bool := true
  fuses : Nat := 0
  ssc : Bool := false
  avs : Option Nat := some 30
  railCore : Bool := true
  railSram : Bool := true
  nvReleased : Bool := false
  freezeIn : Bool := false
  freezeOut : Bool := false
  syncOut : Nat := 0
  syncTill : Nat := 0
  nvSck : Option Bool := none
  nvCsN : Option Bool := none
  nvIo : Option (BitVec 4) := none
  deriving DecidableEq, Repr, Inhabited

/-! ### The image -/

/-- A channel's entry of CHANNELS (13_ R337). -/
structure ChanCfg where
  enabled : Bool := false
  plumb : Bool := false
  grouped : Bool := false
  group : Fin 4 := 0
  gang : Nat := 0
  source : Nat := 0
  deriving DecidableEq, Repr, Inhabited

/-- A port's entry of LINKTIME (13_ R340). -/
structure PortCfg where
  peerSin : Nat := 0
  peerPort : Nat := 0
  edge : Nat := 0
  swing : Nat := 0
  asym : Int := 0
  deriving DecidableEq, Repr, Inhabited

/-- A route (12_ R311, 13_ R340). -/
inductive Route where
  | none | loc | ring (next : Nat) | port (p : Fin 2)
  deriving DecidableEq, Repr, Inhabited

/-- The configuration store and the slot-table shadow: what a loaded image leaves in the instance (13_ R333 to R341). -/
structure Image where
  slot : Nat := 0
  gen : Nat := 0
  bytes : Nat := 0
  build : Nat := 0
  sin : Nat := 0
  digest : List Byte := zeros 32
  minBays : Nat := 0
  stackReserve : Nat := 0
  chans : List ChanCfg := []
  slots : List Nat := []
  digestN : Nat := 0
  greenOk : Bool := false
  curves : List Byte := []
  role : Nat := 0
  portMode : Nat := 0
  parentPort : Nat := 0
  syncDelay : Nat := 0
  ports : List PortCfg := []
  routes : List Route := []
  gangs : List (Nat × List Nat) := []
  mapDigest : List Byte := zeros 32
  deriving DecidableEq, Repr, Inhabited

/-- The loader (13_ R343 to R345): slots still to read in order, the slot being read, BOOT_ID; the place of this power cycle's
boot-log entry and whether it is erased, the address of an entry left partly programmed, the sectors with valid entries, the one that holds the newest, whether the entry was
programmed and the erase of R344 made; the phase of Table 13.5 (7 from READY on) and the plumb-clock edge it began at. -/
structure Loader where
  order : List Nat := []
  current : Option Nat := none
  bootId : Nat := 0
  logSector : Nat := 0
  logPos : Nat := 0
  posErased : Bool := false
  torn : Option Nat := none
  validIn : List Nat := []
  newest : Nat := 0
  programmed : Bool := false
  erased : Bool := false
  phase : Nat := 0
  phaseStart : Nat := 0
  deriving DecidableEq, Repr, Inhabited

/-! ### Work -/

/-- What an exchange still gathers: a partial that arrived, by sender position, SUB, ROW, fold and arrival cycle. -/
structure Arrival where
  pos : Nat
  sub : Nat
  row : Nat
  foldix : Nat
  agg : Agg
  deriving DecidableEq, Repr, Inhabited

/-- How far an execution is: collecting its inputs, waiting for partials or returns, writing its outputs, or draining
after a fault (15_ R382). -/
inductive JobPhase where
  | inputs | exchange | writing | draining
  deriving DecidableEq, Repr, Inhabited

/-- One execution: of a descriptor, or of a member's share of it. `unit` is the range its SHARE carries (R312); `silent` marks a share
whose drain ends without a REPORT; `due` is the ARITH cycle of the retire edge of a plumb descriptor where the spec gives it (R98,
R227). `beats` holds the bay of each tap beat taken and its ARITH cycle from the start edge (R98).
`capAt` counts the spans of a capturing descriptor recorded so far (R296); `back` holds what pass 2 has
read of the spill region for its traversal `passAt`, `passAsked` the last one asked for (R243); `late` the pieces written after every
other output (R207), `carry` by SUB, row and fold what another member has accumulated of a fold begun there (R158, R231), `after` what the head has read back once the members reported (R258, R267). -/
structure Job where
  desc : List Byte
  blocks : Blocks
  head : Nat
  ch : Fin 16
  attempt : Nat
  gang : Nat
  members : List Nat
  bays : List Nat
  pos : Nat
  owned : List (Nat × Nat)
  start : Nat
  startArith : Nat
  elig : Nat
  phase : JobPhase := .inputs
  skip : Bool := false
  twoPass : Bool := false
  chunks : List (Nat × List Byte) := []
  taps : List (List (List Word)) := []
  stage : Nat := 0
  arrivals : List Arrival := []
  own : List ((Nat × Nat) × Agg) := []
  rets : Rets := []
  fl : Flags := noFlags
  counts : Counts := {}
  pieces : List Piece := []
  leaves : List (Nat × Nat × List Byte) := []
  inputs : List (Nat × List (Nat × List Byte)) := []
  captured : List Nat := []
  endSent : Bool := false
  tiles : List (Nat × Nat × Nat) := []
  reports : List (Nat × List Byte) := []
  shavings : List (List Byte) := []
  lastAt : Nat := 0
  lastArith : Nat := 0
  ranges : List Rng := []
  silent : Bool := false
  due : Option Nat := none
  beats : List (Nat × Nat) := []
  unit : Option (Nat × Nat) := none
  capAt : Nat := 0
  back : List (Nat × List Byte) := []
  passAt : Nat := 0
  passAsked : Nat := 0
  late : List Piece := []
  carry : List ((Nat × Nat × Nat) × Val) := []
  after : List (Nat × Nat × List Byte) := []
  afterAsked : Bool := false
  deriving DecidableEq, Repr, Inhabited

/-- What becomes of a halted descriptor (15_ Table 15.4). -/
inductive Disposition where
  | reexec | stranded
  deriving DecidableEq, Repr, Inhabited

/-- A halted attempt: its disposition, the time of the fault, whether its drain has ended, and for GANG_LOST the count the
re-execution waits for at the latest (R385). -/
structure Halt where
  disp : Disposition
  time : Nat
  start : Nat
  drained : Bool := false
  lostUntil : Option Nat := none
  deriving DecidableEq, Repr, Inhabited

/-- One of the 32 entries of a channel's queue (03_ R70 to R73): the descriptor, its eligibility order and the count of
its DOORBELL, its attempt, and what its first validation established. -/
structure Entry where
  desc : List Byte
  elig : Option (Nat × Nat) := none
  attempt : Nat := 0
  seqPassed : Bool := false
  launchPassed : Bool := false
  blocks : Blocks := []
  started : Bool := false
  ranges : List Rng := []
  credits : List (Nat × Nat × Nat) := []
  deriving DecidableEq, Repr, Inhabited

/-- A validation in progress: the blocks read, those awaited, and whether every check has passed. -/
structure Validation where
  blocks : Blocks := []
  chunks : List (Nat × Nat × List Byte) := []
  awaited : List (Nat × Nat × Nat × Nat) := []
  passed : Bool := false
  launchMet : Bool := false
  deriving DecidableEq, Repr, Inhabited

/-- A release package (03_ R90): the record, how it is delivered, the ring records that precede it, the descriptor and its attempt. -/
structure Package where
  record : Record
  viaMsg : Bool := true
  kind : Nat := 0
  ptr : Nat := 0
  freely : Bool := false
  advance : Bool := true
  barred : Bool := false
  credit : Bool := true
  passedSeq : Bool := false
  shaves : List (List Byte) := []
  shaveRing : List Byte := []
  shavePlank : Nat × Nat := (0, 0)
  poles : List (List Byte) := []
  poleRing : List Byte := []
  poleAt : Nat := 0
  attempt : Nat := 0
  desc : List Byte := []
  drift : Nat := 0
  credits : List (Nat × Nat × Nat) := []
  deriving DecidableEq, Repr, Inhabited

/-- How far the placement of a record stands (10_ R261): the ring's HEAD and TAIL to be read, space awaited, record writes
awaited, the HEAD write awaited; or given up, with what is outstanding still to be answered (R382). -/
inductive RingPhase where
  | read | wait | record (left : Nat) | head | dropped
  deriving DecidableEq, Repr, Inhabited

/-- A ring in use: where it stands, how far the placement is, the HEAD to be written and the writes to be retried. -/
structure RingUse where
  ring : Ring
  phase : RingPhase
  newHead : Nat := 0
  deriving DecidableEq, Repr, Inhabited

/-- A release in progress: the package, the ring in use, whether the record write is awaited, and the tiles of a write into another
member's yards that are not acknowledged (R36, R101). -/
structure Release where
  pkg : Package
  use : Option RingUse := none
  recordSent : Bool := false
  tiles : List (Nat × Nat × Nat) := []
  deriving DecidableEq, Repr, Inhabited

/-- The states of a channel (03_ Table 3.7). -/
inductive ChSt where
  | off | idle | wait | run | halt
  deriving DecidableEq, Repr, Inhabited

/-- One channel: its state, queue (head first), validation, running job, halt, held packages and release. -/
structure Chan where
  st : ChSt := .off
  queue : List Entry := []
  val : Option Validation := none
  job : Option Job := none
  halted : Option Halt := none
  held : List Package := []
  rel : Option Release := none
  lastSeq : Nat := 0
  deriving DecidableEq, Repr, Inhabited

/-- An entry of the share queue (01_ R38): the share as received, and its job once started. -/
structure Share where
  id : Nat
  env : Envelope
  gang : Nat
  body : List Byte
  job : Option Job := none
  next : Option (Envelope × List Byte) := none
  deriving DecidableEq, Repr, Inhabited

/-- A peer tile held because of a running range (09_ R236). -/
structure HeldTile where
  env : Envelope
  off : Nat
  bytes : List Byte
  deriving DecidableEq, Repr, Inhabited

/-- A participant of the pool (03_ R96): a general channel, or the share queue as 16. -/
abbrev Participant := Nat

/-- The owner of a bay (03_ R97). -/
inductive BayOwner where
  | none | plumb (c : Fin 16) | pool (p : Participant)
  deriving DecidableEq, Repr, Inhabited

/-- The slot table's course (03_ R94 to R97): slot, the ARITH cycle it began at and the plumb-clock edge of that cycle, pointer, grantee,
owners and gaps by logical bay, the owners before the boundary with the share served, whose elements a gap still holds (R381), and the plumb channels whose timing promise has ended (R98, R283). -/
structure Sched where
  slot : Nat := 0
  slotStart : Nat := 0
  edge : Nat := 0
  grantPtr : Nat := 16
  grantee : Option Participant := none
  owners : List BayOwner := []
  gap : List Nat := []
  leaving : List BayOwner := []
  broken : List Nat := []
  serving : Option Nat := none
  served : Option Nat := none
  deriving DecidableEq, Repr, Inhabited

/-! ### Ports -/

/-- What a memory request is for. -/
inductive Use where
  | input (p : Part)
  | block (c : Fin 16) (blk : Nat)
  | output (p : Part)
  | ringRead (r : RingSite)
  | ringRecord (r : RingSite)
  | ringHead (r : RingSite)
  | record (c : Fin 16)
  | discarded
  deriving DecidableEq, Repr, Inhabited

/-- A memory request (16_ R397, R398): a write's bytes stand at `addr`; the request covers whole 64-byte units. `bad` marks a write buffer
that fails its parity (R377). -/
structure MemReq where
  tag : Nat := 0
  write : Bool
  addr : Nat
  len : Nat
  data : List Byte := []
  use : Use
  tries : Nat := 0
  bad : Bool := false
  deriving DecidableEq, Repr, Inhabited

/-- The memory port: outstanding requests, requests waiting for a tag, tags reserved after a timeout (R399, R400), and
the responses that wait in the dual-clock queue during a clock stop (Table 14.5, step 5). -/
structure MemPort where
  out : List MemReq := []
  waiting : List MemReq := []
  dead : List Nat := []
  held : List Instr := []
  deriving DecidableEq, Repr, Inhabited

/-- A message given to the tie ring or to a Klody port (12_ R310). -/
structure NetMsg where
  route : Route
  env : Envelope
  body : List Byte
  deriving DecidableEq, Repr, Inhabited

/-- A response of the management port (14_ R356): master, code of Table 14.1, read data. -/
structure MgResp where
  master : Fin 4
  code : Nat
  data : Word := 0
  deriving DecidableEq, Repr, Inhabited

/-- The states of a Klody port (14_ KL_PORTp_STATUS). -/
inductive PortSt where
  | absent | training | up | down
  deriving DecidableEq, Repr, Inhabited

/-- The equaliser of one lane in training (12_ R302, Tables 12.1 and 12.3): the magnitudes of its own transmit taps c(-1)
and c(+1) in 1/64, preset P3 first; control and status of the frame received last; the status it answers, and the control
and DONE it sends. -/
structure LaneEq where
  cm : Nat := 4
  cp : Nat := 12
  rxControl : Nat := 0
  rxStatus : Nat := 0
  answer : Nat := 0
  txControl : Nat := 0
  done : Bool := false
  deriving DecidableEq, Repr, Inhabited

/-- One Klody port (12_ R301 to R308, R323; 14_ Table 14.14). `phaseStart` is the plumb-clock edge at which the training
phase began, `helloOn` whether this end still sends HELLO, `frames` the training frames sent by lane;
a waiting message stands with its priority and its origin, `txLast` is the origin served last (R310); `timeAt` is the count of the
last TIME flit. -/
structure KPort where
  st : PortSt := .absent
  phase : Nat := 0
  restarts : Nat := 0
  reason : Nat := 0
  replays : Word := 0
  retrains : Word := 0
  fromT1 : Bool := false
  phaseStart : Nat := 0
  txNext : Nat := 0
  txAcked : Nat := 0
  replay : List (Nat × List Byte × Nat) := []
  rxNext : Nat := 0
  nakFor : Option Nat := none
  nakDue : Bool := false
  rxStream : List Byte := []
  txStream : List Byte := []
  txQueue : List (Nat × Nat × List Byte) := []
  txLast : Nat := 0
  timeAt : Nat := 0
  lastAck : Nat := 0
  sent : List (List Byte) := []
  seen : Bool := false
  helloOn : Bool := false
  lanes : List LaneEq := List.replicate 8 {}
  frames : List (Nat × Nat × Nat) := []
  txTid : Nat := 0
  txTs : List (Nat × Nat) := []
  rxTid : Nat := 0
  rxTs : Nat := 0
  rxHist : List (Nat × Nat) := []
  pairs : List (Nat × Nat × Nat) := []
  deriving DecidableEq, Repr, Inhabited

/-- One direction of the tie-ring stop (12_ R311, 16_ R408): bytes of the message being consumed and its beats to come, beats
of a message still to be forwarded or to be discarded, credits returned, and the ARITH cycles at which the last 8 beats driven leave, each of
which holds a credit of the neighbour until that returns it (log 19, DESIGN CHOICE). -/
structure RingDir where
  rx : List Byte := []
  need : Nat := 0
  fwd : Nat := 0
  drop : Nat := 0
  returned : Nat := 0
  left : List Nat := []
  deriving DecidableEq, Repr, Inhabited

/-- The tie-ring stop: its directions, the beats it has driven with their parity bits (clockwise ones marked), whether a ring fault is in
progress (15_ R394), and the other stops whose last SCARF seen here was ready (R320). -/
structure RingStop where
  cw : RingDir := {}
  ccw : RingDir := {}
  beats : List (Bool × List Byte × List Bool) := []
  fault : Bool := false
  ready : List Nat := []
  deriving DecidableEq, Repr, Inhabited

/-! ### Gang -/

/-- A member's SCARF entry at a head (12_ R316). -/
structure ScarfEntry where
  sin : Nat
  bays : Nat
  ready : Bool
  locked : Bool
  bootId : Nat
  reserve : Nat
  credit : Nat
  curve : List Byte
  map : List Byte
  heard : Nat
  deriving DecidableEq, Repr, Inhabited

/-- A raise's outcome codes (14_ Table 14.9). -/
inductive Outcome where
  | idle | armed | raised | cancelled | late | missed | refused
  deriving DecidableEq, Repr, Inhabited

/-- A raise this instance runs as origin (12_ R326): id, count, SCOPE, each target's RESULT + 1 in member-list order (0 while none has
come), and whether its deadline has passed with every target armed. -/
structure RaiseRun where
  id : Word
  count : Nat
  scope : Nat
  results : List Nat
  stands : Bool := false
  deriving DecidableEq, Repr, Inhabited

/-- The raise (12_ R326, 14_ R367): LG_RAISE_AT with its held low word; the armed raise with its count, id, origin and whether that is this
instance; what LG_RAISE_STATUS shows; the raises it runs as origin, and the results of the last one whose outcome is final; `made` counts the
raises it has originated. -/
structure Raising where
  raiseAt : Word64 := 0
  armed : Option Nat := none
  armedId : Word := 0
  armedHere : Bool := false
  armedOrigin : Nat := 0
  outcome : Outcome := .idle
  originHere : Bool := false
  origin : Nat := 0
  id : Word := 0
  scope : Nat := 0
  runs : List RaiseRun := []
  results : List Nat := []
  made : Nat := 0
  deriving DecidableEq, Repr, Inhabited

/-! ### Management -/

/-- LG_STATE.STATE but for RUNNING, which the jobs decide (14_ R365). -/
inductive Lg where
  | seasoning | ready | laidDown | frozen | fault
  deriving DecidableEq, Repr, Inhabited

/-- Ownership (14_ R358 to R363, 13_ R349). -/
structure Own where
  owner : Option (Fin 4) := none
  reason : Nat := 0
  epoch : BitVec 16 := 0
  target : Option (Fin 4) := none
  deadline : Nat := 0
  beatAt : Nat := 0
  beat : Word := 0
  latch : List (Fin 4) := []
  deriving DecidableEq, Repr, Inhabited

/-- The settings of Table 14.3, active or shadow. -/
structure Settings where
  greenOk : Bool := false
  digestN : Word := 0
  pole : BitVec 48 := 0
  offcut : BitVec 48 := 0
  deriving DecidableEq, Repr, Inhabited

/-- The freeze registers and the sequence in progress (14_ R370 to R374). `asked` is the cause of a running sequence. -/
structure Freezing where
  onFault : Bool := false
  propagate : Bool := true
  scope : Nat := 0
  driveOut : Bool := true
  cause : Nat := 0
  memTimeout : Bool := false
  preReady : Bool := false
  origin : Nat := 0
  id : Word := 0
  plumb : Word64 := 0
  frozenFrom : Nat := 0
  running : Bool := false
  pendingFault : Bool := false
  faultEntry : List Byte := []
  startedAt : Nat := 0
  count : Nat := 0
  seen : List Nat := []
  page : Nat := 0
  ueRead : Nat := 0
  ueFirst : Nat := 0
  ueWords : List Nat := []
  mgmtCopy : List Word := []
  deriving DecidableEq, Repr, Inhabited

/-- The counter block (14_ Table 14.12). `shareDrift` keeps what the last share of a HEAD, CHANNEL and SEQ added to DRIFT_COUNT, which a later
attempt takes back (15_ R383; log 15, DEDUCED). -/
structure Counters where
  green : Word64 := 0
  oob : Word64 := 0
  flat : Word64 := 0
  clip : Word64 := 0
  widen : Word64 := 0
  drift : Word64 := 0
  laneCheck : Word64 := 0
  eccCe : Word64 := 0
  eccUe : Word64 := 0
  shareDrift : List ((Nat × Fin 16 × Nat) × Nat) := []
  deriving DecidableEq, Repr, Inhabited

/-- The error-log ring (14_ R376, 15_ R379): HEAD, TAIL, LOST and the entries by position. -/
structure Log where
  head : Nat := 0
  tail : Nat := 0
  lost : Word := 0
  entries : List (Nat × List Byte) := []
  deriving DecidableEq, Repr, Inhabited

/-- Test access (16_ R418). -/
structure Jtag where
  ir : BitVec 6 := 0x01
  dr : Word := 0x14C16001
  scan : Bool := false
  mbistRunning : Bool := false
  mbistDone : Bool := false
  mbistPass : Bool := false
  mbistFirst : Nat := 0
  deriving DecidableEq, Repr, Inhabited

/-- The bays (01_ R20 to R33, 15_ R377): usable and enabled physical bays, lane sparing, issue holds with the cycle they end, yard cells by
physical byte address, the error marks of the protected stores (64-bit word addresses), undefined yard ranges (log 8, DESIGN CHOICE), and
the tallies by physical bay and number, each with the reduced row it holds (R20, R147; log 10, DESIGN CHOICE). -/
structure Bays where
  ok : List Nat := []
  enabled : List Nat := []
  spared : List (Nat × Nat) := []
  spareBad : List Nat := []
  hold : List (Nat × Nat) := []
  yard : List Host.Cell := []
  undef : List (Nat × Nat × Nat) := []
  undefNext : Nat := 0
  tallies : List ((Nat × Nat) × Tally × Nat) := []
  yardCE : List Nat := []
  yardUE : List Nat := []
  curveCE : List (Nat × Nat) := []
  curveUE : List (Nat × Nat) := []
  tallyCE : List (Nat × Nat) := []
  tallyUE : List (Nat × Nat) := []
  queueCE : List (Nat × Nat) := []
  queueUE : List (Nat × Nat) := []
  shareCE : List (Nat × Nat) := []
  shareUE : List (Nat × Nat) := []
  configCE : List Nat := []
  configUE : List Nat := []
  deriving DecidableEq, Repr, Inhabited

/-- The state of one instance. `nvOut` lists the programs (flash address, bytes) and sector erases (no bytes) the NV port has made (13_ R344). -/
structure State where
  params : Params := {}
  clk : Clk := {}
  pins : Pins := {}
  image : Image := {}
  visible : Bool := false
  curveDigest : List Byte := zeros 32
  nv : Loader := {}
  bays : Bays := {}
  chans : Vector Chan 16 := Vector.replicate 16 {}
  nextSeq : Vector Word 4 := Vector.replicate 4 0
  eligNext : Nat := 0
  sched : Sched := {}
  port : MemPort := {}
  sent : List (Nat × List Byte) := []
  nvOut : List (Nat × List Byte) := []
  heldOff : List (Nat × List Byte × Bool) := []
  net : List NetMsg := []
  inbox : List (Envelope × List Byte) := []
  mg : List MgResp := []
  mgHigh : List (Fin 4 × Nat × Word) := []
  mgLow : List (Fin 4 × Nat × Word) := []
  offcut : List (Part × List Byte × List Byte) := []
  offcutUse : Option (Part × RingUse) := none
  ringKept : List ((Nat × Fin 16 × Nat) × List Byte) := []
  scarfs : List ScarfEntry := []
  credits : List (Nat × Nat × Nat) := []
  boots : List (Nat × Nat) := []
  shares : List Share := []
  heldTiles : List HeldTile := []
  returns : List (Envelope × List Byte) := []
  raising : Raising := {}
  kports : Vector KPort 2 := Vector.replicate 2 {}
  stop : RingStop := {}
  lg : Lg := .seasoning
  draining : Bool := false
  own : Own := {}
  active : Settings := {}
  shadow : Settings := {}
  irqStatus : BitVec 9 := 0
  irqEnable : BitVec 9 := 0
  frz : Freezing := {}
  ctr : Counters := {}
  log : Log := {}
  jtag : Jtag := {}
  free : Nat := 0
  pending : List Instr := []
  deriving DecidableEq, Repr

/-- The state right after reset release with nothing harvested and nothing waiting (R412, R345 and the Reset columns of
14_). -/
def State.reset : State := { bays := { ok := List.range 16 } }

end Sys2Proof.Machine
end

