-- ==== Sys2Proof/Machine/ImageChecks.lean ====
section
/-! DEFINITION. The load checks of an image and what a loaded image holds (13_ R333 to R343; 03_ R95; 05_ R132 to R134).
Every failed check answers the image byte offset at which the failure is first decided, and the least of these ends the read
(R343; assumption log 22, DEDUCED). -/

namespace Sys2Proof.Machine

/-! ### Single fields: the offset at which a failure is decided -/

/-- Nothing, or a failure decided at an offset. -/
def ckThat (ok : Bool) (off : Nat) : List Nat := if ok then [] else [off]

/-- The first of `n` bytes from `off` whose number makes `bad` hold of the field's value so far. -/
def ckFirst (b : List Byte) (off n : Nat) (bad : Nat → Nat → Bool) : List Nat :=
  ((List.range n).find? fun i => bad i (fieldAt b off (i + 1))).toList.map (off + ·)

/-- A field equals a value. -/
def ckEq (b : List Byte) (off n v : Nat) : List Nat := ckFirst b off n fun i x => x != v % 256 ^ (i + 1)

/-- Bytes are 0. -/
def ckZero (b : List Byte) (off n : Nat) : List Nat :=
  ((sliceOf b off n).zipIdx.find? fun x => x.1 != 0#8).toList.map fun x => off + x.2

/-- A field is at most a value. -/
def ckLe (b : List Byte) (off n hi : Nat) : List Nat := ckFirst b off n fun _ x => decide (hi < x)

/-- A field is at least a value. -/
def ckGe (b : List Byte) (off n lo : Nat) : List Nat := ckThat (decide (lo ≤ fieldAt b off n)) (off + n - 1)

/-- A field is a multiple of a power of two. -/
def ckMul (b : List Byte) (off n m : Nat) : List Nat := ckFirst b off n fun i x => x % min m (256 ^ (i + 1)) != 0

/-- The bits of a field outside a mask are 0. -/
def ckMask (b : List Byte) (off n mask : Nat) : List Nat := ckFirst b off n fun i x => x &&& mask != x && decide (i < n)

/-! ### The directory (R335) -/

/-- A section of the directory: type, offset, length, and the offset of its entry. -/
structure Section where
  type : Nat
  off : Nat
  len : Nat
  dir : Nat
  deriving DecidableEq, Repr, Inhabited

/-- Entry `k` of the section directory. -/
def sectionAt (b : List Byte) (k : Nat) : Section :=
  let d := 0x40 + 16 * k
  { type := fieldAt b d 2, off := fieldAt b (d + 4) 4, len := fieldAt b (d + 8) 4, dir := d }

/-- The used sections before entry `n`. -/
def sectionsTo (b : List Byte) (n : Nat) : List Section := ((List.range n).map (sectionAt b)).filter fun x => x.type != 0

/-- The section of a type; an empty one where there is none. -/
def sectionOf (b : List Byte) (t : Nat) : Section := ((sectionsTo b 16).find? fun x => x.type == t).getD { type := t, off := 0, len := 0, dir := 0x40 }

/-- The lengths a section may have by its type (Table 13.3). -/
def ckLen (b : List Byte) (x : Section) (sin : Nat) : List Nat :=
  let p := x.dir + 8
  match x.type with
  | 1 => ckEq b p 4 32
  | 2 => ckEq b p 4 128
  | 3 => ckEq b p 4 256
  | 4 => ckEq b p 4 32
  | 5 => ckGe b p 4 0x110
  | 6 => ckGe b p 4 (0x30 + 4 * (sin + 1)) ++ ckLe b p 4 (0x30 + 4 * 4096) ++ ckMul b p 4 4
  | 7 => ckGe b p 4 16 ++ ckLe b p 4 131072
  | _ => []

/-- One directory entry (R335): its type assigned and not used twice, its place, its length, no overlap with an earlier one. -/
def ckEntry (b : List Byte) (bytes sin k : Nat) : List Nat :=
  let x := sectionAt b k
  let old := sectionsTo b k
  let missing := ((List.range 7).map (· + 1)).filter fun t => !((sectionsTo b (k + 1)).any (·.type == t))
  ckLe b x.dir 2 8 ++ ckThat (decide (missing.length ≤ 15 - k)) (x.dir + 1) ++
    if x.type = 0 then ckZero b x.dir 16
    else
      ckThat (!(old.any (·.type == x.type))) (x.dir + 1) ++ ckZero b (x.dir + 2) 2 ++ ckMul b (x.dir + 4) 4 64 ++ ckGe b (x.dir + 4) 4 0x140 ++
        ckLe b (x.dir + 4) 4 bytes ++ ckLen b x sin ++ ckLe b (x.dir + 8) 4 (bytes - x.off) ++
        ckThat (!(old.any fun y => rangesMeet y.off y.len x.off x.len)) (x.dir + 11) ++ ckZero b (x.dir + 12) 4

/-- The bytes from 0x140 on that no section holds are 0. -/
def ckGaps (b : List Byte) (bytes : Nat) : List Nat :=
  let l := sectionsTo b 16
  (b.zipIdx.find? fun x => x.1 != 0#8 && decide (0x140 ≤ x.2 ∧ x.2 < bytes) && !(l.any fun y => decide (y.off ≤ x.2 ∧ x.2 < y.off + y.len))).toList.map (·.2)

/-! ### INSTANCE, CHANNELS, SLOTS, POLICY (R336 to R339, R95) -/

/-- INSTANCE (R336). -/
def ckInstance (b : List Byte) (o lanes : Nat) : List Nat :=
  ckGe b o 1 1 ++ ckLe b o 1 16 ++ ckEq b (o + 1) 1 lanes ++ ckZero b (o + 2) 2 ++ ckMul b (o + 4) 4 4096 ++ ckLe b (o + 4) 4 524288 ++
    ckZero b (o + 8) 24

/-- CFLAGS of channel c. -/
def cflags (b : List Byte) (o c : Nat) : Nat := fieldAt b (o + 8 * c) 1

/-- Is channel c a designated plumb channel? -/
def isPlumb (b : List Byte) (o c : Nat) : Bool := bitOf (cflags b o c) 1

/-- The gang records of GANGMAP: Gang ID, members, offset of the record (R341). -/
def gangRecords (b : List Byte) : Nat → Nat → List (Nat × List Nat × Nat)
  | 0, _ => []
  | f + 1, pos =>
    let n := fieldAt b (pos + 2) 2
    (fieldAt b pos 2, (List.range n).map fun i => fieldAt b (pos + 8 + 2 * i) 2, pos) :: gangRecords b f (pos + 8 + roundUp (2 * n) 8)

/-- The records of an image's gang map. -/
def imageGangs (b : List Byte) : List (Nat × List Nat × Nat) :=
  let x := sectionOf b 7
  gangRecords b (min (fieldAt b x.off 2) 4095) (x.off + 16)

/-- Where the gang map shows that a gang is headed by `sin` and, for a plumb channel, has one member; else the failure. -/
def ckBound (b : List Byte) (sin g : Nat) (plumb : Bool) (here : Nat) : List Nat :=
  let x := sectionOf b 7
  let l := imageGangs b
  match l.find? fun r => r.1 == g with
  | some r => ckThat (r.2.1.headD 4096 == sin) (max here (r.2.2 + 9)) ++ ckThat (!plumb || r.2.1.length == 1) (max here (r.2.2 + 3))
  | none => match l.find? fun r => decide (g < r.1) with
    | some r => [max here (r.2.2 + 1)]
    | none => [max here (x.off + x.len - 1)]

/-- One entry of CHANNELS (R337). -/
def ckChannel (b : List Byte) (o sin c : Nat) : List Nat :=
  let p := o + 8 * c
  let f := cflags b o c
  let g := fieldAt b (p + 2) 2 % 4096
  ckMask b p 1 0x1F ++ ckThat (bitOf f 0 || !(bitOf f 1)) p ++ ckThat (bitOf f 0 || !(bitOf f 2)) p ++
    ckThat (decide ((((List.range (c + 1)).filter fun k => isPlumb b o k)).length ≤ 4)) p ++ ckZero b (p + 1) 1 ++ ckMask b (p + 2) 2 0xFFF ++
    (if g = 0 then [] else ckBound b sin g (bitOf f 1) (p + 3)) ++ ckZero b (p + 6) 2

/-- CHANNELS (R337). -/
def ckChannels (b : List Byte) (o sin : Nat) : List Nat := (List.range 16).flatMap (ckChannel b o sin)

/-- One slot word (R95, Table 3.9); a plumb slot's channel is judged where both it and CHANNELS are known. -/
def ckSlot (b : List Byte) (o ch s : Nat) : List Nat :=
  let p := o + 4 * s
  let w := fieldAt b p 4
  let c := bitsOf w 16 4
  ckMask b p 4 0x1FFFFF ++
    if bitOf w 20 then ckThat (bitsOf w 0 16 != 0) (p + 2) ++ ckThat (isPlumb b ch c) (max (p + 2) (ch + 8 * c))
    else ckThat (bitsOf w 0 20 == 0) (p + 2)

/-- SLOTS (R95, R338). -/
def ckSlots (b : List Byte) (o ch : Nat) : List Nat :=
  let words := (List.range 64).map fun s => fieldAt b (o + 4 * s) 4
  (List.range 64).flatMap (ckSlot b o ch) ++ ckThat (words.any fun w => !(bitOf w 20)) (o + 254) ++
    (List.range 16).flatMap fun c =>
      ckThat (!(isPlumb b ch c) || words.any fun w => bitOf w 20 && bitsOf w 16 4 == c) (max (o + 254) (ch + 8 * c))

/-- POLICY (R339). -/
def ckPolicy (b : List Byte) (o : Nat) : List Nat := ckMask b (o + 4) 1 1 ++ ckZero b (o + 5) 27

/-! ### CURVES (R134) -/

/-- The order of finite FP32 encodings; the two zeros are equal. -/
def key32 (w : Nat) : Int := if bitOf w 31 then -((w % 2 ^ 31 : Nat) : Int) else (w % 2 ^ 31 : Nat)

/-- The length of a curve table by R133. -/
def curveBytes (n d : Nat) : Nat := 16 + 16 * ceilDiv n 4 + 16 * ceilDiv (n * (d + 1)) 4

/-- One curve table at image offset `p` (R134, rules 1 and 4 to 7). -0 is rejected in XMAX, LOW_VAL and HIGH_VAL whatever EDGE
is. -/
def ckCurve (b : List Byte) (p len : Nat) : List Nat :=
  let n := fieldAt b p 2
  let d := fieldAt b (p + 2) 1
  let edge := bitOf (fieldAt b (p + 3) 1) 1
  let brk := p + 16
  let coef := brk + 16 * ceilDiv n 4
  let w := fun q => fieldAt b q 4
  ckGe b p 2 1 ++ ckLe b p 2 256 ++ ckLe b (p + 2) 1 5 ++ ckThat (len == curveBytes n d) (p + 2) ++ ckMask b (p + 3) 1 3 ++
    (if edge then
      [p + 4, p + 8, p + 12].flatMap (fun q => ckThat (finite32 (w q) && w q != 0x80000000) (q + 3)) ++
        ckThat (decide (key32 (w (brk + 4 * (n - 1))) ≤ key32 (w (p + 4)))) (brk + 4 * n - 1)
    else ckZero b (p + 4) 12) ++
    (List.range n).flatMap (fun i =>
      let q := brk + 4 * i
      ckThat (finite32 (w q) && w q != 0x80000000) (q + 3) ++ (if i = 0 then [] else ckThat (decide (key32 (w (q - 4)) < key32 (w q))) (q + 3))) ++
    ckZero b (brk + 4 * n) (coef - (brk + 4 * n)) ++
    (List.range (n * (d + 1))).flatMap (fun i => ckThat (finite32 (w (coef + 4 * i))) (coef + 4 * i + 3)) ++
    ckZero b (coef + 4 * n * (d + 1)) (p + len - (coef + 4 * n * (d + 1)))

/-- The present tables before curve `n`: area offset and length. -/
def curveTables (b : List Byte) (o n : Nat) : List (Nat × Nat) :=
  ((List.range n).filter fun c => bitOf (fieldAt b (o + 4) 4) c).map fun c => (fieldAt b (o + 0x10 + 8 * c) 4, fieldAt b (o + 0x14 + 8 * c) 4)

/-- One directory entry of the curve area, and its table (R134, rules 2 and 3). -/
def ckCurveEntry (b : List Byte) (o area c : Nat) : List Nat :=
  let p := o + 0x10 + 8 * c
  let off := fieldAt b p 4
  let len := fieldAt b (p + 4) 4
  if bitOf (fieldAt b (o + 4) 4) c then
    ckMul b p 4 16 ++ ckGe b p 4 0x110 ++ ckLe b p 4 area ++ ckGe b (p + 4) 4 1 ++ ckLe b (p + 4) 4 (area - off) ++
      ckThat (!((curveTables b o c).any fun t => rangesMeet t.1 t.2 off len)) (p + 7) ++ ckCurve b (o + off) len
  else ckZero b p 8

/-- CURVES (R134). -/
def ckCurves (b : List Byte) (o area : Nat) : List Nat :=
  let ts := curveTables b o 32
  ckEq b o 2 1 ++ ckZero b (o + 2) 2 ++ ckEq b (o + 8) 4 area ++ ckZero b (o + 12) 4 ++ (List.range 32).flatMap (ckCurveEntry b o area) ++
    ((sliceOf b o area).zipIdx.find? fun x =>
      x.1 != 0#8 && decide (0x110 ≤ x.2) && !(ts.any fun t => decide (t.1 ≤ x.2 ∧ x.2 < t.1 + t.2))).toList.map fun x => o + x.2

/-! ### LINKTIME and GANGMAP (R340, R341) -/

/-- A port entry of LINKTIME (R340): all zero where the port does not exist. -/
def ckPort (b : List Byte) (p : Nat) (present : Bool) : List Nat :=
  if present then
    ckMask b p 2 0xFFF ++ ckLe b (p + 2) 1 1 ++ ckLe b (p + 3) 1 3 ++ ckLe b (p + 4) 1 7 ++ ckZero b (p + 5) 3 ++ ckZero b (p + 12) 4
  else ckZero b p 16

/-- A route entry (R340): its bits by KIND, and LOCAL for the instance's own SIN alone. -/
def ckRoute (b : List Byte) (o sin n : Nat) : List Nat :=
  let p := o + 0x30 + 4 * n
  let k := fieldAt b p 1 % 4
  ckMask b p 4 (if k = 3 then 7 else if k = 2 then 0xFFF0003 else 3) ++ ckThat ((k == 1) == (n == sin)) p

/-- May PORTMODE stand with a number of lanes (R340)? -/
def modeFits (lanes mode : Nat) : Bool := if lanes = 0 then mode == 0 else if lanes = 4 then mode == 1 else mode == 2 || mode == 3

/-- LINKTIME (R340). -/
def ckLinktime (b : List Byte) (o len sin lanes : Nat) : List Nat :=
  let role := fieldAt b o 1
  let mode := fieldAt b (o + 1) 1
  let parent := fieldAt b (o + 2) 1
  let n := (len - 0x30) / 4
  ckLe b o 1 2 ++ ckThat (modeFits lanes mode) (o + 1) ++
    ckThat (if role = 1 then (parent == 0 && mode != 0) || (parent == 1 && mode == 3) else parent == 0) (o + 2) ++
    (if role = 2 then [] else ckZero b (o + 3) 1) ++ ckZero b (o + 4) 4 ++ ckPort b (o + 8) (mode != 0) ++ ckPort b (o + 0x18) (mode == 3) ++
    ckEq b (o + 0x28) 2 n ++ ckZero b (o + 0x2A) 6 ++ (List.range n).flatMap (ckRoute b o sin)

/-- One gang record (R341), after the Gang ID `prev`, in a section that ends at `stop`. -/
def ckGang (b : List Byte) (r : Nat × List Nat × Nat) (prev stop : Nat) : List Nat :=
  let p := r.2.2
  let n := r.2.1.length
  ckGe b p 2 (prev + 1) ++ ckLe b p 2 0xFFF ++ ckGe b (p + 2) 2 1 ++ ckLe b (p + 2) 2 4096 ++
    ckThat (decide (p + 8 + roundUp (2 * n) 8 ≤ stop)) (p + 3) ++ ckZero b (p + 4) 4 ++
    (List.range n).flatMap (fun i => ckMask b (p + 8 + 2 * i) 2 0xFFF ++
      ckThat (!((r.2.1.take i).contains (r.2.1.getD i 0))) (p + 9 + 2 * i)) ++ ckZero b (p + 8 + 2 * n) (roundUp (2 * n) 8 - 2 * n)

/-- GANGMAP (R341). -/
def ckGangmap (b : List Byte) (o len : Nat) : List Nat :=
  let l := gangRecords b (min (fieldAt b o 2) 4095) (o + 16)
  let prevs := 0 :: l.map (·.1)
  let stop := (l.getLast?.map fun r => r.2.2 + 8 + roundUp (2 * r.2.1.length) 8).getD (o + 16)
  ckLe b o 2 4095 ++ ckZero b (o + 2) 2 ++ ckEq b (o + 4) 4 len ++ ckZero b (o + 8) 8 ++
    (l.zip prevs).flatMap (fun x => ckGang b x.1 x.2 (o + len)) ++ ckZero b stop (o + len - stop)

/-- Has the instance a route to a SIN (R340)? `o` and `n` are the offset and the length of LINKTIME. -/
def routed (b : List Byte) (o n m : Nat) : Bool := decide (0x30 + 4 * m < n) && fieldAt b (o + 0x30 + 4 * m) 1 % 4 != 0

/-- Every member of a gang that this instance heads and that spans chips can be reached from it (R40): it has a route. `ring` lists the
instances of its own chip (log 22, DEDUCED). -/
def ckReach (b : List Byte) (o n sin : Nat) (ring : List Nat) (r : Nat × List Nat × Nat) : List Nat :=
  let spans := r.2.1.any fun m => m != sin && !(ring.contains m)
  if r.2.1.headD 4096 == sin && spans then
    r.2.1.zipIdx.flatMap fun x => ckThat (x.1 == sin || routed b o n x.1) (max (r.2.2 + 9 + 2 * x.2) (min (o + 0x33 + 4 * x.1) (o + n - 1)))
  else []

/-! ### The whole image (R333, R334, R342, R343) -/

/-- The largest and smallest IMAGE_BYTES (Table 13.2). -/
def imageBytesOk (n : Nat) : Bool := decide (0x500 ≤ n ∧ n ≤ 0x400000) && n % 64 == 0

/-- Are MAGIC and VERSION right in a header (Table 13.2)? -/
def magicOk (h : List Byte) : Bool := fieldAt h 0 4 == 0x314C474C && fieldAt h 4 2 == 1

/-- Every failed check of the directory and the sections. -/
def ckImage (b : List Byte) (bytes lanes : Nat) (ring : List Nat) : List Nat :=
  let sin := fieldAt b 0x10 2 % 4096
  let o := fun t => (sectionOf b t).off
  let n := fun t => (sectionOf b t).len
  let dir := (List.range 16).flatMap (ckEntry b bytes sin)
  ckZero b 6 2 ++ ckMask b 0x10 2 0xFFF ++ ckZero b 0x12 2 ++ ckZero b 0x18 8 ++
    if dir.isEmpty then
      ckGaps b bytes ++ ckInstance b (o 1) lanes ++ ckChannels b (o 2) sin ++ ckSlots b (o 3) (o 2) ++ ckPolicy b (o 4) ++
        ckCurves b (o 5) (n 5) ++ ckLinktime b (o 6) (n 6) sin lanes ++ ckGangmap b (o 7) (n 7) ++
        (imageGangs b).flatMap (ckReach b (o 6) (n 6) sin ring)
    else dir

/-- The least of a list. -/
def leastOf : List Nat → Option Nat
  | [] => none
  | x :: l => some (l.foldl min x)

/-- The digest of an image's covered bytes (R334). -/
def imageDigest (b : List Byte) (bytes : Nat) : List Byte := sha256 (b.take 0x20 ++ sliceOf b 0x40 (bytes - 0x40))

/-- Why an image is rejected (R343). -/
inductive ImageFault where
  | magic | digest | check (off : Nat)
  deriving DecidableEq, Repr, Inhabited

/-- The load checks of an image (R342, R343): none when it passes. -/
def checkImage (b : List Byte) (lanes : Nat) (ring : List Nat := []) : Option ImageFault :=
  let bytes := fieldAt b 0x0C 4
  if magicOk b = false then some .magic
  else if imageBytesOk bytes = false then some (.check 0x0C)
  else match leastOf (ckImage b bytes lanes ring) with
    | some off => some (.check off)
    | none => if sliceOf b 0x20 32 = imageDigest b bytes then none else some .digest

/-! ### What a passed image leaves (R333 to R341) -/

/-- A route entry read (R340). -/
def routeAt (b : List Byte) (p : Nat) : Route :=
  let w := fieldAt b p 4
  match w % 4 with
  | 1 => .loc
  | 2 => .ring (bitsOf w 16 12)
  | 3 => .port (Fin.ofNat 2 (bitsOf w 2 1))
  | _ => .none

/-- A port entry read (R340). -/
def portAt (b : List Byte) (p : Nat) : PortCfg :=
  { peerSin := fieldAt b p 2 % 4096, peerPort := fieldAt b (p + 2) 1, edge := fieldAt b (p + 3) 1, swing := fieldAt b (p + 4) 1,
    asym := signedOf 32 (fieldAt b (p + 8) 4) }

/-- A channel's entry read (R337). -/
def chanAt (b : List Byte) (p : Nat) : ChanCfg :=
  let f := fieldAt b p 1
  { enabled := bitOf f 0, plumb := bitOf f 1, grouped := bitOf f 2, group := Fin.ofNat 4 (bitsOf f 3 2), gang := fieldAt b (p + 2) 2 % 4096,
    source := fieldAt b (p + 4) 2 }

/-- The configuration store and slot-table shadow that an image fills (R335 to R341). -/
def imageOf (b : List Byte) (slot : Nat) : Image :=
  let o := fun t => (sectionOf b t).off
  let n := fun t => (sectionOf b t).len
  { slot := slot, gen := fieldAt b 8 4, bytes := fieldAt b 0x0C 4, build := fieldAt b 0x14 4, sin := fieldAt b 0x10 2 % 4096,
    digest := sliceOf b 0x20 32, minBays := fieldAt b (o 1) 1, stackReserve := fieldAt b (o 1 + 4) 4,
    chans := (List.range 16).map fun c => chanAt b (o 2 + 8 * c),
    slots := (List.range 64).map fun s => fieldAt b (o 3 + 4 * s) 4,
    digestN := fieldAt b (o 4) 4, greenOk := bitOf (fieldAt b (o 4 + 4) 1) 0, curves := sliceOf b (o 5) (n 5),
    role := fieldAt b (o 6) 1, portMode := fieldAt b (o 6 + 1) 1, parentPort := fieldAt b (o 6 + 2) 1, syncDelay := fieldAt b (o 6 + 3) 1,
    ports := [portAt b (o 6 + 8), portAt b (o 6 + 0x18)],
    routes := (List.range (fieldAt b (o 6 + 0x28) 2)).map fun k => routeAt b (o 6 + 0x30 + 4 * k),
    gangs := (imageGangs b).map fun r => (r.1, r.2.1), mapDigest := sha256 (sliceOf b (o 7) (n 7)) }

end Sys2Proof.Machine
end

