-- ==== Sys2Proof/Machine/Flits.lean ====
section
/-! DEFINITION. Envelopes and flits as bytes, and one Klody port's transmitter and receiver: message stream, replay
buffer, ACK and NAK (12_ R303 to R310, Tables 12.5 and 12.7). -/

namespace Sys2Proof.Machine

/-- The 16 bytes of an envelope (Table 12.7). -/
def envBytes (e : Envelope) : List Byte :=
  natLE 1 e.cls ++ natLE 1 e.hops ++ natLE 2 e.len ++ natLE 2 (e.dest % 4096) ++ natLE 2 (e.src % 4096) ++ natLE 2 (e.head % 4096) ++
    natLE 1 e.ch.val ++ natLE 1 e.attempt ++ natLE 4 e.seq

/-- An envelope read from its 16 bytes (Table 12.7). -/
def envOfBytes (b : List Byte) : Envelope :=
  { cls := fieldAt b 0 1, hops := fieldAt b 1 1, len := fieldAt b 2 2, dest := fieldAt b 4 2 % 4096, src := fieldAt b 6 2 % 4096,
    head := fieldAt b 8 2 % 4096, ch := Fin.ofNat 16 (fieldAt b 10 1), attempt := fieldAt b 11 1, seq := fieldAt b 12 4 }

/-- A message as it stands in a stream: envelope and body, padded to a multiple of 8 bytes (R308). -/
def msgBytes (e : Envelope) (body : List Byte) : List Byte := padMul 8 (envBytes e ++ body)

/-- The priority of a class, 1 highest (Table 12.8). -/
def classPriority (cls : Nat) : Nat := if cls = 1 ∨ cls = 4 then 3 else if 7 ≤ cls then 1 else 2

/-- The origin of a message: its sender's channel where it heads the work, else its share queue (R310; log 68, DEDUCED). -/
def originOf (e : Envelope) : Nat := 17 * e.src + (if e.src = e.head then e.ch.val else 16)

/-- The origin served next of those that wait: the least after the one served last, else the least (R310). -/
def nextOrigin (last : Nat) (os : List Nat) : Nat :=
  match os.filter (last < ·), os with
  | o :: l, _ => l.foldl min o
  | [], o :: l => l.foldl min o
  | [], [] => 0

/-- The class, DEST and SRC of a message's bytes (Table 12.7). -/
def streamKey (b : List Byte) : List Byte := b.take 1 ++ sliceOf b 4 4

/-- The waiting messages that may begin: of one sender, one destination and one class only the oldest (R310). -/
def eligible (q : List (Nat × Nat × List Byte)) : List (Nat × Nat × List Byte) :=
  q.filter fun x => (q.find? fun y => streamKey y.2.2 == streamKey x.2.2) == some x

/-- The message begun next: of those that may begin, of the highest priority, of the origin whose turn it is the oldest (R310). -/
def nextWaiting (last : Nat) (q : List (Nat × Nat × List Byte)) : Option (Nat × Nat × List Byte) :=
  let q := eligible q
  let p := q.foldl (fun m x => min m x.1) 3
  let o := nextOrigin last ((q.filter (·.1 == p)).map (·.2.1))
  q.find? fun x => x.1 == p && x.2.1 == o

/-- ACKF: bit 0 ACK valid, bit 1 NAK (Table 12.5). -/
def ackFlags (nak : Bool) : Nat := 1 + 2 * b2n nak

/-- A 256-byte flit (Table 12.5); `payload` is padded with zeros to 240 bytes. -/
def flitBytes (type first fseq used : Nat) (payload : List Byte) (ack ackf : Nat) : List Byte :=
  let b := natLE 1 type ++ natLE 1 first ++ natLE 2 fseq ++ natLE 1 used ++ zeros 3 ++ padTo 240 payload ++ natLE 2 ack ++ natLE 1 ackf ++ zeros 1
  b ++ natLE 4 (crc32 b)

/-- Is a received flit good: 256 bytes, CRC right, TYPE assigned (R305)? -/
def flitGood (f : List Byte) : Bool :=
  f.length == 256 && fieldAt f 0xFC 4 == crc32 (f.take 0xFC) && decide (1 ≤ fieldAt f 0 1 ∧ fieldAt f 0 1 ≤ 5)

/-- The offset at which the first envelope begins in the next `n` bytes of a stream whose remainder `rest` belongs to a
message begun before; 0xFF when none does. -/
def firstField (rest n : Nat) : Nat := if rest < n then rest else 0xFF

/-- Sending one flit: it leaves with the ACK, and with the NAK that is due (R306). -/
def KPort.emit (p : KPort) (type first fseq used : Nat) (payload : List Byte) : KPort :=
  { p with sent := p.sent ++ [flitBytes type first fseq used payload p.rxNext (ackFlags p.nakDue)], nakDue := false }

/-- Numbers unacknowledged (R306). -/
def KPort.unacked (p : KPort) : Nat := p.replay.length

/-- The stream's next content: what is left of the message begun, then waiting messages, up to 240 bytes; the bytes left
of a message not finished stay in the stream (R308, R310). The content, and the port after it. -/
def KPort.streamTake : Nat → Nat → KPort → List Byte × KPort
  | 0, _, k => ([], k)
  | f + 1, n, k =>
    if n = 0 then ([], k)
    else if k.txStream.isEmpty then
      match nextWaiting k.txLast k.txQueue with
      | none => ([], k)
      | some x => KPort.streamTake f n { k with txStream := x.2.2, txQueue := k.txQueue.erase x, txLast := x.2.1 }
    else
      let t := k.txStream.take n
      let r := KPort.streamTake f (n - t.length) { k with txStream := k.txStream.drop n }
      (t ++ r.1, r.2)

/-- New DATA flits are sent while messages wait and fewer than 64 are unacknowledged (R306, R308). -/
def KPort.pump : Nat → KPort → KPort
  | 0, p => p
  | f + 1, p =>
    if p.st ≠ .up ∨ 64 ≤ p.unacked ∨ (p.txStream.isEmpty ∧ p.txQueue.isEmpty) then p
    else
      let t := p.streamTake (2 * p.txQueue.length + 3) 240
      let first := firstField p.txStream.length t.1.length
      let q := t.2.emit 1 first p.txNext t.1.length t.1
      KPort.pump f { q with txNext := (p.txNext + 1) % 1024, replay := p.replay ++ [(p.txNext, natLE 1 first ++ t.1, 0)] }

/-- A message handed to the port (R310). -/
def KPort.push (p : KPort) (e : Envelope) (body : List Byte) : KPort :=
  KPort.pump 64 { p with txQueue := p.txQueue ++ [(classPriority e.cls, originOf e, msgBytes e body)] }

/-- An ACK number covers every DATA flit before it (R306). -/
def KPort.ack (p : KPort) (a : Nat) : KPort :=
  let left := p.replay.dropWhile fun x => (a + 1024 - x.1 - 1) % 1024 < 64
  { p with replay := left, txAcked := a }

/-- Every unacknowledged flit is sent again from number `a` on, in order (R306). -/
def KPort.resend (p : KPort) (a : Nat) : KPort :=
  let old := p.replay.takeWhile fun x => x.1 != a
  let again := p.replay.drop old.length
  let q := again.foldl (fun q x => q.emit 1 (fieldAt x.2.1 0 1) x.1 (x.2.1.length - 1) (x.2.1.drop 1)) p
  { q with replay := old ++ again.map fun x => (x.1, x.2.1, x.2.2 + 1), replays := p.replays + 1 }

/-- What a good flit's ACK and NAK fields acknowledge and ask for again (R306). -/
def KPort.heed (p : KPort) (flit : List Byte) : KPort :=
  let f := fieldAt flit 0xFA 1
  let a := fieldAt flit 0xF8 2 % 1024
  if bitOf f 0 then (if bitOf f 1 then (p.ack a).resend a else p.ack a) else p

/-- The ACK and NAK fields of a good flit drive the transmitter (R306). -/
def KPort.acks (p : KPort) (flit : List Byte) : KPort := if bitOf (fieldAt flit 0xFA 1) 0 then KPort.pump 64 (p.heed flit) else p

/-- A discarded DATA flit asks for a NAK, once for each expected number (R306). -/
def KPort.nak (p : KPort) : KPort :=
  if p.nakFor = some p.rxNext then p
  else
    let q := { p with nakFor := some p.rxNext, nakDue := true }
    q.emit 2 0 0 0 []

/-- The whole messages at the front of a stream: envelope and body, and what is left (R308). -/
def takeMessages : Nat → List Byte → List (Envelope × List Byte) × List Byte
  | 0, b => ([], b)
  | f + 1, b =>
    if b.length < 16 then ([], b)
    else
      let e := envOfBytes b
      let n := roundUp (16 + e.len) 8
      if b.length < n then ([], b)
      else
        let r := takeMessages f (b.drop n)
        ((e, sliceOf b 16 e.len) :: r.1, r.2)

/-- A DATA flit accepted or discarded, and the messages it completes; a flit with USED below 240 ends the stream's
content (R306, R308). -/
def KPort.receive (p : KPort) (flit : List Byte) : KPort × List (Envelope × List Byte) :=
  let used := fieldAt flit 4 1
  if flitGood flit ∧ fieldAt flit 0 1 = 1 ∧ fieldAt flit 2 2 % 1024 = p.rxNext ∧ 1 ≤ used ∧ used ≤ 240 then
    let r := takeMessages 241 (p.rxStream ++ sliceOf flit 8 used)
    let q := { p with rxNext := (p.rxNext + 1) % 1024, rxStream := if used < 240 then [] else r.2, nakFor := none }
    (q.emit 2 0 0 0 [], r.1)
  else (p.nak, [])

end Sys2Proof.Machine
end

