-- ==== Sys2Proof/Machine/Ops.lean ====
section
/-! DEFINITION. The named operations over State that the commands share: time, the error log and interrupts, management
responses, bays and yards, the memory port, messages, and entering FAULT (R317, R376 to R379, R356, R25 to R31, R397 to R400,
R404, R310, R396). -/

namespace Sys2Proof.Machine

/-! ### Time (log 3, DESIGN CHOICE) -/

/-- Is issue held: a clock-stop sequence runs or the instance is frozen (Table 14.5, step 1)? -/
def State.stopped (s : State) : Bool := s.frz.running || s.lg == .frozen

/-- Does ARITH run: after P0, out of reset, and not from the trigger of a clock stop on (13_ R345, 14_ Table 14.5, step 3; log 16)? -/
def State.arithRuns (s : State) : Bool := s.pins.rstN && decide (1 ≤ s.nv.phase) && !s.stopped

/-- The ARITH cycles that ARITH_OUT has carried, where the source is internal (16_ Table 16.2). -/
def State.arithOut (s : State) : Option Nat := if s.params.arithExternal then none else some s.clk.arith

/-- Is SYNC_OUT high (R320)? -/
def State.syncOutPin (s : State) : Bool := decide (s.clk.count.toNat < s.pins.syncTill)

/-- `n` edges of the plumb clock (R317); TRIM is held while frozen, so nothing else changes here. -/
def Clk.run (c : Clk) (arithOn : Bool) (mult n : Nat) : Clk :=
  let t : Int := (c.frac.toNat : Int) + n * ((2 : Int) ^ 32 + c.trim)
  let a := c.arithPhase + n * mult
  let e := c.edges + n
  let c := { c with count := c.count + BitVec.ofInt 64 (t / (2 : Int) ^ 32), frac := BitVec.ofInt 32 (t % (2 : Int) ^ 32), edges := e, mgmt := e / 10 }
  if arithOn then { c with arith := c.arith + a / 20, arithPhase := a % 20 } else c

/-- Time passes: `n` edges of the plumb clock. -/
def State.pass (s : State) (n : Nat) : State := { s with clk := s.clk.run s.arithRuns s.params.arithMult n }

/-- Edges of the plumb clock until COUNT is at least `c`. -/
def Clk.edgesTo (k : Clk) (c : Nat) : Nat :=
  if c ≤ k.count.toNat then 0
  else
    let need : Int := ((c - k.count.toNat : Nat) : Int) * (2 : Int) ^ 32 - k.frac.toNat
    let step : Int := (2 : Int) ^ 32 + k.trim
    ((need + step - 1) / step).toNat

/-- The instant of an event that waits for a plumb count. -/
def State.untilCount (s : State) (c : Nat) : State := s.pass (s.clk.edgesTo c)

/-- The instant of an event that waits for an ARITH cycle. -/
def State.untilArith (s : State) (a : Nat) : State :=
  if s.params.arithMult = 0 then s else s.pass (ceilDiv ((a - s.clk.arith) * 20 - s.clk.arithPhase) s.params.arithMult)

/-- The instant of an event that waits for a MGMT cycle. -/
def State.untilMgmt (s : State) (m : Nat) : State := s.pass (10 * m - s.clk.edges)

/-- COUNT as a number. -/
def State.count (s : State) : Nat := s.clk.count.toNat

/-! ### Records of the instance -/

/-- The system instance number of the loaded image (R333). -/
def State.sin (s : State) : Nat := s.image.sin

/-- The enabled bay count B (R33, R347). -/
def State.bayCount (s : State) : Nat := s.bays.enabled.length

/-- One channel changed. -/
def State.setChan (s : State) (c : Fin 16) (x : Chan) : State := { s with chans := s.chans.set c x }

/-- One channel changed by a function. -/
def State.onChan (s : State) (c : Fin 16) (f : Chan → Chan) : State := s.setChan c (f s.chans[c])

/-- One port changed. -/
def State.setPort (s : State) (p : Fin 2) (x : KPort) : State := { s with kports := s.kports.set p x }

/-- A channel's entry of CHANNELS. -/
def State.cfg (s : State) (c : Fin 16) : ChanCfg := s.image.chans.getD c {}

/-- The channels in ascending number. -/
def channels : List (Fin 16) := (List.range 16).map (Fin.ofNat 16)

/-- The job of a piece of running work. -/
def State.job (s : State) : Part → Option Job
  | .chan c => s.chans[c].job
  | .share n => (s.shares.find? (·.id == n)).bind (·.job)

/-- The job of a piece of work, changed. -/
def State.setJob (s : State) (p : Part) (j : Option Job) : State :=
  match p with
  | .chan c => s.onChan c fun x => { x with job := j }
  | .share n => { s with shares := s.shares.map fun x => if x.id = n then { x with job := j } else x }

/-- Every piece of running work: descriptors by channel, then shares by arrival. -/
def State.running (s : State) : List (Part × Job) :=
  (channels.filterMap fun c => s.chans[c].job.map fun j => (Part.chan c, j)) ++
    s.shares.filterMap fun x => x.job.map fun j => (Part.share x.id, j)

/-- LG_STATE.STATE as read (14_ Table 14.7, R365). -/
def State.lgCode (s : State) : Nat :=
  match s.lg with
  | .seasoning => 0
  | .ready => if s.running.isEmpty then 1 else 2
  | .laidDown => 3
  | .frozen => 4
  | .fault => 5

/-! ### Interrupts and the error log -/

/-- LG_IRQ_STATUS bit `n` set (Table 14.8). -/
def State.irq (s : State) (n : Nat) : State := { s with irqStatus := s.irqStatus ||| BitVec.ofNat 9 (2 ^ n) }

/-- The IRQ output (R375). -/
def State.irqPin (s : State) : Bool := s.irqStatus &&& s.irqEnable != 0

/-- Free entry positions of the ring (R376, R378). -/
def Log.freeEntries (l : Log) : Nat := (l.tail + 254 - l.head - 1) % 254

/-- The 32 bytes of an error-log entry (Table 15.2). -/
def logBytes (code disp eflags head ch attempt plumb seq bay lane detail : Nat) : List Byte :=
  natLE 2 code ++ natLE 1 disp ++ natLE 1 eflags ++ natLE 2 head ++ natLE 1 ch ++ natLE 1 attempt ++ natLE 8 plumb ++ natLE 4 seq ++
    natLE 1 bay ++ natLE 1 lane ++ zeros 2 ++ natLE 8 detail

/-- An entry made in the ring, or counted as lost (R376). -/
def Log.put (l : Log) (b : List Byte) : Log :=
  if (l.head + 1) % 254 = l.tail then { l with lost := l.lost + 1 }
  else { l with head := (l.head + 1) % 254, entries := (l.head, b) :: l.entries.filter fun x => x.1 != l.head }

/-- An entry made, with LG_IRQ_STATUS.LOG (R376, R379). -/
def State.logRaw (s : State) (b : List Byte) : State := ({ s with log := s.log.put b } : State).irq 6

/-- An entry that names no descriptor. -/
def State.log0 (s : State) (code disp detail : Nat) : State :=
  s.logRaw (logBytes code disp 0 0 0 0 s.count 0 0 0 detail)

/-- An entry that names a bay and a lane only. -/
def State.logBay (s : State) (code disp bay lane detail : Nat) : State :=
  s.logRaw (logBytes code disp 2 0 0 0 s.count 0 bay lane detail)

/-- DETAIL of ECC and parity codes (R379). -/
def unitDetail (unit off : Nat) : Nat := unit * 2 ^ 48 + off % 2 ^ 48

/-- The byte offset of a yard's 64-bit word within the yards, by physical address (R379, Table 14.6). -/
def yardOffset (w : Nat) : Nat := 8 * w
/-- The byte offset of a word of a bay's tallies within the tallies (R379, Table 14.6). -/
def tallyOffset (bay w : Nat) : Nat := 2048 * bay + 8 * w
/-- The byte offset of a word of a channel's queue within the queues (R379, Table 14.6). -/
def queueOffset (c w : Nat) : Nat := 4096 * c + 8 * w
/-- The byte offset of a word of a share-queue entry within the share queue (R379, Table 14.6). -/
def shareOffset (i w : Nat) : Nat := 1024 * i + 8 * w

/-- The error-log codes of Table 15.3. -/
def codeCE : Nat := 0x0001
/-- ECC_UE. -/
def codeUE : Nat := 0x0002
/-- LANE_CHECK. -/
def codeLane : Nat := 0x0003
/-- SECOND_RETIRE. -/
def codeSecond : Nat := 0x0004
/-- PARITY. -/
def codeParity : Nat := 0x0005
/-- MEM_ERR. -/
def codeMem : Nat := 0x0006
/-- ATTEMPT_LIMIT. -/
def codeLimit : Nat := 0x0007
/-- GANG_LOST. -/
def codeGang : Nat := 0x0008
/-- PORT_DOWN. -/
def codePort : Nat := 0x0030
/-- UNLOCKED. -/
def codeUnlocked : Nat := 0x0031
/-- ROUTE_DISCARD. -/
def codeRoute : Nat := 0x0032
/-- CLASS_RESERVED. -/
def codeClass : Nat := 0x0033
/-- MSG_DISCARD. -/
def codeMsg : Nat := 0x0034
/-- LAPSE. -/
def codeLapse : Nat := 0x0040

/-- A correctable error: counted always, logged while 64 entries are free (R378). -/
def State.corrected (s : State) (unit off : Nat) : State :=
  let s := { s with ctr := { s.ctr with eccCe := s.ctr.eccCe + 1 } }
  if 64 ≤ s.log.freeEntries then s.log0 codeCE 1 (unitDetail unit off) else s

/-! ### Management responses (R356) -/

/-- A response of the management port. -/
def State.respond (s : State) (m : Fin 4) (code : Nat) (data : Word := 0) : State :=
  { s with mg := s.mg ++ [{ master := m, code := code, data := data }] }

/-- A write that requires the owner (R14): WRONG_OWNER without effect from another master; nothing while RST_N is low. -/
def State.byOwner (s : State) (m : Fin 4) (f : State → State) : State :=
  if s.pins.rstN = false then s else if s.own.owner = some m then f s else s.respond m 1

/-! ### Messages on the message port (R404) -/

/-- A message sent. -/
def State.send (s : State) (dst : Nat) (b : List Byte) : State := { s with sent := s.sent ++ [(dst, b)] }

/-! ### Bays and yards -/

/-- The physical bay of a logical bay (R30). -/
def State.physical (s : State) (j : Nat) : Option Nat := s.bays.enabled[j]?

/-- The physical byte address of an address of the instance's yard space (R31). -/
def State.yardAddr (s : State) (a : Nat) : Option Nat := (s.physical (a / 2 ^ 20)).map fun p => p * 2 ^ 20 + a % 2 ^ 20

/-- What a yard byte that no cell lists reads as (R25). -/
def yardDefault : Byte := 0#8

/-- A cell list with the byte at an address set, in canonical form: addresses rising, no entry equal to the default. -/
def setCell (a : Nat) (v : Byte) : List Host.Cell → List Host.Cell
  | [] => if v = yardDefault then [] else [(a, v)]
  | x :: l =>
    if x.1 < a then x :: setCell a v l
    else if x.1 = a then (if v = yardDefault then l else (a, v) :: l)
    else if v = yardDefault then x :: l else (a, v) :: x :: l

/-- The byte a cell list gives an address. -/
def getCell (a : Nat) : List Host.Cell → Byte
  | [] => yardDefault
  | x :: l => if x.1 = a then x.2 else getCell a l

/-- Is a cell list in canonical form? -/
def cellsWf : List Host.Cell → Bool
  | [] => true
  | [x] => x.2 != yardDefault
  | x :: y :: l => x.2 != yardDefault && decide (x.1 < y.1) && cellsWf (y :: l)

/-- Marked ranges with a byte taken out of them. -/
def unmark (a : Nat) (l : List (Nat × Nat × Nat)) : List (Nat × Nat × Nat) :=
  l.flatMap fun r =>
    if r.1 ≤ a ∧ a < r.1 + r.2.1 then
      (if r.1 < a then [(r.1, a - r.1, r.2.2)] else []) ++
        (if a + 1 < r.1 + r.2.1 then [(a + 1, r.1 + r.2.1 - (a + 1), r.2.2)] else [])
    else [r]

/-- The byte at a physical yard address: free where the spec leaves it undefined (R242, R383; log 8, DESIGN CHOICE). -/
def Bays.byteAt (b : Bays) (a : Nat) : Byte :=
  match (b.undef.find? fun r => decide (r.1 ≤ a ∧ a < r.1 + r.2.1)) with
  | some r => Config.undefByte r.2.2 a
  | none => getCell a b.yard

/-- A physical yard byte written. -/
def Bays.setByte (b : Bays) (a : Nat) (v : Byte) : Bays :=
  { b with yard := setCell a v b.yard, undef := if b.undef.isEmpty then [] else unmark a b.undef }

/-- The byte at an address of the instance's yard space; 0 outside it. -/
def State.yardByte (s : State) (a : Nat) : Byte :=
  match s.yardAddr a with
  | some p => s.bays.byteAt p
  | none => yardDefault

/-- The 64-bit words, by physical address, of a range of the yard space. -/
def State.yardWords (s : State) (a n : Nat) : List Nat :=
  if n = 0 then []
  else ((List.range ((a + n - 1) / 8 + 1 - a / 8)).filterMap fun i => (s.yardAddr (8 * (a / 8 + i))).map (· / 8))

/-- A write into the instance's yard space: words wholly written get valid check bits, a partly written uncorrectable
word stays so and is counted and logged, a partly written correctable word is corrected (R377, Table 15.1). -/
def State.yardWrite (s : State) (a : Nat) (b : List Byte) : State :=
  let n := b.length
  let words := if s.bays.yardUE.isEmpty ∧ s.bays.yardCE.isEmpty then [] else s.yardWords a n
  let whole := fun (w : Nat) => (List.range 8).all fun k =>
    (List.range n).any fun i => s.yardAddr (a + i) == some (8 * w + k)
  let s1 := words.foldl (fun (s : State) w =>
    if s.bays.yardUE.contains w then
      if whole w then { s with bays := { s.bays with yardUE := s.bays.yardUE.filter (· != w) } }
      else ({ s with ctr := { s.ctr with eccUe := s.ctr.eccUe + 1 } }).log0 codeUE 0 (unitDetail 0 (yardOffset w))
    else if s.bays.yardCE.contains w then
      let t := { s with bays := { s.bays with yardCE := s.bays.yardCE.filter (· != w) } }
      if whole w then t else t.corrected 0 (yardOffset w)
    else s) s
  let bays := (b.zipIdx).foldl (fun (y : Bays) x => match s.yardAddr (a + x.2) with
    | some p => y.setByte p x.1
    | none => y) s1.bays
  { s1 with bays := bays }

/-- A read of a yard range through SECDED (R26, R377): correctable words corrected and counted; the first uncorrectable
word counted, and none when there is none. -/
def State.yardCheck (s : State) (a n : Nat) : State × Option Nat :=
  if s.bays.yardUE.isEmpty ∧ s.bays.yardCE.isEmpty then (s, none)
  else (s.yardWords a n).foldl (fun (r : State × Option Nat) w =>
    if r.2.isSome then r
    else if r.1.bays.yardUE.contains w then ({ r.1 with ctr := { r.1.ctr with eccUe := r.1.ctr.eccUe + 1 } }, some w)
    else if r.1.bays.yardCE.contains w then
      (({ r.1 with bays := { r.1.bays with yardCE := r.1.bays.yardCE.filter (· != w) } }).corrected 0 (yardOffset w), none)
    else r) (s, none)

/-! ### The memory port (R397 to R400) -/

/-- The requests that cover the bytes [a, a + n): one per 4 KiB page, in whole 64-byte units (R398). -/
def readReqs (use : Use) (a n : Nat) : List MemReq :=
  if n = 0 then []
  else (List.range ((a + n - 1) / 4096 + 1 - a / 4096)).map fun i =>
    let page := (a / 4096 + i) * 4096
    let lo := max a page / 64 * 64
    let hi := roundUp (min (a + n) (page + 4096)) 64
    ({ write := false, addr := lo, len := (hi - lo) / 64, use := use } : MemReq)

/-- The write requests of a byte string at an address: one per 4 KiB page (R398). -/
def writeReqs (use : Use) (a : Nat) (b : List Byte) : List MemReq :=
  if b.isEmpty then []
  else (List.range ((a + b.length - 1) / 4096 + 1 - a / 4096)).map fun i =>
    let page := (a / 4096 + i) * 4096
    let lo := max a page
    let hi := min (a + b.length) (page + 4096)
    ({ write := true, addr := lo, len := (roundUp hi 64 - lo / 64 * 64) / 64, data := sliceOf b (lo - a) (hi - lo), use := use } : MemReq)

/-- The bytes of whole units a request covers: first address and length. -/
def MemReq.span (r : MemReq) : Nat × Nat := (r.addr / 64 * 64, r.len * 64)

/-- May a request not go out yet: a read and a write to overlapping bytes are never outstanding together (R399)? -/
def MemPort.clash (m : MemPort) (r : MemReq) : Bool :=
  m.out.any fun o => o.write != r.write && rangesMeet o.span.1 o.span.2 r.span.1 r.span.2

/-- The lowest tag that is neither outstanding nor reserved (R399, R400). -/
def MemPort.freeTag (m : MemPort) : Option Nat :=
  if 1024 ≤ m.out.length + m.dead.length then none
  else (List.range 1024).find? fun t => !(m.out.any (·.tag == t)) && !(m.dead.contains t)

/-- Waiting requests go out in order while a tag is free and nothing clashes. -/
def MemPort.issue : Nat → MemPort → MemPort
  | 0, m => m
  | f + 1, m =>
    match m.waiting, m.freeTag with
    | r :: l, some t => if m.clash r then m else MemPort.issue f { m with out := m.out ++ [{ r with tag := t }], waiting := l }
    | _, _ => m

/-- Requests handed to the port; none goes out while issue is stopped (Table 14.5, step 1). -/
def State.request (s : State) (l : List MemReq) : State :=
  let m := { s.port with waiting := s.port.waiting ++ l }
  { s with port := if s.stopped then m else MemPort.issue m.waiting.length m }

/-- Requests that wait go out where they can. -/
def State.reissue (s : State) : State := if s.stopped then s else { s with port := MemPort.issue s.port.waiting.length s.port }

/-- Are requests of a use outstanding or waiting? -/
def State.inFlight (s : State) (u : Use) : Bool := s.port.out.any (·.use == u) || s.port.waiting.any (·.use == u)

/-- Is a request a piece of work's own: its inputs, its outputs, or the blocks of its validation (R381, R382)? -/
def Use.ofPart (p : Part) : Use → Bool
  | .input q => q == p
  | .output q => q == p
  | .block c _ => p == .chan c
  | _ => false

/-- Are requests of a piece of work outstanding (the memory part of a drain, R382)? -/
def State.partInFlight (s : State) (p : Part) : Bool := s.port.out.any (·.use.ofPart p) || s.port.waiting.any (·.use.ofPart p)

/-- The block reads of a channel's validation are no longer wanted: those not gone out are dropped, the rest discarded when
they are answered. -/
def State.discardBlocks (s : State) (c : Fin 16) : State :=
  let isBlock : Use → Bool := fun u => match u with | .block d _ => d == c | _ => false
  { s with port := { s.port with
      out := s.port.out.map fun r => if isBlock r.use then { r with use := .discarded } else r,
      waiting := s.port.waiting.filter fun r => !(isBlock r.use) } }

/-- An outstanding request taken from the port. -/
def MemPort.take (m : MemPort) (tag : Nat) : MemPort := { m with out := m.out.filter fun r => r.tag != tag }

/-! ### Messages between instances (R310, R311, R340) -/

/-- The route of a destination (R311, R340). -/
def State.routeOf (s : State) (dest : Nat) : Route := s.image.routes.getD dest .none

/-- The even-parity bit of a word (R311, R402). -/
def wordParity (w : Word) : Bool := (List.range 32).foldl (fun x i => x != w.getLsbD i) false

/-- Is an even-parity bit right for a word (R402)? -/
def parityRight (w : Word) (b : Bool) : Bool := b == wordParity w

/-- The parity bits of a beat: one per 4 bytes (R311). -/
def beatPar (b : List Byte) : List Bool := (chunksOf 4 b).map fun x => wordParity (BitVec.ofNat 32 (leNat x))

/-- Beats on the tie ring from this stop to another one in one direction. -/
def State.ringDist (s : State) (cw : Bool) (place : Nat) : Nat :=
  let n := s.params.ring.length
  if cw then (place + n - s.params.stop) % n else (s.params.stop + n - place) % n

/-- The beats of a message to the stop of an instance: ring tag, envelope, body, padded to whole beats, on the shorter
direction, clockwise when both are equal (R311). -/
def State.ringBeats (s : State) (next : Nat) (e : Envelope) (body : List Byte) : List (Bool × List Byte × List Bool) :=
  if s.params.ring.contains next then
    let place := s.params.ring.findIdx (· == next)
    let cw := decide (s.ringDist true place ≤ s.ringDist false place)
    (chunksOf 32 (padMul 32 (natLE 4 (place % 64) ++ envBytes e ++ body))).map fun b => (cw, b, beatPar b)
  else []

/-- A beat driven in a direction (R408): one an ARITH cycle, and only with a credit of the neighbour, which returns that of a beat 2 cycles after
it left, the time in which a stop passes it on (R311; log 19, DESIGN CHOICE). -/
def RingDir.sendOne (d : RingDir) (now : Nat) : RingDir :=
  let free := if d.left.length < 8 then 0 else d.left.headD 0 + 2
  let at1 := max now (max free (match d.left.getLast? with | some t => t + 1 | none => 0))
  { d with left := d.left.drop (d.left.length - 7) ++ [at1] }

/-- The credits that a direction holds of its neighbour at an ARITH cycle (R408). -/
def RingDir.credits (d : RingDir) (now : Nat) : Nat := 8 - (d.left.filter fun t => decide (now < t + 2)).length

/-- Beats driven onto the ring. -/
def RingStop.drive (k : RingStop) (now : Nat) (l : List (Bool × List Byte × List Bool)) : RingStop :=
  l.foldl (fun (k : RingStop) x => if x.1 then { k with cw := k.cw.sendOne now } else { k with ccw := k.ccw.sendOne now })
    { k with beats := k.beats ++ l }

/-- A port that starts to hold unacknowledged flits counts the silence of ACKs from now (R306). -/
def KPort.pushAt (p : KPort) (now : Nat) (e : Envelope) (body : List Byte) : KPort :=
  (if p.replay.isEmpty then { p with lastAck := now } else p).push e body

/-- A message given to its route; with no route it is discarded and logged (R340). -/
def State.netPut (s : State) (e : Envelope) (body : List Byte) : State :=
  let r := s.routeOf e.dest
  match r with
  | .none => s.log0 codeRoute 0 (e.dest % 4096 + 2 ^ 16)
  | .loc => s
  | .ring n => { s with net := s.net ++ [{ route := r, env := e, body := body }], stop := s.stop.drive s.clk.arith (s.ringBeats n e body) }
  | .port p => ({ s with net := s.net ++ [{ route := r, env := e, body := body }] } : State).setPort p (s.kports[p].pushAt s.count e body)

/-- An envelope from this instance. -/
def State.envTo (s : State) (cls dest : Nat) (body : List Byte) : Envelope :=
  { cls := cls, len := body.length, dest := dest, src := s.sin }

/-- The members of a gang, this instance alone for 0x000 (R34). -/
def State.gangMembers (s : State) (g : Nat) : List Nat := if g = 0 then [s.sin] else (s.image.gangs.lookup g).getD []

/-- The gangs this instance belongs to, in ascending Gang ID. -/
def State.myGangs (s : State) : List (Nat × List Nat) := s.image.gangs.filter fun g => g.2.contains s.sin

/-- The heads of the gangs this instance belongs to but does not head. -/
def State.otherHeads (s : State) : List Nat :=
  dedup ((s.myGangs.map fun g => g.2.headD 0).filter (· != s.sin))

/-- READY as a SCARF reports it: LG_STATE READY, RUNNING or LAID_DOWN (R316). -/
def State.scarfReady (s : State) : Bool := (s.lg == .ready || s.lg == .laidDown) && !s.stop.fault

/-- The share-queue entries held for a gang (R39). -/
def State.gangShare (s : State) (g : Nat) : Nat :=
  let gs := (s.myGangs.filter fun x => x.2.headD 0 != s.sin).map (·.1)
  let n := gs.length
  if n = 0 then 0
  else 32 / n + b2n (decide (gs.findIdx (· == g) < 32 - n * (32 / n)))

/-- The gangs of this instance that an instance heads. -/
def State.gangsOf (s : State) (head : Nat) : List Nat := (s.myGangs.filter fun g => g.2.headD 0 == head).map (·.1)

/-- SHARE_CREDIT as reported to a head: the entries held for each of the gangs it heads, the least of them where they differ (R39,
R316; log 9, DESIGN CHOICE). -/
def State.creditFor (s : State) (head : Nat) : Nat :=
  match (s.gangsOf head).map s.gangShare with
  | [] => 0
  | n :: l => l.foldl min n

/-- The share-queue entries held for a head: those of every gang it heads (R39). -/
def State.headShare (s : State) (head : Nat) : Nat := ((s.gangsOf head).map s.gangShare).sum

/-- The low 16 bytes of the gang-map digest (R316): bytes 0 to 15, for digest byte k stands at offset k (R10, Table 14.12; log 79, DEDUCED). -/
def State.mapTag (s : State) : List Byte := s.image.mapDigest.take 16

/-- A SCARF body (R316). -/
def State.scarfBody (s : State) (head : Nat) (ready : Bool) : List Byte :=
  natLE 2 s.sin ++ natLE 1 s.bayCount ++ natLE 1 (b2n ready + 2 * b2n s.clk.locked) ++ natLE 4 s.nv.bootId ++ natLE 4 s.image.stackReserve ++
    natLE 1 (s.creditFor head) ++ zeros 3 ++ padTo 32 s.curveDigest ++ padTo 16 s.mapTag

/-- SCARF put on its way to the head of every gang the instance belongs to (R316); nothing while frozen. -/
def State.putScarf (s : State) (ready : Bool) : State :=
  if s.lg = .frozen then s
  else s.otherHeads.foldl (fun s h => let b := s.scarfBody h ready; s.netPut (s.envTo 7 h b) b) s

/-! ### Entering FAULT (R370, R396) -/

/-- The ring message of a FREEZE frame to a stop (R311, R328): tag with the FREEZE marker, envelope, body. Table 12.8 gives it no class: 0 (log
16, DESIGN CHOICE). -/
def State.freezeBeat (s : State) (place : Nat) (payload : List Byte) : List Byte :=
  padMul 32 (natLE 4 (place % 64 + 128) ++ envBytes (s.envTo 0 (s.params.ring.getD place 0) payload) ++ payload)

/-- The FREEZE frames of R328: a flit in 4 consecutive slots on every up port but the one named, and a ring message with the
FREEZE marker on both directions. -/
def State.sendFreeze (s : State) (id origin scope hops : Nat) (except : Option (Fin 2)) : State :=
  let payload := natLE 4 id ++ natLE 2 origin ++ natLE 2 scope ++ natLE 1 hops
  let four := fun (k : KPort) => (List.range 4).foldl (fun q _ => q.emit 4 0 0 0 payload) k
  let ports := [(0 : Fin 2), 1].foldl (fun (k : Vector KPort 2) p =>
    if k[p].st = .up ∧ except ≠ some p then k.set p (four k[p]) else k) s.kports
  let n := s.params.ring.length
  let beat := fun (cw : Bool) (place : Nat) => let b := s.freezeBeat place payload; (cw, b, beatPar b)
  let beats := if 2 ≤ n then [beat true ((s.params.stop + 1) % n), beat false ((s.params.stop + n - 1) % n)] else []
  { s with kports := ports, stop := s.stop.drive s.clk.arith beats }

/-- The freeze sequence starts: steps 1 to 4 of Table 14.5. -/
def State.startFreeze (s : State) (cause origin id scope hops : Nat) (frames : Bool) (except : Option (Fin 2)) : State :=
  let s := if frames then s.sendFreeze id origin scope hops except else s
  { s with
    pins := { s.pins with freezeOut := s.pins.freezeOut || s.frz.driveOut },
    frz := { s.frz with
      cause := cause, origin := if cause = 3 then origin else 0, id := if frames ∨ cause = 3 then BitVec.ofNat 32 id else 0, running := true, startedAt := s.count,
      memTimeout := false, preReady := s.nv.phase != 7,
      frozenFrom := s.lgCode } }

/-- FREEZE_ID of a freeze that starts here: SIN × 2^20 plus a count (the form of LG_RAISE_ID; log 16, DESIGN CHOICE). -/
def State.newFreezeId (s : State) : Nat := (s.sin * 2 ^ 20 + s.frz.count % 2 ^ 20) % 2 ^ 32

/-- A freeze that starts here, by the pin, the register or a fault (R370). -/
def State.freezeHere (s : State) (cause : Nat) : State :=
  if s.stopped then s
  else
    let id := s.newFreezeId
    let t := s.startFreeze cause s.sin id s.frz.scope 0 s.frz.propagate none
    { t with frz := { t.frz with count := t.frz.count + 1,
                                 seen := if s.frz.propagate then (id :: t.frz.seen).take 8 else t.frz.seen } }

/-- The last output of a job so far is now. -/
def Job.touch (j : Job) (s : State) : Job := { j with lastAt := s.count, lastArith := s.clk.arith }

/-- The last output so far of a piece of work is now. -/
def State.touchPart (s : State) (p : Part) : State := match s.job p with | some j => s.setJob p (some (j.touch s)) | none => s

/-- Every running attempt drains; no request of it that has not gone out goes out (R382, R396). -/
def Job.drain (j : Job) : Job := { j with phase := .draining }

/-- Is a request the offcut ring's: HEAD and TAIL, a record, HEAD? -/
def Use.ofOffcut : Use → Bool
  | .ringRead .offcut | .ringRecord .offcut | .ringHead .offcut => true
  | _ => false

/-- The offcut records of a piece of work are dropped: no request of them goes out any more, and the ring stays taken until those that
have are answered (R382). -/
def State.dropOffcut (s : State) (p : Part) : State :=
  let t := { s with offcut := s.offcut.filter fun x => x.1 != p }
  match s.offcutUse with
  | some (q, u) =>
    if q = p then
      { t with
        port := { s.port with waiting := s.port.waiting.filter fun r => !(r.use.ofOffcut) }
        offcutUse := if s.port.out.any (·.use.ofOffcut) then some (q, { u with phase := .dropped }) else none }
    else t
  | none => t

/-- Requests and records of a piece of work that have not gone out are dropped (R382). -/
def State.dropWaiting (s : State) (p : Part) : State :=
  let s := s.dropOffcut p
  { s with port := { s.port with waiting := s.port.waiting.filter fun r => !(r.use.ofPart p) } }

/-- Does the first issue of an output of a piece of work still wait at the port (R399)? -/
def State.outputWaits (s : State) (p : Part) : Bool := s.port.waiting.any fun q => q.use == .output p && q.tries == 0

/-- May a job still be halted: not one whose COMMIT_STEP write has been issued (R388)? -/
def State.haltable (s : State) (p : Part) (j : Job) : Bool :=
  j.phase != .draining && !((Desc.parse j.desc).chain == 45 && j.phase == .writing && !(s.outputWaits p))

/-- A piece of running work halts for good with its instance (R396). -/
def State.haltForFault (s : State) (p : Part) : State :=
  match s.job p with
  | none => s
  | some j =>
    if s.haltable p j = false then s
    else
      let s := (s.setJob p (some j.drain)).dropWaiting p
      match p with
      | .chan c => s.onChan c fun x => { x with st := .halt, halted := some { disp := .stranded, time := s.count, start := j.start } }
      | .share _ => s.setJob p (some { j.drain with silent := true })

/-- The configuration store read where no fault follows: corrections, and an uncorrectable word counted (R377, R421). -/
def State.scanConfig (s : State) : State :=
  let t := s.bays.configCE.foldl (fun (s : State) _ => s.corrected 5 0) { s with bays := { s.bays with configCE := [] } }
  if t.bays.configUE.isEmpty then t else { t with ctr := { t.ctr with eccUe := t.ctr.eccUe + 1 } }

/-- The instance enters LG_STATE FAULT: interrupt, entry, halts, SCARF, whose routing reads the configuration store (R396, R421). -/
def State.enterFault (s : State) (entry : List Byte) : State :=
  let s := ({ s with lg := .fault, draining := false }.irq 0).logRaw entry
  let s := (s.running.map (·.1)).foldl State.haltForFault s
  if s.otherHeads.isEmpty then s else s.scanConfig.putScarf false

/-- Has an instance fault been met, whose effects stand or await the thaw? -/
def State.faultMet (s : State) : Bool := s.lg == .fault || (s.stopped && s.frz.frozenFrom == 5)

/-- An instance fault: FAULT at once, or a freeze in its place under ON_FAULT; one met during a freeze waits for its thaw
(R370, R396; log 21, DESIGN CHOICE). -/
def State.instanceFault (s : State) (entry : List Byte) : State :=
  if s.lg = .fault then s
  else if s.stopped then
    if s.frz.frozenFrom = 5 then s
    else { s with frz := { s.frz with pendingFault := true, faultEntry := entry, frozenFrom := 5 } }
  else if s.frz.onFault then
    let t := s.freezeHere 4
    { t with frz := { t.frz with pendingFault := true, faultEntry := entry, frozenFrom := 5 } }
  else s.enterFault entry

/-- An instance fault of a protected configuration word (R421, Table 15.4). -/
def State.configFault (s : State) : State :=
  ({ s with ctr := { s.ctr with eccUe := s.ctr.eccUe + 1 } }).instanceFault
    (logBytes codeUE 4 0 0 0 0 s.count 0 0 0 (unitDetail 5 0))

/-- A use of the configuration store and slot-table shadow reads them: corrections, or an instance fault (R421). -/
def State.readConfig (s : State) : State :=
  let t := s.bays.configCE.foldl (fun (s : State) _ => s.corrected 5 0) { s with bays := { s.bays with configCE := [] } }
  match t.bays.configUE with
  | [] => t
  | _ :: _ => t.configFault

/-! ### Sending between instances (R310, R340, R421) -/

/-- A message routed: its routing is a use of the configuration store (R421). It goes by its route in FAULT too (R396), not where the fault it
met stops the clocks. -/
def State.netSend (s : State) (e : Envelope) (body : List Byte) : State :=
  let t := s.readConfig
  if t.stopped && !s.stopped then t else t.netPut e body

/-- SCARF sent to the head of every gang the instance belongs to (R316); nothing while frozen. Where its routing meets a fault, that sends
the SCARF. -/
def State.sendScarf (s : State) (ready : Bool) : State :=
  if s.lg = .frozen ∨ s.otherHeads = [] then s
  else
    let t := s.readConfig
    if s.bays.configUE.isEmpty || s.lg == .fault then t.putScarf ready else t

end Sys2Proof.Machine
end

