-- ==== Sys2Proof/Machine/Work.lean ====
section
/-! DEFINITION. What one execution reads, holds and leaves: its descriptor and environment, the bytes it reads, its digests,
its capture records and shavings (R263 to R267, R274, R290 to R294, R258, R231, R314). -/

namespace Sys2Proof.Machine

/-- The descriptor of a job. -/
def Job.d (j : Job) : Desc := Desc.parse j.desc

/-- The scale block of a job. -/
def Job.scale (j : Job) : ScaleBlock := ScaleBlock.parse j.d.hw (blockOf j.blocks 1)

/-- The bays of the executing instance or gang. -/
def Job.allBays (j : Job) : Nat := j.bays.sum

/-- Does a job run on one instance alone, or do the head's work of a chain the head alone executes? -/
def Job.alone (j : Job) : Bool := decide (j.members.length ≤ 1) || headAlone j.d

/-- The work of an execution for the sums of a direction: all of it, what its SHARE names, or the head's part (R312, R420). -/
def Job.workFor (j : Job) (dir : Dir) : List (Nat × Nat) :=
  if j.skip then []
  else if j.members.length ≤ 1 then [(0, workCount j.d)]
  else match j.unit with
    | some r => shareWork j.d j.blocks j.bays j.pos r.1 r.2 dir
    | none => memberWorkFor j.d j.blocks j.bays j.pos dir

/-- The work of member `m` as this execution knows it. -/
def Job.workOf (j : Job) (m : Nat) (dir : Dir) : List (Nat × Nat) :=
  if m = j.pos then j.workFor dir else if j.skip then [] else memberWorkFor j.d j.blocks j.bays m dir

/-- Every work element an execution reads: those of the sums of each direction (R190, R420). -/
def Job.touched (j : Job) (m : Nat) : List Nat := intervalElems ((sumDirs j.d j.blocks).flatMap (j.workOf m))

/-- The first yard address of the member's own yard space in the gang's (R36). -/
def Job.yardBase (j : Job) : Nat := (bayStarts j.bays).getD j.pos 0 * 2 ^ 20

/-- The enabled bay count of a member (R316; log 9, DESIGN CHOICE where no SCARF gave it). -/
def State.memberBays (s : State) (m : Nat) : Nat :=
  if m = s.sin then s.bayCount
  else match s.scarfs.find? (·.sin == m) with
    | some e => e.bays
    | none => Config.peerBays m

/-- A byte of the gang's yard space: this member's own yards; of another member's what this execution has written there (R235), else a free
one, for no message reads a peer's yard (log 9, DESIGN CHOICE). -/
def State.gangYard (s : State) (j : Job) (a : Nat) : Byte :=
  let lo := j.yardBase
  if lo ≤ a ∧ a < lo + s.bayCount * 2 ^ 20 then s.yardByte (a - lo)
  else match j.pieces.find? fun x => x.kind == 1 && decide (x.addr ≤ a ∧ a < x.addr + x.bytes.length) with
    | some x => x.bytes.getD (a - x.addr) 0#8
    | none => Config.peerYardByte j.head a

/-! ### Writes into the gang's yard space (R36, R235) -/

/-- A byte run cut at the bays' boundaries: address and bytes. -/
def cutBays : Nat → Nat → List Byte → List (Nat × List Byte)
  | 0, _, _ => []
  | f + 1, a, b =>
    if b.isEmpty then []
    else
      let n := 2 ^ 20 - a % 2 ^ 20
      (a, b.take n) :: cutBays f (a + n) (b.drop n)

/-- The member that holds a gang yard address, by position (R36). -/
def memberAt (bays : List Nat) (a : Nat) : Nat :=
  ((List.range bays.length).find? fun m => decide (a / 2 ^ 20 < (bayStarts bays).getD (m + 1) 0)).getD 0

/-- A peer tile's body (R235): an offset of the receiving member's yard space, at most 224 bytes. -/
def tileBody (head ch seq off : Nat) (b : List Byte) : List Byte :=
  natLE 1 0x10 ++ zeros 1 ++ natLE 2 (head % 4096) ++ natLE 1 ch ++ zeros 3 ++ natLE 4 seq ++ zeros 4 ++ natLE 5 off ++ zeros 3 ++
    natLE 2 b.length ++ zeros 6 ++ b

/-- A byte run of the gang's yard space by the members that hold it: position, offset in the member's yards, bytes; for a member other
than `pos` cut into the payloads of tiles. -/
def gangParts (bays : List Nat) (pos a : Nat) (b : List Byte) : List (Nat × Nat × List Byte) :=
  (cutBays (b.length / 2 ^ 20 + 2) a b).flatMap fun x =>
    let m := memberAt bays x.1
    let off := x.1 - (bayStarts bays).getD m 0 * 2 ^ 20
    if m = pos then [(m, off, x.2)] else (chunksOf 224 x.2).zipIdx.map fun y => (m, off + 224 * y.2, y.1)

/-- A write into the gang's yard space: the own part at once, the rest as peer tiles under the envelope's work; the tiles to be
acknowledged are named by SIN, offset and length (R235). -/
def State.gangWrite (s : State) (env : Envelope) (members bays : List Nat) (pos a : Nat) (b : List Byte) : State × List (Nat × Nat × Nat) :=
  (gangParts bays pos a b).foldl (fun (r : State × List (Nat × Nat × Nat)) x =>
    if x.1 = pos then (r.1.yardWrite x.2.1 x.2.2, r.2)
    else
      let m := members.getD x.1 0
      let body := tileBody env.head env.ch.val env.seq x.2.1 x.2.2
      (r.1.netSend { env with cls := 4, dest := m, len := body.length } body, r.2 ++ [(m, x.2.1, x.2.2.length)])) (s, [])

/-- The yard bytes of ranges are undefined from now on, and their words rewritten (R242, R383; log 8, DESIGN CHOICE). -/
def State.undefine (s : State) (rs : List Rng) : State :=
  let marks := rs.flatMap fun r =>
    if r.kind = 1 ∧ r.out then
      (List.range (r.len / 2 ^ 20 + 2)).filterMap fun k =>
        let lo := max r.addr ((r.addr / 2 ^ 20 + k) * 2 ^ 20)
        let hi := min (r.addr + r.len) ((r.addr / 2 ^ 20 + k + 1) * 2 ^ 20)
        if lo < hi then some (lo, hi - lo) else none
    else []
  if marks.isEmpty then s
  else { s with bays := { s.bays with
      undef := (marks.filterMap fun m => (s.yardAddr m.1).map fun a => (a, m.2, s.bays.undefNext)) ++ s.bays.undef,
      undefNext := s.bays.undefNext + 1 } }

/-- The envelope of a message of a job (R309). -/
def State.jobEnvelope (s : State) (j : Job) (cls dest : Nat) (body : List Byte) : Envelope :=
  { s.envTo cls dest body with head := j.head, ch := j.ch, attempt := j.attempt % 256, seq := j.d.seq }

/-- A byte of memory an execution has read. -/
def chunkByte (cs : List (Nat × List Byte)) (a : Nat) : Byte :=
  match cs.find? fun c => decide (c.1 ≤ a ∧ a < c.1 + c.2.length) with
  | some c => c.2.getD (a - c.1) 0#8
  | none => 0#8

/-- Tap cycles of one row (R231). -/
def tapCycles (d : Desc) : Nat := ceilDiv (d.e 0) 64

/-- The bays whose taps feed a job: the head's own when it executes alone, else every member's (R231, R234). -/
def Job.tapBays (j : Job) : Nat := if j.alone then j.bays.headD 0 else j.allBays

/-- The first of them that is this instance's. -/
def Job.tapFirst (j : Job) : Nat := if j.alone then 0 else (bayStarts j.bays).getD j.pos 0

/-- An accumulator a tap presented: row and position; the member's taps are counted from its own first bay (R231). -/
def Job.tap (j : Job) (row pos : Nat) : Nat :=
  let d := j.d
  match (List.range (j.bays.getD j.pos 0)).find? fun k =>
      let t := tapRows d j.tapBays (j.tapFirst + k)
      decide (t.1 ≤ row ∧ row < t.1 + t.2) with
  | some k =>
    let beat := (row - (tapRows d j.tapBays (j.tapFirst + k)).1) * tapCycles d + pos / 64
    (((j.taps.getD k []).getD beat []).getD (pos % 64) 0).toNat
  | none => 0

/-- Beats the tap of the member's bay `k` has to deliver (R231, R232). -/
def Job.tapNeed (j : Job) (k : Nat) : Nat :=
  if j.d.kind sIn ≠ 2 ∨ j.skip ∨ (j.alone ∧ j.pos ≠ 0) then 0
  else (tapRows j.d j.tapBays (j.tapFirst + k)).2 * tapCycles j.d

/-- The curve of a job (R132). -/
def State.curveOf (s : State) (d : Desc) : Option Curve := if usesCurve d then Curve.parse s.image.curves d.curveId else none

/-- The held bytes of an element as pass 2 read them back (R243): those of the elements this execution spilled. -/
def Job.backOf (j : Job) (i : Nat) : Option (List Byte) :=
  let n := heldCount j.d j.scale * heldBytes j.d
  if j.passAt = 0 ∨ (j.pieces.any fun x => x.tag == 8 && x.off == i * n) = false then none
  else some ((List.range n).map fun k => chunkByte j.back (j.d.spillP + i * n + k))

/-- Does the evaluation of a descriptor ask of a whole set what no message carries: whether its elements are equal, fully masked or
finite, or which FP32P value ranks highest (R154, R164, R182, R183, R191; log 70, log 71)? -/
def asksOfSets (d : Desc) : Bool :=
  d.chain == 36 || ((isLayer d.chain || isRms d.chain || d.red == 4) && sumsRound d) ||
    ((d.chain == 20 || d.chain == 21 || 6 ≤ d.red) && accFmt d == .fp32p)

/-- Does a member of a gang read the whole of the sets it needs: what it asks of stands in memory (log 70, DEDUCED)? -/
def Job.wide (j : Job) : Bool :=
  !j.alone && !j.skip && asksOfSets j.d && j.d.kind sIn == 0 && (j.d.chain != 18 || j.d.kind sX1 == 0) &&
    (!(inTableUsed j.d j.scale) || j.scale.inScK == 0)

/-- The environment of a job over what it has read. -/
def State.jobEnv (s : State) (j : Job) : Env :=
  { envOf j.d j.blocks (s.curveOf j.d) j.allBays
      (fun kind a => if kind = 0 then chunkByte j.chunks a else s.gangYard j a) j.tap j.owned with
    carry := fun sub row f => j.carry.lookup (sub, row, f), back := j.backOf, backE := j.d.chain == 20 && decide (2 ≤ j.passAt), wide := j.wide }

/-! ### Byte strings and what members cover of them (R263, R274, R290, R293) -/

/-- Spans of a byte string, each kind, address and length, with the offsets at which they stand in it. -/
def placeSpans : Nat → List (Nat × Nat × Nat) → List (Nat × Nat × Nat × Nat)
  | _, [] => []
  | o, x :: l => (o, x) :: placeSpans (o + x.2.2) l

/-- The parts of placed spans within [lo, hi) of their string. -/
def cutPlaced (lo hi : Nat) (l : List (Nat × Nat × Nat × Nat)) : List (Nat × Nat × Nat × Nat) :=
  l.filterMap fun x =>
    let a := max lo x.1
    let b := min hi (x.1 + x.2.2.2)
    if b ≤ a then none else some (a, x.2.1, x.2.2.1 + (a - x.1), b - a)

/-- Intervals in ascending order, empty ones dropped and touching ones joined. -/
def joinSpans : List (Nat × Nat) → List (Nat × Nat)
  | [] => []
  | x :: l =>
    if x.2 ≤ x.1 then joinSpans l
    else match joinSpans l with
      | [] => [x]
      | y :: m => if x.2 = y.1 then (x.1, y.2) :: m else x :: y :: m

/-- The segments of a string of `total` bytes that lie whole in no single part of it: those that span members (R267). -/
def spanningSegs (total : Nat) (parts : List (List (Nat × Nat))) : List Nat :=
  (List.range (ceilDiv total 4096)).filter fun q =>
    !(parts.any fun c => c.any fun x => decide (x.1 ≤ 4096 * q ∧ min (4096 * (q + 1)) total ≤ x.2))

/-- The tables an execution reads beyond its streams: the scale tables, and under RUNMAX the gauge table, which the head alone
reads (R198, R207, R212, R274). -/
def tableSpans (e : Env) (gauge : Bool) : List (Nat × Nat × Nat) :=
  let d := e.d
  let s := e.scale
  (if inTableUsed d s then [(s.inScK, s.inSc, tableBytes d s.chDim s.inGrain)] else []) ++
  (if outTableUsed d s && !s.fromGauge then [(s.outScK, s.outSc, tableBytes d s.chDim d.grain)] else []) ++
  (if gauge && s.gmode == 2 && d.gaugeP != 0 then [(d.gaugeK, d.gaugeP, 4 * chanExtent d s.chDim)] else [])

/-- The current plank's tensors, by number: master, M, V and MSC (R247, R274). -/
def plankTensors (e : Env) : List Nat := if 41 ≤ e.d.chain ∧ e.d.chain ≤ 43 then [0, 1, 2, 3].filter (e.hyper.has e.d) else []

/-- The spans of the auxiliary string (R274). -/
def auxSpans (e : Env) : List (Nat × Nat × Nat) :=
  tableSpans e true ++ (plankTensors e).map fun t => (e.hyper.stateK, e.hyper.tensor t e.plank.cur, e.hyper.bytesOf e.d t)

/-- The input streams an entry or a capture knows, by slot: IN, X1, X2, X3. -/
def slotStream (k : Nat) : Nat := if k = 0 then sIn else k + 1

/-- The shape of a slot's stream. -/
def slotShape (d : Desc) (k : Nat) : Shape := ((chainRole d (slotStream k)).map (·.shape)).getD .t

/-- Is a slot's stream an input that the descriptor reads as a byte string? -/
def slotUsed (d : Desc) (k : Nat) : Bool :=
  match chainRole d (slotStream k) with
  | some r => !r.out && d.has (slotStream k) && !(r.shape == .plank || r.shape == .hyper)
  | none => false

/-- SEGMENTS of the tree images of chain 48: as the validation read it, or, for a member, whose SHARE does not carry it (R312), from the
header it reads; 0 until it has. -/
def treeSegs (e : Env) (b : Blocks) (known : Nat → Nat → Bool) : Nat :=
  if !(blockOf b 6).isEmpty then fieldAt (blockOf b 6) 0x10 8
  else if known 0 64 then leNat (e.bytes (e.d.kind sIn) (e.d.addr sIn + 0x10) 8) else 0

/-- The spans of a slot's string, 4 standing for the auxiliary string: the rows of a stream, a tap's by number; of a tree image the
header and the nodes DIGEST_LOCATE reads, as far as `known` (R263, R270; log 15, DEDUCED). -/
def slotSpans (e : Env) (b : Blocks) (known : Nat → Nat → Bool) (k : Nat) : List (Nat × Nat × Nat) :=
  let s := slotStream k
  if k = 4 then auxSpans e
  else if !(slotUsed e.d k) then []
  else if slotShape e.d k == .treeIn then
    (locateReads known (e.node sIn) (e.node sX1) (treeSegs e b known)).map fun x => (e.d.kind s, e.d.addr s + x.1, x.2)
  else
    let l := e.lay s
    if l.isEmpty then []
    else (List.range l.rows).map fun r => if l.kind = 2 then (2, r, 4 * l.len) else (l.kind, l.row r, l.rowBytes)

/-- The bytes of a span. -/
def spanBytes (e : Env) (x : Nat × Nat × Nat) : List Byte :=
  if x.1 = 2 then (List.range (x.2.2 / 4)).flatMap fun p => natLE 4 (e.tap x.2.1 p) else e.bytes x.1 x.2.1 x.2.2

/-- The spans of a slot's string once everything is read. -/
def slotPlaced (e : Env) (b : Blocks) (k : Nat) : List (Nat × Nat × Nat × Nat) := placeSpans 0 (slotSpans e b (fun _ _ => true) k)

/-- The byte string of a slot (R263, R274). -/
def slotString (e : Env) (b : Blocks) (k : Nat) : List Byte := (slotPlaced e b k).flatMap fun x => spanBytes e x.2

/-- The length of a slot's string. -/
def slotTotal (e : Env) (b : Blocks) (k : Nat) : Nat := ((slotPlaced e b k).map (·.2.2.2)).sum

/-- The byte of a string laid out over the work at which an element begins; at a row's start, the row's first byte. -/
def Layout.workByte (l : Layout) (n i : Nat) : Nat :=
  if n = 0 then 0 else i / n * l.rowBytes + (if i % n = 0 then 0 else posByte l.fmt (i % n))

/-- What work covers of the current plank's tensors, from `base` on: elements of a tensor, whole blocks of MSC. -/
def plankCover (e : Env) (base : Nat) (w : List (Nat × Nat)) : List (Nat × Nat) :=
  let n := e.d.e 0
  let blk := fun c => if n = 0 then 0 else c / n * blocks32 n + ceilDiv (c % n) 32
  ((plankTensors e).foldl (fun (r : Nat × List (Nat × Nat)) t =>
    let at1 := fun c => r.1 + (if t = 3 then blk c else (e.hyper.layout e.d t e.plank.cur).workByte n c)
    (r.1 + e.hyper.bytesOf e.d t, r.2 ++ w.map fun x => (at1 x.1, at1 x.2))) (base, [])).2

/-- The parts of a slot's string that member `m` reads for its work, each byte of the string in one member's: a stream and a plank
tensor laid out over the work are cut with it, an index stream with the rows gathered, any other string is the head's (R293;
log 15, DEDUCED). -/
def slotCover (e : Env) (j : Job) (m k : Nat) : List (Nat × Nat) :=
  let n := e.d.e 0
  let w := j.workOf m (workDir j.d j.blocks)
  let whole := if m = 0 then [(0, slotTotal e j.blocks k)] else []
  joinSpans <|
    if j.alone then whole
    else if k = 4 then
      let t := ((tableSpans e true).map (·.2.2)).sum
      (if m = 0 then [(0, t)] else []) ++ plankCover e t w
    else if slotShape e.d k == .t then w.map fun x => ((e.lay (slotStream k)).workByte n x.1, (e.lay (slotStream k)).workByte n x.2)
    else if slotShape e.d k == .index then w.map fun x => (4 * ceilDiv x.1 n, 4 * ceilDiv x.2 n)
    else whole

/-- The byte runs of a slot's string that an execution covers: offset and bytes. -/
def slotRuns (e : Env) (j : Job) (k : Nat) : List (Nat × List Byte) :=
  let str := slotString e j.blocks k
  (slotCover e j j.pos k).map fun c => (c.1, sliceOf str c.1 (c.2 - c.1))

/-- Does a head need the level-0 values of a slot's string: for the story-pole entry, and DIGEST for its tree (R268, R290)? -/
def needsLeaves (d : Desc) (k : Nat) : Bool := d.ledgerIn || (d.chain == 47 && k == 0)

/-- The segments of a slot's string that span members, which the head reads itself (R267, R290). A tap's rows reach no other member
than the one that holds them. -/
def slotSpanning (e : Env) (j : Job) (k : Nat) : List Nat :=
  if j.alone ∨ j.skip ∨ needsLeaves e.d k = false ∨ (slotSpans e j.blocks (fun _ _ => true) k).any (·.1 == 2) then []
  else spanningSegs (slotTotal e j.blocks k) ((List.range j.members.length).map fun m => slotCover e j m k)

/-! ### What an execution reads, in order -/

/-- Are the bytes of an address range among those read? -/
def chunkHas (cs : List (Nat × List Byte)) (a n : Nat) : Bool :=
  (List.range n).all fun i => cs.any fun c => decide (c.1 ≤ a + i ∧ a + i < c.1 + c.2.length)

/-- Has an execution the indices of its work (R229)? Those in memory have arrived; a yard is read at once. -/
def indexIn (e : Env) (j : Job) : Bool :=
  let l := e.lay sX1
  l.kind != 0 || (j.touched j.pos).all fun i =>
    let p := placeOf e.d .index 0 i
    chunkHas j.chunks (l.row p.1 + 4 * p.2) 4

/-- The rows of a gather's table that the indices of a work name (R229, R230); all of it where its string is digested or captured, none
before the indices are there (log 27, DEDUCED). -/
def tableReads (e : Env) (j : Job) (ps : List (Nat × Nat × Nat × Nat)) : List (Nat × Nat × Nat × Nat) :=
  if e.d.ledgerIn || e.d.capture then ps
  else if indexIn e j then
    let rows := dedup ((j.touched j.pos).filterMap e.tableRow)
    (ps.zipIdx.filter fun x => rows.contains x.2).map (·.1)
  else []

/-- The elements of a stream an execution reads: those of its work, or of every set it needs whole; the head of a reduction forms the
results of them all. -/
def readElems (e : Env) (j : Job) (s : Nat) : List Nat :=
  let own := j.touched j.pos
  if e.wide && (s == sIn || (e.d.chain == 18 && s == sX1)) then
    if chainReduce e.d.chain && j.pos == 0 then List.range (workCount e.d)
    else
      let sets := dedup (own.map e.rowOf)
      (List.range (workCount e.d)).filter fun i => sets.contains (e.rowOf i)
  else own

/-- The spans of a slot's string that an execution reads for its work: the rows its elements touch or name, its own part of the planks,
the tables, or all of it. -/
def slotReads (e : Env) (j : Job) (known : Nat → Nat → Bool) (k : Nat) : List (Nat × Nat × Nat × Nat) :=
  let ps := placeSpans 0 (slotSpans e j.blocks known k)
  let sh := slotShape e.d k
  if sh == .table then tableReads e j ps
  else if j.alone then ps
  else if k = 4 then
    (if j.pos = 0 then [] else placeSpans 0 (tableSpans e false)) ++ (slotCover e j j.pos k).flatMap fun c => cutPlaced c.1 c.2 ps
  else if sh == .t || sh == .index then
    let rows := dedup ((readElems e j (slotStream k)).map fun i => (placeOf e.d sh e.scale.chDim i).1)
    (ps.zipIdx.filter fun x => rows.contains x.2).map (·.1)
  else ps

/-- Everything an execution reads, in order: the slot, or 5 for what it reads for a digest alone, and the placed span. The nodes of two
tree images are read in pairs, so that what is found to be read comes after what has been (R270). -/
def readList (e : Env) (j : Job) (known : Nat → Nat → Bool) : List (Nat × Nat × Nat × Nat × Nat) :=
  let reads := fun k => (slotReads e j known k).map (fun x => (k, x))
  if e.d.chain = 48 then ((reads 0).zip (reads 1)).flatMap fun x => [x.1, x.2]
  else (List.range 5).flatMap fun k =>
    reads k ++
      (if j.pos = 0 then (slotSpanning e j k).flatMap fun q => (cutPlaced (4096 * q) (4096 * (q + 1)) (slotPlaced e j.blocks k)).map fun x => (5, x)
       else [])

/-- Have the bytes at an offset of both tree images been read? -/
def Job.knows (j : Job) (off n : Nat) : Bool :=
  [sIn, sX1].all fun s => j.d.kind s != 0 || chunkHas j.chunks (j.d.addr s + off) n

/-- What a job reads, as far as it knows (R270). -/
def State.readPlan (s : State) (j : Job) : List (Nat × Nat × Nat × Nat × Nat) :=
  if j.skip ∨ (j.alone ∧ j.pos ≠ 0) then [] else readList (s.jobEnv j) j j.knows

/-- Every span a job reads: kind, address, length. -/
def State.jobSpans (s : State) (j : Job) : List (Nat × Nat × Nat) := (s.readPlan j).map (·.2.2)

/-! ### Capture (R292 to R294) -/

/-- The DATA records of one span read: what the execution covers of it (R293). -/
def captureOf (e : Env) (j : Job) (sin : Nat) (x : Nat × Nat × Nat × Nat × Nat) : List (List Byte) :=
  if 5 ≤ x.1 then []
  else
    let b := spanBytes e x.2.2
    (slotCover e j j.pos x.1).flatMap fun c =>
      let lo := max c.1 x.2.1
      let hi := min c.2 (x.2.1 + x.2.2.2.2)
      if hi ≤ lo then []
      else offcutData x.1 sin e.d.seq e.d.step j.ch.val ((hi - lo) / 4096 + 2) lo (sliceOf b (lo - x.2.1) (hi - lo))

/-- The five counts of an END record (Table 11.8). -/
def captureCounts (e : Env) (j : Job) : List Nat := (List.range 5).map fun k => ((slotCover e j j.pos k).map fun c => c.2 - c.1).sum

/-! ### Digests (R265, R267, R314) -/

/-- The whole segments of a byte string of `total` bytes that runs of bytes cover: number and level-0 value (R265). -/
def wholeLeaves (total : Nat) (runs : List (Nat × List Byte)) : List (Nat × List Byte) :=
  (List.range (ceilDiv total 4096)).filterMap fun k =>
    let n := min 4096 (total - 4096 * k)
    match runs.find? fun r => decide (r.1 ≤ 4096 * k ∧ 4096 * k + n ≤ r.1 + r.2.length) with
    | some r => some (k, leafValue k (sliceOf r.2 (4096 * k - r.1) n))
    | none => none

/-- Runs of a byte string that touch, joined; the runs stand in ascending offset. -/
def joinRuns : List (Nat × List Byte) → List (Nat × List Byte)
  | [] => []
  | x :: l =>
    match joinRuns l with
    | [] => [x]
    | y :: m => if x.1 + x.2.length = y.1 then (x.1, x.2 ++ y.2) :: m else x :: y :: m

/-- A run placed in ascending offset. -/
def insertRun (x : Nat × List Byte) : List (Nat × List Byte) → List (Nat × List Byte)
  | [] => [x]
  | y :: l => if x.1 ≤ y.1 then x :: y :: l else y :: insertRun x l

/-- The runs of the byte string of a tag that pieces write. -/
def tagRuns (tag : Nat) (ps : List Piece) : List (Nat × List Byte) :=
  joinRuns ((ps.filter (·.tag == tag)).foldr (fun p l => insertRun (p.off, p.bytes) l) [])

/-- The runs of OUT's byte string that pieces write. -/
def outRuns (ps : List Piece) : List (Nat × List Byte) := tagRuns 1 ps

/-- The spans of OUT's byte string. -/
def outSpans (e : Env) (b : Blocks) : List (Nat × Nat × Nat) :=
  match chainRole e.d sOut with
  | none => []
  | some r =>
    if r.shape == .treeOut then [(e.d.kind sOut, e.d.addr sOut, treeBytes (inBytes e.d b))]
    else if r.shape == .locate then [(e.d.kind sOut, e.d.addr sOut, 8 + 8 * e.d.e 0)]
    else if e.d.has sOut then
      (let l := e.lay sOut; if l.isEmpty then [] else (List.range l.rows).map fun r => (l.kind, l.row r, l.rowBytes))
    else []

/-- The length of OUT's byte string. -/
def outTotal (e : Env) (b : Blocks) : Nat := ((outSpans e b).map (·.2.2)).sum

/-- The parts of OUT's byte string that member `m` writes, by place alone (R41, R190, R268, R420). -/
def outCover (e : Env) (j : Job) (m : Nat) : List (Nat × Nat) :=
  let d := e.d
  if chainReduce d.chain ∨ (33 ≤ d.chain ∧ d.chain ≤ 35) ∨ d.chain = 47 ∨ j.alone ∨ j.skip then
    (if m = 0 then [(0, outTotal e j.blocks)] else [])
  else
    let sh := ((chainRole d sOut).map (·.shape)).getD .t
    let w := j.workOf m (workDir d j.blocks)
    if sh == .locate then joinSpans (w.map fun x => (if x.1 = 0 then 0 else 8 + 8 * x.1, 8 + 8 * x.2))
    else
      let ps := ((intervalElems w).map fun i => let p := placeOf d sh e.scale.chDim i; (p.1, p.2, 0)).foldr insertPlace []
      (outRuns (packPieces 1 (e.lay sOut) ps)).map fun r => (r.1, r.1 + r.2.length)

/-- The segments of OUT's byte string that span members: the head assembles them from their bytes (R267). -/
def outSpanning (e : Env) (j : Job) : List Nat :=
  if j.alone ∨ j.skip then [] else spanningSegs (outTotal e j.blocks) ((List.range j.members.length).map (outCover e j))

/-- A level-0 value of a segment: this instance's own, or one a SEGVAL delivered, or free: of a segment of tap rows that spans members
(log 9, DESIGN CHOICE). -/
def leafOf (own : List (Nat × List Byte)) (got : List (Nat × Nat × List Byte)) (strm k : Nat) : List Byte :=
  match own.lookup k with
  | some v => v
  | none => match got.find? fun g => g.1 == strm && g.2.1 == k with
    | some g => g.2.2
    | none => natLE 8 (Config.spanNode strm k 0).toNat ++ natLE 8 (Config.spanNode strm k 1).toNat

/-- The level-0 values of a string of `total` bytes from its parts (R265, R267). -/
def leavesOf (total strm : Nat) (own : List (Nat × List Byte)) (got : List (Nat × Nat × List Byte)) : List (List Byte) :=
  (List.range (ceilDiv total 4096)).map (leafOf own got strm)

/-- The digest of a string of `total` bytes from its parts (R265, R267). -/
def digestFrom (total strm : Nat) (runs : List (Nat × List Byte)) (got : List (Nat × Nat × List Byte)) : List Byte :=
  digestOfLeaves (leavesOf total strm (wholeLeaves total runs) got)

/-- The level-0 values of a slot's string that an execution forms: those of its own runs, and at the head of the spanning segments. -/
def slotLeaves (e : Env) (j : Job) (k : Nat) : List (Nat × List Byte) :=
  let str := slotString e j.blocks k
  wholeLeaves (slotTotal e j.blocks k) (slotRuns e j k) ++
    (if j.pos = 0 then (slotSpanning e j k).map fun q => (q, leafValue q (sliceOf str (4096 * q) 4096)) else [])

/-- The segment values a member delivers: stream number of R314 and runs of level-0 values. -/
def memberSegvals (e : Env) (j : Job) : List (Nat × List (Nat × List Byte)) :=
  let ins := ((List.range 5).filter (needsLeaves e.d)).map fun k => (k + 1, wholeLeaves (slotTotal e j.blocks k) (slotRuns e j k))
  ((0, wholeLeaves (outTotal e j.blocks) (outRuns j.pieces)) :: ins).filter fun x => !x.2.isEmpty

/-- The whole segments of a byte string that parts of it cover, by number. -/
def wholeSegs (total : Nat) (parts : List (Nat × Nat)) : List Nat :=
  (List.range (ceilDiv total 4096)).filter fun q => parts.any fun x => decide (x.1 ≤ 4096 * q ∧ min (4096 * (q + 1)) total ≤ x.2)

/-- The segment values of the slots that the head awaits: stream number of R314 and segment. -/
def slotsAwaited (e : Env) (j : Job) : List (Nat × Nat) :=
  if j.alone ∨ j.skip then []
  else ((List.range j.members.length).drop 1).flatMap fun m => ((List.range 5).filter (needsLeaves e.d)).flatMap fun k =>
    (wholeSegs (slotTotal e j.blocks k) (slotCover e j m k)).map fun n => (k + 1, n)

/-- The segment values the head awaits: those of OUT and of the slots. -/
def segsAwaited (e : Env) (j : Job) : List (Nat × Nat) :=
  (if j.alone ∨ j.skip then []
   else ((List.range j.members.length).drop 1).flatMap fun m => (wholeSegs (outTotal e j.blocks) (outCover e j m)).map fun k => (0, k)) ++
    slotsAwaited e j

/-- Has every one of some segment values arrived? -/
def Job.hasLeaves (j : Job) (l : List (Nat × Nat)) : Bool := l.all fun x => j.leaves.any fun g => g.1 == x.1 && g.2.1 == x.2

/-- A SEGVAL body for one stretch of consecutive segments (R314). -/
def segvalBody (strm first : Nat) (vals : List (List Byte)) : List Byte :=
  natLE 1 strm ++ zeros 7 ++ natLE 8 first ++ natLE 4 vals.length ++ zeros 4 ++ vals.flatten

/-- Consecutive segment values, at most 100 a message, as SEGVAL bodies (R308 bounds a body at 2,048 bytes). -/
def segvalBodies (strm : Nat) : Nat → List (Nat × List Byte) → List (List Byte)
  | 0, _ => []
  | _, [] => []
  | f + 1, x :: l =>
    let run := ((x :: l).zipIdx.takeWhile fun y => decide (y.1.1 = x.1 + y.2 ∧ y.2 < 100)).map (·.1.2)
    segvalBody strm x.1 run :: segvalBodies strm f ((x :: l).drop run.length)

/-! ### What the head reads back of a gang's outputs (R258, R267) -/

/-- Does the descriptor's hyper block ask for shavings (R258)? -/
def shaves (e : Env) : Bool := decide (41 ≤ e.d.chain) && decide (e.d.chain ≤ 43) && e.hyper.shave

/-- The current or the staged master as a span. -/
def masterSpan (e : Env) (staged : Bool) : Nat × Nat × Nat :=
  (e.hyper.stateK, e.hyper.tensor 0 (if staged then 1 - e.plank.cur else e.plank.cur), e.hyper.bytesOf e.d 0)

/-- What the head of a gang reads once every member has reported: the segments of OUT that span members, and for shavings both
masters (R258, R267; log 15, DEDUCED). -/
def afterSpans (e : Env) (j : Job) : List (Nat × Nat × Nat) :=
  if j.pos ≠ 0 ∨ j.alone ∨ j.skip then []
  else ((outSpanning e j).flatMap fun q => (cutPlaced (4096 * q) (4096 * (q + 1)) (placeSpans 0 (outSpans e j.blocks))).map (·.2)) ++
    (if shaves e then [masterSpan e false, masterSpan e true] else [])

/-- The bytes of a span as the head read them back. -/
def Job.afterBytes (j : Job) (x : Nat × Nat × Nat) : List Byte :=
  (List.range x.2.2).map fun i => chunkByte ((j.after.filter (·.1 == x.1)).map (·.2)) (x.2.1 + i)

/-- The runs of OUT's byte string from which the head forms DIGEST: those it wrote, and the spanning segments (R267). -/
def digestRuns (e : Env) (j : Job) : List (Nat × List Byte) :=
  outRuns j.pieces ++ (outSpanning e j).map fun q =>
    (4096 * q, (cutPlaced (4096 * q) (4096 * (q + 1)) (placeSpans 0 (outSpans e j.blocks))).flatMap fun x => j.afterBytes x.2)

/-- The shavings of a descriptor whose hyper block has SHAVE (R258): old and new master compared, as one instance reads and writes
them, or as the head of a gang reads them back. -/
def shavingsOf (e : Env) (j : Job) : List (List Byte) :=
  if shaves e ∧ j.pos = 0 ∧ j.skip = false then
    let old := if j.alone then spanBytes e (masterSpan e false) else j.afterBytes (masterSpan e false)
    let new := if j.alone then ((tagRuns 10 j.pieces).headD (0, [])).2 else j.afterBytes (masterSpan e true)
    segmentRecords e.hyper.tensorId e.d.step e.d.seq old new
  else []

end Sys2Proof.Machine
end

