-- ==== Sys2Proof/Machine/Foreman.lean ====
section
/-! DEFINITION. The foreman's shared operations: packages, rejections, the fault of an attempt, validation, and the
conditions of a start (03_ R82 to R100, 15_ R381 to R386, 01_ R39). -/

namespace Sys2Proof.Machine

/-! ### Queues -/

/-- Occupied entries of a channel's queue (R70): those not retired, and those of completions not yet sent. -/
def Chan.occupied (x : Chan) : Nat :=
  x.queue.length + (x.held.filter (·.credit)).length + (match x.rel with | some r => b2n r.pkg.credit | none => 0)

/-- The packages of retired descriptors that still occupy entries of a channel's queue: being released or held (R70). -/
def Chan.retired (x : Chan) : List Package := ((x.rel.map (·.pkg)).toList ++ x.held).filter (·.credit)

/-- The byte offset within the queues of a word of a channel's queue, counted from its first descriptor that has not retired (R379, Table 14.6). -/
def State.queueWord (s : State) (c : Fin 16) (w : Nat) : Nat := queueOffset c.val (16 * s.chans[c].retired.length + w)

/-- Staged descriptors of a channel. -/
def Chan.staged (x : Chan) : Nat := (x.queue.filter fun e => e.elig.isNone).length

/-- The channel's state once its head has left: WAIT if another descriptor is eligible, else IDLE (Table 3.7). -/
def Chan.next (x : Chan) : Chan :=
  match x.queue with
  | e :: _ => { x with st := if e.elig.isSome then .wait else .idle }
  | [] => { x with st := .idle }

/-- The head leaves the queue; error marks of the queue's words move up with the entries. -/
def State.popHead (s : State) (c : Fin 16) : State :=
  let shift := fun (l : List (Nat × Nat)) => l.filterMap fun x =>
    if x.1 = c.val then (if x.2 < 16 then none else some (x.1, x.2 - 16)) else some x
  let s := s.onChan c fun x => Chan.next { x with queue := x.queue.tail, val := none, job := none, halted := none }
  { s with bays := { s.bays with queueUE := shift s.bays.queueUE, queueCE := shift s.bays.queueCE } }

/-- The head entry changed. -/
def State.onHead (s : State) (c : Fin 16) (f : Entry → Entry) : State :=
  s.onChan c fun x => { x with queue := match x.queue with | e :: l => f e :: l | [] => [] }

/-- The enabled bay counts of the gang a channel is bound to, or of the instance alone (R36). -/
def State.boundBays (s : State) (c : Fin 16) : List Nat := (s.gangMembers (s.cfg c).gang).map s.memberBays

/-! ### Release packages (R82, R90, R101, R102, R289 to R291) -/

/-- A story-pole entry of a descriptor whose record is `r`; `ext` holds the input digests of a DONE entry (R289, R290). -/
def State.poleOf (s : State) (c : Fin 16) (e : Entry) (r : Record) (ext : Option (List (Option (List Byte)))) : List Byte :=
  let d := Desc.parse e.desc
  let dig := siade (descString e.desc (s.boundBays c).sum (blockOf e.blocks 1) (blockOf e.blocks 2) (blockOf e.blocks 3))
  let b := poleEntry r d.ledgerIn d.step s.sin (s.cfg c).gang dig r.digest s.image.digest
  if d.ledgerIn then b ++ poleInputs d.seq d.step (ext.getD (List.replicate 5 none)) else b

/-- The story-pole RETRACT of a re-execution (R291). -/
def State.poleRetractOf (s : State) (c : Fin 16) (d : Desc) : List Byte := poleRetract d.seq d.step s.sin (s.cfg c).gang c.val

/-- The release package of a completion. -/
def State.package (s : State) (c : Fin 16) (e : Entry) (r : Record) (shaves poles : List (List Byte)) : Package :=
  let d := Desc.parse e.desc
  let g := (s.cfg c).grouped
  let free := r.status == stBadSeq || r.status == stAborted
  { record := r, viaMsg := d.cmplK == 2 || cmplUnusable d e.blocks ((s.boundBays c).sum * 2 ^ 20), kind := d.cmplK, ptr := d.cmplP,
    freely := !g || free, barred := s.lg == .fault && r.status != stFault, attempt := e.attempt % 256, desc := e.desc, advance := g && !free && r.status != stFault, credit := r.status != stFault,
    passedSeq := e.seqPassed, shaves := shaves, shaveRing := blockOf e.blocks 2, shavePlank := (d.kind sX1, d.addr sX1), poles := poles,
    poleRing := blockOf e.blocks 4, poleAt := s.active.pole.toNat, credits := if r.status = stFault then [] else e.credits }

/-- A package placed behind those of its channel. -/
def State.hold (s : State) (c : Fin 16) (p : Package) : State := s.onChan c fun x => { x with held := x.held ++ [p] }

/-- Does a descriptor's package carry story-pole records: LEDGER, and a story pole that is set (R288 to R291)? Where no validation has read
the ring block, it is read when the record is placed (log 62, DEDUCED). -/
def State.poled (s : State) (d : Desc) : Bool := d.ledger && s.active.pole != 0

/-- The records that withdraw a faulted attempt's, at the front of a re-execution's package (R385, R390). -/
def State.retracts (s : State) (c : Fin 16) (e : Entry) : List (List Byte) × List (List Byte) :=
  let d := Desc.parse e.desc
  let h := Hyper.parse (blockOf e.blocks 3)
  let p := Plank.parse (blockOf e.blocks 2)
  if e.attempt = 0 then ([], [])
  else
    (if h.shave ∧ p.bytes ≠ 0 ∧ 41 ≤ d.chain ∧ d.chain ≤ 43 then [shaveRetract 0 d.step d.seq] else [],
     if s.poled d then [s.poleRetractOf c d] else [])

/-- The head descriptor is rejected with a STATUS (R82, R385). -/
def State.reject (s : State) (c : Fin 16) (status : Nat) : State :=
  match s.chans[c].queue with
  | [] => s
  | e :: _ =>
    let d := Desc.parse e.desc
    let r : Record := { seq := d.seq, status := status, ch := c.val, start := s.count, stop := s.count }
    let w := s.retracts c e
    let pole := if e.attempt ≠ 0 ∧ s.poled d then [s.poleOf c e r none] else []
    (s.hold c (s.package c e r w.1 (w.2 ++ pole))).popHead c

/-! ### The fault of an attempt (R381 to R386) -/

/-- An entry that names a descriptor (Table 15.2). -/
def State.logDesc (s : State) (code disp head ch attempt seq : Nat) (gang : Bool) (place : Option (Nat × Nat)) (detail : Nat) : State :=
  s.logRaw (logBytes code disp (1 + 2 * b2n place.isSome + 4 * b2n gang) head ch attempt s.count seq
    (place.getD (0, 0)).1 (place.getD (0, 0)).2 detail)

/-- A plumb channel's timing promise ends (R98, R283). -/
def State.breakPromise (s : State) (c : Fin 16) : State :=
  if (s.cfg c).plumb then { s with sched := { s.sched with broken := dedup (s.sched.broken ++ [c.val]) } } else s

/-- Blocks as last read: those read now, and of those read before the others (R383, R385). -/
def mergeBlocks (now old : Blocks) : Blocks := now ++ old.filter fun b => (now.lookup b.1).isNone

/-- An attempt of the head descriptor of a channel faults: entry, disposition, halt, drain (R382, R384 to R386). `seq` is
the SEQ the entry carries; `strand` the causes that strand whatever the attempt. -/
def State.faultHead (s : State) (c : Fin 16) (code detail : Nat) (place : Option (Nat × Nat)) (strand : Bool) (seq : Nat)
    (lost : Option Nat) : State :=
  match s.chans[c].queue with
  | [] => s
  | e :: _ =>
    let d := Desc.parse e.desc
    let limit := decide (3 ≤ e.attempt)
    let disp : Disposition := if d.accum || strand || limit then .stranded else .reexec
    let code' := if disp = .stranded then 3 else 2
    let gang := (s.cfg c).gang != 0
    let t := s.logDesc code code' s.sin c.val e.attempt seq gang place detail
    let t := if limit then t.logDesc codeLimit 3 s.sin c.val e.attempt seq gang none 0 else t
    let start := match s.chans[c].job with | some j => j.start | none => s.count
    let t := (t.dropWaiting (.chan c)).breakPromise c
    (t.onChan c fun x => { x with
      st := .halt, val := none, job := x.job.map Job.drain,
      halted := some { disp := disp, time := s.count, start := start, lostUntil := lost } }).onHead c
        fun e => { e with
          attempt := if disp = .reexec then e.attempt + 1 else e.attempt
          blocks := mergeBlocks ((s.chans[c].val.map (·.blocks)).getD []) e.blocks }

/-- A piece of running work faults (R381, R391). -/
def State.faultPart (s : State) (p : Part) (code detail : Nat) (place : Option (Nat × Nat)) (strand : Bool) : State :=
  match p with
  | .chan c =>
    match s.chans[c].job, s.chans[c].queue with
    | some j, e :: _ => if s.haltable p j then s.faultHead c code detail place strand (Desc.parse e.desc).seq none else s
    | _, _ => s
  | .share n =>
    match s.job (.share n) with
    | some j =>
      if s.haltable p j then
        ((s.logDesc code 5 j.head j.ch.val j.attempt j.d.seq true place detail).setJob p (some j.drain)).dropWaiting p
      else s
    | none => s

/-- An uncorrectable word counted (R377). -/
def State.countUE (s : State) : State := { s with ctr := { s.ctr with eccUe := s.ctr.eccUe + 1 } }

/-! ### Scarfing (R315, R392) -/

/-- Is a gang scarfed: a current, READY and LOCKED entry with this gang-map digest from every member (R315, R392)? -/
def State.scarfed (s : State) (g : Nat) : Bool :=
  g == 0 || (s.gangMembers g).all fun m =>
    if m = s.sin then s.clk.locked && s.scarfReady
    else match s.scarfs.find? (·.sin == m) with
      | some e => e.ready && e.locked && e.map == s.mapTag
      | none => false

/-- Started gang-bound descriptors whose gang is no longer scarfed fault with GANG_LOST (R392, R385). -/
def State.checkGangs (s : State) : State :=
  channels.foldl (fun (s : State) c =>
    let g := (s.cfg c).gang
    match s.chans[c].job, s.chans[c].queue with
    | some j, e :: _ =>
      if g ≠ 0 ∧ s.haltable (.chan c) j ∧ s.scarfed g = false then
        s.faultHead c codeGang g none false (Desc.parse e.desc).seq (some (s.count + 16777216))
      else s
    | _, _ => s) s

/-- A ring fault ends once every share is drained: SCARF with READY = 1 again (R394, step 4). -/
def State.endRingFault (s : State) : State :=
  if s.stop.fault && s.shares.all (fun x => x.job.isNone) then
    let s := { s with stop := { s.stop with fault := false } }
    s.sendScarf s.scarfReady
  else s

/-! ### Validation (R82, R92, R100, R104, R253) -/

/-- What the checks know of a channel (R82, R93, R141, R156, R242, R287). -/
def State.vctx (s : State) (c : Fin 16) : VCtx :=
  let g := (s.cfg c).gang
  let ms := s.gangMembers g
  let others := s.scarfs.filter fun e => ms.contains e.sin && e.sin != s.sin
  { plumb := (s.cfg c).plumb, members := ms.length, bays := (s.boundBays c).sum,
    reserve := others.foldl (fun m e => min m e.reserve) s.image.stackReserve, curves := fieldAt s.image.curves 4 4,
    curvesAgree := others.all fun e => e.curve == s.curveDigest, greenOk := s.active.greenOk,
    pole := s.active.pole.toNat, offcut := s.active.offcut.toNat,
    peersBad := ms.any fun m => m != s.sin && Config.peerOffcutBad m s.count }

/-- Bytes of a block of kind YARD in the executing gang's yard space (R36; log 9, DESIGN CHOICE beyond the own yards). -/
def State.blockBytes (s : State) (a n : Nat) : List Byte :=
  (List.range n).map fun i => if a + i < s.bayCount * 2 ^ 20 then s.yardByte (a + i) else Config.peerYardByte s.sin (a + i)

/-- Does a descriptor of the group with this SEQ, passed and unreleased, exist (R92)? DESIGN CHOICE (log 72): an ABORTED completion that is
still held counts until it is released, where R91 says only that its SEQ is not pending any more. -/
def State.seqPending (s : State) (g : Fin 4) (seq : Nat) : Bool :=
  channels.any fun c =>
    (s.cfg c).grouped && (s.cfg c).group == g &&
      ((s.chans[c].queue.any fun e => e.seqPassed && (Desc.parse e.desc).seq == seq) ||
       (s.chans[c].held.any fun p => p.passedSeq && p.record.status != stFault && p.record.seq == seq) ||
       (match s.chans[c].rel with | some r => r.pkg.passedSeq && r.pkg.record.status != stFault && r.pkg.record.seq == seq | none => false))

/-- Check 7 (R92). -/
def State.badSeq (s : State) (c : Fin 16) (e : Entry) : Bool :=
  let g := (s.cfg c).group
  let seq := (Desc.parse e.desc).seq
  (s.cfg c).grouped && !e.seqPassed &&
    (decide (2 ^ 31 ≤ (BitVec.ofNat 32 seq - s.nextSeq[g]).toNat) || s.seqPending g seq)

/-- Check 8 (R100). -/
def State.isLate (s : State) (c : Fin 16) (e : Entry) : Bool :=
  let l := (Desc.parse e.desc).launch
  l != 0 && !(e.attempt != 0 && e.launchPassed) &&
    (decide (l < s.count) || ((s.cfg c).gang != 0 && decide (l < (e.elig.getD (0, 0)).2 + 10000)))

/-- A validation's blocks of kind YARD read, those of kind MEM requested; an uncorrectable yard word faults (R82, R381). -/
def State.readBlocks (s : State) (c : Fin 16) (bs : List (Nat × Nat × Nat × Nat)) : State :=
  let r := bs.foldl (fun (r : State × List (Nat × List Byte) × Bool) b =>
    if b.2.1 = 1 ∧ ¬ r.2.2 then
      let k := r.1.yardCheck b.2.2.1 b.2.2.2
      match k.2 with
      | some w => ((k.1.onChan c fun x => { x with val := x.val.map fun v => { v with blocks := v.blocks ++ r.2.1 } }).faultHead c codeUE
          (unitDetail 0 (yardOffset w)) none true (match s.chans[c].queue with | e :: _ => (Desc.parse e.desc).seq | [] => 0) none, r.2.1, true)
      | none => (k.1, r.2.1 ++ [(b.1, k.1.blockBytes b.2.2.1 b.2.2.2)], false)
    else r) (s, [], false)
  if r.2.2 then r.1
  else
    let mem := bs.filter fun b => b.2.1 = 0
    let t := r.1.onChan c fun x => { x with val := x.val.map fun v => { v with blocks := v.blocks ++ r.2.1, awaited := mem } }
    t.request (mem.flatMap fun b => readReqs (.block c b.1) b.2.2.1 b.2.2.2)

/-- The end of a validation in which every check has passed. -/
def State.passValidation (s : State) (c : Fin 16) : State :=
  s.onChan c fun x => { x with val := x.val.map fun v => { v with passed := true } }

/-- Chains 45 and 46 after check 8: the STEP test of R253. -/
def State.stepTest (s : State) (c : Fin 16) (d : Desc) (blocks : Blocks) : State :=
  let p := Plank.parse (blockOf blocks 2)
  if d.step ≠ (p.curStep + 1) % 2 ^ 32 then s.reject c stStepMismatch else s.passValidation c

/-- May descriptors be validated now: READY, no quiesce draining, no clock stop (R366)? -/
def State.mayValidate (s : State) : Bool := s.lg == .ready && !s.draining && !s.stopped

/-- Checks 2 to 8 once the awaited blocks are read. -/
def State.finishValidation (s : State) (c : Fin 16) : State :=
  match s.chans[c].queue, s.chans[c].val with
  | e :: _, some v =>
    if v.passed || !v.awaited.isEmpty || !s.mayValidate then s
    else
      let d := Desc.parse e.desc
      let s := s.onHead c fun e => { e with blocks := v.blocks }
      let sw := 45 ≤ d.chain ∧ d.chain ≤ 46
      if sw ∧ (v.blocks.lookup 2).isSome then s.stepTest c d v.blocks
      else match validateBlocks d (s.vctx c) v.blocks with
        | some st => s.reject c st
        | none =>
          if s.badSeq c e then s.reject c stBadSeq
          else
            let s := s.onHead c fun e => { e with seqPassed := true }
            if s.isLate c e then s.reject c stLate
            else
              let s := s.onHead c fun e => { e with launchPassed := true }
              if sw then
                let t := s.readBlocks c [(2, d.kind sX1, d.addr sX1, 32)]
                match t.chans[c].val with
                | some w => match w.blocks.lookup 2 with
                  | some b => (t.onHead c fun e => { e with blocks := w.blocks }).stepTest c d [(2, b)]
                  | none => t
                | none => t
              else s.passValidation c
  | _, _ => s

/-- The checks from the first on: check 0, the queue entry's own words, checks 1 and 2, and the block reads (R82, R104,
R384). -/
def State.beginValidation (s : State) (c : Fin 16) : State :=
  match s.chans[c].queue with
  | [] => s
  | e :: _ =>
    let bad := s.bays.queueUE.filter fun x => x.1 == c.val && x.2 < 16
    let s := (s.bays.queueCE.filter fun x => x.1 == c.val && x.2 < 16).foldl
      (fun (s : State) x => s.corrected 2 (s.queueWord c x.2)) { s with bays := { s.bays with
        queueCE := s.bays.queueCE.filter fun x => !(x.1 == c.val && x.2 < 16) } }
    match bad with
    | w :: _ =>
      s.countUE.faultHead c codeUE (unitDetail 2 (s.queueWord c w.2)) none true
        (if bad.any (·.2 == 2) then 0xFFFFFFFF else (Desc.parse e.desc).seq) none
    | [] =>
      if s.scarfed (s.cfg c).gang = false then s.reject c stSeasoning
      else
        let d := Desc.parse e.desc
        let v := s.vctx c
        match validateHead d v with
        | some st => s.reject c st
        | none =>
          let keep := e.blocks.filter fun b => e.attempt ≠ 0 ∧ (b.1 = 4 ∨ b.1 = 5)
          let need := (neededBlocks d v).filter fun b => (keep.lookup b.1).isNone
          let s := s.onChan c fun x => { x with val := some { blocks := keep } }
          (s.readBlocks c need).finishValidation c

/-! ### Start conditions (R87 to R89, R96, R97, R99, R39) -/

/-- The yard ranges of a descriptor: those of R81, the eight bytes COMMIT_STEP writes (R246), and the holding reserve of a one-pass holding chain (R88, R242). -/
def yardRanges (d : Desc) (b : Blocks) (bays reserve : Nat) : List Rng :=
  let s := ScaleBlock.parse d.hw (blockOf b 1)
  (allRanges d b).filter (fun r => r.kind == 1 && r.len != 0) ++
    (if d.chain = 45 ∧ d.kind sX1 = 1 then [{ kind := 1, addr := d.addr sX1, len := 8, out := true, tag := 14 }] else []) ++
    (if heldCount d s ≠ 0 ∧ onePass d s bays reserve then
      (List.range bays).map fun j => { kind := 1, addr := j * 2 ^ 20 + 2 ^ 20 - reserve, len := reserve, out := true, tag := 8 }
     else [])

/-- Do two sets of ranges conflict (R88)? -/
def conflict (a b : List Rng) : Bool := a.any fun x => b.any fun y => (x.out || y.out) && rangesMeet x.addr x.len y.addr y.len

/-- Does the scoreboard clear ranges against every earlier piece of work that has started and not retired (R88, R232)? -/
def State.clear (s : State) (elig : Nat) (d : Desc) (rs : List Rng) : Bool :=
  !(channels.any fun c => match s.chans[c].queue with
    | e :: _ => e.started && decide ((e.elig.getD (0, 0)).1 < elig) && conflict rs e.ranges
    | [] => false) &&
  !(s.shares.any fun x => match x.job with
    | some j => decide (j.elig < elig) && conflict rs j.ranges
    | none => false) &&
  !(d.kind sIn == 2 && s.running.any fun x => x.2.d.kind sIn == 2)

/-- Is a fence satisfied: every earlier descriptor of its scope has retired (R89, R253)? -/
def State.fenceMet (s : State) (c : Fin 16) (d : Desc) (elig : Nat) : Bool :=
  !(d.fence || d.chain == 45 || d.chain == 46) ||
    channels.all fun k =>
      let inScope := if (s.cfg c).grouped then (s.cfg k).grouped && (s.cfg k).group == (s.cfg c).group else true
      !inScope || s.chans[k].queue.all fun e => match e.elig with
        | some x => decide (elig ≤ x.1)
        | none => true

/-- Credits of a member of a gang at this head (R39). -/
def State.creditOf (s : State) (g m : Nat) : Nat := match s.credits.find? fun x => x.1 == g && x.2.1 == m with | some x => x.2.2 | none => 0

/-- The members of a channel's gang other than this instance. -/
def State.otherMembers (s : State) (c : Fin 16) : List Nat := (s.gangMembers (s.cfg c).gang).filter (· != s.sin)

/-- Do the channel's conditions of R87 but for its bays hold? -/
def State.canStart (s : State) (c : Fin 16) : Bool :=
  match s.chans[c].queue, s.chans[c].val with
  | e :: _, some v =>
    let d := Desc.parse e.desc
    let elig := (e.elig.getD (0, 0)).1
    let ctx := s.vctx c
    v.passed && s.lg == .ready && !s.draining && !s.stopped && s.chans[c].job.isNone &&
      (s.chans[c].st == .wait || (s.chans[c].st == .halt && (match s.chans[c].halted with | some h => h.drained && h.disp == .reexec | none => false))) &&
      (d.launch == 0 || decide (d.launch ≤ s.count)) && s.fenceMet c d elig &&
      s.clear elig d (yardRanges d v.blocks ctx.bays ctx.reserve) &&
      (!e.credits.isEmpty || (s.otherMembers c).all fun m => decide (1 ≤ s.creditOf (s.cfg c).gang m))
  | _, _ => false

/-- The slot word of a slot (Table 3.9). -/
def State.slotWord (s : State) (n : Nat) : Nat := s.image.slots.getD n 0

/-- BAYS of a slot word, as logical bays; PLUMB and CHAN of it. -/
def slotBays (w : Nat) : List Nat := (List.range 16).filter fun j => bitOf w j
/-- PLUMB of a slot word. -/
def slotPlumb (w : Nat) : Bool := bitOf w 20
/-- CHAN of a slot word. -/
def slotChan (w : Nat) : Fin 16 := Fin.ofNat 16 (bitsOf w 16 4)

/-- A plumb channel's anchor slot, its lowest-numbered (R95). -/
def State.anchor (s : State) (c : Fin 16) : Option Nat :=
  (List.range 64).find? fun n => slotPlumb (s.slotWord n) && slotChan (s.slotWord n) == c

/-- Is it the first cycle of the slot: the plumb-clock edge of that cycle, for no time passes between two commands (log 3)? -/
def State.slotEdge (s : State) : Bool := s.clk.edges == s.sched.edge

/-- Has a channel bays to start on (R96, R97)? -/
def State.granted (s : State) (c : Fin 16) : Bool :=
  if (s.cfg c).plumb then s.anchor c == some s.sched.slot && s.slotEdge else s.sched.grantee == some c.val

/-- May a bay issue for an owner: it owns the bay, and neither a handover gap nor a spare map-in holds it (R97, R381)? -/
def State.issues (s : State) (o : BayOwner) : Bool :=
  !s.stopped && (s.sched.owners.zipIdx.any fun x =>
    x.1 == o && !(s.sched.gap.contains x.2) && !(s.bays.hold.any fun h => h.1 == (s.physical x.2).getD 16))

/-- The owner under which a piece of work issues. -/
def State.ownerOf (s : State) : Part → BayOwner
  | .chan c => if (s.cfg c).plumb then .plumb c else .pool c.val
  | .share _ => .pool 16

/-- The bays of the instance a piece of work runs on, as physical bays. -/
def State.ownedBays (s : State) (p : Part) : List Nat :=
  (s.sched.owners.zipIdx.filterMap fun x => if x.1 = s.ownerOf p then s.physical x.2 else none)

end Sys2Proof.Machine
end

