-- ==== Sys2Proof/Machine/Messages.lean ====
section
/-! DEFINITION. The message port: POST, DOORBELL and malformed messages (03_ R69 to R74, 15_ R384, 16_ R403, R404). -/

namespace Sys2Proof.Machine

/-- Does the message port hold its senders off: reset, P0, a freeze (R74, R403, Table 14.5)? -/
def State.heldOffNow (s : State) : Bool := !s.pins.rstN || s.nv.phase == 0 || s.stopped

/-- Is an inbound message malformed: reserved TYPE, or a length that is not its TYPE's (R69)? -/
def malformed (msg : List Byte) : Bool :=
  let t := fieldAt msg 0 1
  !((t == 1 && msg.length == 144) || (t == 2 && msg.length == 16))

/-- A message answered with REFUSE (R69, R71). -/
def State.refuse (s : State) (src : Nat) (msg : List Byte) (status : Nat) : State :=
  s.send src (refuseMsg (fieldAt msg 1 1 % 16) (fieldAt msg 2 1) status (fieldAt msg 0 1))

/-- The first failing check of Table 3.2, as its STATUS. -/
def State.portCheck (s : State) (src : Nat) (msg : List Byte) : Option Nat :=
  let c := Fin.ofNat 16 (fieldAt msg 1 1)
  let x := s.chans[c]
  if s.lg = .seasoning then some stSeasoning
  else if s.lg = .fault then some stFault
  else if x.st = .off ∨ src ≠ (s.cfg c).source then some stBadChannel
  else if fieldAt msg 0 1 = 1 ∧ 32 ≤ x.occupied then some stNoCredit
  else if fieldAt msg 0 1 = 2 ∧ x.staged < fieldAt msg 2 1 then some stBadDoorbell
  else none

/-- The `n` oldest staged entries made eligible from eligibility number `k` at count `t`, in queue order (R72, R73). -/
def makeEligible : Nat → Nat → Nat → List Entry → List Entry
  | _, _, _, [] => []
  | n, k, t, e :: l =>
    if n = 0 ∨ e.elig.isSome then e :: makeEligible n k t l
    else { e with elig := some (k, t) } :: makeEligible (n - 1) (k + 1) t l

/-- An accepted POST queues its descriptor as staged (R71). -/
def State.queuePost (s : State) (c : Fin 16) (msg : List Byte) : State :=
  s.onChan c fun x => { x with queue := x.queue ++ [{ desc := msg.drop 16 }] }

/-- An accepted DOORBELL (R72); with COUNT 0 it changes nothing. -/
def State.ringDoorbell (s : State) (c : Fin 16) (n : Nat) : State :=
  if n = 0 then s
  else { (s.onChan c fun x => { x with queue := makeEligible n s.eligNext s.count x.queue, st := if x.st = .idle then .wait else x.st }) with
    eligNext := s.eligNext + n }

/-- An inbound message taken by the foreman (R69, R71, R72, R384). DESIGN CHOICE (log 72): reserved bits of its header (CHANNEL[7:4], the bytes
said to be 0) are ignored, for the spec names no answer to them. -/
def State.acceptMsg (s : State) (src : Nat) (msg : List Byte) (parityOk : Bool) : State :=
  if parityOk = false then s.log0 codeMsg 0 (unitDetail 11 0)
  else if malformed msg then s.refuse src msg stBadChannel
  else
    let c := Fin.ofNat 16 (fieldAt msg 1 1)
    match s.portCheck src msg with
    | some status => s.refuse src msg status
    | none => if fieldAt msg 0 1 = 1 then s.queuePost c msg else s.ringDoorbell c (fieldAt msg 2 1)

/-- An inbound message, taken or held off (R74, R403). -/
def State.inbound (s : State) (src : Nat) (msg : List Byte) (parityOk : Bool) : State :=
  if s.heldOffNow then { s with heldOff := s.heldOff ++ [(src, msg, parityOk)] } else s.acceptMsg src msg parityOk

/-- The messages at the front that the inbound queue of `n` beats takes, and the rest (R403). -/
def queueTakes : Nat → List (Nat × List Byte × Bool) → List (Nat × List Byte × Bool) × List (Nat × List Byte × Bool)
  | _, [] => ([], [])
  | n, m :: l =>
    let k := ceilDiv m.2.1.length 32
    if k ≤ n then let r := queueTakes (n - k) l; (m :: r.1, r.2) else ([], m :: l)

/-- A batch in the order in which the foreman processes it: by ascending channel, the messages of a channel as they arrived (R403). -/
def batchOrder (l : List (Nat × List Byte × Bool)) : List (Nat × List Byte × Bool) :=
  (List.range 16).flatMap fun c => l.filter fun m => fieldAt m.2.1 1 1 % 16 == c

/-- Messages in the batches of the MGMT cycles that take them, each as many as the inbound queue of 64 beats holds (R403; log 65, DESIGN
CHOICE). -/
def inBatches : Nat → List (Nat × List Byte × Bool) → List (Nat × List Byte × Bool)
  | 0, _ => []
  | _, [] => []
  | f + 1, m :: l =>
    match queueTakes 64 (m :: l) with
    | ([], _) => m :: inBatches f l
    | (b, r) => batchOrder b ++ inBatches f r

/-- The messages held off, taken once the port accepts again (R74, R403). -/
def State.takeHeldOff (s : State) : State :=
  if s.heldOffNow then s
  else (inBatches s.heldOff.length s.heldOff).foldl (fun (s : State) m => s.acceptMsg m.1 m.2.1 m.2.2) { s with heldOff := [] }

/-- POST (R71). -/
def execPost (src : Nat) (msg : List Byte) (parityOk : Bool) (s : State) : Host.Outcome State Fault Refusal :=
  .next (s.inbound src msg parityOk)

/-- DOORBELL (R72). -/
def execDoorbell (src : Nat) (msg : List Byte) (parityOk : Bool) (s : State) : Host.Outcome State Fault Refusal :=
  .next (s.inbound src msg parityOk)

/-- MALFORMED_MESSAGE (R69): the message is judged by the same test, which comes before Table 3.2. -/
def execMalformedMessage (src : Nat) (msg : List Byte) (s : State) : Host.Outcome State Fault Refusal :=
  .next (s.inbound src msg true)

end Sys2Proof.Machine
end

