-- ==== Sys2Proof/Machine/Fec.lean ====
section
/-! DEFINITION. The code that protects a Klody port's flits: codeword pairs, the RS(544,514) code and the lanes (12_ R304). The field, the
generator polynomial and the order of bits in symbols are IEEE 802.3's (assumption log 67, PRESUMED). -/

namespace Sys2Proof.Machine

/-- A product in GF(2^10) with x^10 + x^3 + 1 (log 67, PRESUMED). -/
def gfMul (a b : BitVec 10) : BitVec 10 :=
  (List.range 10).reverse.foldl (fun acc i =>
    let twice := (acc <<< 1) ^^^ (if acc.getLsbD 9 then 0x009#10 else 0#10)
    if b.getLsbD i then twice ^^^ a else twice) 0#10

/-- A polynomial, highest power first, times x + r. -/
def polyByRoot (r : BitVec 10) (p : List (BitVec 10)) : List (BitVec 10) :=
  (p ++ [0#10]).zipWith (· ^^^ ·) (0#10 :: p.map (gfMul r))

/-- The 30 lower coefficients of the generator polynomial, whose roots are the powers 0 to 29 of x, highest power first. -/
def rsGenerator : List (BitVec 10) :=
  ((List.range 30).foldl (fun (g : List (BitVec 10) × BitVec 10) _ => (polyByRoot g.2 g.1, gfMul 2#10 g.2)) ([1#10], 1#10)).1.drop 1

/-- The 30 parity symbols of message symbols: the remainder of the message, shifted by 30 symbols, by the generator. -/
def rsParity (m : List (BitVec 10)) : List (BitVec 10) :=
  m.foldl (fun r x =>
    let q := x ^^^ r.headD 0#10
    (r.drop 1 ++ [0#10]).zipWith (· ^^^ ·) (rsGenerator.map (gfMul q))) (List.replicate 30 0#10)

/-- The inverse in GF(2^10): the power 1022. -/
def gfInv (a : BitVec 10) : BitVec 10 :=
  ((List.range 9).foldl (fun (x : BitVec 10 × BitVec 10) _ => let q := gfMul x.2 x.2; (gfMul x.1 q, q)) (1#10, a)).1

/-- A polynomial, lowest power first, at a point. -/
def polyAt (p : List (BitVec 10)) (x : BitVec 10) : BitVec 10 := p.foldr (fun c acc => c ^^^ gfMul x acc) 0#10

/-- A sum of polynomials, lowest power first. -/
def polyAdd : List (BitVec 10) → List (BitVec 10) → List (BitVec 10)
  | a :: p, b :: q => (a ^^^ b) :: polyAdd p q
  | [], q => q
  | p, [] => p

/-- A product of polynomials, lowest power first. -/
def polyMul (p q : List (BitVec 10)) : List (BitVec 10) := p.foldr (fun c acc => polyAdd (q.map (gfMul c)) (0#10 :: acc)) []

/-- The derivative of a polynomial, lowest power first. -/
def polyDeriv (p : List (BitVec 10)) : List (BitVec 10) := (p.drop 1).zipIdx.map fun x => if x.2 % 2 = 0 then x.1 else 0#10

/-- The powers n − 1 down to 0 of x. -/
def gfPowers (n : Nat) : List (BitVec 10) := (List.range (n - 1)).foldl (fun l _ => gfMul 2#10 (l.headD 1#10) :: l) [1#10]

/-- The 30 syndromes of a received codeword: its values at the roots of the generator polynomial. -/
def rsSyndromes (r : List (BitVec 10)) : List (BitVec 10) :=
  (gfPowers 30).reverse.map fun x => r.foldl (fun acc c => gfMul x acc ^^^ c) 0#10

/-- The search for the shortest recurrence of the syndromes: the error locator, the one before its last change of length with its distance and
discrepancy, and the length. -/
structure Locator where
  poly : List (BitVec 10) := [1#10]
  old : List (BitVec 10) := [1#10]
  gap : Nat := 1
  disc : BitVec 10 := 1#10
  len : Nat := 0

/-- One syndrome taken into the recurrence. -/
def Locator.take (k : Locator) (syn : List (BitVec 10)) (n : Nat) : Locator :=
  let d := (k.poly.zipIdx.map fun x => if x.2 ≤ n then gfMul x.1 (syn.getD (n - x.2) 0#10) else 0#10).foldl (· ^^^ ·) 0#10
  if d = 0#10 then { k with gap := k.gap + 1 }
  else
    let q := polyAdd k.poly (List.replicate k.gap 0#10 ++ k.old.map (gfMul (gfMul d (gfInv k.disc))))
    if 2 * k.len ≤ n then { poly := q, old := k.poly, gap := 1, disc := d, len := n + 1 - k.len }
    else { k with poly := q, gap := k.gap + 1 }

/-- A received codeword corrected: the codeword that differs from it in at most 15 symbols, if there is one (R304). -/
def rsDecode (r : List (BitVec 10)) : Option (List (BitVec 10)) :=
  let syn := rsSyndromes r
  if syn.all (· == 0#10) then some r
  else
    let k := (List.range 30).foldl (fun (k : Locator) n => k.take syn n) {}
    let omega := (polyMul syn k.poly).take 30
    let fixed := (r.zip (gfPowers r.length)).map fun x =>
      let y := gfInv x.2
      if polyAt k.poly y = 0#10 then x.1 ^^^ gfMul x.2 (gfMul (polyAt omega y) (gfInv (polyAt (polyDeriv k.poly) y))) else x.1
    if k.len ≤ 15 && (rsSyndromes fixed).all (· == 0#10) then some fixed else none

/-- A codeword: its message symbols, then its parity symbols (R304). -/
def rsCodeword (m : List (BitVec 10)) : List (BitVec 10) := m ++ rsParity m

/-- Bytes as 10-bit symbols, the lowest bit first. -/
def symbolsOf (b : List Byte) : List (BitVec 10) :=
  (List.range (b.length * 8 / 10)).map fun k => BitVec.ofNat 10 (fieldAt b (k * 10 / 8) 3 / 2 ^ (k * 10 % 8))

/-- The 1,285 bytes of a codeword pair's message: the marker 0xC3965A, the pair count, five flits (R304). -/
def pairMessage (count : Nat) (flits : List (List Byte)) : List Byte := natLE 3 0xC3965A ++ natLE 2 (count % 2 ^ 16) ++ flits.flatten

/-- The 1,088 symbols of a codeword pair, one codeword after the other (R304, which does not say how they are numbered; log 67, PRESUMED). -/
def pairSymbols (count : Nat) (flits : List (List Byte)) : List (BitVec 10) :=
  let m := symbolsOf (pairMessage count flits)
  rsCodeword (m.take 514) ++ rsCodeword (m.drop 514)

/-- What a lane carries of a pair: symbol k goes to lane k mod width (R304). -/
def laneSymbols (width lane : Nat) (l : List (BitVec 10)) : List (BitVec 10) :=
  (l.zipIdx.filter fun x => x.2 % width == lane).map (·.1)

/-- An IDLE flit with the acknowledgment of the port (R305, R306). -/
def KPort.idle (p : KPort) : List Byte := flitBytes 2 0 0 0 [] p.rxNext (ackFlags false)

/-- The flits of the port's pair `k`: those sent, five to a pair, the last pair filled with IDLE flits (R304, R306). -/
def KPort.pairFlits (p : KPort) (k : Nat) : List (List Byte) :=
  let l := (p.sent.drop (5 * k)).take 5
  l ++ List.replicate (5 - l.length) p.idle

/-- What one of a port's `width` lanes carries of its pair `k` (R304). -/
def KPort.laneOut (p : KPort) (width k lane : Nat) : List (BitVec 10) := laneSymbols width lane (pairSymbols k (p.pairFlits k))

/-- Does flit `i` of a pair overlap the codeword: message bits 0 to 5,139 of the first, 5,140 to 10,279 of the second (R304)? -/
def overlapsCodeword (second : Bool) (i : Nat) : Bool :=
  let first := 40 + 2048 * i
  if second then decide (5140 < first + 2048) else decide (first < 5140)

/-- The five flits of a received pair as they reach flit level: those that a codeword the decoder could not correct overlaps are bad, and
a bad flit reaches it without bytes (R304). -/
def pairReceived (lost0 lost1 : Bool) (flits : List (List Byte)) : List (List Byte) :=
  flits.zipIdx.map fun x => if (lost0 && overlapsCodeword false x.2) || (lost1 && overlapsCodeword true x.2) then [] else x.1

/-- 10-bit symbols as bytes, the lowest bit first. -/
def symbolBytes (l : List (BitVec 10)) : List Byte := natLE (l.length * 10 / 8) (l.foldr (fun c n => c.toNat + 1024 * n) 0)

/-- The flits of the 1,088 received symbols of a codeword pair (R304). -/
def pairDecoded (l : List (BitVec 10)) : List (List Byte) :=
  let a := rsDecode (l.take 544)
  let b := rsDecode (l.drop 544)
  let m := symbolBytes ((a.getD (l.take 544)).take 514 ++ (b.getD (l.drop 544)).take 514)
  pairReceived a.isNone b.isNone ((List.range 5).map fun i => sliceOf m (5 + 256 * i) 256)

/-- A flit as it reaches flit level (R304). -/
def decodeFlit : FlitRx → List Byte
  | .bytes b => b
  | .ofPair l i => (pairDecoded l).getD i []

/-! ### What a lane carries (R301, R307) -/

/-- The signal on a physical lane: none, the PRBS13Q pattern of IEEE 802.3, training frames, or the symbols of codeword pairs. -/
inductive LaneSignal where
  | quiet | prbs13q | training | flits
  deriving DecidableEq, Repr

/-- What a port sends on each of its lanes: PRBS13Q in T0, then training frames, with HELLO flits beside them in T5, flits once it is up; nothing
on a port that is DOWN (R301, R303; log 67). -/
def KPort.signal (k : KPort) : LaneSignal :=
  match k.st with
  | .training => if k.phase = 0 then .prbs13q else .training
  | .up => .flits
  | _ => .quiet

end Sys2Proof.Machine
end

