-- ==== Sys2Proof/Machine/Figures.lean ====
section
/-! DEFINITION. The rates, latencies, powers and areas the spec gives: they bind no bit of a result and no command reads them
(01_ R15 to R20, R43 to R45; 02_ R63; 03_ R94, R97; 04_ R124, R126; 05_ R138; 06_ R171, R172; 09_ R227; 12_ R300, R304, R306; 13_
R331; 16_ R413 to R416). Rates stand as fractions (numerator, denominator). -/

namespace Sys2Proof.Machine

/-! ### Widths, rates and latencies (R15 to R18, R124, R125, R138) -/

/-- The classes of computation width, from widest to narrowest (R16). -/
inductive WidthClass where
  | w64 | wp | w32 | w16 | w8
  deriving DecidableEq, Repr, Inhabited

/-- The class of a format (R16). -/
def Fmt.width : Fmt → WidthClass
  | .fp64 => .w64
  | .fp32p => .wp
  | .fp32 => .w32
  | .fp16 => .w16
  | .bf16 => .w16
  | .e4m3 => .w8
  | .e5m2 => .w8
  | .e3m2 => .w8
  | .e2m3 => .w8
  | .e2m1 => .w8
  | .int8 => .w8
  | .int4 => .w8
  | .ng4 => .w8

/-- Place of a class, widest first. -/
def WidthClass.rank : WidthClass → Nat
  | .w64 => 0 | .wp => 1 | .w32 => 2 | .w16 => 3 | .w8 => 4

/-- The wider of two classes. -/
def WidthClass.wider (a b : WidthClass) : WidthClass := if a.rank ≤ b.rank then a else b

/-- The computation width of an operation over its operand and result formats (R16). -/
def computationWidth (l : List Fmt) : WidthClass := l.foldl (fun w f => w.wider f.width) .w8

/-- Results per lane per ARITH cycle (Table 1.1): built-in functions. -/
def rateBuiltIn : WidthClass → Nat × Nat
  | .w64 => (1, 8) | .wp => (1, 4) | .w32 => (1, 1) | .w16 => (2, 1) | .w8 => (2, 1)

/-- Table 1.1: FMA, MAX, MIN, CLAMP, SELECT, compare, convert. -/
def rateFma : WidthClass → Nat × Nat
  | .w64 => (1, 4) | .wp => (1, 4) | .w32 => (1, 1) | .w16 => (2, 1) | .w8 => (2, 1)

/-- Table 1.1: ADD, MUL. -/
def rateAddMul : WidthClass → Nat × Nat
  | .w64 => (1, 4) | .wp => (1, 4) | .w32 => (1, 1) | .w16 => (2, 1) | .w8 => (4, 1)

/-- Latencies of Table 4.5: built-in functions. -/
def latencyBuiltIn : WidthClass → Nat
  | .w64 => 64 | .wp => 40 | _ => 28

/-- Table 4.5: FMA, ADD, MUL. -/
def latencyFma : WidthClass → Nat
  | .w64 => 8 | .wp => 8 | _ => 4

/-- Table 4.5: MAX, MIN, CLAMP, SELECT, CONVERT. -/
def latencySelect : WidthClass → Nat
  | .w64 => 4 | _ => 2

/-- Issue cycles of a CURVE step (R138). -/
def curveOccupancy (degree : Nat) (isLocal : Bool) : Nat := if degree = 0 then 1 else degree + b2n isLocal

/-- Latency of a CURVE step (R138). -/
def curveLatency (degree : Nat) (isLocal : Bool) : Nat := 4 + 4 * curveOccupancy degree isLocal

/-- Issue-to-retire latency of a chain between yards from its body steps' latencies (R63). -/
def yardLatency (steps : List Nat) : Nat := 12 + steps.sum

/-! ### Bounds (R45, R171, R172, R227) -/

/-- The cost column of Table 9.1; `two` says that both steps of a two-step body are built-in functions, or, for the reduction
chains, that RED is VAR or LSE; none for the chains that occupy no lanes. -/
def chainCost (chain : Nat) (two : Bool) : Option Nat :=
  match chain with
  | 2 => some (1 + b2n two) | 4 => some (1 + b2n two) | 5 => some (1 + b2n two)
  | 8 => some 2 | 14 => some 5 | 15 => some 5 | 16 => some 3 | 17 => some 3 | 18 => some 3 | 19 => some 5 | 20 => some 3 | 21 => some 3
  | 22 => some (1 + b2n two) | 23 => some (1 + b2n two) | 24 => some (1 + b2n two) | 25 => some (1 + b2n two)
  | 29 => some 2 | 30 => some 8 | 31 => some 6 | 32 => some 8 | 33 => some 6 | 34 => some 4 | 35 => some 6 | 36 => some 2 | 37 => some 2
  | 41 => some 4 | 42 => some 2 | 43 => some 2
  | 45 => none | 46 => none | 47 => none | 48 => none
  | _ => if 1 ≤ chain ∧ chain ≤ 44 then some 1 else none

/-- Elements per second that the memory port allows at `r` or `w` bytes an element (R45); none where the term is left out. -/
def portBound (fabricHz bytes : Nat) : Option (Nat × Nat) := if bytes = 0 then none else some (512 * fabricHz, bytes)

/-- Addends an element feeds to a tally (R171): FP32P doubles a sum and quadruples a square. -/
def addendsPerElement (square pair : Bool) : Nat := if pair then (if square then 4 else 2) else 1

/-- Elements per ARITH cycle per bay that the tallies accept (R171). -/
def tallyBound (square pair : Bool) : Nat × Nat := (64, addendsPerElement square pair)

/-- Elements per ARITH cycle that a bay sustains with `chains` fold chains, before its lane rate (R172). -/
def foldBound (chains : Nat) (slow : Bool) : Nat × Nat :=
  let c := min chains 256
  if slow then (min c 512, 8) else (min c 256, 4)

/-- The lanes of an instance with `bays` enabled bays, spares apart (R20, Table 1.4). -/
def lanesOf (bays : Nat) : Nat := 64 * bays

/-- The limits of a control domain (R44). -/
def domainFits (instances bays : Nat) : Bool := decide (instances ≤ 64) && decide (bays ≤ 256)

/-! ### Slots, ports, flash (R94, R97, R304, R306, R331, R345) -/

/-- ARITH cycles of a slot, a handover gap, and a rotation (Table 3.10). -/
def slotCycles : Nat × Nat × Nat := (256, 32, 64 * 256)

/-- Time of a codeword pair in picoseconds by width (Table 12.4); a flit takes a fifth. -/
def pairTime (x8 : Bool) : Nat := if x8 then 10625 else 21250

/-- Payload bytes of a codeword pair (R304). -/
def pairPayload : Nat := 5 * 240

/-- The replay window in picoseconds (Table 12.6). -/
def replayWindow (x8 : Bool) : Nat := 64 * (pairTime x8 / 5)

/-- The divisors of the 4 GHz oscillator for the NV clock: soft reset, parameter tables, every other access (R331). -/
def nvDivisors : List Nat := [160, 80, 30]

/-- Nanoseconds of an image read (R331). -/
def imageReadTime (bytes : Nat) : Nat := 15 * bytes

/-- Typical and maximum milliseconds of the power-up phases P0 to P6 (Table 13.5). -/
def phaseTimes : List (Nat × Nat) := [(75, 80), (5, 8), (63, 66), (120, 140), (5, 6), (200, 300), (52, 300)]

/-- Swing in millivolts of the setting SWING (Table 12.1, R340). -/
def swingOf (n : Nat) : Nat := 700 + n * 400 / 7

/-- Rise time in tenths of a picosecond of the setting EDGE (Table 12.1). -/
def edgeOf (n : Nat) : Nat := [75, 90, 110, 130].getD n 0

/-! ### Supplies, power, area (R413 to R416) -/

/-- Millivolts that AVS_CODE requests (R414). -/
def avsMillivolts (code : Nat) : Nat := 750 + 5 * code

/-- Typical AVS_CODE by ARITH frequency in MHz (Table 16.7). -/
def avsTypical (mhz : Nat) : Nat := if mhz ≤ 1200 then 0 else if mhz ≤ 1600 then 10 else 20

/-- Typical busy power in milliwatts of enabled bays and Klody lanes (Table 16.8). -/
def powerTypical (bays lanes : Nat) : Nat := 1400 * bays + 3600 + 550 * lanes

/-- Maximum busy power in milliwatts (Table 16.8). -/
def powerMax (bays lanes : Nat) : Nat := 1900 * bays + 4600 + 650 * lanes

/-- Area in hundredths of a square millimetre (R416). -/
def areaOf (baysBuilt lanes : Nat) : Nat := 400 + 450 * baysBuilt + 110 * lanes

/-! ### The lane cross-check (R126) -/

/-- The bounds ρ and A of Table 4.6 for a built-in function. -/
def crossBounds (op : Nat) : Option (Rat × Rat) :=
  if op = 0x04 ∨ op = 0x05 then some (1 / 2 ^ 8, 1 / 2 ^ 16)
  else if op = 0x10 ∨ op = 0x11 then some (1 / 2 ^ 8, 1 / 2 ^ 20)
  else if op = 0x0C then some (1 / 2 ^ 6, 0)
  else if (1 ≤ op ∧ op ≤ 0x0B ∧ op ≠ 7) ∨ (0x18 ≤ op ∧ op ≤ 0x1E) then some (1 / 2 ^ 8, 0)
  else none

/-- The class of a value as the check tells classes apart; `signs` where the absolute floor is 0 (R126). -/
def crossClass (signs : Bool) : Val → Nat
  | .nan => 0
  | .inf neg => if neg then 2 else 1
  | .zero neg => if signs then (if neg then 4 else 3) else 7
  | .num q => if signs then (if q < 0 then 6 else 5) else 7

/-- Does the check of a lane trip on a pipeline value `p` and an estimate `e` (R126)? Both come with LANE_CHECK, for the spec does not give
the estimator's bits (log 66, DESIGN CHOICE). -/
def crossTrips (op : Nat) (p e : Val) : Bool :=
  match crossBounds op with
  | none => false
  | some (rho, floor) =>
    let signs := floor == 0
    let d := p.rat - e.rat
    let mag := fun (x : Rat) => if x < 0 then -x else x
    crossClass signs p != crossClass signs e || (p.isFinite && e.isFinite && decide (rho * mag e.rat + floor < mag d))

end Sys2Proof.Machine
end

