-- ==== Sys2Proof/Machine/Plumb.lean ====
section
/-! DEFINITION. The cycle count of a plumb descriptor whose chain is a body alone between yards: issue by the slot table, the rate of
its steps, its latency (03_ R97, R98 and Table 3.11; 02_ R63; 04_ R124, R125; 05_ R138; 09_ R227; assumption log 24, DEDUCED); and the
retire edge of any plumb descriptor. -/

namespace Sys2Proof.Machine

/-- The body steps of chains 1 to 10 as opcodes (Table 9.1). -/
def bodySteps (d : Desc) : List Nat :=
  (match d.chain with
   | 1 | 3 => [d.opA]
   | 2 | 4 | 5 => [d.opA, d.opB]
   | 6 => [0x20]
   | 7 => [0x21, d.opA]
   | 8 => [0x21, d.opA, 0x21]
   | 9 => [0x25]
   | 10 => [0x26]
   | _ => []).filter (· != 0)

/-- Is an opcode a built-in function (Table 4.5)? -/
def opBuiltIn (op : Nat) : Bool := decide (1 ≤ op) && decide (op ≤ 0x1E)

/-- Does an opcode occupy the multiply-add unit (R125, R138)? -/
def opMultiplyAdd (op : Nat) : Bool := op == 0x20 || op == 0x21 || op == 0x22 || op == opCurve

/-- The computation width of a chain: its stream and joint formats (R227). -/
def chainWidth (d : Desc) : WidthClass := computationWidth (streamFmts d ++ if chainJoints d ≠ 0 then [jointTo d] else [])

/-- Issue cycles of the CURVE steps of a descriptor (R138). -/
def occupancyOf (c : Option Curve) : Nat := match c with | some k => curveOccupancy k.degree k.isLocal | none => 1

/-- Latency of a step in ARITH cycles (Table 4.5, R138). -/
def stepLatency (w : WidthClass) (u op : Nat) : Nat :=
  if opBuiltIn op then latencyBuiltIn w else if op = opCurve then 4 + 4 * u
  else if op = 0x20 ∨ op = 0x21 ∨ op = 0x22 then latencyFma w else latencySelect w

/-- Lane cycles an element takes: c / k, or the occupancy of the multiply-add unit where CURVE makes that longer (R227). -/
def elementTime (d : Desc) (u : Nat) : Rat :=
  let ops := bodySteps d
  let w := chainWidth d
  let k := if ops.any opBuiltIn then rateBuiltIn w else if ops.all fun o => o == 0x21 || o == 0x22 then rateAddMul w else rateFma w
  let c := (chainCost d.chain ((ops.filter opBuiltIn).length == 2)).getD 1
  let lane : Rat := (c * k.2 : Nat) / (k.1 : Rat)
  let m := rateFma w
  let mul : Rat := ((ops.filter opMultiplyAdd).map fun o => if o = opCurve then (u : Rat) else (m.2 : Rat) / m.1).sum
  if ops.contains opCurve then max lane mul else lane

/-- Issue-to-retire latency between yards (R63). -/
def bodyLatency (d : Desc) (u : Nat) : Nat := yardLatency ((bodySteps d).map (stepLatency (chainWidth d) u))

/-- Does the spec give a chain's whole cycle count: chains 1 to 10, fed by a yard (R63, R227)? -/
def bodyAlone (d : Desc) : Bool := decide (1 ≤ d.chain) && decide (d.chain ≤ 10) && d.kind sIn == 1

/-- The least natural number not below a rational. -/
def ceilRat (q : Rat) : Nat := (-((-q).floor)).toNat

/-- The issue cycle, counted from a slot's start, on which `rem` elements have been issued in it, when they are: `kept` bays issue
from the start, `fresh` ones after the gap, `r` elements a cycle each (R97). -/
def issuedIn (r : Rat) (kept fresh : Nat) (rem : Rat) : Option Nat :=
  let early := r * kept * 32
  let rate := r * (kept + fresh : Nat)
  if rem ≤ early then some (ceilRat (rem / (r * kept)) - 1)
  else if rem ≤ early + rate * 224 then some (32 + ceilRat ((rem - early) / rate) - 1)
  else none

/-- The elements a slot issues. -/
def slotIssue (r : Rat) (kept fresh : Nat) : Rat := r * kept * 256 + r * fresh * 224

/-- The bays that a slot lends to a plumb channel. -/
def State.lentBays (s : State) (c : Fin 16) (n : Nat) : List Nat :=
  let w := s.slotWord (n % 64)
  if slotPlumb w && slotChan w == c then slotBays w else []

/-- The bays of a slot that issue from its start, and those that wait out the gap, by the table alone (R97). -/
def State.slotShape (s : State) (c : Fin 16) (n : Nat) : Nat × Nat :=
  let b := s.lentBays c n
  let p := s.lentBays c (n + 63)
  ((b.filter p.contains).length, (b.filter fun x => !(p.contains x)).length)

/-- A walk over `k` slots from slot `n` on, which begins `at1` cycles after the start edge: the last issue cycle, or the elements
left. -/
def State.walkSlots (s : State) (c : Fin 16) (r : Rat) : Nat → Nat → Nat → Rat → Nat ⊕ Rat
  | 0, _, _, rem => .inr rem
  | k + 1, n, at1, rem =>
    let h := s.slotShape c n
    match issuedIn r h.1 h.2 rem with
    | some x => .inl (at1 + x)
    | none => s.walkSlots c r k (n + 1) (at1 + 256) (rem - slotIssue r h.1 h.2)

/-- The last issue cycle of `n` elements after a start edge at slot `slot`, whose bays in `gap` wait out the gap. -/
def State.lastIssue (s : State) (c : Fin 16) (r : Rat) (slot : Nat) (gap : List Nat) (n : Nat) : Option Nat :=
  let b := s.lentBays c slot
  let kept := (b.filter fun x => !(gap.contains x)).length
  let fresh := (b.filter gap.contains).length
  match issuedIn r kept fresh n with
  | some x => some x
  | none =>
    match s.walkSlots c r 63 (slot + 1) 256 (n - slotIssue r kept fresh) with
    | .inl x => some x
    | .inr rem =>
      let per := ((List.range 64).map fun k => let h := s.slotShape c k; slotIssue r h.1 h.2).sum
      if per ≤ 0 then none
      else
        let whole := ceilRat (rem / per) - 1
        match s.walkSlots c r 64 slot (16384 * (whole + 1)) (rem - per * whole) with
        | .inl x => some x
        | .inr _ => none

/-- The ARITH cycle of the retire edge of a plumb descriptor that starts now, where the spec gives it. -/
def State.plumbEnd (s : State) (c : Fin 16) (d : Desc) (n : Nat) : Option Nat :=
  if (s.cfg c).plumb ∧ bodyAlone d ∧ n ≠ 0 then
    let u := occupancyOf (s.curveOf d)
    (s.lastIssue c (64 / elementTime d u) s.sched.slot s.sched.gap n).map fun x => s.clk.arith + x + bodyLatency d u
  else none

/-- The indices a gather reads from a yard: they are addresses, and no operand of a lane operation (R18, R229). -/
def State.yardIndices (s : State) (j : Job) : List Byte :=
  if (j.d.chain = 12 ∨ j.d.chain = 13) ∧ j.d.kind sX1 = 1 then
    (List.range (workCount j.d)).flatMap fun i =>
      let e := s.jobEnv j
      let p := placeOf j.d .index 0 i
      e.bytes 1 ((e.lay sX1).row p.1 + 4 * p.2) 4
  else []

/-- A free cycle count of what R98 names: the slot table, the tap's valid cycles, the descriptor. -/
def State.freeCycles (s : State) (j : Job) : Nat :=
  Config.plumbCycles s.image.slots (j.beats.map (·.2)) (j.desc :: s.yardIndices j :: j.blocks.map (·.2))

/-- The ARITH cycle of the retire edge of a plumb descriptor that starts now (R98): as the spec counts it, else a free count of what R98
names, so that it is the same on every run. That of one fed by a tap is known with its last beat; a channel whose promise has ended
follows its commands (R283). -/
def State.plumbDue (s : State) (c : Fin 16) (j : Job) : Option Nat :=
  if (s.cfg c).plumb = false ∨ j.skip then none
  else if bodyAlone j.d then s.plumbEnd c j.d (workCount j.d)
  else if j.d.kind sIn = 2 ∨ s.sched.broken.contains c.val then none
  else some (s.clk.arith + s.freeCycles j)

/-- The ARITH cycle of the retire edge of a plumb descriptor whose last tap beat is in: a free count after that beat (R98; log 24). -/
def State.tapDue (s : State) (p : Part) (j : Job) : Option Nat :=
  match p with
  | .chan c => if (s.cfg c).plumb = false ∨ s.sched.broken.contains c.val then none else some (s.clk.arith + s.freeCycles j)
  | .share _ => none

end Sys2Proof.Machine
end

