-- ==== Sys2Proof/Machine/Release.lean ====
section
/-! DEFINITION. Release packages and the rings: the sequence hold, the placement of shavings, story-pole entries and offcut
records, the completion record and its message (03_ R90, R91, R101 to R103; 10_ R261; 11_ R288, R292, R294; 15_ R395, R396). -/

namespace Sys2Proof.Machine

/-! ### The rings in use -/

/-- A ring site's kind of ring. -/
def siteId : RingSite → RingId
  | .shave _ => .shave
  | .pole _ => .pole
  | .offcut => .offcut

/-- The use of a ring at a site: a channel's release uses the shavings ring while it has shavings to place, then the pole. -/
def State.useOf (s : State) : RingSite → Option RingUse
  | .shave c => match s.chans[c].rel with | some r => if r.pkg.shaves.isEmpty then none else r.use | none => none
  | .pole c => match s.chans[c].rel with | some r => if r.pkg.shaves.isEmpty then r.use else none | none => none
  | .offcut => s.offcutUse.map (·.2)

/-- A channel's release changed. -/
def State.onRel (s : State) (c : Fin 16) (f : Release → Release) : State := s.onChan c fun x => { x with rel := x.rel.map f }

/-- The records still to be placed at a site; of the offcut queue those of the work that uses the ring now. -/
def State.itemsOf (s : State) : RingSite → List (List Byte)
  | .shave c => match s.chans[c].rel with | some r => r.pkg.shaves | none => []
  | .pole c => match s.chans[c].rel with | some r => if r.pkg.shaves.isEmpty then r.pkg.poles else [] | none => []
  | .offcut => match s.offcut with
    | [] => []
    | x :: _ => ((s.offcut.takeWhile fun y => y.1 == x.1 && ((s.offcutUse.map (·.1)).getD x.1) == y.1).map (·.2.2))

/-- The use of a ring at a site, changed. -/
def State.setUse (s : State) (r : RingSite) (u : Option RingUse) : State :=
  match r with
  | .shave c | .pole c => s.onRel c fun x => { x with use := u }
  | .offcut => { s with offcutUse := match u, s.offcutUse, s.offcut with
      | none, _, _ => none
      | some u, some o, _ => some (o.1, u)
      | some u, none, x :: _ => some (x.1, u)
      | some _, none, [] => none }

/-- The first record at a site has been placed. -/
def State.popItem (s : State) (r : RingSite) : State :=
  match r with
  | .shave c => s.onRel c fun x => { x with pkg := { x.pkg with shaves := x.pkg.shaves.tail } }
  | .pole c => s.onRel c fun x => { x with pkg := { x.pkg with poles := x.pkg.poles.tail } }
  | .offcut => { s with offcut := s.offcut.tail }

/-- The ring of a site as its validation read it (R245, R287, R288): HEAD and TAIL stand behind each other. -/
def State.ringOf (s : State) (r : RingSite) : Ring :=
  match r with
  | .shave c =>
    match s.chans[c].rel with
    | some x =>
      let p := Plank.parse x.pkg.shaveRing
      { kind := p.kind, base := p.base, bytes := p.bytes, headKind := x.pkg.shavePlank.1, headAddr := x.pkg.shavePlank.2 + 0x14, head := 1, tail := 1 }
    | none => { kind := 0, base := 0, bytes := 0, headKind := 0, headAddr := 0, head := 1, tail := 1 }
  | .pole c =>
    match s.chans[c].rel with
    | some x =>
      let b := RingBlock.parse x.pkg.poleRing
      { kind := 0, base := b.base, bytes := b.bytes, headKind := 0, headAddr := x.pkg.poleAt + 0x0C, head := 1, tail := 1 }
    | none => { kind := 0, base := 0, bytes := 0, headKind := 0, headAddr := 0, head := 1, tail := 1 }
  | .offcut =>
    let b := RingBlock.parse (match s.offcut with | x :: _ => x.2.1 | [] => [])
    { kind := 0, base := b.base, bytes := b.bytes, headKind := 0, headAddr := s.active.offcut.toNat + 0x0C, head := 1, tail := 1 }

/-- Every site at which a ring is in use, with its use. -/
def State.ringUses (s : State) : List (RingSite × RingUse) :=
  (channels.flatMap fun c => [RingSite.shave c, .pole c]).filterMap (fun r => (s.useOf r).map fun u => (r, u)) ++
    (match s.offcutUse with | some o => [(.offcut, o.2)] | none => [])

/-- Is a ring in use at another site? -/
def State.ringBusy (s : State) (r : RingSite) (ring : Ring) : Bool :=
  s.ringUses.any fun x => x.1 != r && x.2.ring.headKind == ring.headKind && x.2.ring.headAddr == ring.headAddr

/-- HEAD and TAIL requested from memory. A member whose ring block no validation read takes BASE and BYTES with them
(log 9, DESIGN CHOICE). -/
def State.readRing (s : State) (r : RingSite) (u : RingUse) : State :=
  let s := s.setUse r (some { u with phase := .read })
  if u.ring.bytes = 0 then s.request (readReqs (.ringRead r) (u.ring.headAddr - 0x0C) 32) else s.request (readReqs (.ringRead r) u.ring.headAddr 8)

/-- HEAD and TAIL read from the yard, through SECDED (R26); a word that cannot be read counts and is logged, and the ring waits as one whose
values are not in form (log 73, DESIGN CHOICE). -/
def State.yardRing (s : State) (ring : Ring) : State × Ring :=
  let k := s.yardCheck ring.headAddr 8
  match k.2 with
  | some w => (k.1.log0 codeUE 0 (unitDetail 0 (yardOffset w)), { ring with head := 1, tail := 1 })
  | none =>
    let b := k.1.blockBytes ring.headAddr 8
    (k.1, { ring with head := fieldAt b 0 4, tail := fieldAt b 4 4 })

/-- The envelope under which a release's write into another member's yards travels (R36, R235; log 9, DEDUCED). -/
def State.relEnvelope (s : State) (c : Fin 16) (p : Package) : Envelope :=
  { s.envTo 4 0 [] with head := s.sin, ch := c, attempt := p.attempt, seq := (Desc.parse p.desc).seq }

/-- A channel's release writes into the yard space of its gang (R36, R101): its own yards at once, tiles to be acknowledged elsewhere. -/
def State.relWrite (s : State) (c : Fin 16) (a : Nat) (b : List Byte) : State :=
  match s.chans[c].rel with
  | some r =>
    let w := s.gangWrite (s.relEnvelope c r.pkg) (s.gangMembers (s.cfg c).gang) (s.boundBays c) 0 a b
    if w.2.isEmpty then w.1 else w.1.onRel c fun x => { x with tiles := x.tiles ++ w.2 }
  | none => s

/-- A yard write of a ring's site. The offcut ring lies in memory alone (R288). -/
def State.siteWrite (s : State) (r : RingSite) (a : Nat) (b : List Byte) : State :=
  match r with
  | .shave c | .pole c => s.relWrite c a b
  | .offcut => s

/-- Does a site await tiles? -/
def State.siteWaits (s : State) (r : RingSite) : Bool :=
  match r with
  | .shave c | .pole c => (match s.chans[c].rel with | some x => !x.tiles.isEmpty | none => false)
  | .offcut => false

/-- HEAD is written past a record, after the record (R261); whether no acknowledgment of it is awaited. -/
def State.putHead (s : State) (r : RingSite) (u : RingUse) : State × Bool :=
  let t := s.setUse r (some { u with phase := .head })
  if u.ring.headKind = 1 then
    let t := t.siteWrite r u.ring.headAddr (natLE 4 u.newHead)
    (t, !(t.siteWaits r))
  else (t.request (writeReqs (.ringHead r) u.ring.headAddr (natLE 4 u.newHead)), false)

/-- Records are placed while the ring allows it (R261): writes in memory and into another member's yards are awaited, writes in the own
yards are not. -/
def State.placeRecords : Nat → State → RingSite → RingUse → State
  | 0, s, _, _ => s
  | f + 1, s, r, u =>
    match s.itemsOf r with
    | [] => s.setUse r none
    | rec :: _ =>
      match u.ring.place (siteId r) s.sin rec with
      | none => s.setUse r (some { u with phase := .wait })
      | some (ws, nh) =>
        if u.ring.kind = 1 then
          let t := ws.foldl (fun (s : State) w => s.siteWrite r w.1 w.2) s
          let v := { u with newHead := nh }
          if t.siteWaits r then t.setUse r (some { v with phase := .record 0 })
          else
            let h := t.putHead r v
            if h.2 then State.placeRecords f (h.1.popItem r) r { v with ring := { u.ring with head := nh }, phase := .wait } else h.1
        else
          let reqs := ws.flatMap fun w => writeReqs (.ringRecord r) w.1 w.2
          (s.setUse r (some { u with phase := .record reqs.length, newHead := nh })).request reqs

/-- The fuel of a site: its records, and one more. -/
def State.ringFuel (s : State) (r : RingSite) : Nat := (s.itemsOf r).length + 2

/-- A site takes its ring, when records wait and the ring is free: HEAD and TAIL are read first (R288). -/
def State.takeRing (s : State) (r : RingSite) : State :=
  match s.useOf r, s.itemsOf r with
  | none, _ :: _ =>
    let ring := s.ringOf r
    if s.ringBusy r ring then s
    else if ring.headKind = 1 then
      let y := s.yardRing ring
      let u := ({ ring := y.2, phase := .wait } : RingUse)
      (y.1.setUse r (some u)).placeRecords (s.ringFuel r) r u
    else s.readRing r { ring := ring, phase := .read }
  | _, _ => s

/-! ### Completions (R101 to R103) -/

/-- Credits of a completed descriptor returned, where the member has not restarted since (R39). -/
def State.returnCredits (s : State) (l : List (Nat × Nat × Nat)) : State :=
  l.foldl (fun (s : State) x =>
    if s.boots.lookup x.2.1 = some x.2.2 then
      { s with credits := s.credits.map fun k => if k.1 = x.1 ∧ k.2.1 = x.2.1 then (k.1, k.2.1, k.2.2 + 1) else k }
    else s) s

/-- The deltas of a record added to the counter block (R102, R255). -/
def Counters.take (k : Counters) (r : Record) (drift : Nat) : Counters :=
  { k with clip := k.clip + BitVec.ofNat 64 r.clip, oob := k.oob + BitVec.ofNat 64 r.oob, flat := k.flat + BitVec.ofNat 64 r.flat,
           green := k.green + BitVec.ofNat 64 r.green, widen := k.widen + (if bitOf r.flags 5 then 1 else 0), drift := k.drift + BitVec.ofNat 64 drift }

/-- The COMPLETE message of a channel's release is sent, and with it everything a completion changes (R90, R101 to R103). -/
def State.complete (s : State) (c : Fin 16) : State :=
  match s.chans[c].rel with
  | none => s
  | some r =>
    let p := r.pkg
    let s := s.send (s.cfg c).source (completeMsg c.val p.record.status p.record.seq p.credit (if p.viaMsg then p.record.bytes else []))
    let s := { s with ctr := s.ctr.take p.record p.drift }
    let s := if p.advance then { s with nextSeq := s.nextSeq.set (s.cfg c).group (s.nextSeq[(s.cfg c).group] + 1) } else s
    (s.returnCredits p.credits).onChan c fun x => { x with rel := none, lastSeq := p.record.seq }

/-- A channel's release goes on: shavings, then the story pole, then the record (R289, R390). -/
def State.releaseGo : Nat → State → Fin 16 → State
  | 0, s, _ => s
  | f + 1, s, c =>
    match s.chans[c].rel with
    | none => s
    | some r =>
      if r.recordSent || r.use.isSome then s
      else if !r.pkg.shaves.isEmpty then
        if (Plank.parse r.pkg.shaveRing).bytes = 0 then State.releaseGo f (s.onRel c fun x => { x with pkg := { x.pkg with shaves := [] } }) c
        else
          let t := s.takeRing (.shave c)
          if (t.itemsOf (.shave c)).isEmpty then State.releaseGo f t c else t
      else if !r.pkg.poles.isEmpty then
        let t := s.takeRing (.pole c)
        if (t.itemsOf (.pole c)).isEmpty then State.releaseGo f t c else t
      else if r.pkg.viaMsg then s.complete c
      else if r.pkg.kind = 1 then (s.relWrite c r.pkg.ptr r.pkg.record.bytes).onRel c fun x => { x with recordSent := true }
      else (s.onRel c fun x => { x with recordSent := true }).request (writeReqs (.record c) r.pkg.ptr r.pkg.record.bytes)

/-- Releases and the offcut queue that waited for a ring go on. -/
def State.pumpRings (s : State) : State :=
  (channels.foldl (fun (s : State) c => s.releaseGo 4 c) s).takeRing .offcut

/-- Is the hold of a channel's first package met (R90, R91)? Of one formed after LG_STATE became FAULT it is not, but for FAULT completions,
whose turn comes last (R396). -/
def State.holdMet (s : State) (c : Fin 16) (p : Package) : Bool :=
  !p.barred && !(s.lg == .fault && p.record.status == stFault) && (p.freely || (s.nextSeq[(s.cfg c).group]).toNat == p.record.seq)

/-- In FAULT, is it a channel's turn to release its FAULT completion: every package whose hold is met has gone, and the FAULT completions of
the channels before it (R396)? -/
def State.faultTurn (s : State) (c : Fin 16) : Bool :=
  s.lg == .fault && channels.all fun k =>
    s.chans[k].rel.isNone && !((s.chans[k].held.head?.map (s.holdMet k)).getD false) &&
      (decide (c.val ≤ k.val) || (!(s.chans[k].held.any fun p => p.record.status == stFault) && ((s.chans[k].halted.map (·.drained)).getD true)))

/-- The package a channel releases next, and those that stay held: its first one, once its hold is met (R90, R91), or in FAULT its FAULT
completion in its turn (R396). -/
def State.nextPackage (s : State) (c : Fin 16) : Option (Package × List Package) :=
  match s.chans[c].held with
  | [] => none
  | p :: l =>
    if s.holdMet c p then some (p, l)
    else if s.faultTurn c then ((p :: l).find? fun q => q.record.status == stFault).map fun q => (q, (p :: l).erase q)
    else none

/-- RELEASE_PACKAGE (R90, R91, R396). -/
def execReleasePackage (c : Fin 16) (s : State) : Host.Outcome State Fault Refusal :=
  if s.stopped || !s.pins.rstN then .next s
  else match s.chans[c].rel, s.nextPackage c with
    | none, some (p, l) => .next ((s.onChan c fun x => { x with held := l, rel := some { pkg := p } }).releaseGo 4 c).pumpRings
    | _, _ => .next s

/-! ### The answers of ring and record writes -/

/-- An offcut record given up leaves its ring once nothing of it is outstanding (R382). -/
def State.ringDropped (s : State) : State :=
  if s.port.out.any (·.use.ofOffcut) then s else ({ s with offcutUse := none } : State).pumpRings

/-- Is a request of the package a channel releases: its records, their HEADs, its completion record? -/
def Use.ofRelease (c : Fin 16) : Use → Bool
  | .record d => d == c
  | .ringRead (.shave d) | .ringRecord (.shave d) | .ringHead (.shave d) => d == c
  | .ringRead (.pole d) | .ringRecord (.pole d) | .ringHead (.pole d) => d == c
  | _ => false

/-- Requests whose answers nothing awaits any more: those not gone out are dropped. -/
def State.disown (s : State) (f : Use → Bool) : State :=
  { s with port := { s.port with
      out := s.port.out.map fun r => if f r.use then { r with use := .discarded } else r,
      waiting := s.port.waiting.filter fun r => !(f r.use) } }

/-- After a record write failure its package is given up, unreleased, and the packages behind it go on (R396; log 21, DESIGN CHOICE); so
are the offcut records of its work. -/
def State.giveUp (s : State) (u : Use) : State :=
  match (channels.filter fun c => u.ofRelease c).head? with
  | some c => (s.disown (Use.ofRelease c)).onChan c fun x => { x with rel := none }
  | none =>
    let p := s.offcutUse.map (·.1)
    { s.disown Use.ofOffcut with offcut := s.offcut.filter fun x => some x.1 != p, offcutUse := none }

/-- A failed record or HEAD write: retried three times with the same bytes, then a record write failure (R395), where a fault was met
before with its entry alone (R397); one of a record given up is not retried (R382). -/
def State.retryWrite (s : State) (q : MemReq) (code : Nat := codeMem) (detail : Nat := q.addr / 64 * 64) : State :=
  if q.use.ofOffcut && (s.offcutUse.any fun o => o.2.phase == .dropped) then (s.log0 code 0 detail).ringDropped
  else if 3 ≤ q.tries then
    let t := ((if s.faultMet then s.log0 code 0 detail else s).instanceFault (logBytes code 4 0 0 0 0 s.count 0 0 0 detail)).giveUp q.use
    if t.stopped then t else t.pumpRings
  else (s.log0 code 0 detail).request [{ q with tries := q.tries + 1, bad := false }]

/-- A record is placed, and HEAD past it: the next one, or the ring is free (R261). -/
def State.recordPlaced (s : State) (r : RingSite) (u : RingUse) : State :=
  let s := (match r, s.offcutUse with | .offcut, some o => s.touchPart o.1 | _, _ => s).popItem r
  let u := { u with ring := { u.ring with head := u.newHead }, phase := .wait }
  match s.itemsOf r with
  | [] => (s.setUse r none).pumpRings
  | _ => ((s.setUse r (some u)).placeRecords (s.ringFuel r) r u).pumpRings

/-- A ring's HEAD has been written: the record is placed (R261). -/
def State.headWritten (s : State) (r : RingSite) : State :=
  match s.useOf r with
  | some u => if u.phase = .head then s.recordPlaced r u else if u.phase = .dropped then s.ringDropped else s
  | none => s

/-- A write of a ring record has been acknowledged; after the last one HEAD is written past it (R261). -/
def State.recordWritten (s : State) (r : RingSite) : State :=
  match s.useOf r with
  | some u =>
    match u.phase with
    | .record n =>
      if n ≤ 1 then
        let h := s.putHead r u
        if h.2 then h.1.recordPlaced r u else h.1
      else s.setUse r (some { u with phase := .record (n - 1) })
    | .dropped => s.ringDropped
    | _ => s
  | none => s

/-- A member keeps the ring block it has read for its share and for the re-executions of the descriptor (R288; log 9, DESIGN CHOICE). -/
def State.keepRing (s : State) (blk : List Byte) : State :=
  match s.offcutUse with
  | some o => match s.job o.1 with
    | some j =>
      let t := s.setJob o.1 (some { j with blocks := mergeBlocks [(5, blk)] j.blocks })
      { t with ringKept := ((j.head, j.ch, j.d.seq), blk) :: t.ringKept.filter fun k => !(k.1.1 == j.head && k.1.2.1 == j.ch) }
    | none => s
  | none => s

/-- A ring that its block, read at the placement, shows to be empty or malformed takes no record: those of the work are passed over (log 62,
DESIGN CHOICE). -/
def State.passOver (s : State) : RingSite → State
  | .pole c => s.onRel c fun x => { x with pkg := { x.pkg with poles := [] }, use := none }
  | .shave c => s.onRel c fun x => { x with pkg := { x.pkg with shaves := [] }, use := none }
  | .offcut => { s with offcut := s.offcut.filter fun x => some x.1 != s.offcutUse.map (·.1), offcutUse := none }

/-- HEAD and TAIL of a ring have been read: `b` holds the ring block, or the eight bytes from HEAD. -/
def State.ringRead (s : State) (r : RingSite) (addr : Nat) (b : List Byte) : State :=
  match s.useOf r with
  | some u =>
    if u.phase = .read then
      let at1 := fun (a n : Nat) => leNat ((List.range n).map fun i => chunkByte [(addr, b)] (a + i))
      let blk := (List.range 32).map fun i => chunkByte [(addr, b)] (u.ring.headAddr - 0x0C + i)
      let k := RingBlock.parse blk
      let ring := if u.ring.bytes = 0 then { u.ring with base := k.base, bytes := k.bytes } else u.ring
      let s := if u.ring.bytes = 0 ∧ r = .offcut then s.keepRing blk else s
      let u1 := { u with ring := { ring with head := at1 ring.headAddr 4, tail := at1 (ring.headAddr + 4) 4 }, phase := .wait }
      if u.ring.bytes = 0 ∧ k.unusable then (s.passOver r).pumpRings
      else ((s.setUse r (some u1)).placeRecords (s.ringFuel r) r u1).pumpRings
    else if u.phase = .dropped then s.ringDropped
    else s
  | none => s

/-- A completion record's write has been answered (R101, R395). -/
def State.recordAcked (s : State) (c : Fin 16) : State :=
  match s.chans[c].rel with
  | some r => if r.recordSent && !(s.inFlight (.record c)) && r.tiles.isEmpty then (s.complete c).pumpRings else s
  | none => s

/-- Does a channel's release await a tile's acknowledgment (R101, R235)? -/
def State.awaitsTile (s : State) (c : Fin 16) (x : Nat × Nat × Nat) : Bool :=
  match s.chans[c].rel with | some r => r.tiles.contains x | none => false

/-- A tile of a channel's release is acknowledged; after the last one the release goes on (R101, R261). -/
def State.releaseTile (s : State) (c : Fin 16) (x : Nat × Nat × Nat) : State :=
  let t := s.onRel c fun r => { r with tiles := r.tiles.erase x }
  match t.chans[c].rel with
  | some r =>
    if !r.tiles.isEmpty then t
    else if r.recordSent then t.recordAcked c
    else match r.use with
      | some u =>
        let site := if r.pkg.shaves.isEmpty then RingSite.pole c else .shave c
        if u.phase = .head then t.headWritten site else t.recordWritten site
      | none => t
  | none => t

/-- COMPLETION_RECORD_WRITE_ACK (R101): the record's write is acknowledged by the memory or by the yard. -/
def execCompletionRecordWriteAck (c : Fin 16) (err : Bool) (s : State) : Host.Outcome State Fault Refusal :=
  if s.lg = .frozen ∨ s.pins.rstN = false then .next s
  else if s.frz.running then .next { s with port := { s.port with held := s.port.held ++ [.completionRecordWriteAck c err] } }
  else match s.port.out.find? fun q => q.use == .record c with
    | some q =>
      let t := { s with port := s.port.take q.tag }
      .next (if err then t.retryWrite q else if q.bad then t.retryWrite q codeParity (unitDetail 10 0) else t.recordAcked c).reissue
    | none => .next (s.recordAcked c)

/-- RING_RECORD_WRITE_ACK (R261): the first outstanding record write of a ring is acknowledged, and HEAD is written past the
record. -/
def execRingRecordWriteAck (r : RingSite) (err : Bool) (s : State) : Host.Outcome State Fault Refusal :=
  if s.lg = .frozen ∨ s.pins.rstN = false then .next s
  else if s.frz.running then .next { s with port := { s.port with held := s.port.held ++ [.ringRecordWriteAck r err] } }
  else match s.port.out.find? fun q => q.use == .ringRecord r with
    | some q =>
      let t := { s with port := s.port.take q.tag }
      .next (if err then t.retryWrite q else if q.bad then t.retryWrite q codeParity (unitDetail 10 0) else t.recordWritten r).reissue
    | none => .next s

/-- RING_SPACE_POLL (R261, R288): while it waits, the unit reads HEAD and TAIL again. -/
def execRingSpacePoll (r : RingSite) (s : State) : Host.Outcome State Fault Refusal :=
  if s.stopped || !s.pins.rstN then .next s
  else match s.useOf r with
    | some u =>
      if u.phase = .wait then
        if u.ring.headKind = 1 then
          let y := s.yardRing u.ring
          let v := { u with ring := y.2 }
          .next ((y.1.setUse r (some v)).placeRecords (s.ringFuel r) r v).pumpRings
        else .next (s.readRing r u)
      else .next s
    | none => .next (s.takeRing r)

end Sys2Proof.Machine
end

