-- ==== Sys2Proof/Machine/Run.lean ====
section
/-! DEFINITION. One execution from its start to its last write: the inputs, the exchanges of a gang, the evaluation, the
outputs (03_ R84, R87, R97; 01_ R37 to R39; 07_ R192; 08_ R212; 09_ R231 to R236; 11_ R292 to R295; 15_ R384). -/

namespace Sys2Proof.Machine

/-! ### Forming a job -/

/-- Does a descriptor process no element: an extent of 0, or the digest interval skips it (R84, R244, R269)? -/
def processesNone (d : Desc) (digestN : Nat) : Bool := ((List.range d.rank).any fun k => d.e k == 0) || digestSkipped d digestN

/-- Yard ranges of a gang's yard space as a member at `base` with `size` bytes sees its part of them (R36). -/
def localRanges (base size : Nat) (rs : List Rng) : List Rng :=
  rs.filterMap fun r =>
    let lo := max r.addr base
    let hi := min (r.addr + r.len) (base + size)
    if lo < hi then some { r with addr := lo - base, len := hi - lo } else none

/-- The job of a descriptor, or of a member's share of it with its range, at its start. A validated descriptor without a spill region
runs in one pass (R242). -/
def State.mkJob (s : State) (desc : List Byte) (b : Blocks) (head : Nat) (ch : Fin 16) (attempt gang : Nat) (members : List Nat)
    (elig reserve : Nat) (range : Option (Nat × Nat)) : Job :=
  let d := Desc.parse desc
  let bays := members.map s.memberBays
  let pos := members.findIdx (· == s.sin)
  let skip := processesNone d s.active.digestN.toNat
  let j : Job :=
  { desc := desc, blocks := b, head := head, ch := ch, attempt := attempt, gang := gang, members := members, bays := bays, pos := pos,
    owned := [], unit := range, start := s.count, startArith := s.clk.arith, elig := elig, skip := skip,
    twoPass := !skip && heldCount d (ScaleBlock.parse d.hw (blockOf b 1)) != 0 && d.spillP != 0 &&
      !onePass d (ScaleBlock.parse d.hw (blockOf b 1)) bays.sum reserve,
    ranges := localRanges ((bayStarts bays).getD pos 0 * 2 ^ 20) (s.bayCount * 2 ^ 20) (yardRanges d b bays.sum reserve),
    lastAt := s.count, lastArith := s.clk.arith }
  { j with owned := j.workFor (workDir d b) }

/-- A job's fault place in the queues: does it run on bays that issue for it now (R38, R97)? -/
def State.mayIssue (s : State) (p : Part) : Bool :=
  s.issues (s.ownerOf p) && (match p with | .share n => s.sched.serving == some n | .chan _ => true)

/-- The members that receive a share: none of a send chain or of a descriptor that processes no element (R84, R234, R420). -/
def sharers (j : Job) (others : List Nat) : List Nat := if headAlone j.d || j.skip then [] else others

/-! ### Messages of a job (R309) -/

/-- A message of a job sent. -/
def State.jobSend (s : State) (j : Job) (cls dest : Nat) (body : List Byte) : State :=
  s.netSend (s.jobEnvelope j cls dest body) body

/-- Pieces written: of memory through the port; into the own yards at once, elsewhere in the gang's yard space as peer tiles, whose
acknowledgments the job awaits (R235). -/
def State.writePieces (s : State) (p : Part) (ps : List Piece) : State :=
  let s := (ps.filter (·.kind == 1)).foldl (fun (s : State) x =>
    match s.job p with
    | none => s
    | some j =>
      let r := s.gangWrite (s.jobEnvelope j 4 0 []) j.members j.bays j.pos x.addr x.bytes
      if r.2.isEmpty then r.1 else r.1.setJob p (some { j with tiles := j.tiles ++ r.2 })) s
  s.request ((ps.filter (·.kind == 0)).flatMap fun x => writeReqs (.output p) x.addr x.bytes)

/-! ### Tallies (R20, R147) -/

/-- Does a descriptor sum into tallies (R158)? -/
def usesTallies (d : Desc) : Bool := chainSums d.chain && (d.rmode == 0 || d.rmode == 3)

/-- A descriptor that starts opens the tallies of its bays: they are empty, and every word of them is written (R147, R377). -/
def State.openTallies (s : State) (p : Part) (d : Desc) : State :=
  if usesTallies d then
    let bays := s.ownedBays p
    { s with bays := { s.bays with
        tallies := s.bays.tallies.filter fun x => !(bays.contains x.1.1)
        tallyCE := s.bays.tallyCE.filter fun x => !(bays.contains x.1)
        tallyUE := s.bays.tallyUE.filter fun x => !(bays.contains x.1) } }
  else s

/-- The sums an instance has formed, in the tallies (R20, R147): row k in tally k mod 16 of its first bay (log 10, DESIGN CHOICE). -/
def State.keepTallies (s : State) (p : Part) (l : List ((Nat × Nat) × Agg)) : State :=
  match s.ownedBays p with
  | [] => s
  | b :: _ =>
    let new := l.filterMap fun x => match x.2 with | .tally t => some ((b, x.1.2 % 16), t, x.1.2) | _ => none
    { s with bays := { s.bays with tallies := new.foldl (fun l x => x :: l.filter (·.1 != x.1)) s.bays.tallies } }

/-! ### Exchanges (R161, R167, R192, R212) -/

/-- Does an element contribute to a quantity: every one but heartwood to the gauge of the tensor, and heartwood to ds (R214,
R217)? -/
def contributes (e : Env) (k : StatKey) (i : Nat) : Bool :=
  !(k.sub == 8 && gaugeDir e.d e.scale == .all && isHeart e.scale (chanOf e.d e.scale.chDim i))

/-- The elements of a member that contribute to a quantity: of a sum those its own division gives the member (R420). -/
def heldFor (e : Env) (j : Job) (m : Nat) (k : StatKey) : List Nat :=
  (intervalElems (j.workOf m (if k.sel = 0 then k.dir else workDir e.d j.blocks))).filter (contributes e k)

/-- The rows of a quantity among elements. -/
def rowsOf (e : Env) (k : StatKey) (es : List Nat) : List Nat := dedup (es.map fun i => (dirKey e.d k.dir i).1)

/-- The rows of a quantity for which a member holds elements. -/
def rowsFor (e : Env) (j : Job) (m : Nat) (k : StatKey) : List Nat := rowsOf e k (heldFor e j m k)

/-- The rows of a quantity whose return a member uses: of a statistic, those of every element it reads; of a gauge gathered by channel
for the scale of the tensor, every channel (R208, R212; log 34). -/
def usedRows (e : Env) (j : Job) (m : Nat) (k : StatKey) : List Nat :=
  if k.sub ≤ 3 then rowsOf e k (j.touched m)
  else if k.sub = 8 ∧ k.dir ≠ .all ∧ e.d.grain = 0 ∧ !(heldFor e j m k).isEmpty then List.range (chanExtent e.d e.scale.chDim)
  else rowsFor e j m k

/-- The members that hold elements of a row, by position. -/
def holdersOf (e : Env) (j : Job) (k : StatKey) (row : Nat) : List Nat :=
  (List.range j.members.length).filter fun m => (rowsFor e j m k).contains row || (usedRows e j m k).contains row

/-- Does a quantity of a row pass through the head: every reduction, the head's own sums and gauges, and every set split
across members (R192, R212)? -/
def exchanged (e : Env) (j : Job) (k : StatKey) (row : Nat) : Bool :=
  chainReduce e.d.chain || [4, 5, 8, 9].contains k.sub || decide (2 ≤ (holdersOf e j k row).length)

/-- The key of a SUB in a stage. -/
def keyOf (keys : List StatKey) (sub : Nat) : StatKey := (keys.find? (·.sub == sub)).getD { sub := sub, dir := .row }

/-- The folds of a row of which a member holds elements (R158). -/
def foldsHeld (e : Env) (j : Job) (m : Nat) (k : StatKey) (row : Nat) : List Nat :=
  dedup (((heldFor e j m k).filter fun i => (dirKey e.d k.dir i).1 = row).map fun i =>
    foldOf (dirSize e.d k.dir) (effFold e.d e.bays) (dirKey e.d k.dir i).2)

/-- May a fold of a quantity lie on the rows of several members' taps (R231)? Each of them goes on with the accumulation of the one before, in
the order of the rows, so that no bit depends on where the rows lie (R37, R160; log 80, DEDUCED). -/
def foldsSplit (d : Desc) (k : StatKey) : Bool := d.kind sIn == 2 && (d.rmode == 1 || d.rmode == 2) && k.sel == 0

/-- The member that goes on with a fold after member `m`, by position. -/
def nextHolder (e : Env) (j : Job) (k : StatKey) (row f m : Nat) : Option Nat :=
  if foldsSplit e.d k then (List.range j.members.length).find? fun x => decide (m < x) && (foldsHeld e j x k row).contains f else none

/-- The accumulations that an execution needs before it forms a stage: SUB, ROW, fold. -/
def carriesDue (e : Env) (j : Job) (keys : List StatKey) : List (Nat × Nat × Nat) :=
  keys.flatMap fun k =>
    if foldsSplit e.d k then (rowsFor e j j.pos k).flatMap fun row =>
      ((foldsHeld e j j.pos k row).filter fun f => (List.range j.pos).any fun m => (foldsHeld e j m k row).contains f).map fun f => (k.sub, row, f)
    else []

/-- A partial taken by a member: the accumulation of a fold it goes on with, or a return (R192). -/
def Job.takePartial (j : Job) (e : Env) (q : Partial) : Job :=
  let key := (q.sub, q.row, q.foldix)
  if (carriesDue e j (stages e.d e.scale).flatten).contains key && (j.carry.lookup key).isNone then
    { j with carry := j.carry ++ [(key, aValue (accFmt e.d) q.body)] }
  else { j with rets := j.rets ++ [((q.sub, q.row), q.ret (accFmt e.d))] }

/-- Has an execution every accumulation its next stage goes on with? -/
def State.carriesIn (s : State) (j : Job) : Bool :=
  let e := s.jobEnv j
  (carriesDue e j ((stages e.d e.scale).getD (j.stage / 2) [])).all fun x => (j.carry.lookup x).isSome

/-- What the head awaits from the other members in a stage: position, SUB, ROW, fold. -/
def awaited (e : Env) (j : Job) (keys : List StatKey) : List (Nat × Nat × Nat × Nat) :=
  ((List.range j.members.length).drop 1).flatMap fun m => keys.flatMap fun k =>
    ((rowsFor e j m k).filter (exchanged e j k)).flatMap fun row =>
      if k.sel = 0 ∧ (e.d.rmode = 1 ∨ e.d.rmode = 2) then
        ((foldsHeld e j m k row).filter fun f => (nextHolder e j k row f m).isNone).map fun f => (m, k.sub, row, f)
      else [(m, k.sub, row, 0)]

/-- What an execution gathered of folds, by the member it goes to: none for what is complete here. -/
def Agg.goesTo (g : Agg) (next : Nat → Option Nat) : Agg × List (Nat × Agg) :=
  match g with
  | .folds l => (.folds (l.filter fun x => (next x.1).isNone), l.filterMap fun x => (next x.1).map fun m => (m, .folds [x]))
  | g => (g, [])

/-- Is a stage the last of a reduction, whose result no member needs (R41)? -/
def lastReduce (e : Env) (n : Nat) : Bool := chainReduce e.d.chain && n + 1 == (stages e.d e.scale).length

/-- A GREEN value of the head's own, with its arrival cycle (R161). -/
def stampGreen (cyc : Nat) (g : Agg) : Agg := match g with | .green l => .green (l.map fun x => (0, cyc, x.2.2)) | g => g

/-- What a job writes of the held values after traversal `n` of its two-pass form: the spill region after the first, over it the
e_i of chain 20 after the second (R243). -/
def spillOf (e : Env) (j : Job) (n : Nat) : List Piece :=
  if j.twoPass && (n == 0 || (n == 1 && e.d.chain == 20)) then e.spillPieces j.rets (n == 1) (intervalElems j.owned) else []

/-- The partials of one stage formed: sets this member holds whole are combined here, the others go to the head (R192), and to the next member what it has
accumulated of folds that go on there; the held values are written as their traversal leaves them (R243), with the flags of reading them in both forms (R52, R244). -/
def State.gatherStage (s : State) (p : Part) (j : Job) : State :=
  let e := s.jobEnv j
  let n := j.stage / 2
  let keys := (stages e.d e.scale).getD n []
  let g := e.stage j.rets keys (heldFor e j j.pos)
  let out := g.1.filter fun x => exchanged e j (keyOf keys x.1.1) x.1.2
  let here := e.combine (g.1.filter fun x => !(exchanged e j (keyOf keys x.1.1) x.1.2))
  let cut := out.map fun x => (x.1, x.2.goesTo fun f => nextHolder e j (keyOf keys x.1.1) x.1.2 f j.pos)
  let mine := (cut.map fun x => (x.1, x.2.1)).filter fun x => x.2 != .folds []
  let own := mine.map fun x => ({ pos := 0, sub := x.1.1, row := x.1.2, foldix := 0, agg := stampGreen s.clk.arith x.2 } : Arrival)
  let sp := spillOf e j n
  let held := if n = 0 ∧ heldCount e.d e.scale ≠ 0 then e.heldFlags (intervalElems j.owned) else noFlags
  let t := { j with stage := j.stage + 1, rets := j.rets ++ here.1, fl := ((j.fl.or g.2).or here.2.1).or held, own := mine,
                    arrivals := if j.pos = 0 then j.arrivals ++ own else j.arrivals,
                    pieces := if sp.isEmpty then j.pieces else sp }
  let s := ((s.setJob p (some t)).keepTallies p g.1).writePieces p sp
  let s := (cut.flatMap fun x => x.2.2.flatMap fun y => (Agg.partials (accFmt e.d) x.1.1 x.1.2 y.2).map fun q => (y.1, q)).foldl
    (fun (s : State) q => s.jobSend t 3 (j.members.getD q.1 0) q.2.bytes) s
  if j.pos = 0 then s
  else (mine.flatMap fun x => Agg.partials (accFmt e.d) x.1.1 x.1.2 x.2).foldl
    (fun (s : State) q => s.jobSend t 3 j.head q.bytes) s

/-- Has everything a stage awaits arrived? -/
def State.stageIn (s : State) (j : Job) : Bool :=
  let e := s.jobEnv j
  let n := j.stage / 2
  let keys := (stages e.d e.scale).getD n []
  if j.pos = 0 then (awaited e j keys).all fun w => j.arrivals.any fun a =>
    a.pos == w.1 && a.sub == w.2.1 && a.row == w.2.2.1 && a.foldix == w.2.2.2
  else lastReduce e n || keys.all fun k => ((usedRows e j j.pos k).filter (exchanged e j k)).all fun row =>
    (j.rets.lookup (k.sub, row)).isSome

/-- The head combines what a stage gathered, in order of arrival, and sends the returns (R161, R170, R192). -/
def State.closeStage (s : State) (p : Part) (j : Job) : State :=
  let e := s.jobEnv j
  let n := j.stage / 2
  let keys := (stages e.d e.scale).getD n []
  if j.pos ≠ 0 then s.setJob p (some { j with stage := j.stage + 1 })
  else
    let mine := j.arrivals.filter fun a => keys.any (·.sub == a.sub)
    let places := (mine.map fun a => (a.sub, a.row)).foldl (fun (l : List (Nat × Nat)) x => if l.contains x then l else l ++ [x]) []
    let merged := places.map fun x => (x, (mine.filter fun a => a.sub == x.1 && a.row == x.2).map (·.agg))
    let aggs := merged.filterMap fun x => match x.2 with
      | [] => none
      | a :: l => some (x.1, l.foldl (Agg.merge e.d.k) a)
    let c := e.combine aggs
    let t := { j with stage := j.stage + 1, rets := j.rets ++ c.1, fl := j.fl.or c.2.1,
                      counts := j.counts.add { green := c.2.2 },
                      arrivals := j.arrivals.filter fun a => !(keys.any (·.sub == a.sub)) }
    let s := s.setJob p (some t)
    if lastReduce e n then s
    else c.1.foldl (fun (s : State) x =>
      let body := (x.2.partial (accFmt e.d) (e.d.rmode == 3) x.1.1 x.1.2).bytes
      ((holdersOf e j (keyOf keys x.1.1) x.1.2).filter (· != 0)).foldl
        (fun (s : State) m => s.jobSend t 3 (j.members.getD m 0) body) s) s

/-! ### The inputs -/

/-- Has every tap delivered its beats (R231)? -/
def Job.tapsIn (j : Job) : Bool := (List.range (j.bays.getD j.pos 0)).all fun k => decide (j.tapNeed k ≤ (j.taps.getD k []).length)

/-- Has a job every input: no read in flight, every tap beat delivered (R231)? -/
def State.inputsIn (s : State) (p : Part) (j : Job) : Bool := !(s.inFlight (.input p)) && j.tapsIn

/-- The instance's own part of a gang yard range: local address and length. -/
def ownYard (j : Job) (bayCount a n : Nat) : Nat × Nat :=
  match localRanges j.yardBase (bayCount * 2 ^ 20) [{ kind := 1, addr := a, len := n, out := false, tag := 9 }] with
  | r :: _ => (r.addr, r.len)
  | [] => (0, 0)

/-- Yard words of spans read through SECDED: the first uncorrectable one (R26). -/
def State.checkYards (s : State) (j : Job) (l : List (Nat × Nat × Nat)) : State × Option Nat :=
  (l.filter (·.1 == 1)).foldl (fun (r : State × Option Nat) x =>
    if r.2.isSome then r
    else let q := ownYard j s.bayCount x.2.1 x.2.2; r.1.yardCheck q.1 q.2) (s, none)

/-- The yard words a job reads, through SECDED: the first uncorrectable one (R26, R384). -/
def State.readYards (s : State) (j : Job) : State × Option Nat := s.checkYards j (s.jobSpans j)

/-- The words of the curve store a curve's table occupies. -/
def curveWords (area : List Byte) (id : Nat) : List Nat :=
  let o := fieldAt area (0x10 + 8 * id) 4 / 8
  (List.range (ceilDiv (fieldAt area (0x14 + 8 * id) 4) 8)).map (o + ·)

/-- The curve-store words the executing bays read: corrected, or the first uncorrectable one by bay and word (R139). -/
def State.readCurve (s : State) (p : Part) (d : Desc) : State × Option (Nat × Nat) :=
  if !(usesCurve d) then (s, none)
  else
    let bays := s.ownedBays p
    let ws := curveWords s.image.curves d.curveId
    let hit := fun (x : Nat × Nat) => bays.contains x.1 && ws.contains x.2
    let ce := s.bays.curveCE.filter hit
    let t := ce.foldl (fun (s : State) _ => s.corrected 4 0)
      { s with bays := { s.bays with curveCE := s.bays.curveCE.filter fun x => !(hit x) } }
    (t, (s.bays.curveUE.find? hit))

/-- The tally words the executing bays use: corrected, or the first uncorrectable one (R377, R384). -/
def State.readTallies (s : State) (p : Part) (d : Desc) : State × Option (Nat × Nat) :=
  if !(usesTallies d) then (s, none)
  else
    let bays := s.ownedBays p
    let hit := fun (x : Nat × Nat) => bays.contains x.1
    let ce := s.bays.tallyCE.filter hit
    let t := ce.foldl (fun (s : State) x => s.corrected 1 (tallyOffset x.1 x.2))
      { s with bays := { s.bays with tallyCE := s.bays.tallyCE.filter fun x => !(hit x) } }
    (t, s.bays.tallyUE.find? hit)

/-- Copies of a curve word read, bay after bay, until one reads without an uncorrectable error: each that does not is counted, and a
correctable one corrected (R139, R377). Whether a good one is found. -/
def State.readCopies (k : Nat) : List Nat → State → State × Bool
  | [], s => (s, false)
  | b :: l, s =>
    if s.bays.curveUE.contains (b, k) then State.readCopies k l s.countUE
    else if s.bays.curveCE.contains (b, k) then
      (({ s with bays := { s.bays with curveCE := s.bays.curveCE.filter (· != (b, k)) } } : State).corrected 4 0, true)
    else (s, true)

/-- A curve word rewritten from the lowest-numbered other enabled bay whose copy reads well, before any re-execution reads it (R139); false
where there is none. -/
def State.restoreCurve (s : State) (w : Nat × Nat) : State × Bool :=
  let r := s.readCopies w.2 (s.bays.enabled.filter (· != w.1))
  if r.2 then ({ r.1 with bays := { r.1.bays with curveUE := r.1.bays.curveUE.filter (· != w) } }, true) else r

/-- The bay of a fault whose DETAIL does not show it: curve store and tap (Table 15.2; log 23, DESIGN CHOICE). -/
def inBay (b : Nat) : Option (Nat × Nat) := some (b, 0)

/-- The protected stores read by an execution (R384): the state after them, and whether the attempt goes on. -/
def State.readStores (s : State) (p : Part) (j : Job) : State × Bool :=
  let y := s.readYards j
  match y.2 with
  | some w => (y.1.faultPart p codeUE (unitDetail 0 (yardOffset w)) none true, false)
  | none =>
    let c := y.1.readCurve p j.d
    match c.2 with
    | some w =>
      let r := c.1.countUE.restoreCurve w
      let t := r.1
      if r.2 = false then
        (t.instanceFault (logBytes codeUE 4 (3 + 4 * b2n (j.gang != 0)) j.head j.ch.val j.attempt t.count j.d.seq w.1 0 (unitDetail 4 0)), false)
      else (t.faultPart p codeUE (unitDetail 4 0) (inBay w.1) false, false)
    | none =>
      let q := c.1.readTallies p j.d
      match q.2 with
      | some w => (q.1.countUE.faultPart p codeUE (unitDetail 1 (tallyOffset w.1 w.2)) none false, false)
      | none => (q.1, true)

/-! ### Capture (R292 to R296) -/

/-- Offcut records handed to the offcut ring of the instance; an instance without the ring, or whose block was read and is empty or
malformed, keeps none (log 9, DESIGN CHOICE). -/
def State.queueOffcut (s : State) (p : Part) (ring : List Byte) (recs : List (List Byte)) : State :=
  if s.active.offcut = 0 || (ring ≠ [] && (RingBlock.parse ring).unusable) then s else ({ s with offcut := s.offcut ++ recs.map fun r => (p, ring, r) } : State).takeRing .offcut

/-- The offcut ring block of a job: the head's as validated, a member's own as it read it first (R287, R288). -/
def Job.offcutBlock (j : Job) : List Byte := blockOf j.blocks 5

/-- The records before any DATA: RETRACT of a re-execution, then the head's DESC (Table 11.8, R295). -/
def State.captureHead (s : State) (p : Part) (j : Job) : State :=
  if !j.d.capture || j.skip then s
  else
    let ret := if j.attempt = 0 then [] else [offcutRecord 3 0 s.sin j.d.seq j.d.step 0 0 j.ch.val 0 []]
    let ds := descString j.desc j.allBays (blockOf j.blocks 1) (blockOf j.blocks 2) (blockOf j.blocks 3)
    let desc := if j.pos = 0 then [offcutRecord 1 0 s.sin j.d.seq j.d.step 0 0 j.ch.val ds.length ds] else []
    s.queueOffcut p j.offcutBlock (ret ++ desc)

/-- Has a tap delivered a row (R231)? -/
def Job.tapRowIn (j : Job) (row : Nat) : Bool :=
  (List.range (j.bays.getD j.pos 0)).all fun k =>
    let t := tapRows j.d j.tapBays (j.tapFirst + k)
    decide (row < t.1 ∨ t.1 + t.2 ≤ row ∨ (row + 1 - t.1) * tapCycles j.d ≤ (j.taps.getD k []).length)

/-- Is a span of the plan read: bytes of memory arrived, a tap's row delivered; a yard is read at once. -/
def Job.spanIn (j : Job) (x : Nat × Nat × Nat) : Bool :=
  if x.1 = 0 then chunkHas j.chunks x.2.1 x.2.2 else if x.1 = 2 then j.tapRowIn x.2.1 else true

/-- A capturing job records what it has read, span after span, and reads on once its ring has taken the records (R293, R296; log 32,
DESIGN CHOICE). -/
def State.captureOn : Nat → State → Part → State
  | 0, s, _ => s
  | f + 1, s, p =>
    match s.job p with
    | none => s
    | some j =>
      if s.offcut.any (·.1 == p) then s
      else match (s.readPlan j)[j.capAt]? with
        | none => s
        | some x =>
          if j.spanIn x.2.2 then
            State.captureOn f ((s.setJob p (some { j with capAt := j.capAt + 1 })).queueOffcut p j.offcutBlock
              (captureOf (s.jobEnv j) j s.sin x)) p
          else if x.2.2.1 = 0 ∧ s.inFlight (.input p) = false then s.request (readReqs (.input p) x.2.2.2.1 x.2.2.2.2)
          else s

/-- What is read next of memory where one read tells of another: nodes of DIGEST_LOCATE (R270), table rows of a gather (R229); a capturing
job reads them span after span (R296). -/
def State.nodesWanted (s : State) (j : Job) : List (Nat × Nat × Nat) :=
  if (j.d.chain = 48 ∨ j.d.chain = 12 ∨ j.d.chain = 13) ∧ j.d.capture = false then (s.jobSpans j).filter fun x => x.1 == 0 && !(chunkHas j.chunks x.2.1 x.2.2) else []

/-! ### The outputs -/

/-- COMMIT_STEP's single write: CUR and CUR_STEP (R246, R253). -/
def commitPiece (d : Desc) (plank : Plank) : Piece :=
  { tag := 14, kind := d.kind sX1, addr := d.addr sX1, off := 0, bytes := natLE 1 (1 - plank.cur) ++ zeros 3 ++ natLE 4 d.step }

/-- The result of an execution from what it holds (Table 9.1). -/
def jobResult (e : Env) (j : Job) (digestN : Nat) : Result :=
  let d := e.d
  if j.skip then (if j.pos = 0 ∧ !(digestSkipped d digestN) then e.emptyResult else {})
  else if j.alone ∧ j.pos ≠ 0 then {}
  else if 41 ≤ d.chain ∧ d.chain ≤ 43 then e.optResult (intervalElems j.owned)
  else if d.chain = 44 then { counts := { drift := e.driftOf (intervalElems j.owned) } }
  else if d.chain = 45 then { pieces := [commitPiece d e.plank] }
  else if d.chain = 46 then {}
  else if d.chain = 47 then
    (if j.pos = 0 then e.treeResult (slotTotal e j.blocks 0) (leavesOf (slotTotal e j.blocks 0) 1 (slotLeaves e j 0) j.leaves) else {})
  else if d.chain = 48 then e.locateResult (treeSegs e j.blocks fun _ _ => true) j.owned
  else e.finish j.rets j.owned (j.pos == 0)

/-- The evaluation concludes: its outputs are written, the gauge table kept until every other output is (R207); its segment values go
to the head (R314). -/
def State.conclude (s : State) (p : Part) (j : Job) : State :=
  let e := s.jobEnv j
  let r := jobResult e j s.active.digestN.toNat
  let t : Job :=
    { j.touch s with
      phase := .writing, fl := j.fl.or r.fl, counts := j.counts.add r.counts,
      pieces := (j.pieces.filter fun x => x.tag == 8) ++ r.pieces, late := r.pieces.filter (·.tag == 7),
      inputs := if j.d.ledgerIn ∧ !j.skip then (List.range 5).map fun k => (slotTotal e j.blocks k, slotLeaves e j k) else [] }
  let t := { t with shavings := if t.alone then shavingsOf e t else [] }
  let s := (s.setJob p (some t)).writePieces p (r.pieces.filter (·.tag != 7))
  if j.pos = 0 ∨ j.members.length ≤ 1 then s
  else (memberSegvals e t).foldl (fun (s : State) v =>
    (segvalBodies v.1 (v.2.length + 1) v.2).foldl (fun (s : State) b => s.jobSend t 6 t.head b) s) s

/-! ### Held values (R242, R243) -/

/-- The part of the holding reserve that lies in this instance's yards, when the descriptor holds in one pass (R242). -/
def Job.reserve (j : Job) : List Rng := if j.twoPass then [] else j.ranges.filter (·.tag == 8)

/-- What a traversal reads of the held values: this execution's part of the spill region, or of the reserve (R242, R243). -/
def Job.heldSpans (j : Job) : List (Nat × Nat × Nat) :=
  (if j.twoPass then (j.pieces.filter (·.tag == 8)).map fun x => (x.kind, x.addr, x.bytes.length) else []) ++
    j.reserve.map fun r => (1, j.yardBase + r.addr, r.len)

/-- The bytes of a span of the gang's yard space as the execution can read them back. -/
def State.readBack (s : State) (j : Job) (x : Nat × Nat × Nat) : List Byte := (List.range x.2.2).map fun i => s.gangYard j (x.2.1 + i)

/-- The traversal after the first that stage `n`, or the end, evaluates in: Table 7.9 gives the backward normalisations of layers and groups
three in all, and PGRAD one more than its forward operation, in front of its last sums (log 78, DEDUCED). -/
def traversalOf (d : Desc) (n : Nat) : Nat :=
  if d.chain = 30 ∨ d.chain = 32 then min n 2
  else if d.chain = 34 ∧ n = 1 then 2
  else if (d.chain = 33 ∨ d.chain = 35) ∧ n = 2 then 3
  else n

/-- The held values are read back once for each traversal up to `n`, when they are all written; an uncorrectable word of them faults the
attempt, which is re-executed (R243, Table 15.4). The state after it, and whether the traversal may begin. -/
def State.backStep (s : State) (p : Part) (j : Job) (n : Nat) : State × Bool :=
  if n = 0 ∨ n ≤ j.passAt ∨ j.heldSpans.isEmpty then (s, true)
  else if s.inFlight (.output p) || !j.tiles.isEmpty || s.inFlight (.input p) then (s, false)
  else if n ≤ j.passAsked then (s.setJob p (some { j with passAt := n }), true)
  else
    let y := s.checkYards j j.heldSpans
    match y.2 with
    | some w => (y.1.faultPart p codeUE (unitDetail 0 (yardOffset w)) none false, false)
    | none =>
      let mem := j.heldSpans.filter (·.1 == 0)
      let own := (j.heldSpans.filter (·.1 == 1)).map fun x => (x.2.1, y.1.readBack j x)
      (((y.1.setJob p (some { j with passAsked := if mem.isEmpty then n else j.passAsked + 1, passAt := if mem.isEmpty then n else j.passAt, back := own })).request
        (mem.flatMap fun x => readReqs (.input p) x.2.1 x.2.2)), mem.isEmpty)

/-- Does the end of an execution traverse its elements once more: for every chain but those whose results come of returns alone
(Table 7.9)? -/
def lastTraversal (d : Desc) : Bool := !(chainReduce d.chain || (33 ≤ d.chain && d.chain ≤ 35))

/-! ### After the outputs (R207, R258, R267) -/

/-- Has the head every report of its members (R313)? -/
def Job.reported (j : Job) : Bool :=
  j.head != j.members.getD j.pos 0 || (sharers j (j.members.filter (· != j.head))).all fun m => j.reports.any (·.1 == m)

/-- What follows an execution's outputs once they are acknowledged, on the head of a gang its members' too: the gauge table is written,
then the head reads back what it needs; none when nothing is to follow now. An uncorrectable word of what the attempt wrote has it executed
again, one of the current master strands it (Table 15.4). -/
def State.settle (s : State) (p : Part) (j : Job) : Option State :=
  if s.inFlight (.output p) || !j.tiles.isEmpty || !j.reported then none
  else if !j.late.isEmpty then some ((s.setJob p (some { j.touch s with late := [] })).writePieces p j.late)
  else
    let l := afterSpans (s.jobEnv j) j
    if j.afterAsked || l.isEmpty then none
    else
      let cur := fun x => shaves (s.jobEnv j) && x == masterSpan (s.jobEnv j) false
      let w := s.checkYards j (l.filter fun x => !(cur x))
      let y := if w.2.isSome then w else w.1.checkYards j (l.filter cur)
      match y.2 with
      | some k => some (y.1.faultPart p codeUE (unitDetail 0 (yardOffset k)) none w.2.isNone)
      | none =>
        let own := (l.filter (·.1 == 1)).map fun x => (1, x.2.1, y.1.readBack j x)
        some ((y.1.setJob p (some { j with afterAsked := true, after := own })).request
          ((l.filter (·.1 == 0)).flatMap fun x => readReqs (.input p) x.2.1 x.2.2))

/-- Has the head read back what it needs? -/
def State.afterIn (s : State) (p : Part) (j : Job) : Bool :=
  (j.afterAsked && !(s.inFlight (.input p))) || (afterSpans (s.jobEnv j) j).isEmpty

/-- An execution goes on as far as its inputs, its bays and the other members allow. -/
def State.progress : Nat → State → Part → State
  | 0, s, _ => s
  | f + 1, s, p =>
    match s.job p with
    | none => s
    | some j =>
      if s.stopped then s
      else match j.phase with
        | .inputs =>
          if !(s.nodesWanted j).isEmpty then
            (if s.inFlight (.input p) then s else s.request ((s.nodesWanted j).flatMap fun x => readReqs (.input p) x.2.1 x.2.2))
          else if j.d.capture && decide (j.capAt < (s.readPlan j).length) then
            let t := s.captureOn ((s.readPlan j).length + 1) p
            (if ((t.job p).map fun k => decide (k.capAt < (s.readPlan j).length)).getD true then t else State.progress f t p)
          else if s.inputsIn p j && s.mayIssue p then
            let r := s.readStores p j
            if r.2 then
              let k := { j with phase := .exchange, captured := if j.d.capture then captureCounts (r.1.jobEnv j) j else [] }
              State.progress f ((r.1.setJob p (some k)).undefine j.reserve) p
            else r.1
          else s
        | .exchange =>
          let e := s.jobEnv j
          let done := decide ((stages e.d e.scale).length ≤ j.stage / 2)
          if done || j.stage % 2 = 0 then
            if (done || s.carriesIn j) && s.mayIssue p then
              let r := s.backStep p j (if done && !(lastTraversal e.d) then 0 else traversalOf e.d (j.stage / 2))
              match r.2, r.1.job p with
              | true, some k =>
                if !done then State.progress f (r.1.gatherStage p k) p
                else if k.d.chain == 47 && k.pos == 0 && !(k.hasLeaves (slotsAwaited e k)) then r.1
                else State.progress f (r.1.conclude p k) p
              | _, _ => r.1
            else s
          else if s.stageIn j then State.progress f (s.closeStage p j) p
          else s
        | .writing => match s.settle p j with
          | some t => State.progress f t p
          | none => s
        | .draining => s

/-- Every piece of running work goes on. -/
def State.progressAll (s : State) : State := s.running.foldl (fun (s : State) x => s.progress 16 x.1) s

/-! ### Starting -/

/-- A job starts: its records before DATA, its reads; one that processes no element writes at once, and one that captures reads span after
span (R84, R87, R296). -/
def State.launch (s : State) (p : Part) (j : Job) : State :=
  let s := ((s.setJob p (some j)).openTallies p j.d).captureHead p j
  if j.skip then (s.conclude p j).progress 16 p
  else
    let s := if j.d.capture || j.d.chain == 48 then s
      else s.request (((s.jobSpans j).filter (·.1 == 0)).flatMap fun x => readReqs (.input p) x.2.1 x.2.2)
    s.progress 16 p

/-- A SHARE body (R312). -/
def shareBody (desc : List Byte) (b : Blocks) (first count : Nat) : List Byte :=
  padTo 128 desc ++ natLE 8 first ++ natLE 8 count ++ blockOf b 0 ++ blockOf b 1 ++ blockOf b 2 ++ blockOf b 3

/-- The blocks a SHARE carries, by the descriptor's own fields (R312). -/
def shareBlocks (body : List Byte) : Blocks :=
  let d := Desc.parse (body.take 128)
  let n0 := if d.strideP ≠ 0 then 160 else 0
  let n1 := if d.scaleP ≠ 0 then scaleBytes d else 0
  let n2 := if 41 ≤ d.chain ∧ d.chain ≤ 46 then 32 else 0
  let n3 := if 41 ≤ d.chain ∧ d.chain ≤ 43 then 128 else 0
  let part := fun (k off n : Nat) => if n = 0 then ([] : Blocks) else [(k, sliceOf body off n)]
  part 0 144 n0 ++ part 1 (144 + n0) n1 ++ part 2 (144 + n0 + n1) n2 ++ part 3 (144 + n0 + n1 + n2) n3

/-- The head takes one credit from each other member, once for all attempts (R39). -/
def State.takeCredits (s : State) (c : Fin 16) (e : Entry) : State × List (Nat × Nat × Nat) :=
  if !e.credits.isEmpty then (s, e.credits)
  else
    let g := (s.cfg c).gang
    let ms := s.otherMembers c
    let boot := fun (m : Nat) => (s.boots.lookup m).getD 0
    ({ s with credits := s.credits.map fun x => if x.1 = g ∧ ms.contains x.2.1 then (x.1, x.2.1, x.2.2 - 1) else x },
      ms.map fun m => (g, m, boot m))

/-- A descriptor starts on its channel (R87, R37, R39, R97). -/
def State.startHead (s : State) (c : Fin 16) : State :=
  match s.chans[c].queue with
  | [] => s
  | e :: _ =>
    let ctx := s.vctx c
    let g := (s.cfg c).gang
    let d := Desc.parse e.desc
    let j := s.mkJob e.desc e.blocks s.sin c e.attempt g (s.gangMembers g) (e.elig.getD (0, 0)).1 ctx.reserve none
    let w := s.takeCredits c e
    let s := (w.1.onChan c fun x => { x with st := .run, val := none, halted := none }).onHead c fun e =>
      { e with started := true, credits := w.2, ranges := yardRanges d e.blocks j.bays.sum ctx.reserve }
    let s := (sharers j (s.otherMembers c)).foldl (fun (s : State) m =>
      let r := unitRange d j.blocks j.bays (j.members.findIdx (· == m))
      s.jobSend j 1 m (shareBody j.desc j.blocks r.1 r.2)) s
    s.launch (.chan c) { j with due := s.plumbDue c j }

/-! ### Shares (R38, R366) -/

/-- Does a share wait for another instance: a return, a tile acknowledgment (R38)? -/
def State.shareWaits (s : State) (x : Share) : Bool :=
  match x.job with
  | none => false
  | some j => (j.phase == .exchange && (if j.stage % 2 = 1 then !(s.stageIn j) else !(s.carriesIn j))) || (j.phase == .writing && !j.tiles.isEmpty)

/-- The offcut ring block that this member read in an earlier attempt of a share's descriptor (R288). -/
def State.keptRing (s : State) (x : Share) : Blocks :=
  if x.env.attempt = 0 then []
  else match s.ringKept.lookup (x.env.head, x.env.ch, (Desc.parse (x.body.take 128)).seq) with | some b => [(5, b)] | none => []

/-- The job of a share: its descriptor, blocks and range are the SHARE's (R312). -/
def State.shareJob (s : State) (x : Share) : Job :=
  s.mkJob (x.body.take 128) (s.keptRing x ++ shareBlocks x.body) x.env.head x.env.ch x.env.attempt x.gang (s.gangMembers x.gang) x.id
    (min s.image.stackReserve (Config.peerReserve x.env.head x.gang))
    (some (fieldAt x.body 128 8, fieldAt x.body 136 8))

/-- Can a share that has not started start now, but for its turn: its launch count, and the scoreboard (R88, R99)? -/
def State.shareReady (s : State) (x : Share) : Bool :=
  let d := Desc.parse (x.body.take 128)
  let j := s.shareJob x
  s.lg == .ready && !s.draining && !s.stopped && (d.launch == 0 || decide (d.launch ≤ s.count)) && s.clear x.id d j.ranges

/-- The share the queue serves: the oldest that can issue (R38). DESIGN CHOICE (log 72): an earlier share that cannot start yet (LAUNCH_AT not
reached, the scoreboard) lets a later one pass; R38 names the waiting share alone as an exception to the order of arrival. -/
def State.oldestShare (s : State) : Option Nat :=
  (s.shares.find? fun x => match x.job with
    | some _ => !(s.shareWaits x)
    | none => s.shareReady x).map (·.id)

/-- The share served within the slot: the one granted at its start, or, once that is gone, the oldest that can issue. -/
def State.servedNow (s : State) : Option Nat :=
  match s.sched.serving with
  | some n => if s.shares.any (·.id == n) then some n else s.oldestShare
  | none => s.oldestShare

/-- A message between instances discarded and logged (R309, R393; log 18, DESIGN CHOICE). -/
def State.discard (s : State) (e : Envelope) : State :=
  ({ s with free := s.free + 1 } : State).logRaw
    (logBytes codeMsg 0 5 e.head e.ch.val (e.attempt % 256) s.count e.seq 0 0 (Config.discardDetail s.free))

/-- Does a message belong to a share? -/
def shareKey (e : Envelope) (x : Share) : Bool := x.env.head == e.head && x.env.ch == e.ch && x.env.seq == e.seq

/-- The partials that came before a share started (R192, R310). -/
def State.returnsOf (s : State) (x : Share) : List Partial :=
  (s.returns.filter fun m => shareKey m.1 x && m.1.attempt == x.env.attempt).map fun m => Partial.ofBytes m.2

/-- The early returns of a share's head and channel leave: its own are taken, those of other work of that channel are stale and
discarded (R309; log 76). -/
def State.takeReturns (s : State) (x : Share) : State :=
  let gone := s.returns.filter fun m => m.1.head == x.env.head && m.1.ch == x.env.ch
  (gone.filter fun m => !(shareKey m.1 x && m.1.attempt == x.env.attempt)).foldl (fun (s : State) m => s.discard m.1)
    { s with returns := s.returns.filter fun m => !(m.1.head == x.env.head && m.1.ch == x.env.ch) }

/-- A share starts (R37, R38), with the returns that came before. -/
def State.startShare (s : State) (x : Share) : State :=
  let s := { s with sched := { s.sched with serving := some x.id } }
  let j := s.shareJob x
  let j := (s.returnsOf x).foldl (fun (k : Job) q => k.takePartial (s.jobEnv j) q) j
  let s := s.takeReturns x
  let marks := fun (l : List (Nat × Nat)) => l.filter fun m => m.1 == x.id
  let at1 := fun (m : Nat × Nat) => shareOffset (s.shares.findIdx (·.id == x.id)) m.2
  let bad := marks s.bays.shareUE
  let s := (marks s.bays.shareCE).foldl (fun (s : State) m => s.corrected 3 (at1 m))
    { s with bays := { s.bays with shareCE := s.bays.shareCE.filter fun m => m.1 != x.id } }
  match bad with
  | m :: _ => (s.countUE.setJob (.share x.id) (some j)).faultPart (.share x.id) codeUE (unitDetail 3 (at1 m)) none false
  | [] => s.launch (.share x.id) j

/-- DESCRIPTOR_START (R87): a descriptor whose every condition holds, or the share whose turn it is. -/
def execDescriptorStart (p : Part) (s : State) : Host.Outcome State Fault Refusal :=
  match p with
  | .chan c => if s.canStart c && s.granted c then .next (s.startHead c) else .next s
  | .share n =>
    match s.shares.find? (·.id == n) with
    | some x =>
      if x.job.isNone && s.sched.grantee == some 16 && s.shareReady x && s.servedNow == some n then .next (s.startShare x)
      else .next s
    | none => .next s

/-- The tap-fed work that consumes beats of a logical bay now (R231, R232, R402); a capturing one waits while records of its own wait for
the ring (R296). -/
def State.tapTaker (s : State) (k : Nat) : Option (Part × Job) :=
  s.running.find? fun x => x.2.phase == .inputs && decide ((x.2.taps.getD k []).length < x.2.tapNeed k) && s.mayIssue x.1 &&
    !(x.2.d.capture && s.offcut.any (·.1 == x.1))

/-- TAP_BEAT (R402): a beat of a bay's tap transfers where the tap is being consumed; one that fails parity faults the
attempt (R384). -/
def execTapBeat (bay : Fin 16) (data : List Word) (par : List Bool) (s : State) : Host.Outcome State Fault Refusal :=
  if s.bays.enabled.contains bay.val ∧ ¬ s.stopped ∧ (s.bays.hold.all fun h => h.1 != bay.val) ∧ s.pins.rstN then
    let k := s.bays.enabled.findIdx (· == bay.val)
    match s.tapTaker k with
    | none => .next s
    | some (p, j) =>
      if (data.zip par).all fun x => parityRight x.1 x.2 then
        let full := j.taps ++ List.replicate (k + 1 - j.taps.length) []
        let t := { j with taps := full.modify k (· ++ [data]), beats := j.beats ++ [(k, s.clk.arith - j.startArith)] }
        .next ((s.setJob p (some (if t.tapsIn then { t with due := s.tapDue p t } else t))).progress 16 p)
      else .next (s.faultPart p codeParity (unitDetail 12 0) (inBay bay.val) false)
  else .next s

end Sys2Proof.Machine
end

