-- ==== Sys2Proof/Machine/Retire.lean ====
section
/-! DEFINITION. Retirement of descriptors and shares, END records, held tiles, the end of a quiesce (03_ R84, R86, R101, R102;
01_ R41; 11_ R290, R294; 12_ R313; 09_ R236; 14_ R366). -/

namespace Sys2Proof.Machine

/-- A quiesce completes once nothing has started without retiring (R366). -/
def State.checkQuiesce (s : State) : State :=
  if s.draining && s.running.isEmpty then ({ s with draining := false, lg := .laidDown } : State).irq 3 else s

/-! ### What the head awaits (R41, R267, R314) -/

/-- Has the head every report and every segment value? -/
def State.gangIn (s : State) (j : Job) : Bool := j.reported && j.hasLeaves (segsAwaited (s.jobEnv j) j)

/-- May a piece of running work retire: every output written and acknowledged, tiles, the gauge table and END records included (R86,
R207, R235, R294), and on the head every report, segment value and byte it reads back (R258, R267, R313)? -/
def State.mayRetire (s : State) (p : Part) (j : Job) : Bool :=
  j.phase == .writing && !(s.inFlight (.output p)) && j.tiles.isEmpty && j.late.isEmpty &&
    (!j.d.capture || j.skip || (j.endSent && !(s.offcut.any (·.1 == p)))) &&
    (match p with | .chan _ => decide (j.members.length ≤ 1) || (s.gangIn j && s.afterIn p j) | .share _ => true)

/-! ### The record (R101, R102) -/

/-- A report's flags and counts (R313). -/
def reportCounts (b : List Byte) : Flags × Counts :=
  (Flags.ofNat (fieldAt b 1 1), { clip := fieldAt b 4 4, oob := fieldAt b 8 4, flat := fieldAt b 12 4, green := fieldAt b 16 4 })

/-- The flags and counts of a descriptor, the members' with the head's own, saturated as they are summed (R41, R102). -/
def Job.total (j : Job) : Flags × Counts :=
  j.reports.foldl (fun (t : Flags × Counts) r =>
    let c := reportCounts r.2
    (t.1.or c.1, (t.2.add c.2).sat)) (j.fl, j.counts.sat)

/-- PASSES (R244): chains 45 and 46 report 1 whenever they complete DONE. -/
def Job.passes (j : Job) : Nat :=
  if j.d.chain = 45 ∨ j.d.chain = 46 then 1 else if j.skip then 0 else if j.twoPass then 2 else 1

/-- Does the job's descriptor have an extent of 0 (R84)? -/
def Job.zeroExtent (j : Job) : Bool := (List.range j.d.rank).any fun k => j.d.e k == 0

/-- DIGEST: of the OUT stream, 0 when nothing is written (Table 3.12, R267). -/
def State.outDigest (s : State) (j : Job) : List Byte :=
  let e := s.jobEnv j
  let runs := outRuns j.pieces
  if outTotal e j.blocks = 0 ∨ (j.skip ∧ runs.isEmpty) then zeros 16 else digestFrom (outTotal e j.blocks) 0 (digestRuns e j) j.leaves

/-- The DONE record of a retired descriptor (Table 3.12). -/
def State.recordOf (s : State) (j : Job) : Record :=
  let t := j.total
  { seq := j.d.seq, status := stDone, passes := j.passes, ch := j.ch.val, clip := t.2.clip, oob := t.2.oob, flat := t.2.flat,
    green := t.2.green, digest := s.outDigest j, start := j.start, stop := j.lastAt, cycles := j.lastArith - j.startArith + 1,
    flags := recordFlags t.1 j.zeroExtent (chainQuant j.d.chain && decide (j.d.clipLimit < t.2.clip)) (t.2.green != 0) }

/-- The input digests of a story-pole entry, by slot, the auxiliary string last (R290). -/
def Job.inputDigests (j : Job) : List (Option (List Byte)) :=
  if j.inputs.isEmpty then List.replicate 5 none
  else j.inputs.zipIdx.map fun x => if x.1.1 = 0 then none else some (digestOfLeaves (leavesOf x.1.1 (x.2 + 1) x.1.2 j.leaves))

/-- The shavings of a retired descriptor: formed with its outputs, or of a gang's once the head has read both masters back (R258). -/
def State.shavingsNow (s : State) (j : Job) : List (List Byte) := if j.alone then j.shavings else shavingsOf (s.jobEnv j) j

/-- A descriptor retires: its package is formed, it leaves its queue (R86, R90, R390). -/
def State.retireHead (s : State) (c : Fin 16) (j : Job) : State :=
  match s.chans[c].queue with
  | [] => s
  | e :: _ =>
    let r := s.recordOf j
    let w := s.retracts c e
    let p := Plank.parse (blockOf e.blocks 2)
    let abort := if j.d.chain = 46 ∧ !j.skip ∧ p.bytes ≠ 0 then [shaveRetract 1 j.d.step j.d.seq] else []
    let pole := if j.d.ledger ∧ (blockOf e.blocks 4) ≠ [] then [s.poleOf c e r (some j.inputDigests)] else []
    let pk := s.package c e r (w.1 ++ s.shavingsNow j ++ abort) (w.2 ++ pole)
    ((s.hold c { pk with drift := j.counts.drift }).popHead c).checkQuiesce

/-- A REPORT body (R313). -/
def reportBody (status flags passes : Nat) (c : Counts) : List Byte :=
  natLE 1 status ++ natLE 1 flags ++ natLE 1 passes ++ zeros 1 ++ natLE 4 c.clip ++ natLE 4 c.oob ++ natLE 4 c.flat ++ natLE 4 c.green ++ zeros 4

/-- A share leaves the share queue; a later attempt that waited for it takes its entry (R39, R391). -/
def State.dropShare (s : State) (n : Nat) : State :=
  let follow : Share → Option Share := fun x => x.next.map fun y => { x with env := y.1, body := y.2, job := none, next := none }
  { s with
    shares := s.shares.filterMap fun x => if x.id = n then follow x else some x
    bays := { s.bays with shareUE := s.bays.shareUE.filter (·.1 != n), shareCE := s.bays.shareCE.filter (·.1 != n) }
    sched := { s.sched with serving := if s.sched.serving = some n then none else s.sched.serving } }

/-- A share retires on its member: the REPORT, and its entry is free (R313). REPORT has no field for CHECK_WORKING's count, which the
member adds to its own DRIFT_COUNT, and takes back when a later attempt comes (R255, R383; log 15, DEDUCED). -/
def State.retireShare (s : State) (n : Nat) (j : Job) : State :=
  let c := j.counts.sat
  let key := (j.head, j.ch, j.d.seq)
  let s := { s with ctr := { s.ctr with
    drift := s.ctr.drift + BitVec.ofNat 64 c.drift
    shareDrift := (key, c.drift) :: s.ctr.shareDrift.filter fun x => !(x.1.1 == j.head && x.1.2.1 == j.ch) } }
  let s := s.jobSend j 2 j.head (reportBody stDone (recordFlags j.fl j.zeroExtent false false) j.passes c)
  (s.dropShare n).checkQuiesce

/-- The instant of a retirement: that of a plumb descriptor whose cycle count the spec gives lies on its retire edge (R98, R286). -/
def State.retireAt (s : State) (j : Job) : State := match j.due with | some a => s.untilArith a | none => s

/-- A job at that instant. -/
def Job.atDue (j : Job) (s : State) : Job := match j.due with | some a => { j with lastAt := s.count, lastArith := a } | none => j

/-- A piece of running work that may retire does (R86, R313). -/
def State.retire (s : State) (p : Part) (j : Job) : State :=
  match p with
  | .chan c => s.retireHead c j
  | .share n => s.retireShare n j

/-- DESCRIPTOR_RETIRE (R86, R313). -/
def execDescriptorRetire (p : Part) (s : State) : Host.Outcome State Fault Refusal :=
  if s.stopped || !s.pins.rstN then .next s
  else match s.job p with
    | some j =>
      if s.mayRetire p j then .next ((s.retireAt j).retire p (j.atDue (s.retireAt j)))
      else .next s
    | none => .next s

/-- OFFCUT_END_RECORD (R294): once every DATA record is acknowledged, the END record is placed. -/
def execOffcutEndRecord (p : Part) (s : State) : Host.Outcome State Fault Refusal :=
  if s.stopped || !s.pins.rstN then .next s
  else match s.job p with
    | some j =>
      if j.d.capture ∧ !j.skip ∧ !j.endSent ∧ j.phase = .writing ∧ !(s.offcut.any (·.1 == p)) then
        .next ((s.setJob p (some { j.touch s with endSent := true })).queueOffcut p j.offcutBlock
          [offcutEnd s.sin j.d.seq j.d.step j.ch.val j.captured])
      else .next s
    | none => .next s

/-! ### Held tiles (R235, R236) -/

/-- Does a message belong to the work at the front of a channel's queue? -/
def State.headKey (s : State) (e : Envelope) (c : Fin 16) (x : Entry) : Bool :=
  e.head == s.sin && e.ch == c && (Desc.parse x.desc).seq == e.seq

/-- The yard ranges of every piece of work that has started and not retired, but for the work a tile belongs to: its own
descriptor awaits the tile's acknowledgment before it retires (R235; log 75, DEDUCED). -/
def State.startedRanges (s : State) (t : Envelope) : List Rng :=
  (channels.flatMap fun c => match s.chans[c].queue with
    | e :: _ => if e.started && !(s.headKey t c e) then e.ranges else []
    | [] => []) ++
    s.shares.flatMap fun x => match x.job with | some j => if shareKey t x then [] else j.ranges | none => []

/-- Does a tile overlap a yard range of other started work (R236)? -/
def State.tileHeld (s : State) (t : Envelope) (off n : Nat) : Bool := (s.startedRanges t).any fun r => rangesMeet r.addr r.len off n

/-- A tile written and acknowledged (R235, Table 12.8). -/
def State.writeTile (s : State) (e : Envelope) (off : Nat) (b : List Byte) : State :=
  let s := s.yardWrite off b
  let body := natLE 8 off ++ natLE 2 b.length ++ zeros 6
  s.netSend { s.envTo 5 e.src body with head := e.head, ch := e.ch, attempt := e.attempt, seq := e.seq } body

/-- HELD_TILE_WRITE (R236): held tiles no started work overlaps any more are written, in order of arrival. -/
def execHeldTileWrite (s : State) : Host.Outcome State Fault Refusal :=
  if s.stopped || !s.pins.rstN then .next s
  else
    let go := s.heldTiles.filter fun t => !(s.tileHeld t.env t.off t.bytes.length)
    let t := { s with heldTiles := s.heldTiles.filter fun t => s.tileHeld t.env t.off t.bytes.length }
    .next (go.foldl (fun (s : State) t => s.writeTile t.env t.off t.bytes) t)

end Sys2Proof.Machine
end

