-- ==== Sys2Proof/Machine/Validation.lean ====
section
/-! DEFINITION. The commands of validation and of the launch condition (03_ R82, R99, 15_ R381). -/

namespace Sys2Proof.Machine

/-- Is the head of a channel due for its first validation: eligible, not yet validated, the channel in WAIT (R82)? -/
def State.dueValidation (s : State) (c : Fin 16) : Bool :=
  s.mayValidate && s.chans[c].st == .wait && s.chans[c].val.isNone && s.chans[c].job.isNone &&
    (match s.chans[c].queue with | e :: _ => e.elig.isSome | [] => false)

/-- The bytes of a block a validation awaits have all arrived (R82). -/
def State.blockArrived (s : State) (c : Fin 16) (blk : Nat) (data : List Byte) : State :=
  (s.onChan c fun x => { x with val := x.val.map fun v => { v with
      blocks := if v.awaited.any (·.1 == blk) then v.blocks ++ [(blk, data)] else v.blocks,
      awaited := v.awaited.filter (·.1 != blk) } }).finishValidation c

/-- A read of a validation in error faults the attempt (R381). -/
def State.blockError (s : State) (c : Fin 16) (addr : Nat) : State :=
  match s.chans[c].queue, s.chans[c].val with
  | e :: _, some _ => s.faultHead c codeMem addr none false (Desc.parse e.desc).seq none
  | _, _ => s

/-- A chunk of a block read has arrived; the block is whole once none of its reads is in flight. -/
def State.blockChunk (s : State) (c : Fin 16) (blk addr : Nat) (data : List Byte) : State :=
  let t := s.onChan c fun x => { x with val := x.val.map fun v => { v with chunks := v.chunks ++ [(blk, addr, data)] } }
  if t.inFlight (.block c blk) then t
  else match t.chans[c].val with
    | some v =>
      match v.awaited.find? (·.1 == blk) with
      | some b =>
        let cs := (v.chunks.filter (·.1 == blk)).map (·.2)
        t.blockArrived c blk ((List.range b.2.2.2).map fun i => chunkByte cs (b.2.2.1 + i))
      | none => t
    | none => t

/-- VALIDATE_DESCRIPTOR (R82): a use of the configuration store (R421), then the checks of Table 3.6. -/
def execValidateDescriptor (c : Fin 16) (s : State) : Host.Outcome State Fault Refusal :=
  if s.dueValidation c then
    let t := s.readConfig
    .next (if t.dueValidation c then t.beginValidation c else t)
  else .next s

/-- Every response of the block's reads has come. -/
def State.blockReadDone (s : State) (c : Fin 16) (blk : Nat) (err : Bool) (data : List Byte) : State :=
  match s.chans[c].val with
  | some v =>
    match v.awaited.find? (·.1 == blk) with
    | some b =>
      let t := { s with port := { s.port with
        out := s.port.out.filter fun r => r.use != Use.block c blk, waiting := s.port.waiting.filter fun r => r.use != Use.block c blk } }
      (if err then t.blockError c (b.2.2.1 / 64 * 64) else t.blockArrived c blk (sliceOf data 0 b.2.2.2)).reissue
    | none => s
  | none => s

/-- VALIDATION_BLOCK_READ_DONE (R82); during a clock stop the response waits (Table 14.5, step 5). -/
def execValidationBlockReadDone (c : Fin 16) (blk : Nat) (err : Bool) (data : List Byte) (s : State) :
    Host.Outcome State Fault Refusal :=
  if s.pins.rstN = false ∨ s.lg = .frozen then .next s
  else if s.frz.running then .next { s with port := { s.port with held := s.port.held ++ [.validationBlockReadDone c blk err data] } }
  else .next (s.blockReadDone c blk err data)

/-- LAUNCH_CONDITION_MET (R99): the plumb counter reaches the head's LAUNCH_AT. -/
def execLaunchConditionMet (c : Fin 16) (s : State) : Host.Outcome State Fault Refusal :=
  match s.chans[c].queue with
  | e :: _ =>
    if s.pins.rstN ∧ e.elig.isSome ∧ s.chans[c].job.isNone then .next (s.untilCount (Desc.parse e.desc).launch) else .next s
  | [] => .next s

end Sys2Proof.Machine
end

