-- ==== Sys2Proof/Machine/Memory.lean ====
section
/-! DEFINITION. The answers of the memory port (16_ R397 to R400; 15_ R381, R382, R384, R388, R395). -/

namespace Sys2Proof.Machine

/-- A request of running work in error: the attempt faults, or the error is logged when nothing of it can be halted (R384,
R397). -/
def State.readFault (s : State) (p : Part) (code detail : Nat) : State :=
  match s.job p with
  | some j => if s.haltable p j then s.faultPart p code detail none false else s.log0 code 0 detail
  | none => s.log0 code 0 detail

/-- Bytes read for an execution, where they go by its phase: its inputs, the held values of a traversal (R243), what its head reads back
(R258, R267); a draining one discards them (R382). -/
def Job.arrived (j : Job) (addr : Nat) (data : List Byte) : Job :=
  match j.phase with
  | .inputs => { j with chunks := j.chunks ++ [(addr, data)] }
  | .exchange => { j with back := j.back ++ [(addr, data)] }
  | .writing => { j with after := j.after ++ [(0, addr, data)] }
  | .draining => j

/-- Bytes read for a piece of work arrive, and it goes on. -/
def State.chunkIn (s : State) (p : Part) (addr : Nat) (data : List Byte) : State :=
  match s.job p with
  | some j => (s.setJob p (some (j.arrived addr data))).progress 16 p
  | none => s

/-- A read answered: `bad` names the error, MEM_ERR or PARITY with its DETAIL. -/
def State.readAnswered (s : State) (q : MemReq) (data : List Byte) (bad : Option (Nat × Nat)) : State :=
  match q.use, bad with
  | .input p, none => s.chunkIn p q.addr data
  | .input p, some e => s.readFault p e.1 e.2
  | .block c blk, none => s.blockChunk c blk q.addr data
  | .block c _, some e =>
    match s.chans[c].queue, s.chans[c].val with
    | h :: _, some _ => if s.lg = .fault then s.log0 e.1 0 e.2 else s.faultHead c e.1 e.2 none false (Desc.parse h.desc).seq none
    | _, _ => s.log0 e.1 0 e.2
  | .ringRead .offcut, none => (s.ringRead .offcut q.addr data).progressAll
  | .ringRead r, none => s.ringRead r q.addr data
  | .ringRead r, some e =>
    match s.useOf r with
    | some u => if u.phase = .dropped then (s.log0 e.1 0 e.2).ringDropped else (s.log0 e.1 0 e.2).readRing r u
    | none => s.log0 e.1 0 e.2
  | _, none => s
  | _, some e => s.log0 e.1 0 e.2

/-- A write that failed, with the CODE and DETAIL of its error (R384, R388, R395). -/
def State.writeFailed (s : State) (q : MemReq) (code detail : Nat) : State :=
  match q.use with
  | .output p =>
    match s.job p with
    | some j =>
      if j.d.chain = 45 ∧ j.phase = .writing then (s.log0 code 0 detail).request [{ q with tries := q.tries + 1, bad := false }]
      else s.readFault p code detail
    | none => s.log0 code 0 detail
  | .ringRecord _ | .ringHead _ | .record _ => s.retryWrite q code detail
  | _ => s.log0 code 0 detail

/-- A write acknowledged: its work goes on (R86, R101, R261, R296). -/
def State.writeDone (s : State) (q : MemReq) : State :=
  match q.use with
  | .output p => (s.touchPart p).progress 16 p
  | .ringRecord r => s.recordWritten r
  | .ringHead .offcut => (s.headWritten .offcut).progressAll
  | .ringHead r => s.headWritten r
  | .record c => s.recordAcked c
  | _ => s

/-- A write answered; `err` says it failed (R395). A write buffer that failed its parity has written nothing that counts (R377, R384). -/
def State.writeAnswered (s : State) (q : MemReq) (err : Bool) : State :=
  if err then s.writeFailed q codeMem (q.addr / 64 * 64)
  else if q.bad then s.writeFailed q codeParity (unitDetail 10 0)
  else s.writeDone q

/-- An outstanding request by tag and direction. -/
def State.outstanding (s : State) (tag : Nat) (write : Bool) : Option MemReq := s.port.out.find? fun q => q.tag == tag && q.write == write

/-- A late response to a request declared in error frees its tag (R400). -/
def State.lateResponse (s : State) (tag : Nat) : State :=
  ({ s with port := { s.port with dead := s.port.dead.filter (· != tag) } } : State).reissue

/-- A read response taken (R397). -/
def State.readResponse (s : State) (tag status : Nat) (data : List Byte) (parityOk : Bool) : State :=
  match s.outstanding tag false with
  | none => if s.port.dead.contains tag then s.lateResponse tag else s
  | some q =>
    let t := { s with port := s.port.take tag }
    let bad := if status ≠ 0 then some (codeMem, q.addr) else if parityOk = false then some (codeParity, unitDetail 9 0) else none
    (t.readAnswered q data bad).reissue

/-- A write acknowledgment taken (R397). -/
def State.writeResponse (s : State) (tag status : Nat) : State :=
  match s.outstanding tag true with
  | none => if s.port.dead.contains tag then s.lateResponse tag else s
  | some q => (({ s with port := s.port.take tag } : State).writeAnswered q (status != 0)).reissue

/-- MEMORY_READ_RESPONSE (R397); during a clock stop it waits in its queue (Table 14.5), while RST_N is low or FABRIC is
stopped it is lost (R399). -/
def execMemoryReadResponse (tag status : Nat) (data : List Byte) (parityOk : Bool) (s : State) : Host.Outcome State Fault Refusal :=
  if s.pins.rstN = false ∨ s.lg = .frozen then .next s
  else if s.frz.running then
    .next { s with port := { s.port with held := s.port.held ++ [.memoryReadResponse tag status data parityOk] } }
  else .next (s.readResponse tag status data parityOk)

/-- MEMORY_WRITE_ACK (R397). -/
def execMemoryWriteAck (tag status : Nat) (s : State) : Host.Outcome State Fault Refusal :=
  if s.pins.rstN = false ∨ s.lg = .frozen then .next s
  else if s.frz.running then .next { s with port := { s.port with held := s.port.held ++ [.memoryWriteAck tag status] } }
  else .next (s.writeResponse tag status)

/-- MEMORY_RESPONSE_TIMEOUT (R400): the request is taken as answered with ERR, its tag stays reserved. -/
def execMemoryResponseTimeout (tag : Nat) (s : State) : Host.Outcome State Fault Refusal :=
  if s.stopped || !s.pins.rstN then .next s
  else match s.port.out.find? (·.tag == tag) with
    | none => .next s
    | some q =>
      let t := { s with port := { s.port.take tag with dead := s.port.dead ++ [tag] } }
      .next (if q.write then t.writeAnswered q true else t.readAnswered q [] (some (codeMem, q.addr))).reissue

/-- A response that waited through a clock stop, taken after the thaw (R372, Table 14.5). -/
def State.replayResponse (s : State) : Instr → State
  | .memoryReadResponse tag status data ok => s.readResponse tag status data ok
  | .memoryWriteAck tag status => s.writeResponse tag status
  | .validationBlockReadDone c blk err data => s.blockReadDone c blk err data
  | .completionRecordWriteAck c err =>
    match s.port.out.find? fun q => q.use == .record c with
    | some q => s.writeResponse q.tag (b2n err)
    | none => s.recordAcked c
  | .ringRecordWriteAck r err =>
    match s.port.out.find? fun q => q.use == .ringRecord r with
    | some q => s.writeResponse q.tag (b2n err)
    | none => s
  | _ => s

end Sys2Proof.Machine
end

