-- ==== Sys2Proof/Machine/Recovery.lean ====
section
/-! DEFINITION. Lane sparing, the scrub, the drain of a faulted attempt, and re-execution (01_ R19 to R23, 04_ R128, 05_ R139,
15_ R381 to R388, R396, R421). -/

namespace Sys2Proof.Machine

/-! ### Lanes (R19, R21, R22, R128, R381) -/

/-- Is a physical lane active in a bay: not retired, and lane 64 only when it is mapped in (R21)? -/
def Bays.laneActive (b : Bays) (bay lane : Nat) : Bool :=
  match b.spared.find? (·.1 == bay) with
  | some x => x.2 != lane
  | none => lane != 64

/-- Whose elements a physical bay holds: its owner's, and in a handover gap, or where the boundary left it no owner, still the outgoing
one's; with it the share served (R97, R381). -/
def State.holderAt (s : State) (bay : Nat) : BayOwner × Option Nat :=
  let k := s.bays.enabled.findIdx (· == bay)
  let o := s.sched.owners.getD k .none
  if s.sched.gap.contains k || o == .none then (s.sched.leaving.getD k .none, s.sched.served) else (o, s.sched.serving)

/-- The running work whose elements a physical bay holds (R381). -/
def State.workOn (s : State) (bay : Nat) : Option (Part × Job) :=
  let h := s.holderAt bay
  s.running.find? fun x => s.ownerOf x.1 == h.1 && (match x.1 with | .share n => h.2 == some n | .chan _ => true)

/-- Plumb channels to which any slot lends a bay lose their timing promise (R381). -/
def State.breakLent (s : State) (bay : Nat) : State :=
  (List.range 64).foldl (fun (s : State) n =>
    let w := s.slotWord n
    if slotPlumb w && (slotBays w).any (fun j => s.physical j == some bay) then s.breakPromise (slotChan w) else s) s

/-- The error-log entry of a second retirement (R22, Table 15.3). -/
def State.secondEntry (s : State) (j : Job) (bay lane detail : Nat) : List Byte :=
  logBytes codeSecond 4 (3 + 4 * b2n (j.gang != 0)) j.head j.ch.val j.attempt s.count j.d.seq bay lane detail

/-- A lane above this one that was retired in the same ARITH cycle: of two that trip together the lower one is the retired one, and the
other the second retirement (R128). -/
def State.heldSpare (s : State) (bay lane : Nat) : Option Nat :=
  match s.bays.spared.find? (·.1 == bay) with
  | some x => if lane < x.2 ∧ s.bays.hold.contains (bay, s.clk.arith + 64) then some x.2 else none
  | none => none

/-- A lane's number as a value. -/
def laneVal : LaneNum → Val
  | .nan => .nan
  | .inf n => .inf n
  | .zero n => .zero n
  | .num q => .num q

/-- The LANE_CHECK entry made in this instant for lane `old` of a bay names the lower lane `new` that tripped with it and is the one retired
(R128). -/
def Log.relane (l : Log) (now bay old new detail : Nat) : Log :=
  { l with entries := l.entries.map fun (x : Nat × List Byte) =>
      if fieldAt x.2 0 2 = codeLane ∧ fieldAt x.2 8 8 = now ∧ fieldAt x.2 20 1 = bay ∧ fieldAt x.2 21 1 = old then
        (x.1, x.2.take 21 ++ natLE 1 new ++ zeros 2 ++ natLE 8 detail)
      else x }

/-- Of two lanes of a bay that trip in one instant the lower is retired and named by the entry (R128). -/
def State.retireLower (s : State) (bay old lane detail : Nat) : State :=
  { s with
    bays := { s.bays with spared := s.bays.spared.map fun (x : Nat × Nat) => if x.1 = bay then (x.1, lane) else x }
    log := s.log.relane s.count bay old lane detail }

/-- LANE_CHECK (R19, R21, R22, R126, R128): a lane's result and its estimate compared; where the check trips, the lane is retired
and the spare mapped in, or the instance faults. -/
def execLaneCheck (bay : Fin 16) (lane op : Nat) (seen : LaneSeen) (s : State) : Host.Outcome State Fault Refusal :=
  if s.stopped || !s.pins.rstN then .next s
  else match s.workOn bay.val with
    | none => .next s
    | some (p, j) =>
      if s.bays.laneActive bay.val lane && s.bays.enabled.contains bay.val && s.lg == .ready && crossTrips op (laneVal seen.p) (laneVal seen.e) then
        let detail := op % 64 + 256 * (seen.fmt % 16)
        let s := { s with ctr := { s.ctr with laneCheck := s.ctr.laneCheck + 1 } }
        if s.bays.spared.any (·.1 == bay.val) || s.bays.spareBad.contains bay.val then
          match s.heldSpare bay.val lane with
          | some l =>
            let t := s.retireLower bay.val l lane detail
            .next (t.instanceFault (t.secondEntry j bay.val l detail))
          | none => .next (s.instanceFault (s.secondEntry j bay.val lane detail))
        else
          let s := { s with bays := { s.bays with spared := s.bays.spared ++ [(bay.val, lane)],
                                                  hold := s.bays.hold ++ [(bay.val, s.clk.arith + 64)] } }
          .next ((s.breakLent bay.val).faultPart p codeLane detail (some (bay.val, lane)) false)
      else .next s

/-- SPARE_MAP_IN_DONE (R381): after 64 ARITH cycles the bay issues again. -/
def execSpareMapInDone (bay : Fin 16) (s : State) : Host.Outcome State Fault Refusal :=
  if s.stopped || !s.pins.rstN then .next s
  else match s.bays.hold.find? (·.1 == bay.val) with
    | some h =>
      let s := s.untilArith h.2
      .next ({ s with bays := { s.bays with hold := s.bays.hold.filter (·.1 != bay.val) } } : State).progressAll
    | none => .next s

/-- SCRUB (R421): in every LG_STATE but FROZEN. -/
def execScrub (s : State) : Host.Outcome State Fault Refusal :=
  if s.lg = .frozen ∨ s.pins.rstN = false then .next s else .next s.readConfig

/-! ### The end of a drain (R382, R383, R391) -/

/-- Has a piece of work drained: nothing of it in flight, no offcut record being placed (R382)? -/
def State.drained (s : State) (p : Part) : Bool :=
  !(s.partInFlight p) && (match s.offcutUse with | some o => o.1 != p | none => true) &&
    (match s.job p with | some j => j.phase == .draining | none => true)

/-- The FAULT completion of a drained attempt (R383, R384, R386). -/
def State.faultPackage (s : State) (c : Fin 16) (e : Entry) (h : Halt) : Package :=
  let lost := s.bays.queueUE.any fun x => x.1 == c.val && x.2 == 2
  let d := Desc.parse e.desc
  let r : Record := { seq := if lost then 0xFFFFFFFF else d.seq, status := stFault, ch := c.val, start := h.start, stop := h.time }
  let pole := if s.poled d then [s.poleOf c e r none] else []
  let p := s.package c e r [] pole
  { p with freely := p.freely || lost }

/-- ATTEMPT_DRAINED (R382, R383): the FAULT completion is formed; a member's share is reported instead (R391). -/
def execAttemptDrained (p : Part) (s : State) : Host.Outcome State Fault Refusal :=
  if s.stopped || !s.pins.rstN || !(s.drained p) then .next s
  else match p with
    | .chan c =>
      match s.chans[c].halted, s.chans[c].queue with
      | some h, e :: _ =>
        if h.drained then .next s
        else
          let s := s.hold c (s.faultPackage c e h)
          let s := match s.chans[c].job with | some j => s.undefine j.ranges | none => s
          .next (s.onChan c fun x => { x with job := none, halted := some { h with drained := true } }).checkQuiesce
      | _, _ => .next s
    | .share n =>
      match s.job (.share n) with
      | some j =>
        let s := s.undefine j.ranges
        let s := if j.silent then s else s.jobSend j 2 j.head (reportBody stFault 0 0 {})
        .next (s.dropShare n).endRingFault.checkQuiesce
      | none => .next s

/-! ### Re-execution (R385) -/

/-- May a halted descriptor be re-executed now (R385)? -/
def State.mayReexecute (s : State) (c : Fin 16) : Bool :=
  s.mayValidate && s.chans[c].st == .halt && s.chans[c].job.isNone &&
    (match s.chans[c].halted with
     | some h => h.drained && h.disp == .reexec &&
        (match h.lostUntil with | some u => s.scarfed (s.cfg c).gang || decide (u ≤ s.count) | none => true)
     | none => false)

/-- A halted descriptor is validated again, or, once that has passed, started (R385). -/
def State.reexecute (s : State) (c : Fin 16) : State :=
  if s.mayReexecute c then
    match s.chans[c].queue, s.chans[c].val with
    | _ :: _, none =>
      let t := s.readConfig
      let t := if t.mayValidate then t.beginValidation c else t
      if t.canStart c && t.granted c then t.startHead c else t
    | _, _ => if s.canStart c && s.granted c then s.startHead c else s
  else s

/-- REEXECUTION_START (R385). -/
def execReexecutionStart (c : Fin 16) (s : State) : Host.Outcome State Fault Refusal :=
  if s.pins.rstN then .next (s.reexecute c) else .next s

/-- GANG_LOST_WAIT_EXPIRY (R385): 16,777,216 counts from the fault, and the re-execution waits no longer. -/
def execGangLostWaitExpiry (c : Fin 16) (s : State) : Host.Outcome State Fault Refusal :=
  if s.stopped || !s.pins.rstN then .next s
  else match s.chans[c].halted with
    | some h =>
      match h.lostUntil with
      | some u => .next (((s.untilCount u).onChan c fun x => { x with halted := some { h with lostUntil := none } }).reexecute c)
      | none => .next s
    | none => .next s

end Sys2Proof.Machine
end

