-- ==== Sys2Proof/Machine/Sched.lean ====
section
/-! DEFINITION. The slot table at work: slots, grants, owners of bays and handover gaps (03_ R94 to R97; 01_ R38). -/

namespace Sys2Proof.Machine

/-- Has a participant of the pool a started or startable descriptor or share (R96)? -/
def State.hasWork (s : State) (p : Participant) : Bool :=
  if p < 16 then
    let c := Fin.ofNat 16 p
    !(s.cfg c).plumb && (s.chans[c].job.isSome || s.canStart c)
  else s.oldestShare.isSome || s.shares.any fun x => x.job.isSome

/-- The first participant with work, cyclically after the previous grantee (R96). -/
def State.nextGrant (s : State) : Option Participant :=
  ((List.range 17).map fun k => (s.sched.grantPtr + 1 + k) % 17).find? s.hasWork

/-- The share the queue serves in a slot granted to it: the oldest that can issue, else the oldest started (R38). -/
def State.shareOfSlot (s : State) : Option Nat :=
  match s.oldestShare with
  | some n => some n
  | none => (s.shares.find? fun x => x.job.isSome).map (·.id)

/-- A slot begins at an ARITH cycle: the grant, the owners of the bays, and a gap wherever a bay has a new owner (R96,
R97). -/
def State.enterSlot (s : State) (n start : Nat) : State :=
  let w := s.slotWord n
  let lent := if slotPlumb w then slotBays w else []
  let g := s.nextGrant
  let owners := (List.range s.bayCount).map fun j =>
    if lent.contains j then BayOwner.plumb (slotChan w) else match g with | some p => .pool p | none => .none
  let gap := (List.range s.bayCount).filter fun j =>
    let o := owners.getD j .none
    o != .none && o != s.sched.owners.getD j .none
  let t := { s with sched := { s.sched with
      slot := n, slotStart := start, edge := s.clk.edges, leaving := s.sched.owners, served := s.sched.serving, grantPtr := g.getD s.sched.grantPtr, grantee := g, owners := owners, gap := gap,
      serving := if g = some 16 then s.shareOfSlot else s.sched.serving } }
  t.progressAll

/-- The rotation begins at slot 0 with no owner anywhere, the first grant searching from channel 0; like every slot boundary with a read of the
slot-table shadow (R96, R368, R421). -/
def State.beginRotation (s : State) : State :=
  let t := ({ s with sched := { slot := 0, slotStart := s.clk.arith, grantPtr := 16, serving := s.sched.serving } } : State).readConfig
  if t.stopped then t else t.enterSlot 0 s.clk.arith

/-- Does the rotation run: since READY, with ARITH running (R96)? -/
def State.rotates (s : State) : Bool := s.pins.rstN && s.nv.phase == 7 && !s.stopped

/-- SLOT_BOUNDARY (R96, R97): 256 ARITH cycles after the last, with a read of the slot-table shadow (R421). -/
def execSlotBoundary (s : State) : Host.Outcome State Fault Refusal :=
  if s.rotates then
    let t := s.untilArith (s.sched.slotStart + 256)
    let t := t.readConfig
    .next (if t.stopped then t else t.enterSlot ((s.sched.slot + 1) % 64) (s.sched.slotStart + 256))
  else .next s

/-- HANDOVER_GAP_END (R97): 32 ARITH cycles into the slot the incoming owners issue. -/
def execHandoverGapEnd (s : State) : Host.Outcome State Fault Refusal :=
  if s.rotates ∧ s.sched.gap ≠ [] then
    let t := s.untilArith (s.sched.slotStart + 32)
    .next ({ t with sched := { t.sched with gap := [], leaving := [], served := none } } : State).progressAll
  else .next s

end Sys2Proof.Machine
end

