-- ==== Sys2Proof/Machine/Gang.lean ====
section
/-! DEFINITION. Messages between the instances of a gang (12_ R308 to R316, R325, R326; 09_ R235, R236; 13_ R351; 15_ R391 to
R393) and the raise (14_ R367 to R369). -/

namespace Sys2Proof.Machine

/-- A message taken out of those delivered (log 16, DESIGN CHOICE). -/
def State.taken (s : State) (e : Envelope) (b : List Byte) : State := { s with inbox := s.inbox.erase (e, b) }

/-- Does the instance take a message addressed to it now: out of reset and not in a clock stop (R371)? -/
def State.hears (s : State) (e : Envelope) : Bool := s.pins.rstN && !s.stopped && e.dest == s.sin

/-- Does it act on a work message: not before READY, in a FAULT reached before it either (R351)? -/
def State.works (s : State) (e : Envelope) : Bool := s.hears e && s.nv.phase == 7

/-- A return kept for a share that has not started (R310). -/
def State.keepReturn (s : State) (e : Envelope) (b : List Byte) : State :=
  let s := s.taken e b
  { s with returns := s.returns ++ [(e, b)] }

/-- The attempt a share holds: the newest its SHAREs named, though the earlier one still drains (R309, R391). -/
def Share.attempt (x : Share) : Nat := ((x.next.map (·.1)).getD x.env).attempt

/-- The work a message of classes 0x01 to 0x06 belongs to on this instance, with the attempt held for it (R309). -/
def State.workOf (s : State) (e : Envelope) : Option (Part × Nat) :=
  if e.head = s.sin then
    match s.chans[e.ch].queue with
    | x :: _ => if (Desc.parse x.desc).seq = e.seq then some (.chan e.ch, x.attempt) else none
    | [] => none
  else (s.shares.find? (shareKey e)).map fun x => (.share x.id, x.attempt)

/-- The gang whose head sent a SHARE: the lowest that it heads and that this instance belongs to (log 9, DESIGN CHOICE). -/
def State.gangOf (s : State) (head : Nat) : Nat := match s.myGangs.find? fun g => g.2.headD 0 == head with | some g => g.1 | none => 0

/-! ### Work classes -/

/-- A later attempt's share takes the place of the earlier one, which drains first when it has started (R39, R391); one that waits so
gives way to a still later one. -/
def State.replaceShare (s : State) (x : Share) (e : Envelope) (b : List Byte) : State :=
  match x.job with
  | none => { s with shares := s.shares.map fun y => if y.id = x.id then { y with env := e, body := b } else y }
  | some j =>
    ({ s with shares := s.shares.map fun y =>
        if y.id = x.id then { y with next := some (e, b), job := some { j.drain with silent := true } } else y } : State).dropWaiting (.share x.id)

/-- A share queued for its gang, or discarded and reported when no entry held for its head is free (R38, R39; log 9, DESIGN CHOICE). -/
def State.queueShare (s : State) (e : Envelope) (b : List Byte) : State :=
  if (s.shares.filter (·.env.head == e.head)).length < s.headShare e.head then
    { s with shares := s.shares ++ [{ id := s.eligNext, env := e, gang := s.gangOf e.head, body := b }], eligNext := s.eligNext + 1 }
  else
    let r := reportBody stFault 0 0 {}
    (s.discard e).netSend { s.envTo 2 e.head r with head := e.head, ch := e.ch, attempt := e.attempt, seq := e.seq } r

/-- Is something kept for the work of a head's channel? -/
def ofChannel (e : Envelope) (k : Nat × Fin 16 × Nat) : Bool := k.1 == e.head && k.2.1 == e.ch

/-- What an earlier attempt of the same work added to DRIFT_COUNT here is taken back (R383; log 15, DEDUCED). -/
def Counters.takeBack (k : Counters) (e : Envelope) : Counters :=
  let n := (k.shareDrift.lookup (e.head, e.ch, e.seq)).getD 0
  { k with drift := k.drift - BitVec.ofNat 64 n, shareDrift := k.shareDrift.filter fun x => !(ofChannel e x.1) }

/-- A SHARE comes: a first attempt's ends what is kept here of the channel's earlier work; a later one's takes back what the attempt before it
counted. -/
def State.shareComes (s : State) (e : Envelope) : State :=
  if e.attempt = 0 then
    { s with
      ctr := { s.ctr with shareDrift := s.ctr.shareDrift.filter fun x => !(ofChannel e x.1) }
      ringKept := s.ringKept.filter fun x => !(ofChannel e x.1) }
  else { s with ctr := s.ctr.takeBack e }

/-- SHARE (R38, R39, R309, R391). -/
def execShare (e : Envelope) (b : List Byte) (s : State) : Host.Outcome State Fault Refusal :=
  if s.works e then
    let s := (s.taken e b).shareComes e
    match s.shares.find? (shareKey e) with
    | some x => .next (if x.attempt < e.attempt then s.replaceShare x e b else s.discard e)
    | none => .next (s.queueShare e b)
  else .next (if s.hears e then s.taken e b else s)

/-- The codes of the faults of Table 15.3 that halt a descriptor to be executed again: ATTEMPT_LIMIT and SECOND_RETIRE do not (R22, R386). -/
def haltingCodes : List Nat := [codeUE, codeLane, codeParity, codeMem, codeGang]

/-- A member's REPORT of a fault is a fault of the descriptor, detected at its arrival; of its entry the rule gives neither CODE nor DETAIL,
which under GANG_LOST is the Gang ID (R391, Table 15.3; log 17, DESIGN CHOICE). -/
def State.reportedFault (s : State) (c : Fin 16) (seq : Nat) : State :=
  let code := haltingCodes.getD (Config.reportedCode s.free % 5) codeUE
  let detail := if code = codeGang then (s.cfg c).gang else Config.reportedDetail s.free % 2 ^ 64
  ({ s with free := s.free + 1 } : State).faultHead c code detail none false seq none

/-- A message of the work classes taken by the work it belongs to, or discarded when its attempt is another one (R309). -/
def State.forWork (s : State) (e : Envelope) (b : List Byte) (f : State → Part → Job → State) : State :=
  if s.works e then
    let s := s.taken e b
    match s.workOf e with
    | some (p, a) =>
      if a % 256 = e.attempt then
        match s.job p with
        | some j => if j.phase = .draining then s.discard e else f s p j
        | none => s.discard e
      else s.discard e
    | none => s.discard e
  else if s.hears e then s.taken e b else s

/-- REPORT (R41, R313, R391). -/
def execReport (e : Envelope) (b : List Byte) (s : State) : Host.Outcome State Fault Refusal :=
  .next (s.forWork e b fun s p j =>
    match p with
    | .chan c =>
      if fieldAt b 0 1 = stFault then (if s.haltable p j then s.reportedFault c e.seq else s)
      else (s.setJob p (some { j.touch s with reports := j.reports ++ [(e.src, b)] })).progress 16 p
    | .share _ => s.discard e)

/-- Does a message come too early for the share it belongs to: no SHARE of its work is held, or the share of its attempt has not started
(R310; log 76, DEDUCED)? -/
def State.early (s : State) (e : Envelope) : Bool :=
  e.head != s.sin && match s.shares.find? (shareKey e) with
    | none => true
    | some x => x.attempt % 256 == e.attempt && (x.job.isNone || x.next.isSome)

/-- PARTIAL (R161, R170, R192): a partial at the head, a return at a member, which keeps it until its share starts. -/
def execPartialMsg (e : Envelope) (b : List Byte) (s : State) : Host.Outcome State Fault Refusal :=
  if s.works e && s.early e then .next (s.keepReturn e b)
  else .next (s.forWork e b fun s p j =>
    let q := Partial.ofBytes b
    let a := accFmt j.d
    match p with
    | .chan _ =>
      let pos := j.members.findIdx (· == e.src)
      let arr : Arrival := { pos := pos, sub := q.sub, row := q.row, foldix := q.foldix, agg := q.agg a pos s.clk.arith }
      (s.setJob p (some { j with arrivals := j.arrivals ++ [arr] })).progress 16 p
    | .share _ => (s.setJob p (some (j.takePartial (s.jobEnv j) q))).progress 16 p)

/-- TILE (R235, R236): written and acknowledged, or held while started work uses the range. -/
def execTile (e : Envelope) (b : List Byte) (s : State) : Host.Outcome State Fault Refusal :=
  if s.works e then
    let s := s.taken e b
    let off := fieldAt b 16 5 % 2 ^ 36
    let n := fieldAt b 24 2
    let data := sliceOf b 32 n
    match s.workOf e with
    | some (_, a) =>
      if a % 256 ≠ e.attempt then .next (s.discard e)
      else if s.tileHeld e off n then .next { s with heldTiles := s.heldTiles ++ [{ env := e, off := off, bytes := data }] }
      else .next (s.writeTile e off data)
    | none =>
      if s.tileHeld e off n then .next { s with heldTiles := s.heldTiles ++ [{ env := e, off := off, bytes := data }] }
      else .next (s.writeTile e off data)
  else .next (if s.hears e then s.taken e b else s)

/-- TILE_ACK (R235): of a tile of running work, or of a release (R101). -/
def execTileAck (e : Envelope) (b : List Byte) (s : State) : Host.Outcome State Fault Refusal :=
  let x := (e.src, fieldAt b 0 8, fieldAt b 8 2)
  .next (if s.works e && e.head == s.sin && s.awaitsTile e.ch x then (s.taken e b).releaseTile e.ch x
    else s.forWork e b fun s p j => (s.setJob p (some { j.touch s with tiles := j.tiles.erase x })).progress 16 p)

/-- SEGVAL (R267, R314). -/
def execSegval (e : Envelope) (b : List Byte) (s : State) : Host.Outcome State Fault Refusal :=
  .next (s.forWork e b fun s p j =>
    let first := fieldAt b 8 8
    let vals := (List.range (fieldAt b 16 4)).map fun i => (fieldAt b 0 1, first + i, sliceOf b (24 + 16 * i) 16)
    (s.setJob p (some { j.touch s with leaves := j.leaves ++ vals })).progress 16 p)

/-! ### Scarfing (R315, R316, R39) -/

/-- The gangs this instance heads that include a member. -/
def State.headedWith (s : State) (m : Nat) : List Nat := (s.image.gangs.filter fun g => g.2.headD 0 == s.sin && g.2.contains m).map (·.1)

/-- A member's SCARF entry as its body gives it. -/
def scarfOf (b : List Byte) (now : Nat) : ScarfEntry :=
  { sin := fieldAt b 0 2 % 4096, bays := fieldAt b 2 1, ready := bitOf (fieldAt b 3 1) 0, locked := bitOf (fieldAt b 3 1) 1, bootId := fieldAt b 4 4,
    reserve := fieldAt b 8 4, credit := fieldAt b 0x0C 1, curve := sliceOf b 0x10 32, map := sliceOf b 0x30 16, heard := now }

/-- A member's entry dropped: its gangs are unscarfed (R316, R392). -/
def State.dropScarf (s : State) (m : Nat) : State := ({ s with scarfs := s.scarfs.filter (·.sin != m) } : State).checkGangs

/-- RING_TIME to other instances of the chip from its time source (R319, R320): a multiple of 4,096 at least 8,192 counts
ahead. -/
def State.sendRingTime (s : State) (sins : List Nat) : State :=
  if s.image.role = 2 then s
  else
    let body := natLE 8 (roundUp (s.count + 8192) 4096)
    sins.foldl (fun (s : State) m => s.netSend (s.envTo 10 m body) body) s

/-- A time source sees a SCARF of another stop of its ring, at its own port or on its way: an instance that becomes ready gets RING_TIME once
the counter is locked (R320; log 19, DESIGN CHOICE for the SCARFs that pass elsewhere). -/
def State.scarfSeen (s : State) (e : Envelope) (b : List Byte) : State :=
  let m := fieldAt b 0 2 % 4096
  if e.cls ≠ 7 ∨ s.params.ring.contains m = false ∨ m = s.sin then s
  else
    let was := s.stop.ready.contains m
    let on := bitOf (fieldAt b 3 1) 0
    let t := { s with stop := { s.stop with ready := if on then m :: s.stop.ready.filter (· != m) else s.stop.ready.filter (· != m) } }
    if on && !was && s.clk.locked then t.sendRingTime [m] else t

/-- A SCARF stored at the head (R39, R316). -/
def State.storeScarf (s : State) (x : ScarfEntry) : State :=
  let gs := s.headedWith x.sin
  if gs.isEmpty then s
  else
    let fresh := s.boots.lookup x.sin != some x.bootId
    let s := if fresh then s.dropScarf x.sin else s
    let s := if fresh then
        { s with
          boots := (x.sin, x.bootId) :: s.boots.filter (·.1 != x.sin)
          credits := (s.credits.filter fun k => k.2.1 != x.sin) ++ gs.map fun g => (g, x.sin, x.credit) }
      else s
    ({ s with scarfs := s.scarfs.filter (·.sin != x.sin) ++ [x] } : State).checkGangs

/-- SCARF (R316, R351): stored in every state but a clock stop; a member of the chip that becomes ready gets RING_TIME (R320). -/
def execScarf (e : Envelope) (b : List Byte) (s : State) : Host.Outcome State Fault Refusal :=
  if s.hears e then
    .next (((s.taken e b).storeScarf (scarfOf b s.count)).scarfSeen e b)
  else .next s

/-- SCARF_PERIODIC (R316). -/
def execScarfPeriodic (s : State) : Host.Outcome State Fault Refusal :=
  if s.visible ∧ s.pins.rstN ∧ ¬ s.stopped then .next (s.sendScarf s.scarfReady) else .next s

/-- SCARF_TIMEOUT (R316): 16,777,216 counts of silence. -/
def execScarfTimeout (sin : Nat) (s : State) : Host.Outcome State Fault Refusal :=
  if s.stopped || !s.pins.rstN then .next s
  else match s.scarfs.find? (·.sin == sin) with
    | some x => .next ((s.untilCount (x.heard + 16777216)).dropScarf sin)
    | none => .next s

/-! ### Raising (R326, R367 to R369) -/

/-- A RAISE or CANCEL body (R325). -/
def raiseBody (raiseAt id scope op : Nat) : List Byte := natLE 8 raiseAt ++ natLE 4 id ++ natLE 2 scope ++ natLE 1 op ++ zeros 1

/-- What a target answers to a RAISE (Table 12.13, R351): 0 ARMED, 1 LATE, 2 NOT_LAID_DOWN, 3 BUSY. -/
def State.raiseAnswer (s : State) (raiseAt : Nat) : Nat :=
  if s.nv.phase ≠ 7 then 2
  else if raiseAt < s.count + 1000 then 1
  else if s.lg ≠ .laidDown then 2
  else if s.raising.armed.isSome then 3
  else 0

/-- A target armed for a raise. -/
def State.arm (s : State) (raiseAt : Nat) (origin : Nat) (id : Word) (scope : Nat) : State :=
  { s with raising := { s.raising with
      armed := some raiseAt, armedId := id, armedHere := origin == s.sin, armedOrigin := origin
      outcome := .armed, originHere := origin == s.sin, origin := origin, id := id, scope := scope } }

/-- RAISE (R326). -/
def execRaise (e : Envelope) (b : List Byte) (s : State) : Host.Outcome State Fault Refusal :=
  if s.hears e then
    let s := s.taken e b
    let raiseAt := fieldAt b 0 8
    let r := s.raiseAnswer raiseAt
    let s := if r = 0 then s.arm raiseAt e.src (BitVec.ofNat 32 (fieldAt b 8 4)) (fieldAt b 12 2 % 4096) else s
    let ack := natLE 4 (fieldAt b 8 4) ++ natLE 1 r ++ zeros 3
    .next (s.netSend (s.envTo 9 e.src ack) ack)
  else .next s

/-- The armed raise ends with an outcome, which LG_RAISE_STATUS shows with its own id and origin (R367). -/
def Raising.settle (r : Raising) (o : Outcome) : Raising :=
  { r with armed := none, outcome := o, originHere := r.armedHere, origin := r.armedOrigin, id := r.armedId }

/-- A raise disarmed (R326, R369). -/
def State.disarm (s : State) (o : Outcome) : State := { s with raising := s.raising.settle o }

/-- CANCEL (R326, R369). -/
def execCancel (e : Envelope) (b : List Byte) (s : State) : Host.Outcome State Fault Refusal :=
  if s.hears e then
    let s := s.taken e b
    .next (if s.raising.armed.isSome ∧ s.raising.armedId.toNat = fieldAt b 8 4 then s.disarm .cancelled else s)
  else .next s

/-- A running raise with the answer of a target, by its place in the member list. -/
def RaiseRun.answer (r : RaiseRun) (place result : Nat) : RaiseRun := { r with results := setAt r.results place (result + 1) }

/-- RAISE_ACK (R325, R367). -/
def execRaiseAck (e : Envelope) (b : List Byte) (s : State) : Host.Outcome State Fault Refusal :=
  if s.works e then
    let s := s.taken e b
    let runs := s.raising.runs.map fun r =>
      if r.id.toNat = fieldAt b 0 4 then r.answer ((s.gangMembers r.scope).findIdx (· == e.src)) (fieldAt b 4 1 % 16) else r
    .next { s with raising := { s.raising with runs := runs } }
  else .next (if s.hears e then s.taken e b else s)

/-- The outcome of a raise that this instance originated is final: LG_RAISE_STATUS shows it, KL_RAISE_RESULT what each of its targets
answered (R367). -/
def State.finalRaise (s : State) (id : Word) (o : Outcome) : State :=
  let rs := ((s.raising.runs.find? (·.id == id)).map (·.results)).getD []
  ({ s with raising := { s.raising with
      outcome := o, originHere := true, origin := s.sin, id := id, results := rs.map fun r => if r = 0 then 0xF else r
      runs := s.raising.runs.filter (·.id != id) } } : State).irq 4

/-- The running raise whose deadline comes first, of those that have not passed it. -/
def Raising.dueRun (r : Raising) : Option RaiseRun :=
  r.runs.foldl (fun m x => if x.stands then m else match m with
    | some y => if x.count < y.count then some x else some y
    | none => some x) none

/-- A raise is cancelled at its deadline: CANCEL to every armed target (Table 12.13). -/
def State.cancelRun (s : State) (r : RaiseRun) : State :=
  let body := raiseBody r.count r.id.toNat r.scope 1
  let armed := ((s.gangMembers r.scope).zip r.results).filter fun x => x.2 == 1
  let s := (armed.filter (·.1 != s.sin)).foldl (fun (s : State) x => s.netSend (s.envTo 8 x.1 body) body) s
  let s := if armed.any (·.1 == s.sin) then s.disarm .cancelled else s
  s.finalRaise r.id .cancelled

/-- RAISE_DEADLINE (Table 12.13): 3,000 counts before the raise the origin cancels unless every target is armed. -/
def execRaiseDeadline (s : State) : Host.Outcome State Fault Refusal :=
  if s.stopped || !s.pins.rstN then .next s
  else match s.raising.dueRun with
    | some r =>
      let s := s.untilCount (r.count - 3000)
      if r.results.all (· == 1) then
        .next { s with raising := { s.raising with runs := s.raising.runs.map fun x => if x.id = r.id then { x with stands := true } else x } }
      else .next (s.cancelRun r)
    | none => .next s

/-- Every validation that has not led to a start is made again after a raise (R366). -/
def State.forgetValidations (s : State) : State :=
  channels.foldl (fun (s : State) c =>
    if s.chans[c].job.isSome then s else (s.onChan c fun x => { x with val := none }).discardBlocks c) s

/-- An armed raise is missed: its edge falls in FROZEN or FAULT (R369, R372). -/
def State.missRaise (s : State) : State :=
  let t := s.disarm .missed
  if s.raising.armedHere then t.finalRaise s.raising.armedId .missed else t

/-- What an armed instance does on its raise edge (R368). -/
def State.raiseNow (s : State) : State :=
  let s := { s with active := s.shadow, lg := .ready, raising := s.raising.settle .raised }
  s.forgetValidations.beginRotation

/-- RAISE_EDGE (R368, R369): the armed count is reached; missed in FROZEN and FAULT. -/
def execRaiseEdge (s : State) : Host.Outcome State Fault Refusal :=
  match s.raising.armed with
  | none => .next s
  | some t =>
    if s.pins.rstN then
      let s := s.untilCount t
      if s.lg = .laidDown ∧ ¬ s.stopped then
        .next (if s.raising.armedHere then s.raiseNow.finalRaise s.raising.armedId .raised else s.raiseNow)
      else .next s.missRaise
    else .next s

/-! ### Other messages -/

/-- RING_TIME (R320): a SYNC instance takes the count named. -/
def execRingTime (e : Envelope) (b : List Byte) (s : State) : Host.Outcome State Fault Refusal :=
  if s.hears e then
    let s := s.taken e b
    .next (if s.image.role = 2 then { s with clk := { s.clk with ringTime := some (fieldAt b 0 8) } } else s)
  else .next s

/-- RESERVED_CLASS_MESSAGE (R309). -/
def execReservedClassMessage (e : Envelope) (b : List Byte) (s : State) : Host.Outcome State Fault Refusal :=
  if s.pins.rstN ∧ ¬ s.stopped ∧ (e.cls = 0 ∨ 10 < e.cls) then .next ((s.taken e b).log0 codeClass 0 e.cls) else .next s

/-- MESSAGE_FORWARD (R311, R340, R351): after load end, by the route table, which is a use of it (R421). -/
def execMessageForward (e : Envelope) (b : List Byte) (s : State) : Host.Outcome State Fault Refusal :=
  if s.pins.rstN = false ∨ s.stopped ∨ e.dest = s.sin then .next s
  else
    let s := s.taken e b
    if s.visible = false then .next s
    else
      let s := s.readConfig
      if s.stopped then .next s
      else if e.hops = 7 ∧ s.routeOf e.dest ≠ .none then .next (s.log0 codeRoute 0 (e.dest % 4096))
      else .next ((s.netPut { e with hops := e.hops + 1 } b).scarfSeen e b)

end Sys2Proof.Machine
end

