-- ==== Sys2Proof/Machine/Link.lean ====
section
/-! DEFINITION. The tie ring, the Klody ports, training, time transfer and freeze frames (12_ R299 to R311, R317 to R329; 15_
R392 to R394; 16_ R407, R408; assumption logs 11, 12, 16, 19). -/

namespace Sys2Proof.Machine

/-- Does the link logic act on what arrives: out of reset and not in a clock stop (R371)? -/
def State.linkRuns (s : State) : Bool := s.pins.rstN && !s.stopped

/-! ### Members and heads behind a path that is gone (R316, R392, R394) -/

/-- The shares of some heads are abandoned: started ones drain without a REPORT, the others leave the queue (R392). -/
def State.abandonShares (s : State) (f : Nat → Bool) : State :=
  (s.shares.filter fun x => f x.env.head).foldl (fun (s : State) x =>
    let s : State := { s with shares := s.shares.map fun (y : Share) => if y.id = x.id then { y with next := none } else y }
    match x.job with
    | none => s.dropShare x.id
    | some j => (s.setJob (.share x.id) (some { j.drain with silent := true })).dropWaiting (.share x.id)) s

/-- A ring fault (R394): PARITY logged, READY = 0 to the heads, the gang-bound descriptors it heads faulted with GANG_LOST
(R392), its shares drained, and READY = 1 once they are. -/
def State.ringFault (s : State) : State :=
  let s := (({ s with stop := { s.stop with fault := true } } : State).log0 codeParity 0 (unitDetail 8 0)).sendScarf false
  (s.checkGangs.abandonShares fun _ => true).endRingFault

/-! ### The tie ring (R311, R394, R408) -/

/-- The beats of a message whose first beat this is (R311, R328): tag, envelope, body. -/
def ringBeatCount (b : List Byte) : Nat := ceilDiv (20 + fieldAt b 6 2) 32

/-- Is every parity bit of a beat right: one even-parity bit per 4 bytes (R311)? -/
def beatParity (b : List Byte) (par : List Bool) : Bool :=
  ((chunksOf 4 b).zip par).all fun x => parityRight (BitVec.ofNat 32 (leNat x.1)) x.2

/-- A FREEZE frame acted on and passed on (R328, R370). -/
def State.freezeFrame (s : State) (src : Option (Fin 2)) (payload : List Byte) : State :=
  let id := fieldAt payload 0 4
  let origin := fieldAt payload 4 2 % 4096
  let scope := fieldAt payload 6 2 % 4096
  let hops := fieldAt payload 8 1
  if s.frz.seen.contains id then s
  else
    let s := { s with frz := { s.frz with seen := (id :: s.frz.seen).take 8 } }
    let here := scope == 0 || ((s.image.gangs.lookup scope).getD []).contains s.sin
    if here && !s.stopped then s.startFreeze 3 origin id scope (hops + 1) (decide (hops < 7)) src
    else if hops < 7 then s.sendFreeze id origin scope (hops + 1) src
    else s

/-- A whole message consumed from the ring (R311): delivered, or the FREEZE frame it is. -/
def State.ringDeliver (s : State) (b : List Byte) : State :=
  if bitOf (fieldAt b 0 1) 7 then s.freezeFrame none (b.drop 20)
  else
    let e := envOfBytes (b.drop 4)
    { s with inbox := s.inbox ++ [(e, sliceOf b 20 e.len)] }

/-- A direction of the stop changed; a credit goes back for the beat (R408). -/
def State.setDir (s : State) (cw : Bool) (d : RingDir) : State :=
  let d := { d with returned := d.returned + 1 }
  { s with stop := if cw then { s.stop with cw := d } else { s.stop with ccw := d } }

/-- A beat passed on with the parity bits it came with, with a credit of the neighbour (R311, R408). -/
def State.passBeat (s : State) (cw : Bool) (b : List Byte) (par : List Bool) : State :=
  { s with stop := s.stop.drive s.clk.arith [(cw, b, par)] }

/-- The first beat of a message on its way elsewhere: a SCARF is seen as it passes (R320). -/
def State.scarfPassed (s : State) (b : List Byte) : State :=
  if bitOf (fieldAt b 0 1) 7 then s else s.scarfSeen (envOfBytes (b.drop 4)) (b.drop 20)

/-- A beat of a message that ends here: parity, assembly, delivery (R394). `left` counts the beats to come after it. -/
def State.consumeBeat (s : State) (cw : Bool) (d : RingDir) (left : Nat) (b : List Byte) (par : List Bool) : State :=
  if beatParity b par then
    if left = 0 then (s.setDir cw { d with rx := [], need := 0 }).ringDeliver (d.rx ++ b)
    else s.setDir cw { d with rx := d.rx ++ b, need := left }
  else (s.setDir cw { d with rx := [], need := 0, drop := left }).ringFault

/-- A beat at the stop (R408): `deaf` while the stop only forwards and discards. -/
def State.ringBeat (s : State) (cw : Bool) (b : List Byte) (par : List Bool) (deaf : Bool) : State :=
  let d := if cw then s.stop.cw else s.stop.ccw
  if 0 < d.fwd then (s.setDir cw { d with fwd := d.fwd - 1 }).passBeat cw b par
  else if 0 < d.drop then s.setDir cw { d with drop := d.drop - 1 }
  else if 0 < d.need then s.consumeBeat cw d (d.need - 1) b par
  else
    let n := ringBeatCount b - 1
    if fieldAt b 0 1 % 64 ≠ s.params.stop then
      let t := (s.setDir cw { d with fwd := n }).passBeat cw b par
      if deaf then t else t.scarfPassed b
    else if deaf then s.setDir cw { d with drop := n }
    else s.consumeBeat cw d n b par

/-- TIE_RING_BEAT (R408): in reset and until P0 ends beats are forwarded or discarded; none passes a stopped ARITH (R371). -/
def execTieRingBeat (cw : Bool) (data : List Byte) (par : List Bool) (s : State) : Host.Outcome State Fault Refusal :=
  if s.stopped then .next s else .next (s.ringBeat cw data par (!s.pins.rstN || s.nv.phase == 0))

/-! ### Flits (R305 to R307) -/

/-- The ACK and NAK fields of a good flit, with the time of an ACK that advances (R306). -/
def KPort.acksAt (p : KPort) (now : Nat) (flit : List Byte) : KPort :=
  let q := p.acks flit
  if q.txAcked = p.txAcked then q else { q with lastAck := now }

/-- A flit on an up port: a bad one asks for a NAK, whatever its TYPE byte says, for that byte is no more sure than the rest (log 79, DESIGN
CHOICE); a good one drives the transmitter, and a DATA flit the receiver; any flit
but HELLO ends this end's HELLOs (R303, R305, R306). -/
def State.flitIn (s : State) (p : Fin 2) (flit : List Byte) : State :=
  let k := s.kports[p]
  if !s.linkRuns || k.st != .up then s
  else if flitGood flit = false then s.setPort p k.nak
  else
    let k := ({ k with helloOn := k.helloOn && fieldAt flit 0 1 == 5 } : KPort).acksAt s.count flit
    if fieldAt flit 0 1 = 1 then
      let r := k.receive flit
      { s.setPort p r.1 with inbox := s.inbox ++ r.2 }
    else s.setPort p k

/-- DATA_FLIT (R306). -/
def execDataFlit (p : Fin 2) (flit : FlitRx) (s : State) : Host.Outcome State Fault Refusal := .next (s.flitIn p (decodeFlit flit))

/-- IDLE_FLIT (R305). -/
def execIdleFlit (p : Fin 2) (flit : FlitRx) (s : State) : Host.Outcome State Fault Refusal := .next (s.flitIn p (decodeFlit flit))

/-- 1,024 flit times of a port in counts (Table 12.4). -/
def State.replayTime (s : State) : Nat := if s.image.portMode = 2 then 2176 else 4352

/-- REPLAY_TIMEOUT (R306): no ACK advanced for 1,024 flit times; resent from the oldest. -/
def execReplayTimeout (p : Fin 2) (s : State) : Host.Outcome State Fault Refusal :=
  let k := s.kports[p]
  match k.replay with
  | x :: _ =>
    if s.linkRuns && k.st == .up then
      let s := s.untilCount (k.lastAck + s.replayTime)
      .next (s.setPort p { k.resend x.1 with lastAck := s.count })
    else .next s
  | [] => .next s

/-- Training of a port begins at a phase (R301, R307); the transmit settings start from P3 (R302). -/
def KPort.train (p : KPort) (phase edges : Nat) : KPort :=
  { p with st := .training, phase := phase, phaseStart := edges, seen := false, helloOn := false, lanes := List.replicate 8 {} }

/-- RESEND_LIMIT_RETRAIN (R307): retrain from T1, everything held kept. -/
def execResendLimitRetrain (p : Fin 2) (s : State) : Host.Outcome State Fault Refusal :=
  let k := s.kports[p]
  if s.linkRuns && k.st == .up && k.replay.any (fun x => decide (8 ≤ x.2.2)) then
    .next (s.setPort p { k.train 1 s.clk.edges with fromT1 := true, retrains := k.retrains + 1 })
  else .next s

/-! ### Ports up and down (R301, R303, R307, R392, R393) -/

/-- The counter becomes unlocked after READY (R322): logged, signalled, SCARF, and its gangs unscarfed (R315). -/
def State.unlock (s : State) (detail : Nat) : State :=
  if s.clk.locked && s.nv.phase == 7 then
    ((({ s with clk := { s.clk with locked := false } } : State).log0 codeUnlocked 0 detail).irq 8).sendScarf s.scarfReady |>.checkGangs
  else s

/-- A port goes DOWN with a reason (R301): its messages are lost, SCARF entries behind it dropped, shares of heads behind it
abandoned, and the time path may be gone. -/
def State.portDown (s : State) (p : Fin 2) (reason : Nat) : State :=
  let k := s.kports[p]
  let s := s.setPort p { k with
    st := .down, reason := reason, txNext := 0, txAcked := 0, replay := [], rxNext := 0, nakFor := none, nakDue := false,
    rxStream := [], txStream := [], txQueue := [], helloOn := false, fromT1 := false }
  let s := (s.log0 codePort 0 (p.val + 256 * reason)).irq 7
  let gone := fun m => s.routeOf m == .port p
  let s := ((s.scarfs.filter fun x => gone x.sin).map (·.sin)).foldl (fun (s : State) m => s.dropScarf m) s
  let s := s.abandonShares gone
  if s.image.role = 1 ∧ s.image.parentPort = p.val then s.unlock 1 else s

/-- Every unacknowledged flit sent again when a port comes up, from the oldest (R307, R329); its count of resends begins anew (log 79, DESIGN
CHOICE). -/
def KPort.resume (p : KPort) : KPort :=
  let q := p.replay.foldl (fun q x => q.emit 1 (fieldAt x.2.1 0 1) x.1 (x.2.1.length - 1) (x.2.1.drop 1)) p
  KPort.pump 64 { q with replay := p.replay.map fun x => (x.1, x.2.1, 0) }

/-- A port comes up (R303): the flits still unacknowledged are sent again before any new one (R307). -/
def State.portUp (s : State) (p : Fin 2) (flit : List Byte) : State :=
  let k := ({ s.kports[p] with st := .up, fromT1 := false, lastAck := s.count } : KPort).heed flit
  (s.setPort p k.resume).irq 7

/-- A HELLO payload (R303; its layout is log 11's): SIN, port, width, role, SEEN, gang-map digest. -/
def State.helloPayload (s : State) (p : Fin 2) (seen : Bool) : List Byte :=
  natLE 2 s.sin ++ natLE 1 p.val ++ natLE 1 (if s.image.portMode = 2 then 8 else 4) ++ natLE 1 s.image.role ++ natLE 1 (b2n seen) ++ zeros 2 ++
    padTo 32 s.image.mapDigest

/-- A HELLO flit sent. -/
def State.sendHello (s : State) (p : Fin 2) : State :=
  s.setPort p (s.kports[p].emit 5 0 0 0 (s.helloPayload p s.kports[p].seen))

/-- A good HELLO in T5 (R303). -/
def State.helloIn (s : State) (p : Fin 2) (flit : List Byte) : State :=
  let b := flit.drop 8
  let c := s.image.ports.getD p.val {}
  if fieldAt b 0 2 % 4096 ≠ c.peerSin ∨ fieldAt b 2 1 ≠ c.peerPort then s.portDown p 2
  else if sliceOf b 8 32 ≠ padTo 32 s.image.mapDigest then s.portDown p 3
  else
    let s := (s.setPort p { s.kports[p] with seen := true }).sendHello p
    if bitOf (fieldAt b 5 1) 0 then s.portUp p flit else s

/-- HELLO (R303): in T5 it is judged; on an up port it is answered while this end still sends HELLO. -/
def execHello (p : Fin 2) (rx : FlitRx) (s : State) : Host.Outcome State Fault Refusal :=
  let flit := decodeFlit rx
  let k := s.kports[p]
  if !s.linkRuns || flitGood flit = false || fieldAt flit 0 1 != 5 then .next (s.flitIn p flit)
  else if k.st = .training ∧ k.phase = 5 then .next (s.helloIn p flit)
  else if k.st = .up ∧ k.helloOn then .next ((s.flitIn p flit).sendHello p)
  else .next (s.flitIn p flit)

/-! ### Training (R301, R302) -/

/-- The physical lanes of a port (R299). -/
def State.portLanes (s : State) (p : Fin 2) : List Nat :=
  if s.image.portMode = 2 then (if p = 0 then List.range 8 else [])
  else if p = 0 then (if s.image.portMode = 0 then [] else [0, 1, 2, 3])
  else if s.image.portMode = 3 then [4, 5, 6, 7] else []

/-- One tap request answered (R302): the new magnitude in 1/64 and the answer, 1 UPDATED or 2 AT_LIMIT. A request that has
its answer is not applied again before it is withdrawn. INCREMENT raises the signed value, so it lowers the magnitude. -/
def tapRequest (req ans mag top : Nat) : Nat × Nat :=
  if req = 1 then (if ans ≠ 0 then (mag, ans) else if mag = 0 then (mag, 2) else (mag - 1, 1))
  else if req = 2 then (if ans ≠ 0 then (mag, ans) else if top ≤ mag then (mag, 2) else (mag + 1, 1))
  else (mag, 0)

/-- The presets of Table 12.3 as magnitudes of c(-1) and c(+1) in 1/64. -/
def eqPreset (n : Nat) : Option (Nat × Nat) :=
  match n with
  | 1 => some (0, 0) | 2 => some (0, 8) | 3 => some (4, 12) | 4 => some (8, 16)
  | _ => none

/-- A training frame applied to a lane (R302): requests answered, status kept. c(0) follows the other taps (Table 12.1), so a
request for it is answered AT_LIMIT. -/
def LaneEq.frameIn (l : LaneEq) (control status : Nat) : LaneEq :=
  let l := { l with rxControl := control, rxStatus := status }
  match eqPreset (bitsOf control 6 3) with
  | some t => if l.answer = 0 then { l with cm := t.1, cp := t.2, answer := 1 + 4 * 1 + 16 * 1 } else l
  | none =>
    let m := tapRequest (bitsOf control 0 2) (bitsOf l.answer 0 2) l.cm 16
    let z := if bitsOf control 2 2 = 1 ∨ bitsOf control 2 2 = 2 then 2 else 0
    let q := tapRequest (bitsOf control 4 2) (bitsOf l.answer 4 2) l.cp 25
    { l with cm := m.1, cp := q.1, answer := m.2 + 4 * z + 16 * q.2 }

/-- TRAINING_FRAME (R302): only a frame with a valid marker is current. -/
def execTrainingFrame (p : Fin 2) (lane : Nat) (marker : Word) (control status : Nat) (s : State) : Host.Outcome State Fault Refusal :=
  let k := s.kports[p]
  if s.linkRuns ∧ k.st = .training ∧ (s.portLanes p).contains lane ∧ marker = 0x7E6A5A3C#32 then
    .next (s.setPort p { k with lanes := modifyAt k.lanes lane fun l => l.frameIn control status })
  else .next s

/-- A free number as a coded request: each tap HOLD, INCREMENT or DECREMENT, and a preset 0 to 4 (R302). -/
def codedRequest (n : Nat) : Nat :=
  bitsOf n 0 2 % 3 + 4 * (bitsOf n 2 2 % 3) + 16 * (bitsOf n 4 2 % 3) + 64 * (bitsOf n 6 3 % 5)

/-- What a lane sends next: while the peer answers, HOLD; in T2 a further request of its receiver or DONE (log 12, DESIGN CHOICE). -/
def LaneEq.next (l : LaneEq) (eq : Bool) (w : BitVec 16) : LaneEq :=
  let done := l.done || (eq && w.getLsbD 15)
  let answered := decide (bitsOf l.rxStatus 0 6 ≠ 0)
  let c := if done ∨ answered ∨ !eq then 0 else if l.txControl ≠ 0 then l.txControl else codedRequest w.toNat
  { l with txControl := c, done := done }

/-- TRAINING_FRAME_SEND (R302): one frame on each lane of a training port; in T0 its lanes carry PRBS13Q and no frame (R301). Beside it leaves one of the HELLO flits that an end sends from
T5 on until it receives another flit, on an up port too (R303; log 11, DESIGN CHOICE of the moment). -/
def execTrainingFrameSend (p : Fin 2) (s : State) : Host.Outcome State Fault Refusal :=
  let k := s.kports[p]
  if s.linkRuns ∧ k.signal = .training then
    let go := fun (k : KPort) n =>
      let l := (k.lanes.getD n {}).next (k.phase == 2) (Config.eqRequest p.val n s.free)
      { k with lanes := setAt k.lanes n l, frames := k.frames ++ [(n, l.txControl, l.answer + 64 * b2n l.done)] }
    let t : State := { s.setPort p ((s.portLanes p).foldl go k) with free := s.free + 1 }
    .next (if k.helloOn then t.sendHello p else t)
  else if s.linkRuns ∧ k.st = .up ∧ k.helloOn then .next (s.sendHello p)
  else .next s

/-- May T2 end: have both ends of every lane sent DONE (R302)? -/
def State.equalised (s : State) (p : Fin 2) : Bool :=
  (s.portLanes p).all fun n => let l := s.kports[p].lanes.getD n {}; l.done && bitOf l.rxStatus 6

/-- TRAINING_PHASE_DONE (R301): the next phase; T5 begins with a HELLO (R303) and ends with the peer's. -/
def execTrainingPhaseDone (p : Fin 2) (s : State) : Host.Outcome State Fault Refusal :=
  let k := s.kports[p]
  if s.linkRuns ∧ k.st = .training ∧ k.phase < 5 ∧ (k.phase = 2 → s.equalised p = true) then
    let s := s.setPort p { k with phase := k.phase + 1, phaseStart := s.clk.edges, helloOn := decide (k.phase = 4) }
    .next (if k.phase = 4 then s.sendHello p else s)
  else .next s

/-- The limit of a training phase in counts (Table 12.2); T0 has none. -/
def phaseLimit (phase : Nat) : Nat :=
  match phase with
  | 1 => 100000000 | 2 => 400000000 | 3 => 200000000 | 4 => 50000000 | 5 => 50000000
  | _ => 0

/-- TRAINING_PHASE_TIMEOUT (R301, R307): restart at T0, or DOWN after the third restart. -/
def execTrainingPhaseTimeout (p : Fin 2) (s : State) : Host.Outcome State Fault Refusal :=
  let k := s.kports[p]
  if s.linkRuns ∧ k.st = .training ∧ 1 ≤ k.phase then
    let s := s.pass (k.phaseStart + phaseLimit k.phase - s.clk.edges)
    .next (if k.restarts < 3 then s.setPort p { k.train 0 s.clk.edges with restarts := k.restarts + 1 }
      else s.portDown p (if k.fromT1 then 4 else 1))
  else .next s

/-! ### Time (R317 to R324) -/

/-- A number held within a distance of a centre. -/
def within (centre far t : Int) : Int := max (centre - far) (min (centre + far) t)

/-- TRIM as the servo leaves it: within its range, and after READY within 100 ppm of the rate estimate that alignment left (R317, R322;
log 12, DESIGN CHOICE). -/
def State.trimmed (s : State) : State :=
  let t := Config.servoTrim s.free
  let t := within 0 ((2 : Int) ^ 22) (if s.nv.phase = 7 then within s.clk.rate 429496 t else t)
  { s with clk := { s.clk with trim := t }, free := s.free + 1 }

/-- COUNT and FRAC set back by a mean of 256 offsets in units of 1/512 count (R322, R324). -/
def Clk.stepBack (c : Clk) (sum : Int) : Clk :=
  let t : Int := (c.count.toNat : Int) * (2 : Int) ^ 32 + c.frac.toNat - sum * (2 : Int) ^ 15
  { c with count := BitVec.ofInt 64 (t / (2 : Int) ^ 32), frac := BitVec.ofInt 32 (t % (2 : Int) ^ 32), stepped := true, estimates := [] }

/-- Have the last 16 estimates stayed within 0.125 count (R321)? -/
def settled (l : List Int) : Bool := decide (16 ≤ l.length) && (l.drop (l.length - 16)).all fun x => decide (-64 ≤ x ∧ x ≤ 64)

/-- The counter is locked: SCARF, and a time source's RING_TIME (R316, R320, R321). -/
def State.lockNow (s : State) : State :=
  let s := ({ s with clk := { s.clk with locked := true } } : State)
  (s.sendScarf s.scarfReady).sendRingTime (s.params.ring.filter (· != s.sin))

/-- A new estimate of the time error, in 1/512 count (R321, R322). Before READY it counts in the alignment phase alone, and before the step
only where it is `good`: measured against a locked parent (R348). -/
def State.estimate (s : State) (theta : Int) (good : Bool) : State :=
  let counts := s.nv.phase == 7 || (s.nv.phase == 6 && (s.clk.stepped || good))
  let es := if counts then s.clk.estimates ++ [theta] else s.clk.estimates
  let es := es.drop (es.length - 256)
  let t := { s with clk := { s.clk with theta := theta, estimates := es } }
  if s.nv.phase = 7 then
    if s.clk.locked ∧ (theta < -8192 ∨ 8192 < theta) then t.unlock 0 else t.trimmed
  else if s.nv.phase = 6 then
    if s.clk.stepped then
      let t := t.trimmed
      if settled es ∧ s.clk.locked = false then t.lockNow else t
    else if es.length = 256 then { t with clk := t.clk.stepBack es.sum }
    else t
  else t

/-- The signed difference of two timestamps modulo 2^64 (R324). -/
def tsDiff (a b : Nat) : Int := (BitVec.ofInt 64 ((a : Int) - b)).toInt

/-- The offset and the one-way delay of an exchange, each doubled, in 1/256 count (R324). -/
def exchange (a1 b1 b2 a2 : Nat) (asym : Int) : Int × Int :=
  (tsDiff b1 a1 - tsDiff a2 b2 - 2 * asym, tsDiff b1 a1 + tsDiff a2 b2)

/-- A timestamp taken now: COUNT × 256 + ⌊FRAC × 2^-24⌋ modulo 2^64 (R323). -/
def Clk.stamp (c : Clk) : Nat := (c.count.toNat * 256 + c.frac.toNat / 2 ^ 24) % 2 ^ 64

/-- A TIME flit's contents taken (R323, R324): its arrival is kept, and a child measures against its parent. The zeros that a parent sends
before its first TIME flit has come are taken as any other fields (log 79, DESIGN CHOICE). -/
def State.timeIn (s : State) (p : Fin 2) (flit : List Byte) (rxTs : Nat) : State :=
  let b := flit.drop 8
  let tid := fieldAt b 4 4
  let k := s.kports[p]
  let hist := ((tid, rxTs) :: k.rxHist).take 2
  let s := s.setPort p { k with rxTid := tid, rxTs := rxTs, rxHist := hist }
  if s.image.role = 1 ∧ s.image.parentPort = p.val then
    match hist.lookup ((tid + 2 ^ 32 - 1) % 2 ^ 32), k.txTs.lookup (fieldAt b 0x10 4) with
    | some b1, some b2 =>
      s.estimate (exchange (fieldAt b 8 8) b1 b2 (fieldAt b 0x18 8) (s.image.ports.getD p.val {}).asym).1 (bitOf (fieldAt b 3 1) 0)
    | _, _ => s
  else s

/-- TIME_FLIT (R324): it arrives at the count `arrival`, or at once where that has passed (log 3), and is timestamped then (R323). -/
def execTimeFlit (p : Fin 2) (rx : FlitRx) (arrival : Word64) (s : State) : Host.Outcome State Fault Refusal :=
  let flit := decodeFlit rx
  let s := s.untilCount arrival.toNat
  let t := s.flitIn p flit
  if s.linkRuns && s.kports[p].st == .up && flitGood flit && fieldAt flit 0 1 == 3 then .next (t.timeIn p flit s.clk.stamp) else .next t

/-- The payload of this end's next TIME flit (Table 12.11). -/
def State.timePayload (s : State) (p : Fin 2) : List Byte :=
  let k := s.kports[p]
  natLE 2 s.sin ++ natLE 1 s.image.role ++ natLE 1 (b2n s.clk.locked) ++ natLE 4 k.txTid ++
    natLE 8 ((k.txTs.lookup ((k.txTid + 2 ^ 32 - 1) % 2 ^ 32)).getD 0) ++ natLE 4 k.rxTid ++ zeros 4 ++ natLE 8 k.rxTs

/-- TIME_FLIT_SEND (R323): every 4,096 counts, with the timestamp taken as its codeword pair begins to leave, at the count `departure` or at
once where that has passed, kept for the next one. -/
def execTimeFlitSend (p : Fin 2) (departure : Word64) (s : State) : Host.Outcome State Fault Refusal :=
  let k := s.kports[p]
  if s.linkRuns && k.st == .up then
    let s := s.untilCount (k.timeAt + 4096)
    let q := k.emit 3 0 0 0 (s.timePayload p)
    let t := s.untilCount departure.toNat
    .next (t.setPort p { q with
      txTs := ((k.txTid, t.clk.stamp) :: k.txTs).take 16, txTid := (k.txTid + 1) % 2 ^ 32, timeAt := s.count })
  else .next s

/-- The phase error of a pulse in 1/8 count, its deglitch delay and SYNC_DELAY taken off, within half a period (R320). -/
def syncError (ts delay : Nat) : Int := (((ts : Int) - 160 - delay + 16384) % 32768) - 16384

/-- SYNC_IN_EDGE (R320): `ts` in 1/8 count of COUNT, `pulse` the time source's count at the pulse. At the pulse that
RING_TIME named, COUNT and FRAC are set; at every other, the phase error is an estimate. -/
def execSyncInEdge (ts pulse : Nat) (s : State) : Host.Outcome State Fault Refusal :=
  if s.pins.rstN = false ∨ s.lg = .frozen ∨ s.visible = false ∨ s.image.role ≠ 2 then .next s
  else
    let s := s.untilCount (ts / 8)
    if s.nv.phase = 6 ∧ s.clk.stepped = false ∧ s.clk.ringTime = some pulse then
      let late := 160 + s.image.syncDelay
      .next { s with clk := { s.clk with
        count := BitVec.ofNat 64 (pulse + late / 8), frac := BitVec.ofNat 32 (late % 8 * 2 ^ 29), stepped := true, estimates := [], ringTime := none } }
    else .next (s.estimate (64 * syncError ts s.image.syncDelay) false)

/-- SYNC_OUT_PULSE (R319, R320): a time source's pulse at the next multiple of 4,096 counts, high for 64; a SYNC instance holds it low. -/
def execSyncOutPulse (s : State) : Host.Outcome State Fault Refusal :=
  if s.pins.rstN = false ∨ s.visible = false ∨ s.image.role = 2 then .next s
  else
    let first := roundUp s.count 4096
    let t := s.untilCount first
    .next { t with pins := { t.pins with syncOut := t.pins.syncOut + 1, syncTill := first + 64 } }

/-! ### Freezes from outside (R328, R370, R407) -/

/-- The payload of a FREEZE frame: a flit's, or a ring message's body (R305, R311, R328). -/
def freezePayload (src : Option (Fin 2)) (b : List Byte) : List Byte := if src.isSome then sliceOf b 8 240 else b

/-- Does a FREEZE frame reach the instance: by the ring once P0 has ended, by an up port as a good FREEZE flit (R303, R305, R408)? -/
def State.hearsFreeze (s : State) (src : Option (Fin 2)) (b : List Byte) : Bool :=
  s.pins.rstN && s.lg != .frozen &&
    match src with | some p => s.kports[p].st == .up && flitGood b && fieldAt b 0 1 == 4 | none => decide (1 ≤ s.nv.phase)

/-- FREEZE_FRAME (R328, R370): a flit is also one of the port's, with its ACK and NAK (R303, R305, R306). -/
def execFreezeFrame (src : Option (Fin 2)) (frame : FlitRx) (s : State) : Host.Outcome State Fault Refusal :=
  let b := decodeFlit frame
  let t := match src with | some p => s.flitIn p b | none => s
  if s.hearsFreeze src b then .next (t.freezeFrame src (freezePayload src b)) else .next t

/-- FREEZE_IN_EDGE (R370): a trigger in every state but FROZEN. -/
def execFreezeInEdge (s : State) : Host.Outcome State Fault Refusal :=
  if s.pins.rstN then .next (({ s with pins := { s.pins with freezeIn := true } } : State).freezeHere 1) else .next s

end Sys2Proof.Machine
end

