-- ==== Sys2Proof/Machine/Registers.lean ====
section
/-! DEFINITION. The management space as it reads, and the capture set (14_ R357, R373 to R376, Tables 14.2, 14.6 to 14.14; 03_
Table 3.9; assumption logs 10, 12, 20). -/

namespace Sys2Proof.Machine

/-! ### Registers (R375) -/

/-- A field from the image: 0 until load end (R14). -/
def State.img (s : State) (n : Nat) : Nat := if s.visible then n else 0

/-- Bit p for each physical bay of a list. -/
def bayBits (l : List Nat) : Nat := (dedup l).foldl (fun n p => n + 2 ^ p) 0

/-- Word `k` of a byte string. -/
def wordAt (b : List Byte) (k : Nat) : Nat := fieldAt b (4 * k) 4

/-- LG_BAYMASK.SPARED (Table 14.7). -/
def State.sparedBits (s : State) : Nat := bayBits (s.bays.spared.map (·.1))

/-- The offset θ in 1/256 count (Table 14.14); the exact value when it is whole, else either neighbour (log 12, DESIGN CHOICE). -/
def thetaShown (t : Int) : Int := if t % 2 = 0 then t / 2 else t / 2 + (if Config.thetaUp t then 1 else 0)

/-- LG_OWNER (Table 14.8). -/
def Own.word (o : Own) : Nat :=
  (match o.owner with | some m => m.val + 4 | none => 0) + (match o.target with | some t => 8 + 16 * t.val | none => 0) +
    256 * o.reason + 2 ^ 16 * o.epoch.toNat

/-- LG_RAISE_STATUS.OUTCOME (Table 14.9). -/
def Outcome.code : Outcome → Nat
  | .idle => 0 | .armed => 1 | .raised => 2 | .cancelled => 3 | .late => 4 | .missed => 5 | .refused => 6

/-- LG_QUIESCE.LAID: 1 while laid down, through a freeze too (Table 14.9, R368). -/
def State.laid (s : State) : Bool := s.lg == .laidDown || (s.lg == .frozen && s.frz.frozenFrom == 3)

/-- Registers 0x0000 to 0x0018 (Table 14.7). -/
def State.regIdentity (s : State) (off : Nat) : Nat :=
  match off with
  | 0x00 => 0xF1E74C16
  | 0x04 => (if s.params.stepB then 0xB0 else 0xA0) + 0x0100 + 2 ^ 16 * Config.romRevision.toNat
  | 0x08 => s.params.baysBuilt + 2 ^ 16 * s.params.lanes +
      s.img (2 ^ 8 * s.bayCount + 2 ^ 20 * s.image.portMode + 2 ^ 22 * s.image.role + 2 ^ 24 * s.image.minBays)
  | 0x0C => s.img (bayBits s.bays.enabled) + 2 ^ 16 * s.sparedBits
  | 0x10 => s.lgCode + 8 * b2n s.draining + 16 * s.nv.phase + 2 ^ 8 * s.frz.frozenFrom + 2 ^ 11 * b2n s.clk.locked
  | 0x14 => b2n s.active.greenOk
  | 0x18 => s.active.digestN.toNat
  | _ => 0

/-- Registers 0x0020 to 0x0054 (Tables 14.8, 14.9). -/
def State.regControl (s : State) (off : Nat) : Nat :=
  match off with
  | 0x20 => 16 * bayBits (s.own.latch.map (·.val))
  | 0x24 => s.own.word
  | 0x30 => s.irqStatus.toNat
  | 0x34 => s.irqEnable.toNat
  | 0x40 => 2 * b2n s.laid
  | 0x50 => s.raising.outcome.code + 16 * b2n s.raising.originHere + 2 ^ 16 * s.raising.origin
  | 0x54 => s.raising.id.toNat
  | _ => 0

/-- Registers 0x0060 to 0x00EC that are one word wide (Tables 14.10, 14.11). -/
def State.regFreeze (s : State) (off : Nat) : Nat :=
  match off with
  | 0x60 => 4 * b2n s.frz.onFault + 8 * b2n s.frz.propagate + 16 * s.frz.scope + 2 ^ 16 * b2n s.frz.driveOut
  | 0x64 => s.frz.cause + 8 * b2n s.frz.memTimeout + 16 * b2n s.frz.preReady + 2 ^ 16 * s.frz.origin
  | 0x68 => s.frz.id.toNat
  | 0x6C => s.frz.page
  | 0xC0 => b2n s.shadow.greenOk
  | 0xC4 => s.shadow.digestN.toNat
  | 0xE0 => s.nextSeq[0].toNat
  | 0xE4 => s.nextSeq[1].toNat
  | 0xE8 => s.nextSeq[2].toNat
  | 0xEC => s.nextSeq[3].toNat
  | _ => 0

/-- The counters in the order of Table 14.12. -/
def Counters.list (c : Counters) : List Word64 := [c.green, c.oob, c.flat, c.clip, c.widen, c.drift, c.laneCheck, c.eccCe, c.eccUe]

/-- The 64-bit register whose low word stands at an offset (R357, Tables 14.9 to 14.12). -/
def State.reg64 (s : State) (off : Nat) : Option Nat :=
  match off with
  | 0x48 => some s.raising.raiseAt.toNat
  | 0x70 => some s.frz.plumb.toNat
  | 0x80 => some s.clk.count.toNat
  | 0x88 => some s.active.pole.toNat
  | 0x90 => some s.active.offcut.toNat
  | 0xC8 => some s.shadow.pole.toNat
  | 0xD0 => some s.shadow.offcut.toNat
  | _ => if 0x100 ≤ off ∧ off < 0x148 ∧ off % 8 = 0 then (s.ctr.list[(off - 0x100) / 8]?).map (·.toNat) else none

/-- The 64-bit register whose high word stands at an offset. -/
def State.high64 (s : State) (off : Nat) : Option Nat := if 4 ≤ off then s.reg64 (off - 4) else none

/-- Image information, 0x0200 to 0x027F (Table 14.12). -/
def State.regImage (s : State) (off : Nat) : Nat :=
  s.img (match off with
    | 0x200 => s.image.slot
    | 0x204 => s.image.gen
    | 0x208 => s.image.bytes
    | 0x20C => s.image.build
    | 0x210 => s.image.sin
    | 0x214 => s.nv.bootId
    | 0x218 => s.image.stackReserve
    | _ =>
      if off < 0x220 then 0
      else if off < 0x240 then wordAt s.image.digest ((off - 0x220) / 4)
      else if off < 0x260 then wordAt s.curveDigest ((off - 0x240) / 4)
      else wordAt s.image.mapDigest ((off - 0x260) / 4))

/-- CH_CTRL.ENABLE: the image's until READY, then whether the channel is on (Table 14.13, R85). -/
def State.chEnable (s : State) (c : Fin 16) : Bool := if s.nv.phase = 7 then s.chans[c].st != .off else s.visible && (s.cfg c).enabled

/-- The code of a channel's state (Table 3.7). -/
def ChSt.code : ChSt → Nat
  | .off => 0 | .idle => 1 | .wait => 2 | .run => 3 | .halt => 4

/-- Channel control, channel c at 0x0800 + 64c (Table 14.13). -/
def State.regChannel (s : State) (off : Nat) : Nat :=
  let c := Fin.ofNat 16 ((off - 0x800) / 64)
  let x := s.chans[c]
  let g := s.cfg c
  let head := x.queue.head?
  match off % 64 with
  | 0x00 => b2n (s.chEnable c)
  | 0x04 => x.st.code + s.img (8 * b2n g.plumb + 16 * b2n g.grouped + 32 * g.group.val) + 2 ^ 8 * x.occupied + 2 ^ 16 * x.staged +
      2 ^ 24 * ((head.map (·.attempt)).getD 0 % 256)
  | 0x08 => s.img (g.gang + 2 ^ 16 * g.source)
  | 0x0C => (head.map fun e => (Desc.parse e.desc).seq).getD 0
  | 0x10 => x.lastSeq
  | _ => 0

/-- The code of a port's state (Table 14.14). -/
def PortSt.code : PortSt → Nat
  | .absent => 0 | .training => 1 | .up => 2 | .down => 3

/-- KL_PORTp_STATUS (Table 14.14). -/
def State.portStatus (s : State) (p : Fin 2) : Nat :=
  let k := s.kports[p]
  k.st.code + 4 * k.phase + 32 * k.restarts + 2 ^ 8 * k.reason + 2 ^ 16 * s.img (s.image.ports.getD p.val {}).peerSin

/-- The Klody block, 0x1000 to 0x1FFF (Table 14.14). -/
def State.regKlody (s : State) (off : Nat) : Nat :=
  match off with
  | 0x1000 => s.portStatus 0
  | 0x1004 => s.portStatus 1
  | 0x1010 => s.kports[0].replays.toNat
  | 0x1014 => s.kports[0].retrains.toNat
  | 0x1018 => s.kports[1].replays.toNat
  | 0x101C => s.kports[1].retrains.toNat
  | 0x1040 => b2n s.clk.locked
  | 0x1044 => unsignedOf 32 s.clk.trim
  | 0x1048 => unsignedOf 32 (thetaShown s.clk.theta)
  | _ =>
    if 0x1800 ≤ off then ((List.range 8).map fun i => 16 ^ i * s.raising.results.getD (2 * (off - 0x1800) + i) 0).sum
    else 0

/-- The error-log ring, 0x2000 to 0x3FFF (Table 14.14, R376). -/
def State.regLog (s : State) (off : Nat) : Nat :=
  match off with
  | 0x2000 => s.log.head
  | 0x2004 => s.log.tail
  | 0x2008 => s.log.lost.toNat
  | _ =>
    if off < 0x2040 then 0
    else wordAt ((s.log.entries.lookup ((off - 0x2040) / 32)).getD []) ((off - 0x2040) % 32 / 4)

/-- The word of the management space at an aligned offset below the read-out window (Table 14.2); 0 where nothing is
assigned (R356). -/
def State.regWord (s : State) (off : Nat) : Nat :=
  match s.reg64 off with
  | some v => v % 2 ^ 32
  | none =>
    match s.high64 off with
    | some v => v / 2 ^ 32
    | none =>
      if off < 0x20 then s.regIdentity off
      else if off < 0x60 then s.regControl off
      else if off < 0x200 then s.regFreeze off
      else if off < 0x280 then s.regImage off
      else if off < 0x400 then 0
      else if off < 0x500 then s.img (s.slotWord ((off - 0x400) / 4))
      else if off < 0x800 then 0
      else if off < 0xC00 then s.regChannel off
      else if off < 0x1000 then 0
      else if off < 0x2000 then s.regKlody off
      else if off < 0x4000 then s.regLog off
      else 0

/-! ### The capture set (R373, R374) -/

/-- The header (R374). -/
def State.captureHeader (s : State) : List Byte :=
  natLE 2 1 ++ natLE 2 s.sin ++ natLE 4 (if s.frz.cause = 3 then s.frz.id.toNat else 0) ++ natLE 8 s.frz.plumb.toNat ++ natLE 1 s.frz.cause ++
    natLE 1 s.frz.frozenFrom ++ natLE 1 s.bayCount ++ zeros 1 ++ natLE 2 (bayBits s.bays.enabled) ++ natLE 2 s.sparedBits ++
    natLE 4 s.frz.ueRead ++ natLE 4 s.frz.ueFirst

/-- A capture-set byte whose place the spec does not lay out (log 10, DESIGN CHOICE). -/
def State.openByte (s : State) (off : Nat) : Byte := Config.captureByte s.free off

/-- The side bits of a tally as the capture set lays them out (Table 14.6). -/
def Tally.sides (t : Tally) : Nat := b2n t.nan + 2 * b2n t.posInf + 4 * b2n t.negInf + 8 * b2n t.nonempty + 16 * b2n t.notNegZero

/-- A tally as stored: limbs 0 to 9, side bits, the number of the reduced row it holds (R147, Table 14.6). -/
def Tally.stored (t : Tally) (row : Nat) : List Byte :=
  natLE 80 (t.t % (2 : Int) ^ 640).toNat ++ natLE 1 t.sides ++ zeros 7 ++ natLE 8 row

/-- The byte of the tally region at an offset in it; free where no descriptor has opened the tally (log 10, DESIGN CHOICE). -/
def State.captureTally (s : State) (off : Nat) : Byte :=
  match s.bays.tallies.lookup (off / 2048, off % 2048 / 128) with
  | some x => (x.1.stored x.2).getD (off % 128) 0#8
  | none => s.openByte (0x1C000 + off)

/-- The descriptors that occupy a channel's queue entries, the oldest first: retired ones, then those queued (R70, Table 14.6). -/
def Chan.descriptors (x : Chan) : List (List Byte) := x.retired.map (·.desc) ++ x.queue.map (·.desc)

/-- The byte of the capture set at an offset (Table 14.6). -/
def State.captureAt (s : State) (off : Nat) : Byte :=
  if off < 0x1000 then s.captureHeader.getD off 0#8
  else if off < 0x2000 then (natLE 4 (s.frz.mgmtCopy.getD ((off - 0x1000) / 4) 0).toNat).getD (off % 4) 0#8
  else if off < 0x4000 then s.openByte off
  else if off < 0x14000 then
    let c := Fin.ofNat 16 ((off - 0x4000) / 4096)
    match s.chans[c].descriptors[(off - 0x4000) % 4096 / 128]? with
    | some b => b.getD (off % 128) 0#8
    | none => s.openByte off
  else if off < 0x1C000 then
    match s.shares[(off - 0x14000) / 1024]? with
    | some x => x.body.getD (off % 1024) 0#8
    | none => s.openByte off
  else if off < 0x24000 then s.captureTally (off - 0x1C000)
  else if off < 0x34000 then s.openByte off
  else if off < 0x100000 then 0#8
  else
    let a := off - 0x100000
    if s.bays.enabled.contains (a / 2 ^ 20) then s.bays.byteAt a else 0#8

/-- A read of a yard word through the window (R26, R373): a single-bit error is corrected and written back; an uncorrectable word counts on
every read (R377) and is recorded in the header, once for both its halves (R374). -/
def State.captureYard (s : State) (off : Nat) : State :=
  let w := (off - 0x100000) / 8
  if off < 0x100000 ∨ s.bays.enabled.contains ((off - 0x100000) / 2 ^ 20) = false then s
  else if s.bays.yardUE.contains w then
    if s.frz.ueWords.contains w then s.countUE
    else { s.countUE with frz := { s.frz with
      ueRead := s.frz.ueRead + 1, ueFirst := if s.frz.ueRead = 0 then off / 8 * 8 else s.frz.ueFirst, ueWords := w :: s.frz.ueWords } }
  else if s.bays.yardCE.contains w then
    ({ s with bays := { s.bays with yardCE := s.bays.yardCE.filter (· != w) } } : State).corrected 0 (yardOffset w)
  else s

/-- A read of the read-out window at offset 0x4000 + k (R373): 0 unless FROZEN. -/
def State.readWindow (s : State) (k : Nat) : State × Word :=
  if s.lg ≠ .frozen then (s, 0)
  else
    let off := s.frz.page * 16384 + k / 4 * 4
    if 0x1100000 ≤ off then (s, 0)
    else
      let w := BitVec.ofNat 32 (leNat ((List.range 4).map fun i => s.captureAt (off + i)))
      (s.captureYard off, w)

/-! ### Reads (R356, R357, R421) -/

/-- Is a word served from the configuration store or the slot-table shadow (R421)? -/
def fromConfig (off : Nat) : Bool :=
  off == 0x08 || (decide (0x200 ≤ off) && decide (off < 0x240)) || (decide (0x260 ≤ off) && decide (off < 0x280)) ||
    (decide (0x400 ≤ off) && decide (off < 0x500)) || (decide (0x800 ≤ off) && decide (off < 0xC00)) || off == 0x1000 || off == 0x1004

/-- A master's read of an aligned offset (R356, R357): low words latch the high word, high words return what was latched. -/
def State.mgmtRead (s : State) (m : Fin 4) (off : Nat) : State :=
  let s := if s.visible && fromConfig off then s.readConfig else s
  if 0x4000 ≤ off ∧ off < 0x8000 then
    let r := s.readWindow (off - 0x4000)
    r.1.respond m 0 r.2
  else
    match s.reg64 off with
    | some v =>
      ({ s with mgHigh := (m, off, BitVec.ofNat 32 (v / 2 ^ 32)) :: s.mgHigh.filter fun x => !(x.1 == m && x.2.1 == off) } : State).respond m 0
        (BitVec.ofNat 32 v)
    | none =>
      match s.high64 off with
      | some _ =>
        match s.mgHigh.find? fun x => x.1 == m && x.2.1 == off - 4 with
          | some x => s.respond m 0 x.2.2
          | none => ({ s with free := s.free + 1 } : State).respond m 0 (Config.unlatchedHigh s.free)
      | none => s.respond m 0 (BitVec.ofNat 32 (s.regWord off))

/-- A read of any address: an unaligned one is answered BAD_ADDR (R356). -/
def State.mgmtReadAt (s : State) (m : Fin 4) (off : Nat) : State := if off % 4 = 0 then s.mgmtRead m off else s.respond m 4

/-- READOUT_WINDOW_READ (R373). -/
def execReadoutWindowRead (m : Fin 4) (k : Nat) (s : State) : Host.Outcome State Fault Refusal :=
  if s.pins.rstN then .next (s.mgmtReadAt m (0x4000 + k % 0x4000)) else .next s

/-- LOW_WORD_READ (R357), and by the same port every other read (R356). -/
def execLowWordRead (m : Fin 4) (off : Nat) (s : State) : Host.Outcome State Fault Refusal :=
  if s.pins.rstN then .next (s.mgmtReadAt m off) else .next s

end Sys2Proof.Machine
end

