-- ==== Sys2Proof/Machine/Management.lean ====
section
/-! DEFINITION. Writes of the management port: ownership, atomic change, freeze and thaw, channel enables, and the other
registers (14_ R356 to R372, R376; 03_ R85, R90; 13_ R349, R350; 12_ R301, R329; assumption logs 16, 20, 21). -/

namespace Sys2Proof.Machine

/-! ### Ownership (R358 to R363) -/

/-- The owner changes: EPOCH, REASON, no handover pending, the beat timer started (R361 to R363). -/
def Own.change (o : Own) (m : Option (Fin 4)) (reason now : Nat) : Own :=
  { o with owner := m, reason := reason, epoch := o.epoch + 1, target := none, beatAt := now }

/-- A claim before load end sets the claim latch (R349). -/
def State.latchClaim (s : State) (m : Fin 4) : State :=
  ({ s with own := { s.own with latch := if s.own.latch.contains m then s.own.latch else s.own.latch ++ [m] } } : State).respond m 0

/-- A claim after load end (R359). -/
def State.claimNow (s : State) (m : Fin 4) : State :=
  let o := s.own
  if o.owner = none ∧ o.target = none then ({ s with own := o.change (some m) 1 s.clk.mgmt } : State).respond m 0
  else if o.owner = some m then s.respond m 0
  else if o.target = some m then (({ s with own := o.change (some m) 3 s.clk.mgmt } : State).irq 2).respond m 0
  else s.respond m 2

/-- CLAIM (R349, R359). -/
def execClaim (m : Fin 4) (s : State) : Host.Outcome State Fault Refusal :=
  if s.pins.rstN = false then .next s else if s.visible then .next (s.claimNow m) else .next (s.latchClaim m)

/-- RELEASE (R362): alone or together with CLAIM, it requires the owner. -/
def execRelease (m : Fin 4) (_withClaim : Bool) (s : State) : Host.Outcome State Fault Refusal :=
  .next (s.byOwner m fun s => ({ s with own := s.own.change none 4 s.clk.mgmt } : State).respond m 0)

/-- HANDOVER (R360): a target that is the owner itself has no effect. -/
def execHandover (m target : Fin 4) (s : State) : Host.Outcome State Fault Refusal :=
  .next (s.byOwner m fun s =>
    if target = m then s.respond m 0
    else ({ s with own := { s.own with target := some target, deadline := s.clk.mgmt + 1000000 } } : State).respond m 0)

/-- HANDOVER_EXPIRED (R360). -/
def execHandoverExpired (s : State) : Host.Outcome State Fault Refusal :=
  if s.pins.rstN ∧ s.own.target ≠ none then
    let t := s.untilMgmt s.own.deadline
    .next (({ t with own := { t.own with target := none, reason := 6 } } : State).irq 2)
  else .next s

/-- OWNER_BEAT (R361): any value restarts the timer. -/
def execOwnerBeat (m : Fin 4) (beat : Word) (s : State) : Host.Outcome State Fault Refusal :=
  .next (s.byOwner m fun s => ({ s with own := { s.own with beatAt := s.clk.mgmt, beat := beat } } : State).respond m 0)

/-- LAPSE (R361): 100,000,000 MGMT cycles without a beat. -/
def execLapse (s : State) : Host.Outcome State Fault Refusal :=
  match s.own.owner with
  | some m =>
    if s.pins.rstN then
      let t := s.untilMgmt (s.own.beatAt + 100000000)
      .next ((({ t with own := t.own.change none 5 t.clk.mgmt } : State).log0 codeLapse 0 m.val).irq 1)
    else .next s
  | none => .next s

/-- IRQ_STATUS_CLEAR (R14, Table 14.8). -/
def execIrqStatusClear (m : Fin 4) (mask : Word) (s : State) : Host.Outcome State Fault Refusal :=
  .next (s.byOwner m fun s => ({ s with irqStatus := s.irqStatus &&& ~~~(mask.setWidth 9) } : State).respond m 0)

/-! ### Stop, change, restart (R364 to R369) -/

/-- A write of 1 to LG_QUIESCE.REQ by the owner (R366). -/
def State.quiesceWrite (s : State) (m : Fin 4) : State :=
  match s.lg with
  | .ready => let t := ({ s with draining := true } : State).respond m 0; if t.stopped then t else t.checkQuiesce
  | .laidDown => s.respond m 0
  | _ => s.respond m 3

/-- QUIESCE (R366, R350). -/
def execQuiesce (m : Fin 4) (s : State) : Host.Outcome State Fault Refusal := .next (s.byOwner m fun s => s.quiesceWrite m)

/-- The RAISE_ID of a raise that starts here, with the count of its raises (Table 14.9). -/
def State.newRaiseId (s : State) : Word := BitVec.ofNat 32 (s.sin * 2 ^ 20 + (s.raising.made + 1) % 2 ^ 20)

/-- A raise refused: OUTCOME, this instance its origin (R367). -/
def State.raiseRefused (s : State) (m : Fin 4) (o : Outcome) : State :=
  ({ s with raising := { s.raising with outcome := o, originHere := true, origin := s.sin } } : State).respond m 2

/-- A write of LG_RAISE with GO and SCOPE 0x000 (R367). -/
def State.raiseLocalWrite (s : State) (m : Fin 4) : State :=
  if s.lg ≠ .laidDown then s.respond m 3
  else if s.raising.armed.isSome then s.respond m 2
  else if s.raising.raiseAt.toNat < s.count + 10000 then s.raiseRefused m .late
  else
    let t := s.arm s.raising.raiseAt.toNat s.sin s.newRaiseId 0
    let r : RaiseRun := { id := s.newRaiseId, count := s.raising.raiseAt.toNat, scope := 0, results := [1], stands := true }
    ({ t with raising := { t.raising with made := t.raising.made + 1, runs := t.raising.runs ++ [r] } } : State).respond m 0

/-- RAISE_LOCAL (R367, R350). -/
def execRaiseLocal (m : Fin 4) (s : State) : Host.Outcome State Fault Refusal := .next (s.byOwner m fun s => s.raiseLocalWrite m)

/-- The origin starts the timeline of Table 12.13: its own answer, and RAISE to every other target. A raise that runs already goes on
beside it. -/
def State.raiseStart (s : State) (gang : Nat) : State :=
  let at1 := s.raising.raiseAt.toNat
  let ms := s.gangMembers gang
  let id := s.newRaiseId
  let own := s.raiseAnswer at1
  let t := if own = 0 then s.arm at1 s.sin id gang
    else { s with raising := { s.raising with outcome := .idle, originHere := true, origin := s.sin, id := id, scope := gang } }
  let body := raiseBody at1 id.toNat gang 0
  let r : RaiseRun := { id := id, count := at1, scope := gang, results := ms.map fun x => if x = s.sin then own + 1 else 0 }
  let t : State := { t with raising := { t.raising with made := t.raising.made + 1, runs := t.raising.runs ++ [r] } }
  (ms.filter (· != s.sin)).foldl (fun (s : State) x => s.netSend (s.envTo 8 x body) body) t

/-- A write of LG_RAISE with GO and a Gang ID (R367). -/
def State.raiseGangWrite (s : State) (m : Fin 4) (gang : Nat) : State :=
  if s.stopped || (s.lg != .ready && s.lg != .laidDown) then s.respond m 3
  else if ((s.image.gangs.lookup gang).getD []).contains s.sin = false then s.raiseRefused m .refused
  else if s.raising.armed.isSome then s.respond m 2
  else if s.raising.raiseAt.toNat < s.count + 10000 then s.raiseRefused m .late
  else (s.raiseStart gang).respond m 0

/-- RAISE_GANG (R367, R350, R326). -/
def execRaiseGang (m : Fin 4) (gang : Nat) (s : State) : Host.Outcome State Fault Refusal := .next (s.byOwner m fun s => s.raiseGangWrite m gang)

/-- A low word held for a master (R357). -/
def State.holdLow (s : State) (m : Fin 4) (off : Nat) (v : Word) : State :=
  ({ s with mgLow := (m, off, v) :: s.mgLow.filter fun x => !(x.1 == m && x.2.1 == off) } : State).respond m 0

/-- Both halves of a 64-bit write, with the low word held, or the one that stands where none is held. -/
def State.bothHalves (s : State) (m : Fin 4) (off : Nat) (stands : Nat) (high : Word) : Word64 :=
  let low := match s.mgLow.find? fun x => x.1 == m && x.2.1 == off with | some x => x.2.2 | none => BitVec.ofNat 32 stands
  high ++ low

/-- The held low word is used up. -/
def State.dropLow (s : State) (m : Fin 4) (off : Nat) : State := { s with mgLow := s.mgLow.filter fun x => !(x.1 == m && x.2.1 == off) }

/-- A write of a half of LG_RAISE_AT (R357, R369). -/
def State.raiseAtHalf (s : State) (m : Fin 4) (high : Bool) (v : Word) : State :=
  if s.raising.armed.isSome then s.respond m 3
  else if high then
    let w := s.bothHalves m 0x48 s.raising.raiseAt.toNat v
    (({ s with raising := { s.raising with raiseAt := w } } : State).dropLow m 0x48).respond m 0
  else s.holdLow m 0x48 v

/-- RAISE_AT_WRITE (R369). -/
def execRaiseAtWrite (m : Fin 4) (high : Bool) (value : Word) (s : State) : Host.Outcome State Fault Refusal :=
  .next (s.byOwner m fun s => s.raiseAtHalf m high value)

/-- A write of a shadow register (R364, R369, Table 14.11). -/
def State.shadowTo (s : State) (m : Fin 4) (off : Nat) (v : Word) : State :=
  if s.raising.armed.isSome then s.respond m 3
  else match off with
    | 0xC0 => ({ s with shadow := { s.shadow with greenOk := v.getLsbD 0 } } : State).respond m 0
    | 0xC4 => ({ s with shadow := { s.shadow with digestN := v } } : State).respond m 0
    | 0xC8 => s.holdLow m 0xC8 v
    | 0xCC =>
      let w := s.bothHalves m 0xC8 s.shadow.pole.toNat v
      (({ s with shadow := { s.shadow with pole := w.setWidth 48 } } : State).dropLow m 0xC8).respond m 0
    | 0xD0 => s.holdLow m 0xD0 v
    | 0xD4 =>
      let w := s.bothHalves m 0xD0 s.shadow.offcut.toNat v
      (({ s with shadow := { s.shadow with offcut := w.setWidth 48 } } : State).dropLow m 0xD0).respond m 0
    | _ => s.respond m 0

/-- SHADOW_WRITE (R364, R369). -/
def execShadowWrite (m : Fin 4) (off : Nat) (value : Word) (s : State) : Host.Outcome State Fault Refusal :=
  .next (s.byOwner m fun s => s.shadowTo m off value)

/-- Is a descriptor of a sequence group queued: does it occupy a queue entry, through the sequence hold too (R70, R90)? -/
def State.groupQueued (s : State) (g : Fin 4) : Bool :=
  channels.any fun c => (s.cfg c).grouped && (s.cfg c).group == g && s.chans[c].occupied != 0

/-- A write of LG_NEXTSEQg (R90, Table 14.11). -/
def State.nextSeqTo (s : State) (m : Fin 4) (g : Fin 4) (v : Word) : State :=
  if s.groupQueued g then s.respond m 3 else ({ s with nextSeq := s.nextSeq.set g v } : State).respond m 0

/-- NEXTSEQ_WRITE (R90). -/
def execNextseqWrite (m g : Fin 4) (value : Word) (s : State) : Host.Outcome State Fault Refusal :=
  .next (s.byOwner m fun s => s.nextSeqTo m g value)

/-! ### Channels (R85) -/

/-- LG_STATE is READY or LAID_DOWN (R85, Table 14.13). -/
def State.mayEnable (s : State) : Bool := !s.stopped && (s.lgCode == 1 || s.lgCode == 3)

/-- The head descriptor of a channel completes ABORTED (R85), with its story-pole entry where a validation has read the ring
block (R290; log 62, DEDUCED). -/
def State.abortHead (s : State) (c : Fin 16) : State :=
  match s.chans[c].queue with
  | [] => s
  | e :: _ =>
    let d := Desc.parse e.desc
    let r : Record := { seq := d.seq, status := stAborted, ch := c.val, start := s.count, stop := s.count }
    let pole := if d.ledger ∧ (blockOf e.blocks 4) ≠ [] then [s.poleOf c e r none] else []
    (s.hold c (s.package c e r [] pole)).popHead c

/-- Every descriptor of a queue of `n` completes ABORTED, in queue order. -/
def State.abortAll : Nat → State → Fin 16 → State
  | 0, s, _ => s
  | n + 1, s, c => State.abortAll n (s.abortHead c) c

/-- A channel is disabled (R85): a fault whose completion is not yet formed gets it, its queue completes ABORTED. -/
def State.disable (s : State) (c : Fin 16) : State :=
  let s := match s.chans[c].halted, s.chans[c].queue with
    | some h, e :: _ => if h.drained then s else s.hold c (s.faultPackage c e h)
    | _, _ => s
  let t := State.abortAll s.chans[c].queue.length (s.discardBlocks c) c
  t.onChan c fun x => { x with st := .off, val := none, halted := none }

/-- A write of CH_CTRL.ENABLE (R85, Table 14.13). -/
def State.enableWrite (s : State) (m : Fin 4) (c : Fin 16) (on : Bool) : State :=
  if s.mayEnable = false then s.respond m 3
  else if on then (if s.chans[c].st = .off then s.onChan c fun x => { x with st := .idle } else s).respond m 0
  else (if s.chans[c].st = .off then s else s.disable c).respond m 0

/-- CHANNEL_ENABLE (R85). -/
def execChannelEnable (m : Fin 4) (c : Fin 16) (s : State) : Host.Outcome State Fault Refusal :=
  .next (s.byOwner m fun s => s.enableWrite m c true)

/-- CHANNEL_DISABLE (R85, R387). -/
def execChannelDisable (m : Fin 4) (c : Fin 16) (s : State) : Host.Outcome State Fault Refusal :=
  .next (s.byOwner m fun s => s.enableWrite m c false)

/-! ### Freeze and thaw (R370 to R372) -/

/-- The RWO fields of LG_FREEZE_CTL (Table 14.10). -/
def Freezing.controls (f : Freezing) (v : Word) : Freezing :=
  { f with onFault := v.getLsbD 2, propagate := v.getLsbD 3, scope := bitsOf v.toNat 4 12, driveOut := v.getLsbD 16 }

/-- LG_STATE as it was, from FROZEN_FROM (R372). -/
def lgOf (code : Nat) : Lg :=
  if code = 0 then .seasoning else if code = 3 then .laidDown else if code = 5 then .fault else .ready

/-- Every port but an absent one retrains from T0 with RESTARTS cleared (R301, R329, R372). -/
def KPort.thawed (p : KPort) (edges : Nat) : KPort :=
  if p.st = .absent then p else { p.train 0 edges with restarts := 0 }

/-- A counter frozen for longer than 16 counts' drift at 100 ppm becomes unlocked (R322, R329). -/
def State.driftCheck (s : State) (frozen : Nat) : State := if s.image.role ≠ 0 ∧ 160000 < frozen then s.unlock 0 else s

/-- What goes on once the clocks run again: a fault that was put off, or the SCARF of an instance that is READY again; the
responses that waited, messages held off, a quiesce whose last work had ended (R74, R316, R366, R372, R396). -/
def State.resumeAll (s : State) (held : List Instr) : State :=
  let s := if s.frz.pendingFault then
      ({ s with frz := { s.frz with pendingFault := false } } : State).enterFault s.frz.faultEntry
    else if s.scarfReady then s.sendScarf true
    else s
  let s := held.foldl State.replayResponse s
  s.takeHeldOff.reissue.checkQuiesce.progressAll

/-- An armed raise whose edge passed during the freeze is missed (R369, R372). -/
def State.missedInFreeze (s : State) : State :=
  match s.raising.armed with
  | some c => if c ≤ s.count then s.missRaise else s
  | none => s

/-- The thaw (R372): clocks, LG_STATE, FREEZE_OUT, ports, a raise that was missed, SCARF silence counted afresh (R316), plumb promises gone
(R283). -/
def State.thawNow (s : State) : State :=
  let frozen := s.count - s.frz.startedAt
  let held := s.port.held
  let t : State := { s with
    lg := if s.frz.pendingFault then .ready else lgOf s.frz.frozenFrom
    pins := { s.pins with freezeOut := false }
    kports := s.kports.map fun k => k.thawed s.clk.edges
    port := { s.port with held := [] }
    scarfs := s.scarfs.map fun x => { x with heard := s.count }
    sched := { s.sched with broken := (channels.filter fun c => (s.cfg c).plumb).map (·.val) } }
  (t.missedInFreeze.driftCheck frozen).resumeAll held

/-- Is a THAW refused (R372)? -/
def State.thawBarred (s : State) : Bool := s.lg != .frozen || s.frz.preReady || s.frz.memTimeout || s.pins.freezeIn

/-- A write of LG_FREEZE_CTL (R370, R372, Table 14.10). -/
def State.freezeCtl (s : State) (m : Fin 4) (v : Word) : State :=
  if v.getLsbD 1 && s.thawBarred then s.respond m 3
  else
    let t := ({ s with frz := s.frz.controls v } : State).respond m 0
    let t := if v.getLsbD 1 then t.thawNow else t
    if v.getLsbD 0 then t.freezeHere 2 else t

/-- FREEZE (R370): the write has FREEZE = 1. -/
def execFreeze (m : Fin 4) (value : Word) (s : State) : Host.Outcome State Fault Refusal :=
  .next (s.byOwner m fun s => s.freezeCtl m (value ||| 1))

/-- THAW (R372): the write has THAW = 1; `freezeIn` is the level of FREEZE_IN then. -/
def execThaw (m : Fin 4) (value : Word) (freezeIn : Bool) (s : State) : Host.Outcome State Fault Refusal :=
  .next (({ s with pins := { s.pins with freezeIn := freezeIn } } : State).byOwner m fun s => s.freezeCtl m (value ||| 2))

/-- FREEZE_COMPLETE (R370, Table 14.5, steps 5 and 6): responses still outstanding are lost; the copy of the management space
is what stood at the clock stop (R373). -/
def execFreezeComplete (s : State) : Host.Outcome State Fault Refusal :=
  if s.pins.rstN ∧ s.frz.running then
    let copy := (List.range 1024).map fun k => BitVec.ofNat 32 (s.regWord (4 * k))
    let waits := s.port.out.any fun q => !(s.port.held.any fun i => match i with
      | .memoryReadResponse tag _ _ _ => tag == q.tag
      | .memoryWriteAck tag _ => tag == q.tag
      | .validationBlockReadDone c blk _ _ => q.use == .block c blk
      | .completionRecordWriteAck c _ => q.use == .record c
      | .ringRecordWriteAck r _ => q.use == .ringRecord r
      | _ => false)
    .next (({ s with
      lg := .frozen
      frz := { s.frz with running := false, memTimeout := waits, plumb := s.clk.count, mgmtCopy := copy, ueRead := 0, ueFirst := 0, ueWords := [] } } : State).irq 5)
  else .next s

/-! ### Other registers (R14, R301, R376) -/

/-- A write of KL_CTL.RETRAIN (Table 14.14): ignored for an absent port. -/
def State.retrainPorts (s : State) (bits : Nat) : State :=
  { s with kports := s.kports.mapFinIdx fun i k _ =>
      if bitOf bits i ∧ k.st ≠ .absent then { k.train 0 s.clk.edges with restarts := 0, reason := 0, fromT1 := false } else k }

/-- RETRAIN (R301). -/
def execRetrain (m : Fin 4) (bits : Nat) (s : State) : Host.Outcome State Fault Refusal :=
  .next (s.byOwner m fun s => (s.retrainPorts bits).respond m 0)

/-- A write of LOG_TAIL (R376). -/
def State.tailWrite (s : State) (m : Fin 4) (v : Word) : State :=
  let n := v.toNat % 256
  (if n < 254 then { s with log := { s.log with tail := n } } else s).respond m 0

/-- LOG_TAIL_WRITE (R376). -/
def execLogTailWrite (m : Fin 4) (value : Word) (s : State) : Host.Outcome State Fault Refusal :=
  .next (s.byOwner m fun s => s.tailWrite m value)

/-- A write of LG_CLAIM by its bits (R359, R362). -/
def State.claimWrite (s : State) (m : Fin 4) (v : Word) : State :=
  if v.getLsbD 1 then s.byOwner m fun s => ({ s with own := s.own.change none 4 s.clk.mgmt } : State).respond m 0
  else if v.getLsbD 0 then (if s.visible then s.claimNow m else s.latchClaim m)
  else s.respond m 0

/-- The owner's write of a register of 0x0028 to 0x006C (Tables 14.8 to 14.10). -/
def State.ownedWrite (s : State) (m : Fin 4) (off : Nat) (v : Word) : State :=
  match off with
  | 0x28 =>
    let t : Fin 4 := Fin.ofNat 4 (v.toNat % 4)
    if v.getLsbD 2 ∧ t ≠ m then
      ({ s with own := { s.own with target := some t, deadline := s.clk.mgmt + 1000000 } } : State).respond m 0
    else s.respond m 0
  | 0x2C => ({ s with own := { s.own with beatAt := s.clk.mgmt, beat := v } } : State).respond m 0
  | 0x30 => ({ s with irqStatus := s.irqStatus &&& ~~~(v.setWidth 9) } : State).respond m 0
  | 0x34 => ({ s with irqEnable := v.setWidth 9 } : State).respond m 0
  | 0x40 => if v.getLsbD 0 then s.quiesceWrite m else s.respond m 0
  | 0x44 =>
    if v.getLsbD 0 then (if bitsOf v.toNat 4 12 = 0 then s.raiseLocalWrite m else s.raiseGangWrite m (bitsOf v.toNat 4 12))
    else s.respond m 0
  | 0x48 => s.raiseAtHalf m false v
  | 0x4C => s.raiseAtHalf m true v
  | 0x60 => s.freezeCtl m v
  | 0x6C => ({ s with frz := { s.frz with page := v.toNat % 65536 } } : State).respond m 0
  | _ => s.respond m 0

/-- A write of any register by its access code (R14, R350, R356): read-only and unassigned offsets ignore it. -/
def State.mgmtWrite (s : State) (m : Fin 4) (off : Nat) (v : Word) : State :=
  if off = 0x20 then s.claimWrite m v
  else if [0x28, 0x2C, 0x30, 0x34, 0x40, 0x44, 0x48, 0x4C, 0x60, 0x6C].contains off then s.byOwner m fun s => s.ownedWrite m off v
  else if [0xC0, 0xC4, 0xC8, 0xCC, 0xD0, 0xD4].contains off then s.byOwner m fun s => s.shadowTo m off v
  else if [0xE0, 0xE4, 0xE8, 0xEC].contains off then s.byOwner m fun s => s.nextSeqTo m (Fin.ofNat 4 ((off - 0xE0) / 4)) v
  else if 0x800 ≤ off ∧ off < 0xC00 ∧ off % 64 = 0 then
    s.byOwner m fun s => s.enableWrite m (Fin.ofNat 16 ((off - 0x800) / 64)) (v.getLsbD 0)
  else if off = 0x1008 then s.byOwner m fun s => (s.retrainPorts (v.toNat % 4)).respond m 0
  else if off = 0x2004 then s.byOwner m fun s => s.tailWrite m v
  else s.respond m 0

/-- REGISTER_WRITE (R14); an unaligned address is answered BAD_ADDR (R356). -/
def execRegisterWrite (m : Fin 4) (off : Nat) (value : Word) (s : State) : Host.Outcome State Fault Refusal :=
  if s.pins.rstN then .next (if off % 4 = 0 then s.mgmtWrite m off value else s.respond m 4) else .next s

/-- MGMT_BAD_ADDRESS (R356). -/
def execMgmtBadAddress (m : Fin 4) (_write : Bool) (s : State) : Host.Outcome State Fault Refusal :=
  if s.pins.rstN then .next (s.respond m 4) else .next s

end Sys2Proof.Machine
end

