-- ==== Sys2Proof/Machine/TestAccess.lean ====
section
/-! DEFINITION. The test port (16_ R418, Table 16.11; assumption log 6, PRESUMED). -/

namespace Sys2Proof.Machine

/-- The IDCODE (Table 16.11). -/
def idcodeOf (p : Params) : Word := BitVec.ofNat 32 ((if p.stepB then 2 ^ 28 else 0) + 0x4C16 * 2 ^ 12 + p.jtagMfr % 2 ^ 11 * 2 + 1)

/-- A test instruction with its data register. -/
def State.testInstr (s : State) (ir : BitVec 6) (dr : Word) (scan : Bool) : State := { s with jtag := { s.jtag with ir := ir, dr := dr, scan := scan } }

/-- IDCODE (R418). -/
def execIdcode (s : State) : Host.Outcome State Fault Refusal := .next (s.testInstr 0x01 (idcodeOf s.params) false)

/-- FUSE_READ (R418). -/
def execFuseRead (s : State) : Host.Outcome State Fault Refusal := .next (s.testInstr 0x02 (BitVec.ofNat 32 s.pins.fuses) false)

/-- Every store destroyed (R418): what the yards hold is undefined until load end clears them; of the other stores nothing is held while
RST_N is low (log 6). -/
def State.destroyStores (s : State) : State :=
  { s with bays := { s.bays with
      yard := [], undef := [(0, 2 ^ 24, s.bays.undefNext)], undefNext := s.bays.undefNext + 1, tallies := [], yardCE := [], yardUE := [] } }

/-- SCAN_EN (R418): the scan chains only while RST_N is low, else as BYPASS. -/
def execScanEn (s : State) : Host.Outcome State Fault Refusal :=
  let t := s.testInstr 0x10 0 (!s.pins.rstN)
  .next (if s.pins.rstN then t else t.destroyStores)

/-- MBIST_RUN (R418): a 1 written starts the memory test, only while RST_N is low. -/
def execMbistRun (write : Bool) (s : State) : Host.Outcome State Fault Refusal :=
  let t := s.testInstr 0x11 (BitVec.ofNat 32 (b2n write)) false
  .next (if write ∧ s.pins.rstN = false then
    { t.destroyStores with jtag := { t.jtag with mbistRunning := true, mbistDone := false, mbistPass := false, mbistFirst := 0 } } else t)

/-- MBIST_DONE (R418). -/
def execMbistDone (pass : Bool) (firstFail : Nat) (s : State) : Host.Outcome State Fault Refusal :=
  if s.jtag.mbistRunning then
    .next { s with jtag := { s.jtag with mbistRunning := false, mbistDone := true, mbistPass := pass, mbistFirst := if pass then 0 else firstFail } }
  else .next s

/-- MBIST_STATUS (R418, Table 16.11). -/
def execMbistStatus (s : State) : Host.Outcome State Fault Refusal :=
  .next (s.testInstr 0x12 (BitVec.ofNat 32 (b2n s.jtag.mbistDone + 2 * b2n s.jtag.mbistPass + 16 * (s.jtag.mbistFirst % 2 ^ 17))) false)

/-- BYPASS (R418): the code 0x3F or any unlisted one. -/
def execBypass (code : Nat) (s : State) : Host.Outcome State Fault Refusal := .next (s.testInstr (BitVec.ofNat 6 code) 0 false)

/-- TEST_RESET (R418): TRST_N resets the test logic only. -/
def execTestReset (s : State) : Host.Outcome State Fault Refusal := .next { s with jtag := { ir := 0x01, dr := idcodeOf s.params } }

end Sys2Proof.Machine
end

