-- ==== Sys2Proof/Machine/PowerUp.lean ====
section
/-! DEFINITION. Reset, rails and the power-up sequence (13_ R331 to R353, 16_ R406 to R414, 01_ R32, R33, 03_ R95, R96, 05_ R139,
R141; assumption logs 3, 4, 19, 22). -/

namespace Sys2Proof.Machine

/-! ### Reset and rails (R412, R414) -/

/-- AVS_CODE while the rails are as they are (R414): undriven while the core rail is low, 30 once both are within range. -/
def avsOf (core sram : Bool) (now : Option Nat) : Option Nat :=
  if core = false then none else if sram && now.isNone then some 30 else now

/-- RESET_ASSERT (R412): no state survives but the flash; the stop of the tie ring goes on forwarding (R408), AVS_CODE returns
to 30 (R414), the test logic keeps its state (R418), messages held off in reset and P0 stay with their senders
(R403) and those of a freeze are discarded (R74), and SCAN_EN in the instruction register reaches the scan chains (R418). What the block has already sent or
programmed stays so. -/
def execResetAssert (s : State) : Host.Outcome State Fault Refusal :=
  let pins : Pins := { rstN := false, fuses := s.pins.fuses, ssc := s.pins.ssc, avs := if s.pins.railCore then some 30 else none,
                       railCore := s.pins.railCore, railSram := s.pins.railSram, syncOut := s.pins.syncOut }
  let scan := s.jtag.ir == 0x10
  let t : State :=
        { params := s.params, pins := pins, sent := s.sent, nvOut := s.nvOut, heldOff := if s.stopped then [] else s.heldOff, net := s.net, mg := s.mg,
          stop := { s.stop with fault := false, ready := [], cw := { s.stop.cw with rx := [], need := 0, left := [], drop := s.stop.cw.need + s.stop.cw.drop }, ccw := { s.stop.ccw with rx := [], need := 0, left := [], drop := s.stop.ccw.need + s.stop.ccw.drop } },
          jtag := { s.jtag with scan := scan }, free := s.free, pending := s.pending }
  .next (if scan then t.destroyStores else t)

/-- RESET_RELEASE (R32, R345, R412): fuses and ARITH_SSC sampled, COUNT 0, P0 in SEASONING; scan and memory test end (R418). -/
def execResetRelease (fuses : Nat) (ssc : Bool) (s : State) : Host.Outcome State Fault Refusal :=
  if s.pins.rstN then .next s
  else .next { s with
    pins := { s.pins with rstN := true, fuses := fuses % 65536, ssc := ssc }
    clk := {}
    jtag := { s.jtag with scan := false, mbistRunning := false }
    bays := { s.bays with ok := (List.range s.params.baysBuilt).filter fun p => !(bitOf fuses p) } }

/-- RAILS_WITHIN_RANGE (R414). -/
def execRailsWithinRange (core sram : Bool) (s : State) : Host.Outcome State Fault Refusal :=
  .next { s with pins := { s.pins with railCore := core, railSram := sram, avs := avsOf core sram s.pins.avs } }

/-! ### The sequence (R345) -/

/-- Does the sequence stand in a phase, with nothing stopping it (R345, R352)? -/
def State.inPhase (s : State) (n : Nat) : Bool := s.pins.rstN && s.lg == .seasoning && !s.stopped && s.nv.phase == n

/-- A phase begins. -/
def State.toPhase (s : State) (n : Nat) : State := { s with nv := { s.nv with phase := n, phaseStart := s.clk.edges } }

/-- The NV pins between two accesses, while the port drives them (R406; log 74, DESIGN CHOICE). -/
def Pins.driveNv (p : Pins) : Pins := { p with nvSck := some false, nvCsN := some true, nvIo := some 0 }

/-- PLL_LOCK_DONE (R345, R403, R406, R414): P0 ends, AVS_CODE is set, the message port accepts, the NV pins are driven. -/
def execPllLockDone (avs : Nat) (s : State) : Host.Outcome State Fault Refusal :=
  if s.inPhase 0 then
    .next (({ s with pins := { s.pins.driveNv with avs := some avs } } : State).toPhase 1).takeHeldOff
  else .next s

/-- An entry with DISP INSTANCE_FAULT that names no descriptor (Table 15.2). -/
def State.faultEntry (s : State) (code detail : Nat) : List Byte := logBytes code 4 0 0 0 0 s.count 0 0 0 detail

/-- The order of the slots by their headers (R343); two wrong headers are tried as A, B. -/
def slotOrder (a b : List Byte) : List Nat :=
  if magicOk a = magicOk b then (if magicOk a ∧ fieldAt a 8 4 < fieldAt b 8 4 then [1, 0] else [0, 1])
  else if magicOk a then [0, 1] else [1, 0]

/-- The valid boot numbers of a boot-log sector, by position (R344). -/
def bootEntries (log : List Byte) : List (Nat × Nat) :=
  (List.range 512).filterMap fun k =>
    let n := fieldAt log (8 * k) 4
    if fieldAt log (8 * k + 4) 4 = 2 ^ 32 - 1 - n then some (k, n) else none

/-- Is a position of a sector erased (R344)? -/
def bootErased (log : List Byte) (k : Nat) : Bool := (sliceOf log (8 * k) 8).length == 8 && (sliceOf log (8 * k) 8).all (· == 0xFF#8)

/-- The largest valid entry of both sectors: sector, position, number. -/
def bootNewest (logs : List (List Byte)) : Option (Nat × Nat × Nat) :=
  ((logs.zipIdx.flatMap fun x => (bootEntries x.1).map fun e => (x.2, e.1, e.2)).foldl
    (fun (best : Option (Nat × Nat × Nat)) x => match best with
      | some y => if y.2.2 < x.2.2 then some x else some y
      | none => some x) none)

/-- The flash address of a boot-log position (Table 13.1). -/
def bootAddr (sector pos : Nat) : Nat := 0x800000 + 0x1000 * sector + 8 * pos

/-- The entry behind the newest valid one that is neither erased nor valid: a reset left it partly programmed (R406). -/
def bootTorn (logs : List (List Byte)) : Option Nat :=
  (bootNewest logs).bind fun x =>
    let log := logs.getD x.1 []
    ((List.range 512).find? fun k => decide (x.2.1 < k ∧ 8 * k + 8 ≤ log.length) && !(bootErased log k) && ((bootEntries log).lookup k).isNone).map
      (bootAddr x.1)

/-- Where the next boot-log entry goes: sector, position (R344). With no valid entry it is position 0 of sector 0. -/
def bootPlace (logs : List (List Byte)) : Nat × Nat :=
  match bootNewest logs with
  | none => (0, 0)
  | some x =>
    match (List.range 512).find? fun k => decide (x.2.1 < k) && bootErased (logs.getD x.1 []) k with
    | some k => (x.1, k)
    | none => (1 - x.1, 0)

/-- What discovery leaves of the boot log and the slots (R343, R344). -/
def State.discover (s : State) (headers logs : List (List Byte)) : State :=
  let order := slotOrder (headers.getD 0 []) (headers.getD 1 [])
  let p := bootPlace logs
  let id := ((bootNewest logs).map fun x => x.2.2).getD 0
  ({ s with nv := { s.nv with
      order := order.drop 1, current := order.head?, bootId := (id + 1) % 2 ^ 32, logSector := p.1, logPos := p.2,
      posErased := bootErased (logs.getD p.1 []) p.2, torn := bootTorn logs,
      validIn := (List.range 2).filter fun k => !(bootEntries (logs.getD k [])).isEmpty,
      newest := ((bootNewest logs).map (·.1)).getD 0 } } : State).toPhase 2

/-- NV_DISCOVERY_DONE (R343): a device that cannot be used makes LG_STATE FAULT at once. -/
def execNvDiscoveryDone (dev : NvDevice) (headers logs : List (List Byte)) (s : State) : Host.Outcome State Fault Refusal :=
  if s.inPhase 1 then
    match dev with
    | .ok => .next (s.discover headers logs)
    | .noSfdp => .next (s.instanceFault (s.faultEntry 0x20 0))
    | .noQuad => .next (s.instanceFault (s.faultEntry 0x21 0))
    | .tooSmall => .next (s.instanceFault (s.faultEntry 0x22 0))
  else .next s

/-- The entry of a rejected slot (R343, Table 15.3). -/
def State.logSlot (s : State) (f : ImageFault) (slot : Nat) : State :=
  match f with
  | .magic => s.log0 0x24 0 slot
  | .digest => s.log0 0x25 0 slot
  | .check off => s.log0 0x26 0 (slot + 2 ^ 8 * off)

/-- IMAGE_SLOT_READ_DONE (R342, R343): the slot passes, or the other one is read, or LG_STATE is FAULT. -/
def execImageSlotReadDone (bytes : List Byte) (s : State) : Host.Outcome State Fault Refusal :=
  match s.nv.current with
  | some slot =>
    if s.inPhase 2 then
      match checkImage bytes s.params.lanes s.params.ring with
      | none => .next (({ s with image := imageOf bytes slot, nv := { s.nv with current := none } } : State).toPhase 3)
      | some f =>
        let t := s.logSlot f slot
        match t.nv.order with
        | n :: l => .next { t with nv := { t.nv with current := some n, order := l } }
        | [] => .next (({ t with nv := { t.nv with current := none } } : State).instanceFault (t.faultEntry 0x27 slot))
    else .next s
  | none => .next s

/-! ### The self-test (R21, R33, R346) -/

/-- The failing lanes of a bay, its spare not counted. -/
def failedLanes (l : List (Fin 16 × SelfFail)) (b : Nat) : List Nat :=
  l.filterMap fun x => match x.2 with | .lane n => if x.1.val = b ∧ n ≠ 64 then some n else none | _ => none

/-- Does a bay have a failure of a kind? -/
def failedWith (l : List (Fin 16 × SelfFail)) (b : Nat) (f : SelfFail) : Bool := l.any fun x => x.1.val == b && x.2 == f

/-- The failures of one bay applied: entries, a lane retired, a spare marked, or the bay disabled (R346). -/
def State.selfTestBay (l : List (Fin 16 × SelfFail)) (s : State) (b : Nat) : State :=
  let lanes := failedLanes l b
  let spare := failedWith l b (.lane 64)
  let dead := (if 2 ≤ lanes.length ∨ (lanes ≠ [] ∧ spare) then [0] else []) ++ (if failedWith l b .tally then [1] else []) ++
    (if failedWith l b .yard then [2] else []) ++ (if failedWith l b .tap then [3] else [])
  let s := lanes.foldl (fun (s : State) n => s.logBay 0x10 0 b n 0) s
  let s := if spare then s.logBay 0x11 0 b 64 0 else s
  let s := dead.foldl (fun (s : State) d => s.logBay 0x12 0 b 0 d) s
  let y := s.bays
  { s with bays := { y with
      ok := if dead.isEmpty then y.ok else y.ok.filter (· != b),
      spared := if dead.isEmpty ∧ !spare then (lanes.take 1).map (fun n => (b, n)) ++ y.spared else y.spared,
      spareBad := if spare then y.spareBad ++ [b] else y.spareBad } }

/-- SELF_TEST_DONE (R346): P3 ends. -/
def execSelfTestDone (fails : List (Fin 16 × SelfFail)) (s : State) : Host.Outcome State Fault Refusal :=
  if s.inPhase 3 then .next ((s.bays.ok.foldl (State.selfTestBay fails) s).toPhase 4) else .next s

/-! ### Load end (R347) -/

/-- A slot word with the bays at or above B taken out (R95). -/
def clipSlot (w bays : Nat) : Nat := w / 2 ^ 16 * 2 ^ 16 + w % 2 ^ bays % 2 ^ 16

/-- The plumb channels whose anchor slot has no bay left (R95). -/
def State.emptyAnchors (s : State) : List (Fin 16) :=
  channels.filter fun c => (s.cfg c).plumb && (match s.anchor c with | some n => (slotBays (s.slotWord n)).isEmpty | none => true)

/-- The curve store of every enabled bay read back (step 3, R139): corrected, rewritten from another bay, or lost. -/
def State.readBackCurves (s : State) : State :=
  let s := s.bays.curveCE.foldl (fun (s : State) _ => s.corrected 4 0) { s with bays := { s.bays with curveCE := [] } }
  let words := s.bays.enabled.flatMap fun b => s.bays.curveUE.filter (·.1 == b)
  let r := words.foldl (fun (r : State × Bool) w => let t := r.1.countUE.restoreCurve w; (t.1, r.2 && t.2)) (s, true)
  if r.2 then { r.1 with bays := { r.1.bays with curveUE := [] } } else r.1.instanceFault (r.1.faultEntry codeUE (unitDetail 4 0))

/-- Every yard cleared (step 4, R25). -/
def State.clearYards (s : State) : State := { s with bays := { s.bays with yard := [], undef := [], yardCE := [], yardUE := [] } }

/-- A program or erase leaves the NV port, a program where the position is erased (R344). -/
def State.nvWrite (s : State) (a : Nat) (b : List Byte) : State := { s with nvOut := s.nvOut ++ [(a, b)] }

/-- The 8 bytes of the boot-log entry: BOOT_ID and its complement (R344). -/
def bootEntry (id : Nat) : List Byte := natLE 4 id ++ natLE 4 (2 ^ 32 - 1 - id)

/-- The boot-log entry programmed (step 5, R344); one that an earlier reset left partly programmed is logged (R406). -/
def State.programBoot (s : State) (ok : Bool) : State :=
  let s := match s.nv.torn with | some a => s.log0 0x23 0 a | none => s
  let s := if s.nv.posErased then s.nvWrite (bootAddr s.nv.logSector s.nv.logPos) (bootEntry s.nv.bootId) else s
  if ok ∧ s.nv.posErased then
    { s with nv := { s.nv with programmed := true, newest := s.nv.logSector, validIn := dedup (s.nv.validIn ++ [s.nv.logSector]) } }
  else s.log0 0x23 0 (bootAddr s.nv.logSector s.nv.logPos)

/-- The lowest master of the claim latch (R349). -/
def lowestClaim (l : List (Fin 4)) : Option (Fin 4) := [(0 : Fin 4), 1, 2, 3].find? l.contains

/-- Steps 6 and 7: the image is visible, settings active, the claim latch resolved (R347, R349, R364). -/
def State.expose (s : State) : State :=
  let set : Settings := { greenOk := s.image.greenOk, digestN := BitVec.ofNat 32 s.image.digestN }
  let own := match lowestClaim s.own.latch with | some m => s.own.change (some m) 2 s.clk.mgmt | none => s.own
  { s with visible := true, active := set, shadow := set, own := { own with latch := [] } }

/-- P6 begins: a ROOT instance is locked at once (R348). -/
def State.beginAlignment (s : State) : State :=
  let t := s.toPhase 6
  if t.image.role = 0 then t.lockNow else t

/-- P5 begins with the training of every port, or is skipped with PORTMODE 0 (R348). -/
def State.beginTraining (s : State) : State :=
  if s.image.portMode = 0 then s.beginAlignment
  else
    let n := if s.image.portMode = 3 then 2 else 1
    { s.toPhase 5 with kports := s.kports.mapFinIdx fun i k _ => if i < n then k.train 0 s.clk.edges else k }

/-- Steps 3 to 7, the SCARF of load end, and P5. -/
def State.finishLoad (s : State) (programmed : Bool) : State :=
  let t := s.readBackCurves
  let t := { t with curveDigest := sha256 t.image.curves }
  let t := ((t.clearYards.programBoot programmed).expose).sendScarf false
  if t.lg = .seasoning ∧ ¬ t.stopped then t.beginTraining else t

/-- Step 1: B, and BAYS_BELOW_MIN. -/
def State.fixBays (s : State) : State :=
  let s := { s with bays := { s.bays with enabled := s.bays.ok } }
  if s.bayCount < s.image.minBays then s.instanceFault (s.faultEntry 0x13 s.bayCount) else s

/-- Step 2: the slot words by B, and ANCHOR_EMPTY (R95); a second reason is recorded without another fault. -/
def State.applySlots (s : State) : State :=
  let s := { s with image := { s.image with slots := s.image.slots.map fun w => clipSlot w s.bayCount } }
  match s.emptyAnchors with
  | c :: _ => if s.lg = .fault then s.logRaw (s.faultEntry 0x14 c.val) else s.instanceFault (s.faultEntry 0x14 c.val)
  | [] => s

/-- LOAD_END (R347): B, the slot rules, then the remaining steps; steps 3 to 5 are skipped on a fault of steps 1 and 2. -/
def execLoadEnd (programmed : Bool) (s : State) : Host.Outcome State Fault Refusal :=
  if s.inPhase 4 then
    let t := s.fixBays.applySlots
    .next (if t.inPhase 4 then t.finishLoad programmed else t.expose.sendScarf false)
  else .next s

/-- The ports of PORTMODE are all up (R348). -/
def State.portsUp (s : State) : Bool := s.kports.toList.all fun k => k.st == .up || k.st == .absent

/-- The instant at which a window of 300 ms ends, or now when what it waits for is there (R348). -/
def State.endWindow (s : State) (there : Bool) : State := if there then s else s.pass (s.nv.phaseStart + 300000000 - s.clk.edges)

/-- TRAINING_WINDOW_END (R348): P5 ends and plumb alignment begins. -/
def execTrainingWindowEnd (s : State) : Host.Outcome State Fault Refusal :=
  if s.inPhase 5 then .next (s.endWindow s.portsUp).beginAlignment else .next s

/-- READY (R348): channels, next-SEQ, slot 0 of the rotation, SCARF; TRIM as alignment leaves it is the rate estimate (R322). -/
def State.becomeReady (s : State) : State :=
  let t : State := { s with
    lg := .ready
    clk := { s.clk with rate := s.clk.trim }
    chans := Vector.ofFn fun c => { st := if (s.cfg c).enabled then .idle else .off }
    nextSeq := Vector.replicate 4 0 }
  let t := t.toPhase 7
  let u := t.beginRotation
  u.sendScarf u.scarfReady

/-- PLUMB_ALIGNMENT_END (R322, R348): P6 ends locked, or unlocked after 300 ms. -/
def execPlumbAlignmentEnd (s : State) : Host.Outcome State Fault Refusal :=
  if s.inPhase 6 then .next (s.endWindow s.clk.locked).becomeReady else .next s

/-! ### The flash after READY (R344, R353) -/

/-- The sector to be erased: the one without the newest entry, when it holds a valid one (R344). -/
def State.eraseDue (s : State) : Option Nat :=
  if s.nv.erased then none else if s.nv.validIn.contains (1 - s.nv.newest) then some (1 - s.nv.newest) else none

/-- BOOT_LOG_ERASE (R344): a failed erase is logged. -/
def execBootLogErase (ok : Bool) (s : State) : Host.Outcome State Fault Refusal :=
  match s.eraseDue with
  | some k =>
    if s.pins.rstN ∧ s.nv.phase = 7 ∧ ¬ s.stopped ∧ s.pins.nvReleased = false then
      let t := { s.nvWrite (bootAddr k 0) [] with nv := { s.nv with erased := true, validIn := if ok then s.nv.validIn.filter (· != k) else s.nv.validIn } }
      .next (if ok then t else t.log0 0x23 0 (bootAddr k 0))
    else .next s
  | none => .next s

/-- The NV pins released: chip select inactive, clock and data at high impedance, NV_RELEASED (R353). -/
def Pins.releaseNv (p : Pins) : Pins := { p with nvSck := none, nvCsN := some true, nvIo := none, nvReleased := true }

/-- NV_RELEASE (R353): after READY and the erase when one is due. -/
def execNvRelease (s : State) : Host.Outcome State Fault Refusal :=
  if s.pins.rstN ∧ s.nv.phase = 7 ∧ ¬ s.stopped ∧ s.eraseDue = none then .next { s with pins := s.pins.releaseNv } else .next s

end Sys2Proof.Machine
end

