-- ==== Sys2Proof/Machine/Dispatch.lean ====
section
/-! DEFINITION. exec: one arm for each command, in the order of spec/opcode_table.json. -/

namespace Sys2Proof.Machine

/-- The effect of a command on everything but the queue. -/
def exec (i : Instr) (s : State) : Host.Outcome State Fault Refusal :=
  match i with
  | .post src msg parityOk => Sys2Proof.Machine.execPost src msg parityOk s
  | .doorbell src msg parityOk => Sys2Proof.Machine.execDoorbell src msg parityOk s
  | .malformedMessage src msg => Sys2Proof.Machine.execMalformedMessage src msg s
  | .validateDescriptor c => Sys2Proof.Machine.execValidateDescriptor c s
  | .validationBlockReadDone c blk err data => Sys2Proof.Machine.execValidationBlockReadDone c blk err data s
  | .descriptorStart p => Sys2Proof.Machine.execDescriptorStart p s
  | .launchConditionMet c => Sys2Proof.Machine.execLaunchConditionMet c s
  | .descriptorRetire p => Sys2Proof.Machine.execDescriptorRetire p s
  | .releasePackage c => Sys2Proof.Machine.execReleasePackage c s
  | .completionRecordWriteAck c err => Sys2Proof.Machine.execCompletionRecordWriteAck c err s
  | .slotBoundary => Sys2Proof.Machine.execSlotBoundary s
  | .handoverGapEnd => Sys2Proof.Machine.execHandoverGapEnd s
  | .memoryReadResponse tag status data parityOk => Sys2Proof.Machine.execMemoryReadResponse tag status data parityOk s
  | .memoryWriteAck tag status => Sys2Proof.Machine.execMemoryWriteAck tag status s
  | .memoryResponseTimeout tag => Sys2Proof.Machine.execMemoryResponseTimeout tag s
  | .tapBeat bay data par => Sys2Proof.Machine.execTapBeat bay data par s
  | .laneCheck bay lane op seen => Sys2Proof.Machine.execLaneCheck bay lane op seen s
  | .spareMapInDone bay => Sys2Proof.Machine.execSpareMapInDone bay s
  | .scrub => Sys2Proof.Machine.execScrub s
  | .attemptDrained p => Sys2Proof.Machine.execAttemptDrained p s
  | .reexecutionStart c => Sys2Proof.Machine.execReexecutionStart c s
  | .gangLostWaitExpiry c => Sys2Proof.Machine.execGangLostWaitExpiry c s
  | .ringRecordWriteAck r err => Sys2Proof.Machine.execRingRecordWriteAck r err s
  | .ringSpacePoll r => Sys2Proof.Machine.execRingSpacePoll r s
  | .offcutEndRecord p => Sys2Proof.Machine.execOffcutEndRecord p s
  | .heldTileWrite => Sys2Proof.Machine.execHeldTileWrite s
  | .share env body => Sys2Proof.Machine.execShare env body s
  | .report env body => Sys2Proof.Machine.execReport env body s
  | .partialMsg env body => Sys2Proof.Machine.execPartialMsg env body s
  | .tile env body => Sys2Proof.Machine.execTile env body s
  | .tileAck env body => Sys2Proof.Machine.execTileAck env body s
  | .segval env body => Sys2Proof.Machine.execSegval env body s
  | .scarf env body => Sys2Proof.Machine.execScarf env body s
  | .scarfPeriodic => Sys2Proof.Machine.execScarfPeriodic s
  | .scarfTimeout sin => Sys2Proof.Machine.execScarfTimeout sin s
  | .raise env body => Sys2Proof.Machine.execRaise env body s
  | .cancel env body => Sys2Proof.Machine.execCancel env body s
  | .raiseAck env body => Sys2Proof.Machine.execRaiseAck env body s
  | .raiseDeadline => Sys2Proof.Machine.execRaiseDeadline s
  | .raiseEdge => Sys2Proof.Machine.execRaiseEdge s
  | .ringTime env body => Sys2Proof.Machine.execRingTime env body s
  | .reservedClassMessage env body => Sys2Proof.Machine.execReservedClassMessage env body s
  | .messageForward env body => Sys2Proof.Machine.execMessageForward env body s
  | .tieRingBeat cw data par => Sys2Proof.Machine.execTieRingBeat cw data par s
  | .dataFlit port flit => Sys2Proof.Machine.execDataFlit port flit s
  | .idleFlit port flit => Sys2Proof.Machine.execIdleFlit port flit s
  | .replayTimeout port => Sys2Proof.Machine.execReplayTimeout port s
  | .resendLimitRetrain port => Sys2Proof.Machine.execResendLimitRetrain port s
  | .timeFlit port flit arrival => Sys2Proof.Machine.execTimeFlit port flit arrival s
  | .timeFlitSend port departure => Sys2Proof.Machine.execTimeFlitSend port departure s
  | .syncInEdge ts pulse => Sys2Proof.Machine.execSyncInEdge ts pulse s
  | .syncOutPulse => Sys2Proof.Machine.execSyncOutPulse s
  | .hello port flit => Sys2Proof.Machine.execHello port flit s
  | .trainingFrame port lane marker control status => Sys2Proof.Machine.execTrainingFrame port lane marker control status s
  | .trainingFrameSend port => Sys2Proof.Machine.execTrainingFrameSend port s
  | .trainingPhaseDone port => Sys2Proof.Machine.execTrainingPhaseDone port s
  | .trainingPhaseTimeout port => Sys2Proof.Machine.execTrainingPhaseTimeout port s
  | .freezeFrame fromPort payload => Sys2Proof.Machine.execFreezeFrame fromPort payload s
  | .freezeInEdge => Sys2Proof.Machine.execFreezeInEdge s
  | .freezeComplete => Sys2Proof.Machine.execFreezeComplete s
  | .claim m => Sys2Proof.Machine.execClaim m s
  | .release m withClaim => Sys2Proof.Machine.execRelease m withClaim s
  | .handover m target => Sys2Proof.Machine.execHandover m target s
  | .handoverExpired => Sys2Proof.Machine.execHandoverExpired s
  | .ownerBeat m beat => Sys2Proof.Machine.execOwnerBeat m beat s
  | .lapse => Sys2Proof.Machine.execLapse s
  | .irqStatusClear m mask => Sys2Proof.Machine.execIrqStatusClear m mask s
  | .quiesce m => Sys2Proof.Machine.execQuiesce m s
  | .raiseLocal m => Sys2Proof.Machine.execRaiseLocal m s
  | .raiseGang m gang => Sys2Proof.Machine.execRaiseGang m gang s
  | .raiseAtWrite m high value => Sys2Proof.Machine.execRaiseAtWrite m high value s
  | .shadowWrite m off value => Sys2Proof.Machine.execShadowWrite m off value s
  | .nextseqWrite m g value => Sys2Proof.Machine.execNextseqWrite m g value s
  | .channelEnable m c => Sys2Proof.Machine.execChannelEnable m c s
  | .channelDisable m c => Sys2Proof.Machine.execChannelDisable m c s
  | .freeze m value => Sys2Proof.Machine.execFreeze m value s
  | .thaw m value freezeIn => Sys2Proof.Machine.execThaw m value freezeIn s
  | .retrain m bits => Sys2Proof.Machine.execRetrain m bits s
  | .logTailWrite m value => Sys2Proof.Machine.execLogTailWrite m value s
  | .readoutWindowRead m k => Sys2Proof.Machine.execReadoutWindowRead m k s
  | .registerWrite m off value => Sys2Proof.Machine.execRegisterWrite m off value s
  | .mgmtBadAddress m write => Sys2Proof.Machine.execMgmtBadAddress m write s
  | .resetAssert => Sys2Proof.Machine.execResetAssert s
  | .resetRelease fuses ssc => Sys2Proof.Machine.execResetRelease fuses ssc s
  | .pllLockDone avs => Sys2Proof.Machine.execPllLockDone avs s
  | .nvDiscoveryDone dev headers logs => Sys2Proof.Machine.execNvDiscoveryDone dev headers logs s
  | .imageSlotReadDone bytes => Sys2Proof.Machine.execImageSlotReadDone bytes s
  | .selfTestDone fails => Sys2Proof.Machine.execSelfTestDone fails s
  | .loadEnd programmed => Sys2Proof.Machine.execLoadEnd programmed s
  | .trainingWindowEnd => Sys2Proof.Machine.execTrainingWindowEnd s
  | .plumbAlignmentEnd => Sys2Proof.Machine.execPlumbAlignmentEnd s
  | .bootLogErase ok => Sys2Proof.Machine.execBootLogErase ok s
  | .nvRelease => Sys2Proof.Machine.execNvRelease s
  | .idcode => Sys2Proof.Machine.execIdcode s
  | .fuseRead => Sys2Proof.Machine.execFuseRead s
  | .scanEn => Sys2Proof.Machine.execScanEn s
  | .mbistRun write => Sys2Proof.Machine.execMbistRun write s
  | .mbistDone pass firstFail => Sys2Proof.Machine.execMbistDone pass firstFail s
  | .mbistStatus => Sys2Proof.Machine.execMbistStatus s
  | .bypass code => Sys2Proof.Machine.execBypass code s
  | .testReset => Sys2Proof.Machine.execTestReset s
  | .lowWordRead m off => Sys2Proof.Machine.execLowWordRead m off s
  | .railsWithinRange core sram => Sys2Proof.Machine.execRailsWithinRange core sram s

end Sys2Proof.Machine
end

