-- ==== Sys2Proof/Machine/Step.lean ====
section
/-! DEFINITION. One step: the command at the front of the queue on the rest, or, on an empty queue, one edge of the plumb
clock (assumption log 3, DESIGN CHOICE). -/

namespace Sys2Proof.Machine

/-- The state with the front command taken off the queue. -/
def State.popped (s : State) : State := { s with pending := s.pending.tail }

/-- One step of the block. -/
def step (s : State) : Host.Outcome State Fault Refusal :=
  match s.pending with
  | [] => .next (s.pass 1)
  | c :: _ => exec c s.popped

/-- The state with the command a word spells put at the front of its queue; unchanged where the word spells none. -/
def State.withFetchWord (s : State) (nbits w : Nat) : State :=
  match Sys2Proof.decodeTableWord nbits w with
  | some c => { s with pending := c :: s.pending }
  | none => s

end Sys2Proof.Machine
end

