-- ==== Sys2Proof/Safety.lean ====
section
/-! DEFINITION. What counts as a well-kept state and a safe run, in the terms the statements use. -/

namespace Sys2Proof.Machine

/-- What every step keeps: the yards' cells stay in canonical form, the error-log indices name entries (R376), MGMT counts
with the plumb clock, TRIM stays within its range (R317), the ARITH divider keeps its remainder, and at most 8 FREEZE_IDs are
remembered (R328). -/
structure State.Inv (s : State) : Prop where
  yard : cellsWf s.bays.yard = true
  logHead : s.log.head < 254
  logTail : s.log.tail < 254
  mgmt : s.clk.mgmt = s.clk.edges / 10
  trimLow : -((2 : Int) ^ 22) ≤ s.clk.trim
  trimHigh : s.clk.trim ≤ (2 : Int) ^ 22
  phase : s.clk.arithPhase < 20
  seen : s.frz.seen.length ≤ 8

/-- A run of `k` steps stops at no fault and no refusal. -/
def Safe (s : State) (k : Nat) : Prop := ∃ t, Sys2Proof.core.run k s = .next t

/-! ### Conditions the statements name -/

/-- Out of reset, with no clock stop in progress and not frozen. -/
abbrev State.live (s : State) : Prop := s.pins.rstN = true ∧ s.stopped = false

/-- The message port takes messages: out of reset, past P0, no clock stop (R74, R403). -/
abbrev State.portOpen (s : State) : Prop := s.live ∧ s.nv.phase ≠ 0

/-- No word of the configuration store or the slot-table shadow is marked in error (R421). -/
abbrev State.configClean (s : State) : Prop := s.bays.configCE = [] ∧ s.bays.configUE = []

/-- No release and no offcut record waits for a ring. -/
abbrev State.ringsIdle (s : State) : Prop := (∀ c : Fin 16, s.chans[c].rel = none) ∧ s.offcut = []

/-- What the start of a gang-bound descriptor answers (R39, R87, R309): it runs with START_PLUMB now; a first start takes one credit of the gang
from each other member and a later one none; each other member is sent a SHARE of this attempt that carries the descriptor. -/
def State.startsOnGang (s : State) (c : Fin 16) (e : Entry) (l : List Entry) (o : Host.Outcome State Fault Refusal) : Prop :=
  ∃ (u : State) (j : Job) (rs : List Rng), o = .next (u.progress 16 (.chan c)) ∧
    u.chans = s.chans.set c { s.chans[c] with
      st := .run, val := none, halted := none, job := some j
      queue := { e with started := true, ranges := rs, credits := if e.credits = [] then
        (s.otherMembers c).map fun m => ((s.cfg c).gang, m, (s.boots.lookup m).getD 0) else e.credits } :: l } ∧
    j.start = s.count ∧ j.attempt = e.attempt ∧ j.desc = e.desc ∧ j.chunks = [] ∧ j.phase = .inputs ∧ j.members = s.gangMembers (s.cfg c).gang ∧
    u.credits = (if e.credits = [] then s.credits.map fun x =>
      if x.1 = (s.cfg c).gang ∧ x.2.1 ∈ s.otherMembers c then (x.1, x.2.1, x.2.2 - 1) else x else s.credits) ∧
    (∀ m ∈ s.otherMembers c, s.routeOf m ≠ .none → s.routeOf m ≠ .loc → ∃ x ∈ u.net, x.env.cls = 1 ∧ x.env.dest = m ∧ x.env.src = s.sin ∧
      x.env.head = s.sin ∧ x.env.ch = c ∧ x.env.attempt = e.attempt % 256 ∧ x.env.seq = (Desc.parse e.desc).seq ∧ x.body.take 128 = padTo 128 e.desc) ∧
    u = { s with
      chans := u.chans, port := u.port, credits := u.credits, net := u.net, stop := u.stop, kports := u.kports, log := u.log
      irqStatus := u.irqStatus
      bays := { s.bays with tallies := u.bays.tallies, tallyCE := u.bays.tallyCE, tallyUE := u.bays.tallyUE } }

/-- A master's write is judged as its owner's (R14). -/
abbrev State.ownedBy (s : State) (m : Fin 4) : Prop := s.pins.rstN = true ∧ s.own.owner = some m

/-- The state with one management response more (R356). -/
abbrev State.answered (s : State) (m : Fin 4) (code : Nat) (data : Word := 0) : State :=
  { s with mg := s.mg ++ [{ master := m, code := code, data := data }] }

/-- The state with one error-log entry more, LG_IRQ_STATUS.LOG set (R376, R379). -/
abbrev State.logged (s : State) (entry : List Byte) : State :=
  { s with log := s.log.put entry, irqStatus := s.irqStatus ||| 64 }

/-- The state with one REFUSE message more (R69, R71; Table 3.1). -/
abbrev State.refused (s : State) (src : Nat) (msg : List Byte) (status : Nat) : State :=
  { s with sent := s.sent ++ [(src, msgHeader 0x82 (fieldAt msg 1 1 % 16) (fieldAt msg 2 1) status 0 0 (fieldAt msg 0 1))] }

end Sys2Proof.Machine
end

