-- ==== Sys2Proof/Certificates/Slice0/Obligations.lean ====
section
/-! DEFINITION. What is to be proved of the model: the queue and the step, the invariant, and what each command does by the
rules of spec/. A statement that rests on a choice of the model names its assumption log entry. -/

open Sys2Proof Sys2Proof.Machine

/-! ### The step, the queue, time -/

/-- A step takes the front command and runs it on the rest; on an empty queue it is one edge of the plumb clock (the model's
choice, log 3). -/
def Obligations.StepRunsFrontCommand : Prop :=
  (∀ (c : Instr) (s : State), step { s with pending := c :: s.pending } = exec c s) ∧
  ∀ s : State, s.pending = [] → step s = .next (s.pass 1)

/-- Every command is answered by a next state, one whose event cannot occur included (the model's choice, log 1), and none touches
the queue. -/
def Obligations.EveryCommandAnswersAndKeepsQueue : Prop :=
  ∀ (c : Instr) (s : State), ∃ t, exec c s = .next t ∧ t.pending = s.pending

/-- From every well-kept state a step leads to a well-kept state. -/
def Obligations.StepKeepsWellKept : Prop :=
  ∀ s t : State, s.Inv → step s = .next t → t.Inv

/-- R376, R317, R328, R412, R345, R358: what the state after reset release holds, and that it is well kept; the flash port not released and the yards' bytes
before load end are the model's choice (log 4, log 7). -/
def Obligations.ResetIsWellKeptSeasoning : Prop :=
  State.reset.Inv ∧ State.reset.lg = .seasoning ∧ State.reset.nv.phase = 0 ∧ State.reset.clk.count = 0 ∧ State.reset.own.owner = none ∧
    State.reset.own.epoch = 0 ∧ State.reset.log.head = State.reset.log.tail ∧ State.reset.irqStatus = 0 ∧ State.reset.irqEnable = 0 ∧
    State.reset.visible = false ∧ State.reset.pins.avs = some 30 ∧ State.reset.pins.nvReleased = false ∧ State.reset.pending = [] ∧
    (∀ c : Fin 16, State.reset.chans[c].queue = [] ∧ State.reset.chans[c].st = .off) ∧ ∀ a, State.reset.yardByte a = 0#8

/-- R317, R99: one edge of the plumb clock adds 1 + TRIM / 2^32 to COUNT with its fraction and moves nothing but the clocks; a wait for
a plumb count ends at the first edge at which COUNT has reached it. -/
def Obligations.PlumbCounterAdvances : Prop :=
  (∀ s : State, ∃ t, s.pass 1 = t ∧
     ((t.clk.count.toNat : Int) * (2 : Int) ^ 32 + t.clk.frac.toNat) =
       ((s.clk.count.toNat : Int) * (2 : Int) ^ 32 + s.clk.frac.toNat + (2 : Int) ^ 32 + s.clk.trim) % (2 : Int) ^ 96 ∧
     t.clk.edges = s.clk.edges + 1 ∧ t.clk.trim = s.clk.trim ∧ t = { s with clk := t.clk }) ∧
  ∀ (s : State) (n : Nat), s.Inv → n < 2 ^ 64 - 1 →
    n ≤ (s.untilCount n).count ∧ ∀ m, m < s.clk.edgesTo n → (s.pass m).count < n

/-! ### The message port (R69 to R74, R384) -/

/-- R71: a POST is judged in the order of Table 3.2; an accepted one stands staged behind the channel's others. -/
def Obligations.PostDecidedInOrder : Prop :=
  ∀ (s : State) (src : Nat) (msg : List Byte), s.portOpen → msg.length = 144 → fieldAt msg 0 1 = 1 →
    let c : Fin 16 := Fin.ofNat 16 (fieldAt msg 1 1)
    let x := s.chans[c]
    exec (.post src msg true) s = .next
      (if s.lg = .seasoning then s.refused src msg stSeasoning
       else if s.lg = .fault then s.refused src msg stFault
       else if x.st = .off ∨ src ≠ (s.cfg c).source then s.refused src msg stBadChannel
       else if 32 ≤ x.occupied then s.refused src msg stNoCredit
       else { s with chans := s.chans.set c { x with queue := x.queue ++ [{ desc := msg.drop 16, elig := none }] } })

/-- R72: a DOORBELL that passes Table 3.2 makes the n oldest staged descriptors eligible, in queue order; with n = 0 it
changes nothing; a refused one makes none eligible. -/
def Obligations.DoorbellReleasesOldestStaged : Prop :=
  ∀ (s : State) (src : Nat) (msg : List Byte), s.portOpen → msg.length = 16 → fieldAt msg 0 1 = 2 →
    let c : Fin 16 := Fin.ofNat 16 (fieldAt msg 1 1)
    let x := s.chans[c]
    let n := fieldAt msg 2 1
    if s.lg = .seasoning then exec (.doorbell src msg true) s = .next (s.refused src msg stSeasoning)
    else if s.lg = .fault then exec (.doorbell src msg true) s = .next (s.refused src msg stFault)
    else if x.st = .off ∨ src ≠ (s.cfg c).source then exec (.doorbell src msg true) s = .next (s.refused src msg stBadChannel)
    else if x.staged < n then exec (.doorbell src msg true) s = .next (s.refused src msg stBadDoorbell)
    else if n = 0 then exec (.doorbell src msg true) s = .next s
    else ∃ q : List Entry,
      exec (.doorbell src msg true) s = .next { s with
        chans := s.chans.set c { x with queue := q, st := if x.st = .idle then .wait else x.st }
        eligNext := s.eligNext + n } ∧
      q.length = x.queue.length ∧
      ∀ i e, x.queue[i]? = some e →
        q[i]? = some (if e.elig = none ∧ ((x.queue.take i).filter fun y => y.elig.isNone).length < n then
          { e with elig := some (s.eligNext + ((x.queue.take i).filter fun y => y.elig.isNone).length, s.count) } else e)

/-- R69: a message of a reserved TYPE, or of a length that is not its TYPE's, is answered BAD_CHANNEL before Table 3.2. R74, R403, R384:
while the port is closed a message waits with its sender, in order; one with wrong parity is dropped with a MSG_DISCARD entry. -/
def Obligations.PortRefusesHoldsAndDrops : Prop :=
  (∀ (s : State) (src : Nat) (msg : List Byte), s.portOpen →
     ¬ (fieldAt msg 0 1 = 1 ∧ msg.length = 144) → ¬ (fieldAt msg 0 1 = 2 ∧ msg.length = 16) →
     exec (.malformedMessage src msg) s = .next (s.refused src msg stBadChannel) ∧
     exec (.post src msg true) s = .next (s.refused src msg stBadChannel) ∧
     exec (.doorbell src msg true) s = .next (s.refused src msg stBadChannel)) ∧
  ∀ (s : State) (src : Nat) (msg : List Byte) (ok : Bool),
    (¬ s.portOpen →
      exec (.post src msg ok) s = .next { s with heldOff := s.heldOff ++ [(src, msg, ok)] } ∧
      exec (.doorbell src msg ok) s = .next { s with heldOff := s.heldOff ++ [(src, msg, ok)] } ∧
      exec (.malformedMessage src msg) s = .next { s with heldOff := s.heldOff ++ [(src, msg, true)] }) ∧
    (s.portOpen →
      exec (.post src msg false) s = .next (s.logged (logBytes 0x34 0 0 0 0 0 s.count 0 0 0 (11 * 2 ^ 48))) ∧
      exec (.doorbell src msg false) s = .next (s.logged (logBytes 0x34 0 0 0 0 0 s.count 0 0 0 (11 * 2 ^ 48))))

/-- R70: no message of the port leaves a channel with more than its 32 entries occupied. -/
def Obligations.PortKeepsQueueBound : Prop :=
  ∀ (s t : State) (src : Nat) (msg : List Byte) (ok : Bool) (i : Instr),
    i = .post src msg ok ∨ i = .doorbell src msg ok ∨ i = .malformedMessage src msg →
    (∀ c : Fin 16, s.chans[c].occupied ≤ 32) → exec i s = .next t → ∀ c : Fin 16, t.chans[c].occupied ≤ 32

/-! ### Validation, start, retirement, release (R82 to R103, R381 to R386) -/

/-- R82, R315: a first validation that meets no marked word ends in a rejection with the STATUS of the first check that fails, or,
with no block to read, in a descriptor whose validation has passed. -/
def Obligations.ValidationRejectsOrPasses : Prop :=
  ∀ (s : State) (c : Fin 16) (e : Entry) (l : List Entry), s.chans[c].queue = e :: l → s.dueValidation c = true → s.configClean →
    s.bays.queueCE = [] → s.bays.queueUE = [] → s.port.waiting = [] → e.attempt = 0 →
    let d := Desc.parse e.desc
    let x := s.chans[c]
    let rejected := fun (status : Nat) => ∃ p : Package,
      exec (.validateDescriptor c) s = .next { s with
        chans := s.chans.set c (Chan.next { x with held := x.held ++ [p], queue := l, val := none, job := none, halted := none }) } ∧
      p.record = { seq := d.seq, status := status, ch := c.val, start := s.count, stop := s.count } ∧ p.credit = true
    if s.scarfed (s.cfg c).gang = false then rejected stSeasoning
    else match validateHead d (s.vctx c) with
      | some status => status ≠ stFault → rejected status
      | none => neededBlocks d (s.vctx c) = [] → ¬ (45 ≤ d.chain ∧ d.chain ≤ 46) →
        match validateBlocks d (s.vctx c) [] with
        | some status => status ≠ stFault → rejected status
        | none =>
          if s.badSeq c e then rejected stBadSeq
          else if s.isLate c e then rejected stLate
          else exec (.validateDescriptor c) s = .next { s with
            chans := s.chans.set c { x with
              queue := { e with blocks := [], seqPassed := true, launchPassed := true } :: l
              val := some { passed := true } } }

/-- R382, R385, R386: a fault of the attempt at the head of a channel halts the channel; the attempt counts up when it is to be
re-executed, and strands when the fault or ACCUM_INPLACE says so or the fourth attempt has failed. That a validation that faults leaves the
blocks it has read is log 62's. -/
def Obligations.FaultHaltsTheChannel : Prop :=
  ∀ (s : State) (c : Fin 16) (e : Entry) (l : List Entry) (code detail seq : Nat) (place : Option (Nat × Nat)) (strand : Bool)
    (lost : Option Nat), s.chans[c].queue = e :: l →
    let t := s.faultHead c code detail place strand seq lost
    let again := !((Desc.parse e.desc).accum || strand || decide (3 ≤ e.attempt))
    t.chans[c].st = .halt ∧ t.chans[c].val = none ∧
    t.chans[c].queue = { e with
      attempt := if again then e.attempt + 1 else e.attempt
      blocks := mergeBlocks ((s.chans[c].val.map (·.blocks)).getD []) e.blocks } :: l ∧
    (∃ h, t.chans[c].halted = some h ∧ h.disp = (if again then .reexec else .stranded) ∧ h.time = s.count ∧ h.drained = false ∧
      h.lostUntil = lost) ∧
    (∀ j, s.chans[c].job = some j → t.chans[c].job = some { j with phase := .draining }) ∧
    (∀ k : Fin 16, k ≠ c → t.chans[k] = s.chans[k]) ∧
    t = { s with chans := t.chans, port := t.port, offcut := t.offcut, offcutUse := t.offcutUse, sched := t.sched, log := t.log,
                 irqStatus := s.irqStatus ||| 64 }

/-- R82, R381: a block read of a validation that is answered in error faults the attempt and halts its channel now; one answered
with data is kept while another block is awaited. -/
def Obligations.ValidationBlockAnswered : Prop :=
  ∀ (s : State) (c : Fin 16) (blk addr len kind : Nat) (data : List Byte) (v : Validation) (e : Entry) (l : List Entry), s.live →
    s.chans[c].queue = e :: l → s.chans[c].val = some v → v.awaited.find? (·.1 == blk) = some (blk, kind, addr, len) →
    (∃ t, exec (.validationBlockReadDone c blk true data) s = .next t ∧ t.chans[c].st = .halt ∧ t.chans[c].val = none ∧
      (∃ h, t.chans[c].halted = some h ∧ h.time = s.count) ∧ ∀ k : Fin 16, k ≠ c → t.chans[k] = s.chans[k]) ∧
    ((∃ b ∈ v.awaited, b.1 ≠ blk) →
      ∃ t, exec (.validationBlockReadDone c blk false data) s = .next t ∧
        t.chans = s.chans.set c { s.chans[c] with
          val := some { v with blocks := v.blocks ++ [(blk, sliceOf data 0 len)], awaited := v.awaited.filter (·.1 != blk) } } ∧
        t = { s with chans := t.chans, port := t.port })

/-- R99: the launch condition of an eligible head is met at the first edge at which COUNT is at least LAUNCH_AT, at once where it is already;
nothing but time passes (the clock of the model is log 3's). -/
def Obligations.LaunchConditionWaitsForCount : Prop :=
  ∀ (s : State) (c : Fin 16) (e : Entry) (l : List Entry), s.Inv → s.pins.rstN = true → s.chans[c].queue = e :: l →
    e.elig.isSome = true → s.chans[c].job = none → (Desc.parse e.desc).launch < 2 ^ 64 - 1 →
    let n := (Desc.parse e.desc).launch
    ∃ t, exec (.launchConditionMet c) s = .next t ∧ t = s.untilCount n ∧ t = { s with clk := t.clk } ∧ n ≤ t.count ∧
      (∀ m, m < s.clk.edgesTo n → (s.pass m).count < n) ∧ (n ≤ s.count → t = s)

/-- R87: a descriptor bound to no gang whose conditions hold starts: RUN, its START_PLUMB now, its entry marked; then it goes as far as
its inputs and its bays let it, and not at all while its bays wait out a gap. R38, R88: so does the share whose turn it is, in a slot
granted to the share queue, with the returns that came before it (R310; that they are kept is log 76's), each a return or the accumulation of a
fold it goes on with (log 80). R39: a gang-bound start takes a credit from each other member and sends each its SHARE. -/
def Obligations.WorkStartsWhenItMay : Prop :=
  (∀ (s : State) (c : Fin 16) (e : Entry) (l : List Entry), s.chans[c].queue = e :: l → s.canStart c = true → s.granted c = true →
     (s.cfg c).gang = 0 → processesNone (Desc.parse e.desc) s.active.digestN.toNat = false → (Desc.parse e.desc).capture = false →
     ∃ (u : State) (j : Job) (rs : List Rng), exec (.descriptorStart (.chan c)) s = .next (u.progress 16 (.chan c)) ∧
       u.chans = s.chans.set c { s.chans[c] with
         st := .run, val := none, halted := none, job := some j, queue := { e with started := true, ranges := rs } :: l } ∧
       j.start = s.count ∧ j.startArith = s.clk.arith ∧ j.attempt = e.attempt ∧ j.desc = e.desc ∧ j.phase = .inputs ∧
       u = { s with chans := u.chans, port := u.port, bays := { s.bays with
         tallies := u.bays.tallies, tallyCE := u.bays.tallyCE, tallyUE := u.bays.tallyUE } } ∧
       ((Desc.parse e.desc).chain ≠ 48 → s.issues (s.ownerOf (.chan c)) = false → u.progress 16 (.chan c) = u)) ∧
  (∀ (s : State) (c : Fin 16) (e : Entry) (l : List Entry), s.chans[c].queue = e :: l → s.canStart c = true → s.granted c = true →
     (s.cfg c).gang ≠ 0 → headAlone (Desc.parse e.desc) = false → processesNone (Desc.parse e.desc) s.active.digestN.toNat = false →
     (Desc.parse e.desc).capture = false → s.configClean → s.startsOnGang c e l (exec (.descriptorStart (.chan c)) s)) ∧
  ∀ (s : State) (n : Nat) (x : Share), s.shares.find? (·.id == n) = some x → x.job = none → s.sched.grantee = some 16 →
    s.shareReady x = true → s.servedNow = some n → s.bays.shareCE = [] → s.bays.shareUE = [] →
    (∀ m ∈ s.returns, m.1.head = x.env.head → m.1.ch = x.env.ch → m.1.seq = x.env.seq ∧ m.1.attempt = x.env.attempt) →
    (s.shareJob x).skip = false → (Desc.parse (x.body.take 128)).capture = false →
    ∃ u : State, exec (.descriptorStart (.share n)) s = .next (u.progress 16 (.share n)) ∧ u.sched = { s.sched with serving := some n } ∧
      (∃ j, u.shares = s.shares.map (fun y => if y.id = n then { y with job := some j } else y) ∧ j.start = s.count ∧
        j.head = x.env.head ∧ j.attempt = x.env.attempt ∧
        ∀ m ∈ s.returns, m.1.head = x.env.head → m.1.ch = x.env.ch → (fieldAt m.2 4 2, fieldAt m.2 8 8) ∈ j.rets.map Prod.fst ∨
          (fieldAt m.2 4 2, fieldAt m.2 8 8, fieldAt m.2 6 2) ∈ j.carry.map Prod.fst) ∧
      u.returns = s.returns.filter (fun m => !(m.1.head == x.env.head && m.1.ch == x.env.ch)) ∧
      u = { s with sched := u.sched, shares := u.shares, port := u.port, returns := u.returns, bays := { s.bays with
        tallies := u.bays.tallies, tallyCE := u.bays.tallyCE, tallyUE := u.bays.tallyUE } }

/-- R86, R102: a descriptor whose outputs are all acknowledged retires: its DONE package is held, its entry leaves the queue. R84, R313:
a share that has retired on its member sends REPORT, STATUS DONE, and its entry is free; that it adds CHECK_WORKING's count on the member, and
keeps it for a later attempt to take back, is log 15's. That next-SEQ advances with COMPLETE and not at the retirement is log 35's. -/
def Obligations.RetirementFormsDone : Prop :=
  (∀ (s : State) (c : Fin 16) (e : Entry) (l : List Entry) (j : Job), s.live → s.chans[c].queue = e :: l → s.chans[c].job = some j →
     s.mayRetire (.chan c) j = true → j.due = none → s.draining = false → s.bays.queueCE = [] → s.bays.queueUE = [] →
     ∃ p : Package, exec (.descriptorRetire (.chan c)) s = .next { s with
         chans := s.chans.set c (Chan.next { s.chans[c] with
           held := s.chans[c].held ++ [p], queue := l, val := none, job := none, halted := none }) } ∧
       p.record.seq = j.d.seq ∧ p.record.status = stDone ∧ p.record.start = j.start ∧ p.record.stop = j.lastAt ∧
       p.record.cycles = j.lastArith - j.startArith + 1 ∧ p.credit = true ∧ (p.advance = (s.cfg c).grouped) ∧ p.barred = decide (s.lg = .fault)) ∧
  ∀ (s : State) (n : Nat) (j : Job), s.live → s.job (.share n) = some j → s.mayRetire (.share n) j = true → j.due = none →
    s.draining = false →
    let u : State := { s with ctr := { s.ctr with
      drift := s.ctr.drift + BitVec.ofNat 64 j.counts.sat.drift
      shareDrift := ((j.head, j.ch, j.d.seq), j.counts.sat.drift) :: s.ctr.shareDrift.filter fun x => !(x.1.1 == j.head && x.1.2.1 == j.ch) } }
    ∃ b : List Byte, exec (.descriptorRetire (.share n)) s = .next ((u.jobSend j 2 j.head b).dropShare n) ∧ b.length = 24 ∧
      fieldAt b 0 1 = stDone ∧ fieldAt b 2 1 = j.passes

/-- R90, R91, R101, R396: a package whose hold is not met stays held; one whose hold is met and that carries its record in COMPLETE is
sent, advances its group's next-SEQ when it is to, and frees its place. Once LG_STATE is FAULT a package formed later is barred and stays, and
a channel's FAULT completion goes in its turn: after every package whose hold is met, by ascending channel. -/
def Obligations.PackageReleasedWhenHoldIsMet : Prop :=
  (∀ (s : State) (c : Fin 16) (e : Entry) (r : Record) (shaves poles : List (List Byte)), s.lg = .fault → r.status ≠ stFault →
     (s.package c e r shaves poles).barred = true) ∧
  ∀ (s : State) (c : Fin 16) (p : Package) (l : List Package), s.live → s.ringsIdle → s.chans[c].held = p :: l →
    let met := fun (k : Fin 16) (q : Package) =>
      q.barred = false ∧ (q.freely = true ∨ (s.nextSeq[(s.cfg k).group]).toNat = q.record.seq) ∧ ¬ (s.lg = .fault ∧ q.record.status = stFault)
    let goes := fun (q : Package) (rest : List Package) => q.viaMsg = true → q.shaves = [] → q.poles = [] →
      ∃ t, exec (.releasePackage c) s = .next t ∧
        t.sent = s.sent ++ [((s.cfg c).source,
          msgHeader 0x81 c.val 0 q.record.status q.record.seq (b2n q.credit) 0 ++ q.record.bytes)] ∧
        t.chans = s.chans.set c { s.chans[c] with held := rest, rel := none, lastSeq := q.record.seq } ∧
        t.nextSeq = (if q.advance then s.nextSeq.set (s.cfg c).group (s.nextSeq[(s.cfg c).group] + 1) else s.nextSeq) ∧
        t.ctr.clip = s.ctr.clip + BitVec.ofNat 64 q.record.clip ∧ t.ctr.green = s.ctr.green + BitVec.ofNat 64 q.record.green ∧
        t = { s with sent := t.sent, chans := t.chans, nextSeq := t.nextSeq, ctr := t.ctr, credits := t.credits }
    (s.lg ≠ .fault → ¬ met c p → exec (.releasePackage c) s = .next s) ∧
    (s.lg = .fault → p.barred = true → (∀ q ∈ p :: l, q.record.status ≠ stFault) → exec (.releasePackage c) s = .next s) ∧
    (s.lg = .fault → ¬ met c p → (∃ (k : Fin 16) (x : Package) (r : List Package), s.chans[k].held = x :: r ∧ met k x) →
      exec (.releasePackage c) s = .next s) ∧
    (met c p → goes p l) ∧
    (s.lg = .fault → ∀ q : Package, (p :: l).find? (fun x => x.record.status == stFault) = some q →
      (∀ (k : Fin 16) (x : Package) (r : List Package), s.chans[k].held = x :: r → ¬ met k x) →
      (∀ k : Fin 16, k < c → (∀ x ∈ s.chans[k].held, x.record.status ≠ stFault) ∧ ∀ h, s.chans[k].halted = some h → h.drained = true) →
      goes q ((p :: l).erase q))

/-- R101: COMPLETE follows the acknowledgment of the record's write, and carries no record then. That next-SEQ advances with it, and not
before, is log 35's. -/
def Obligations.CompleteFollowsRecordWrite : Prop :=
  ∀ (s : State) (c : Fin 16) (r : Release) (q : MemReq), s.live → s.chans[c].rel = some r → r.recordSent = true → r.pkg.viaMsg = false →
    r.tiles = [] → q.bad = false →
    (∀ k : Fin 16, k ≠ c → s.chans[k].rel = none) → s.offcut = [] → s.port.out = [q] → q.use = .record c → s.port.waiting = [] →
    ∃ t, exec (.completionRecordWriteAck c false) s = .next t ∧
      t.sent = s.sent ++ [((s.cfg c).source, msgHeader 0x81 c.val 0 r.pkg.record.status r.pkg.record.seq (b2n r.pkg.credit) 0)] ∧
      t.chans = s.chans.set c { s.chans[c] with rel := none, lastSeq := r.pkg.record.seq } ∧ t.port.out = [] ∧
      t.nextSeq = (if r.pkg.advance then s.nextSeq.set (s.cfg c).group (s.nextSeq[(s.cfg c).group] + 1) else s.nextSeq) ∧
      t = { s with sent := t.sent, chans := t.chans, nextSeq := t.nextSeq, ctr := t.ctr, credits := t.credits, port := t.port }

/-! ### The slot table (R96, R97) -/

/-- R96, R97: a slot begins 256 ARITH cycles after the last; the pool goes to the first participant with work, cyclically after
the previous grantee; a bay has its slot's owner, and a gap exactly where a new owner takes it. -/
def Obligations.SlotBoundaryGrantsThePool : Prop :=
  ∀ s : State, s.rotates = true → s.configClean →
    let v := s.untilArith (s.sched.slotStart + 256)
    let n := (s.sched.slot + 1) % 64
    ∃ u : State, exec .slotBoundary s = .next u.progressAll ∧ u = { v with sched := u.sched } ∧ u.sched.slot = n ∧
      u.sched.slotStart = s.sched.slotStart + 256 ∧ u.sched.edge = v.clk.edges ∧ u.sched.broken = s.sched.broken ∧
      u.sched.leaving = s.sched.owners ∧ u.sched.served = s.sched.serving ∧
      u.sched.serving = (if u.sched.grantee = some 16 then v.shareOfSlot else s.sched.serving) ∧
      (∀ j, j < s.bayCount →
        u.sched.owners[j]? = some (if slotPlumb (s.slotWord n) ∧ j ∈ slotBays (s.slotWord n) then .plumb (slotChan (s.slotWord n))
          else match u.sched.grantee with | some p => .pool p | none => .none)) ∧
      (∀ j, j ∈ u.sched.gap ↔ j < s.bayCount ∧ u.sched.owners.getD j .none ≠ .none ∧
        u.sched.owners.getD j .none ≠ s.sched.owners.getD j .none) ∧
      (match u.sched.grantee with
       | some p => u.sched.grantPtr = p ∧ v.hasWork p = true ∧ ∃ k, k < 17 ∧ p = (s.sched.grantPtr + 1 + k) % 17 ∧
           ∀ i, i < k → v.hasWork ((s.sched.grantPtr + 1 + i) % 17) = false
       | none => u.sched.grantPtr = s.sched.grantPtr ∧ ∀ p, p < 17 → v.hasWork p = false)

/-- R97: 32 ARITH cycles into a slot its gaps end, and the incoming owners' work goes on. R381: once the spare is mapped in, its bay
issues again. -/
def Obligations.HoldsEndAndWorkGoesOn : Prop :=
  (∀ s : State, s.rotates = true → s.sched.gap ≠ [] →
     let v := s.untilArith (s.sched.slotStart + 32)
     exec .handoverGapEnd s = .next ({ v with sched := { s.sched with gap := [], leaving := [], served := none } } : State).progressAll) ∧
  ∀ (s : State) (bay : Fin 16) (h : Nat × Nat), s.live → s.bays.hold.find? (·.1 == bay.val) = some h →
    ∃ u : State, exec (.spareMapInDone bay) s = .next u.progressAll ∧ (∀ x ∈ u.bays.hold, x.1 ≠ bay.val) ∧
      (∀ x ∈ s.bays.hold, x.1 ≠ bay.val → x ∈ u.bays.hold) ∧ u = { s.untilArith h.2 with bays := u.bays } ∧
      u.bays = { s.bays with hold := u.bays.hold }

/-! ### The memory port (R397 to R400, Table 14.5) -/

/-- R399, R400: the tag of a new request is the lowest that is neither outstanding nor reserved, and is one of 1,024. -/
def Obligations.TagIsLowestFree : Prop :=
  ∀ (m : MemPort) (t : Nat), m.freeTag = some t → t < 1024 ∧ (∀ q ∈ m.out, q.tag ≠ t) ∧ t ∉ m.dead ∧
    ∀ u, u < t → (∃ q ∈ m.out, q.tag = u) ∨ u ∈ m.dead

/-- R397: good read data of running work arrives with it, and the work goes on; a response with ERR, of any code but 0, faults its attempt
with MEM_ERR at the request's address, one with wrong parity with PARITY. R86: an acknowledged output write leaves the port and moves
its work's last output to now. R384: a write in error faults its attempt, and so does one whose buffer fails its parity; R388: COMMIT_STEP's
is issued again. -/
def Obligations.MemoryResponsesServeTheirWork : Prop :=
  (∀ (s : State) (tag status : Nat) (data : List Byte) (ok : Bool) (q : MemReq) (p : Part) (j : Job), s.live →
     s.outstanding tag false = some q → q.use = .input p → s.job p = some j → j.phase = .inputs →
     let u : State := { s with port := { s.port with out := s.port.out.filter fun r => r.tag != tag } }
     (status = 0 → ok = true →
       exec (.memoryReadResponse tag status data ok) s =
         .next ((u.setJob p (some { j with chunks := j.chunks ++ [(q.addr, data)] })).progress 16 p).reissue) ∧
     (s.haltable p j = true → status ≠ 0 →
       exec (.memoryReadResponse tag status data ok) s = .next (u.faultPart p 0x06 q.addr none false).reissue) ∧
     (s.haltable p j = true → status = 0 → ok = false →
       exec (.memoryReadResponse tag status data ok) s = .next (u.faultPart p 0x05 (9 * 2 ^ 48) none false).reissue)) ∧
  ∀ (s : State) (tag status : Nat) (q : MemReq) (p : Part) (j : Job), s.live → s.outstanding tag true = some q → q.use = .output p →
    s.job p = some j →
    let u : State := { s with port := { s.port with out := s.port.out.filter fun r => r.tag != tag } }
    (status = 0 → q.bad = false → exec (.memoryWriteAck tag status) s =
      .next ((u.setJob p (some { j with lastAt := s.count, lastArith := s.clk.arith })).progress 16 p).reissue) ∧
    (s.haltable p j = true → ¬ (j.d.chain = 45 ∧ j.phase = .writing) →
      (status ≠ 0 → exec (.memoryWriteAck tag status) s = .next (u.faultPart p 0x06 (q.addr / 64 * 64) none false).reissue) ∧
      (status = 0 → q.bad = true → exec (.memoryWriteAck tag status) s = .next (u.faultPart p 0x05 (10 * 2 ^ 48) none false).reissue)) ∧
    (j.d.chain = 45 → j.phase = .writing → status ≠ 0 → exec (.memoryWriteAck tag status) s =
      .next ((u.logged (logBytes 0x06 0 0 0 0 0 s.count 0 0 0 (q.addr / 64 * 64))).request [{ q with tries := q.tries + 1, bad := false }]).reissue)

/-- R400: a request without a response in time is taken as answered with ERR and its tag stays reserved; the late response is discarded
and frees the tag. R399, Table 14.5: a response that comes during a clock stop waits in its queue; one that comes while RST_N is low,
or once FABRIC has stopped, is lost. -/
def Obligations.LateResponsesAreHeldOrLost : Prop :=
  (∀ (s : State) (tag : Nat) (q : MemReq), s.live →
     (s.port.out.find? (·.tag == tag) = some q →
       let u : State := { s with port := { s.port with out := s.port.out.filter (fun r => r.tag != tag), dead := s.port.dead ++ [tag] } }
       exec (.memoryResponseTimeout tag) s =
         .next (if q.write then u.writeAnswered q true else u.readAnswered q [] (some (0x06, q.addr))).reissue) ∧
     ((∀ r ∈ s.port.out, r.tag ≠ tag) → tag ∈ s.port.dead → s.port.waiting = [] →
       ∀ (status : Nat) (data : List Byte) (ok : Bool),
         exec (.memoryReadResponse tag status data ok) s =
           .next { s with port := { s.port with dead := s.port.dead.filter (· != tag) } } ∧
         exec (.memoryWriteAck tag status) s = .next { s with port := { s.port with dead := s.port.dead.filter (· != tag) } })) ∧
  ∀ (s : State) (i : Instr),
    ((∃ tag status data ok, i = .memoryReadResponse tag status data ok) ∨ (∃ tag status, i = .memoryWriteAck tag status) ∨
      (∃ c blk err data, i = .validationBlockReadDone c blk err data) ∨ (∃ c err, i = .completionRecordWriteAck c err) ∨
      ∃ r err, i = .ringRecordWriteAck r err) →
    (s.pins.rstN = false ∨ s.lg = .frozen → exec i s = .next s) ∧
    (s.pins.rstN = true → s.lg ≠ .frozen → s.frz.running = true →
      exec i s = .next { s with port := { s.port with held := s.port.held ++ [i] } })

/-! ### Taps, lanes, drains, re-execution (R21, R22, R381 to R386, R402, R421) -/

/-- R402, R231: a good beat of an enabled bay's tap goes to the work that consumes it, with the ARITH cycle of its transfer; with none
consuming, no beat transfers; wrong parity faults the work, in an entry that names the bay with LANE 0 (log 23). -/
def Obligations.TapBeatTransfers : Prop :=
  ∀ (s : State) (bay : Fin 16) (data : List Word) (par : List Bool), s.live → bay.val ∈ s.bays.enabled →
    (∀ h ∈ s.bays.hold, h.1 ≠ bay.val) →
    let k := s.bays.enabled.findIdx (· == bay.val)
    (s.tapTaker k = none → exec (.tapBeat bay data par) s = .next s) ∧
    ∀ (p : Part) (j : Job), s.tapTaker k = some (p, j) →
      ((∀ x ∈ data.zip par, parityRight x.1 x.2 = true) →
        ∃ taps due, exec (.tapBeat bay data par) s = .next ((s.setJob p (some { j with
            taps := taps, beats := j.beats ++ [(k, s.clk.arith - j.startArith)], due := due })).progress 16 p) ∧
          taps.getD k [] = j.taps.getD k [] ++ [data] ∧ ∀ n, n ≠ k → taps.getD n [] = j.taps.getD n []) ∧
      ((∃ x ∈ data.zip par, parityRight x.1 x.2 = false) →
        exec (.tapBeat bay data par) s = .next (s.faultPart p 0x05 (12 * 2 ^ 48) (some (bay.val, 0)) false))

/-- R21, R22, R126, R381: a lane whose check trips is retired and the spare mapped in, its bay's issue held for 64 ARITH cycles; in a
bay without a spare left the instance faults; a result within the bounds of Table 4.6 trips nothing. R128: of two lanes that trip in one
cycle the lower one is retired, which the entry of the first one names then, and the other is the second retirement. -/
def Obligations.LaneCheckMapsInTheSpare : Prop :=
  ∀ (s : State) (bay : Fin 16) (lane op : Nat) (seen : LaneSeen) (p : Part) (j : Job), s.live → s.workOn bay.val = some (p, j) →
    s.lg = .ready → s.bays.laneActive bay.val lane = true → bay.val ∈ s.bays.enabled →
    let u : State := { s with ctr := { s.ctr with laneCheck := s.ctr.laneCheck + 1 } }
    let second := fun (n : Nat) => logBytes 0x04 4 (3 + 4 * b2n (j.gang != 0)) j.head j.ch.val j.attempt s.count j.d.seq bay.val n
      (op % 64 + 256 * (seen.fmt % 16))
    (crossTrips op (laneVal seen.p) (laneVal seen.e) = false → exec (.laneCheck bay lane op seen) s = .next s) ∧
    (crossTrips op (laneVal seen.p) (laneVal seen.e) = true →
      ((s.bays.spared.any (·.1 == bay.val) || s.bays.spareBad.contains bay.val) = true → s.heldSpare bay.val lane = none →
        exec (.laneCheck bay lane op seen) s = .next (u.instanceFault (second lane))) ∧
      (∀ n, s.bays.spared.find? (·.1 == bay.val) = some (bay.val, n) → lane < n → (bay.val, s.clk.arith + 64) ∈ s.bays.hold →
        exec (.laneCheck bay lane op seen) s = .next (({ u with
          bays := { s.bays with spared := s.bays.spared.map fun (x : Nat × Nat) => if x.1 = bay.val then (x.1, lane) else x }
          log := s.log.relane s.count bay.val n lane (op % 64 + 256 * (seen.fmt % 16)) } : State).instanceFault (second n))) ∧
      ((s.bays.spared.any (·.1 == bay.val) || s.bays.spareBad.contains bay.val) = false →
        exec (.laneCheck bay lane op seen) s =
          .next ((({ u with bays := { s.bays with
              spared := s.bays.spared ++ [(bay.val, lane)]
              hold := s.bays.hold ++ [(bay.val, s.clk.arith + 64)] } } : State).breakLent bay.val).faultPart p 0x03
            (op % 64 + 256 * (seen.fmt % 16)) (some (bay.val, lane)) false)))

/-- R421, R377, R378: a scrub corrects and counts every correctable word of the configuration store; it touches nothing but the
marks, the counter, the error log and its interrupt. -/
def Obligations.ScrubCorrectsConfiguration : Prop :=
  ∀ s : State, s.pins.rstN = true → s.lg ≠ .frozen → s.bays.configUE = [] →
    ∃ t, exec .scrub s = .next t ∧ t.bays = { s.bays with configCE := [] } ∧
      t.ctr = { s.ctr with eccCe := s.ctr.eccCe + BitVec.ofNat 64 s.bays.configCE.length } ∧
      t = { s with bays := t.bays, ctr := t.ctr, log := t.log, irqStatus := t.irqStatus }

/-- R382, R383: once an attempt has drained, its FAULT completion is held behind those of its channel and the channel may re-execute;
nothing is formed while a request of it is in flight. R391, R392: a drained share reports FAULT to the head, unless it was abandoned,
and its entry is free. -/
def Obligations.DrainEndsInFault : Prop :=
  (∀ (s : State) (c : Fin 16) (e : Entry) (l : List Entry) (h : Halt), s.live → s.chans[c].queue = e :: l →
     s.chans[c].halted = some h → h.drained = false →
     (s.drained (.chan c) = false → exec (.attemptDrained (.chan c)) s = .next s) ∧
     (s.drained (.chan c) = true → s.draining = false → s.bays.queueUE = [] →
       ∃ (t : State) (p : Package), exec (.attemptDrained (.chan c)) s = .next t ∧
         t.chans = s.chans.set c { s.chans[c] with
           held := s.chans[c].held ++ [p], job := none, halted := some { h with drained := true } } ∧
         p.record = { seq := (Desc.parse e.desc).seq, status := stFault, ch := c.val, start := h.start, stop := h.time } ∧
         p.credit = false ∧ p.advance = false ∧ p.shaves = [] ∧ t = { s with chans := t.chans, bays := t.bays } ∧
         t.bays = { s.bays with undef := t.bays.undef, undefNext := t.bays.undefNext })) ∧
  ∀ (s : State) (n : Nat) (j : Job), s.live → s.job (.share n) = some j → s.drained (.share n) = true → s.draining = false →
    s.stop.fault = false →
    ∃ b : List Byte, b.length = 24 ∧ fieldAt b 0 1 = stFault ∧
      exec (.attemptDrained (.share n)) s =
        .next ((if j.silent then s.undefine j.ranges else (s.undefine j.ranges).jobSend j 2 j.head b).dropShare n)

/-- R385: a drained attempt whose validation has passed starts again, on its next attempt number, with its START_PLUMB now, on a gang too; one
for which the conditions do not hold waits. R392: a started descriptor whose gang loses a member's SCARF halts; 16,777,216 counts from that
fault its re-execution waits for its gang no longer. -/
def Obligations.ReexecutionStartsOrWaits : Prop :=
  (∀ (s : State) (c : Fin 16) (e : Entry) (l : List Entry) (v : Validation), s.pins.rstN = true → s.chans[c].queue = e :: l →
     (s.mayReexecute c = false → exec (.reexecutionStart c) s = .next s) ∧
     (s.mayReexecute c = true → s.chans[c].val = some v → s.canStart c = true → s.granted c = true → (s.cfg c).gang = 0 →
       processesNone (Desc.parse e.desc) s.active.digestN.toNat = false → (Desc.parse e.desc).capture = false →
       ∃ (u : State) (j : Job) (rs : List Rng), exec (.reexecutionStart c) s = .next (u.progress 16 (.chan c)) ∧
         u.chans = s.chans.set c { s.chans[c] with
           st := .run, val := none, halted := none, job := some j, queue := { e with started := true, ranges := rs } :: l } ∧
         j.start = s.count ∧ j.attempt = e.attempt ∧ j.chunks = [] ∧ j.phase = .inputs ∧
         u = { s with chans := u.chans, port := u.port, bays := { s.bays with
           tallies := u.bays.tallies, tallyCE := u.bays.tallyCE, tallyUE := u.bays.tallyUE } }) ∧
     (s.mayReexecute c = true → s.chans[c].val = some v → s.canStart c = true → s.granted c = true → (s.cfg c).gang ≠ 0 →
       headAlone (Desc.parse e.desc) = false → processesNone (Desc.parse e.desc) s.active.digestN.toNat = false →
       (Desc.parse e.desc).capture = false → s.configClean → s.startsOnGang c e l (exec (.reexecutionStart c) s))) ∧
  (∀ (s : State) (c : Fin 16) (e : Entry) (l : List Entry) (j : Job) (m : Nat) (x : ScarfEntry), s.live → s.chans[c].queue = e :: l →
     s.chans[c].job = some j → (s.cfg c).gang ≠ 0 → s.haltable (.chan c) j = true → m ∈ s.otherMembers c → s.scarfs.find? (·.sin == m) = some x →
     ∃ t, exec (.scarfTimeout m) s = .next t ∧ t.chans[c].st = .halt ∧
       ∃ h, t.chans[c].halted = some h ∧ h.time = t.count ∧ h.lostUntil = some (t.count + 16777216)) ∧
  ∀ (s : State) (c : Fin 16) (h : Halt) (n : Nat), s.live → s.chans[c].halted = some h → h.lostUntil = some n →
    exec (.gangLostWaitExpiry c) s = .next (State.reexecute
      { s.untilCount n with chans := s.chans.set c { s.chans[c] with halted := some { h with lostUntil := none } } } c)

/-! ### Rings, capture, tiles (R261, R288, R294, R235, R236) -/

/-- R261: after the last write of a record is acknowledged, and only then, HEAD is written past the record, where the ring's head lies: in
memory by one request, in a yard at once; while it waits, a unit reads HEAD and TAIL of its ring again, from memory by one request,
from a yard at once. -/
def Obligations.RingRecordsPrecedeTheirHead : Prop :=
  (∀ (s : State) (r : RingSite) (u : RingUse) (q : MemReq) (n : Nat), s.live →
     s.port.out.find? (fun x => x.use == .ringRecord r) = some q → s.useOf r = some u → u.phase = .record n → q.bad = false →
     let v : State := { s with port := { s.port with out := s.port.out.filter fun x => x.tag != q.tag } }
     (n ≤ 1 → u.ring.headKind ≠ 1 → exec (.ringRecordWriteAck r false) s =
       .next (((v.setUse r (some { u with phase := .head })).request (writeReqs (.ringHead r) u.ring.headAddr (natLE 4 u.newHead)))).reissue) ∧
     (n ≤ 1 → u.ring.headKind = 1 →
       let w := (v.setUse r (some { u with phase := .head })).siteWrite r u.ring.headAddr (natLE 4 u.newHead)
       exec (.ringRecordWriteAck r false) s = .next (if w.siteWaits r then w else w.recordPlaced r u).reissue) ∧
     (1 < n → exec (.ringRecordWriteAck r false) s = .next (v.setUse r (some { u with phase := .record (n - 1) })).reissue)) ∧
  ∀ (s : State) (r : RingSite) (u : RingUse), s.live → s.useOf r = some u → u.phase = .wait → u.ring.bytes ≠ 0 →
    (u.ring.headKind ≠ 1 → exec (.ringSpacePoll r) s =
      .next ((s.setUse r (some { u with phase := .read })).request (readReqs (.ringRead r) u.ring.headAddr 8))) ∧
    (u.ring.headKind = 1 → s.bays.yardCE = [] → s.bays.yardUE = [] →
      let ring := { u.ring with head := fieldAt (s.blockBytes u.ring.headAddr 8) 0 4, tail := fieldAt (s.blockBytes u.ring.headAddr 8) 4 4 }
      exec (.ringSpacePoll r) s =
        .next ((s.setUse r (some { u with ring := ring })).placeRecords (s.ringFuel r) r { u with ring := ring }).pumpRings)

/-- R294: once no DATA record of it waits, an executing instance places its END record, which holds the five counts. -/
def Obligations.EndRecordFollowsData : Prop :=
  ∀ (s : State) (p : Part) (j : Job), s.live → s.job p = some j → j.d.capture = true → j.skip = false → j.endSent = false →
    j.phase = .writing → (s.offcut.any (·.1 == p)) = false →
    exec (.offcutEndRecord p) s = .next ((s.setJob p (some { j with endSent := true, lastAt := s.count, lastArith := s.clk.arith })).queueOffcut
      p (blockOf j.blocks 5) [offcutEnd s.sin j.d.seq j.d.step j.ch.val j.captured])

/-- R235, R236: a peer tile that overlaps no started work is written and acknowledged at once; one that does is held, and is
written when nothing started overlaps it any more, several in the order of their arrival; the work the tile belongs to does not hold it (log 75). R309: one of another attempt than that of the work it belongs to is discarded. -/
def Obligations.TilesAreWrittenOrHeld : Prop :=
  ∀ (s : State) (e : Envelope) (b : List Byte), s.works e = true →
    let off := fieldAt b 16 5 % 2 ^ 36
    let n := fieldAt b 24 2
    let u : State := { s with inbox := s.inbox.erase (e, b) }
    ((∀ p a, s.workOf e = some (p, a) → a % 256 = e.attempt) →
      (s.tileHeld e off n = true → exec (.tile e b) s =
        .next { u with heldTiles := s.heldTiles ++ [{ env := e, off := off, bytes := sliceOf b 32 n }] }) ∧
      (s.tileHeld e off n = false → exec (.tile e b) s = .next (u.writeTile e off (sliceOf b 32 n)))) ∧
    (∀ p a, s.workOf e = some (p, a) → a % 256 ≠ e.attempt → exec (.tile e b) s = .next (u.discard e)) ∧
    (∀ h : HeldTile, s.heldTiles = [h] → s.tileHeld h.env h.off h.bytes.length = false →
      exec .heldTileWrite s = .next (({ s with heldTiles := [] } : State).writeTile h.env h.off h.bytes)) ∧
    (∀ h : HeldTile, s.heldTiles = [h] → s.tileHeld h.env h.off h.bytes.length = true → exec .heldTileWrite s = .next s) ∧
    (let held := fun (h : HeldTile) => s.tileHeld h.env h.off h.bytes.length
     exec .heldTileWrite s = .next ((s.heldTiles.filter fun h => !(held h)).foldl (fun t h => t.writeTile h.env h.off h.bytes)
       { s with heldTiles := s.heldTiles.filter held }))

/-- R235, R25: a tile written reads back byte for byte in a yard without error marks, and every other byte of the yards stays. -/
def Obligations.TileBytesLandInTheYard : Prop :=
  ∀ (s : State) (off : Nat) (b : List Byte), s.Inv → s.bays.yardUE = [] → s.bays.yardCE = [] → s.bays.undef = [] →
    s.bays.enabled.Nodup → off + b.length ≤ s.bayCount * 2 ^ 20 →
    let t := s.yardWrite off b
    (∀ i, i < b.length → t.yardByte (off + i) = b.getD i 0#8) ∧
    (∀ a, a < off ∨ off + b.length ≤ a → t.yardByte a = s.yardByte a) ∧ t = { s with bays := t.bays }

/-! ### Messages between instances (R38, R39, R309 to R316, R320, R325, R326, R340, R351) -/

/-- R38, R39, R309, R391: a SHARE takes a free entry of those held for its head behind the others, replaces an earlier attempt's that has not
started, waits for one that has, which drains without a REPORT, is discarded when it is not of a later attempt, and is reported FAULT when no
entry is free. That it counts for the lowest gang of its head is log 9's, that it takes the next eligibility number log 44's, and that it takes
back what an earlier attempt counted log 15's. -/
def Obligations.ShareQueuedOrRefused : Prop :=
  ∀ (s : State) (e : Envelope) (b : List Byte), s.works e = true →
    let g := s.gangOf e.head
    let u : State := ({ s with inbox := s.inbox.erase (e, b) } : State).shareComes e
    (s.shares.find? (shareKey e) = none → (s.shares.filter (·.env.head == e.head)).length < s.headShare e.head →
      exec (.share e b) s = .next { u with
        shares := s.shares ++ [{ id := s.eligNext, env := e, gang := g, body := b }], eligNext := s.eligNext + 1 }) ∧
    (s.shares.find? (shareKey e) = none → ¬ (s.shares.filter (·.env.head == e.head)).length < s.headShare e.head →
      ∃ (r : List Byte) (k : Envelope), exec (.share e b) s = .next ((u.discard e).netSend k r) ∧ fieldAt r 0 1 = stFault ∧
        r.length = 24 ∧ k.cls = 2 ∧ k.dest = e.head ∧ k.head = e.head ∧ k.ch = e.ch ∧ k.attempt = e.attempt ∧ k.seq = e.seq) ∧
    (∀ x : Share, s.shares.find? (shareKey e) = some x →
      (e.attempt ≤ x.attempt → exec (.share e b) s = .next (u.discard e)) ∧
      (x.attempt < e.attempt → x.job = none → exec (.share e b) s =
        .next { u with shares := s.shares.map fun y => if y.id = x.id then { y with env := e, body := b } else y }) ∧
      (∀ j, x.attempt < e.attempt → x.job = some j → exec (.share e b) s =
        .next (({ u with shares := s.shares.map fun y =>
          if y.id = x.id then { y with next := some (e, b), job := some { j with phase := .draining, silent := true } } else y } : State).dropWaiting
            (.share x.id))))

/-- R309, R313, R235, R314, R161: a message of running work is taken when its ATTEMPT is the one held, and discarded otherwise or while
the work drains; a REPORT of a fault halts the head's channel. A TILE_ACK that a release of the channel awaits is the release's (R101). A
return that comes before its share has started is kept (R310, log 76); one that a fold goes on with is no return (log 80). -/
def Obligations.WorkMessagesFollowTheAttempt : Prop :=
  (∀ (s : State) (e : Envelope) (b : List Byte), s.works e = true → e.head ≠ s.sin →
    (s.shares.find? (shareKey e) = none ∨ ∃ x, s.shares.find? (shareKey e) = some x ∧ x.attempt % 256 = e.attempt ∧ x.job = none) →
    exec (.partialMsg e b) s = .next { s with inbox := s.inbox.erase (e, b), returns := s.returns ++ [(e, b)] }) ∧
  ∀ (s : State) (e : Envelope) (b : List Byte) (p : Part) (a : Nat) (j : Job), s.works e = true → s.workOf e = some (p, a) →
    s.job p = some j →
    let u : State := { s with inbox := s.inbox.erase (e, b) }
    let tile := (e.src, fieldAt b 0 8, fieldAt b 8 2)
    (a % 256 ≠ e.attempt ∨ j.phase = .draining →
      (∀ i, i = .report e b ∨ i = .segval e b → exec i s = .next (u.discard e)) ∧
      (s.early e = false → exec (.partialMsg e b) s = .next (u.discard e)) ∧
      ((e.head = s.sin → s.awaitsTile e.ch tile = false) → exec (.tileAck e b) s = .next (u.discard e))) ∧
    (e.head = s.sin → s.awaitsTile e.ch tile = true → exec (.tileAck e b) s = .next (u.releaseTile e.ch tile)) ∧
    (a % 256 = e.attempt → j.phase ≠ .draining →
      (∀ c, p = .chan c → fieldAt b 0 1 ≠ stFault → exec (.report e b) s = .next ((u.setJob p (some { j with
        reports := j.reports ++ [(e.src, b)], lastAt := s.count, lastArith := s.clk.arith })).progress 16 p)) ∧
      (∀ c, p = .chan c → fieldAt b 0 1 = stFault → s.haltable p j = true →
        ∃ t, exec (.report e b) s = .next t ∧ t.chans[c].st = .halt) ∧
      ((e.head = s.sin → s.awaitsTile e.ch tile = false) → exec (.tileAck e b) s = .next ((u.setJob p (some { j with
        tiles := j.tiles.erase tile, lastAt := s.count, lastArith := s.clk.arith })).progress 16 p)) ∧
      (∃ l, exec (.segval e b) s = .next ((u.setJob p (some { j with
          leaves := j.leaves ++ l, lastAt := s.count, lastArith := s.clk.arith })).progress 16 p) ∧ l.length = fieldAt b 16 4 ∧
        ∀ i, i < fieldAt b 16 4 → l[i]? = some (fieldAt b 0 1, fieldAt b 8 8 + i, sliceOf b (24 + 16 * i) 16)) ∧
      (∀ c, p = .chan c → ∃ x : Arrival, exec (.partialMsg e b) s =
          .next ((u.setJob p (some { j with arrivals := j.arrivals ++ [x] })).progress 16 p) ∧ x.sub = fieldAt b 4 2 ∧
        x.foldix = fieldAt b 6 2 ∧ x.row = fieldAt b 8 8 ∧ x.pos = j.members.findIdx (· == e.src)) ∧
      ∀ n, p = .share n → s.early e = false →
        (∃ r, exec (.partialMsg e b) s =
          .next ((u.setJob p (some { j with rets := j.rets ++ [((fieldAt b 4 2, fieldAt b 8 8), r)] })).progress 16 p)) ∨
        ∃ v, exec (.partialMsg e b) s = .next ((u.setJob p (some { j with
          carry := j.carry ++ [((fieldAt b 4 2, fieldAt b 8 8, fieldAt b 6 2), v)] })).progress 16 p))

/-- R316, R39: a head keeps each member's newest SCARF; a new BOOT_ID sets the member's credits of every gang the head shares
with it; SCARF goes to the head of every gang of the instance; 16,777,216 counts of silence drop an entry. R320: the stop notes which
instances of its ring are ready, and sends one that becomes ready RING_TIME once the counter is locked. -/
def Obligations.ScarfKeptSentAndDropped : Prop :=
  ∀ (s : State) (e : Envelope) (b : List Byte), s.running = [] →
    let x := scarfOf b s.count
    let m := fieldAt b 0 2 % 4096
    let on := bitOf (fieldAt b 3 1) 0
    let passes := e.cls = 7 ∧ m ∈ s.params.ring ∧ m ≠ s.sin
    let noted := fun (t : State) => { t with stop := { t.stop with ready := (if on = true then [m] else []) ++ t.stop.ready.filter (· != m) } }
    let seen := fun (t : State) => t.scarfSeen e b
    let u : State := { s with inbox := s.inbox.erase (e, b) }
    (¬ passes → seen s = s) ∧
    (passes → on = false ∨ m ∈ s.stop.ready ∨ s.clk.locked = false ∨ s.image.role = 2 → seen s = noted s) ∧
    (passes → on = true → m ∉ s.stop.ready → s.clk.locked = true → seen s = (noted s).sendRingTime [m]) ∧
    (s.hears e = true → s.headedWith x.sin = [] → exec (.scarf e b) s = .next (seen u)) ∧
    (s.hears e = true → s.headedWith x.sin ≠ [] →
      (s.boots.lookup x.sin = some x.bootId → exec (.scarf e b) s =
        .next (seen { u with scarfs := s.scarfs.filter (·.sin != x.sin) ++ [x] })) ∧
      (s.boots.lookup x.sin ≠ some x.bootId → exec (.scarf e b) s = .next (seen { u with
        scarfs := (s.scarfs.filter (·.sin != x.sin)) ++ [x]
        boots := (x.sin, x.bootId) :: s.boots.filter (·.1 != x.sin)
        credits := (s.credits.filter fun k => k.2.1 != x.sin) ++ (s.headedWith x.sin).map fun g => (g, x.sin, x.credit) }))) ∧
    (s.live → s.visible = true → s.configClean →
      ∃ t, exec .scarfPeriodic s = .next t ∧
        (∀ h ∈ s.otherHeads, s.routeOf h ≠ .none → s.routeOf h ≠ .loc → ∃ m ∈ t.net, m.env.cls = 7 ∧ m.env.dest = h ∧
          m.env.src = s.sin ∧ m.body.length = 64 ∧ bitOf (fieldAt m.body 3 1) 0 = s.scarfReady ∧
          bitOf (fieldAt m.body 3 1) 1 = s.clk.locked) ∧
        t = { s with net := t.net, stop := t.stop, kports := t.kports, log := t.log, irqStatus := t.irqStatus }) ∧
    (s.live → ∀ n y, s.scarfs.find? (·.sin == n) = some y →
      exec (.scarfTimeout n) s = .next { s.untilCount (y.heard + 16777216) with scarfs := s.scarfs.filter (·.sin != n) })

/-- R326, R351, R369: what a target answers to RAISE, and that it is armed by the answer ARMED alone; a CANCEL of the armed raise
disarms it; the origin records each answer with the raise it belongs to. -/
def Obligations.RaiseAnsweredAndCancelled : Prop :=
  ∀ (s : State) (e : Envelope) (b : List Byte), s.hears e = true →
    let n := fieldAt b 0 8
    let u : State := { s with inbox := s.inbox.erase (e, b) }
    let answer : Nat := if s.nv.phase ≠ 7 then 2 else if n < s.count + 1000 then 1 else if s.lg ≠ .laidDown then 2
      else if s.raising.armed.isSome then 3 else 0
    let v : State := if answer = 0 then { u with raising := { s.raising with
        armed := some n, armedId := BitVec.ofNat 32 (fieldAt b 8 4), armedHere := e.src == s.sin, armedOrigin := e.src
        outcome := .armed, originHere := e.src == s.sin, origin := e.src, id := BitVec.ofNat 32 (fieldAt b 8 4)
        scope := fieldAt b 12 2 % 4096 } } else u
    exec (.raise e b) s = .next (v.netSend { cls := 9, len := 8, dest := e.src, src := s.sin } (natLE 4 (fieldAt b 8 4) ++ natLE 1 answer ++ zeros 3)) ∧
    exec (.cancel e b) s = .next (if s.raising.armed ≠ none ∧ s.raising.armedId.toNat = fieldAt b 8 4 then
      { u with raising := { s.raising with
        armed := none, outcome := .cancelled, originHere := s.raising.armedHere, origin := s.raising.armedOrigin, id := s.raising.armedId } }
      else u) ∧
    (s.nv.phase = 7 → exec (.raiseAck e b) s = .next { u with raising := { s.raising with
      runs := s.raising.runs.map fun r => if r.id.toNat = fieldAt b 0 4 then { r with
        results := r.results.set ((s.gangMembers r.scope).findIdx (· == e.src)) (fieldAt b 4 1 % 16 + 1) } else r } }) ∧
    (s.nv.phase ≠ 7 → exec (.raiseAck e b) s = .next u)

/-- R368, R369, R367: on its raise edge a laid-down instance takes every shadow, becomes READY and begins its rotation at slot 0; in any other
state the raise is MISSED; where it began here RAISED or MISSED is its final outcome, shown with every target's answer and
LG_IRQ_STATUS.RAISE.
R326: at its deadline the origin lets the raise that falls due first stand when every target is armed, and otherwise cancels it: CANCEL goes to every
armed target, a target without an answer is recorded. -/
def Obligations.RaiseEndsAtEdgeOrDeadline : Prop :=
  (∀ (s : State) (n : Nat), s.Inv → s.pins.rstN = true → s.raising.armed = some n → n < 2 ^ 64 - 1 →
     let answers := ((s.raising.runs.find? (·.id == s.raising.armedId)).map (·.results)).getD []
     let ended := fun (o : Outcome) => { s.raising with
       armed := none, outcome := o, originHere := s.raising.armedHere, origin := s.raising.armedOrigin, id := s.raising.armedId }
     let final := fun (o : Outcome) => { s.raising with
       armed := none, outcome := o, originHere := true, origin := s.sin, id := s.raising.armedId
       results := answers.map fun r => if r = 0 then 15 else r, runs := s.raising.runs.filter (·.id != s.raising.armedId) }
     (s.lg = .laidDown → s.stopped = false → s.running = [] → s.configClean →
       ∃ t, exec .raiseEdge s = .next t ∧ n ≤ t.count ∧ t.active = s.shadow ∧ t.shadow = s.shadow ∧ t.lg = .ready ∧ t.sched.slot = 0 ∧
         t.sched.broken = [] ∧ t.raising = (if s.raising.armedHere = true then final .raised else ended .raised) ∧
         t.irqStatus = (if s.raising.armedHere = true then s.irqStatus ||| 16 else s.irqStatus) ∧
         (∀ c : Fin 16, t.chans[c].queue = s.chans[c].queue ∧ t.chans[c].val = none) ∧ t.own = s.own ∧ t.nextSeq = s.nextSeq ∧
         t.bays = s.bays ∧ t.log = s.log) ∧
     (¬ (s.lg = .laidDown ∧ s.stopped = false) → s.raising.armedHere = false →
       exec .raiseEdge s = .next { s.untilCount n with raising := ended .missed }) ∧
     (¬ (s.lg = .laidDown ∧ s.stopped = false) → s.raising.armedHere = true →
       exec .raiseEdge s = .next { s.untilCount n with raising := final .missed, irqStatus := s.irqStatus ||| 16 })) ∧
  ∀ s : State, s.live →
    ((∀ r ∈ s.raising.runs, r.stands = true) → exec .raiseDeadline s = .next s) ∧
    ∀ r : RaiseRun, s.raising.dueRun = some r →
      let v := s.untilCount (r.count - 3000)
      (r ∈ s.raising.runs ∧ r.stands = false ∧ ∀ x ∈ s.raising.runs, x.stands = false → r.count ≤ x.count) ∧
      ((∀ x ∈ r.results, x = 1) → exec .raiseDeadline s = .next { v with raising := { s.raising with
        runs := s.raising.runs.map fun x => if x.id = r.id then { x with stands := true } else x } }) ∧
      ((∃ x ∈ r.results, x ≠ 1) → s.configClean → s.raising.runs.find? (·.id == r.id) = some r →
        ∃ t, exec .raiseDeadline s = .next t ∧ t.raising.outcome = .cancelled ∧ t.raising.originHere = true ∧ t.raising.id = r.id ∧
          t.raising.runs = s.raising.runs.filter (·.id != r.id) ∧
          t.raising.results = r.results.map (fun x => if x = 0 then 15 else x) ∧ t.irqStatus.getLsbD 4 = true ∧
          t.raising.armed = (if ((s.gangMembers r.scope).zip r.results).contains (s.sin, 1) then none else s.raising.armed) ∧
          (∀ m, (m, 1) ∈ (s.gangMembers r.scope).zip r.results → m ≠ s.sin → s.routeOf m ≠ .none → s.routeOf m ≠ .loc →
            ∃ k ∈ t.net, k.env.cls = 8 ∧ k.env.dest = m ∧ k.env.src = s.sin ∧ k.body = raiseBody r.count r.id.toNat r.scope 1) ∧
          t = { v with raising := t.raising, irqStatus := t.irqStatus, net := t.net, stop := t.stop, kports := t.kports, log := t.log })

/-- R320, R309, R311, R340, R351: RING_TIME is kept by a SYNC instance alone; a reserved class is logged and nothing more; a message
for another instance is passed on with one hop more, discarded before load end, and logged when it has no hop left; a SCARF is seen as it
passes (log 19). -/
def Obligations.OtherMessagesTakenOrPassedOn : Prop :=
  ∀ (s : State) (e : Envelope) (b : List Byte), s.live →
    let u : State := { s with inbox := s.inbox.erase (e, b) }
    (e.dest = s.sin → exec (.ringTime e b) s =
      .next (if s.image.role = 2 then { u with clk := { s.clk with ringTime := some (fieldAt b 0 8) } } else u)) ∧
    (e.cls = 0 ∨ 10 < e.cls → exec (.reservedClassMessage e b) s = .next (u.logged (logBytes 0x33 0 0 0 0 0 s.count 0 0 0 e.cls))) ∧
    (e.dest ≠ s.sin → s.visible = false → exec (.messageForward e b) s = .next u) ∧
    (e.dest ≠ s.sin → s.visible = true → s.configClean → e.hops ≠ 7 →
      exec (.messageForward e b) s = .next ((u.netPut { e with hops := e.hops + 1 } b).scarfSeen e b)) ∧
    (e.dest ≠ s.sin → s.visible = true → s.configClean → e.hops = 7 → s.routeOf e.dest ≠ .none →
      exec (.messageForward e b) s = .next (u.logged (logBytes 0x32 0 0 0 0 0 s.count 0 0 0 (e.dest % 4096))))

/-! ### The tie ring and the Klody ports (R301 to R311, R317 to R323, R408) -/

/-- R408, R311, R394, R328: in either direction the first beat of a message for another stop, and the beats after it, are passed on with their
parity bits; of one for this stop every beat is discarded while the stop is in reset or P0, and otherwise it is assembled, is a ring fault where the
parity of a beat is wrong, and is delivered with its last beat: into the inbox, or as the FREEZE frame its tag marks. In each case a credit
goes back for the beat. The credits a beat passed on takes, and the SCARF seen as it passes, are log 19's. -/
def Obligations.RingStopForwardsOrConsumes : Prop :=
  ∀ (s : State) (cw : Bool) (data : List Byte) (par : List Bool), s.stopped = false →
    let d := if cw then s.stop.cw else s.stop.ccw
    let put := fun (x : RingDir) => if cw then { s.stop with cw := { x with returned := d.returned + 1 } }
      else { s.stop with ccw := { x with returned := d.returned + 1 } }
    let passed := fun (x : RingDir) => ({ s with stop := (put x).drive s.clk.arith [(cw, data, par)] } : State)
    let n := ringBeatCount data - 1
    let deaf := s.pins.rstN = false ∨ s.nv.phase = 0
    (∀ x, (passed x).stop.beats = s.stop.beats ++ [(cw, data, par)]) ∧
    (0 < d.fwd → exec (.tieRingBeat cw data par) s = .next (passed { d with fwd := d.fwd - 1 })) ∧
    (d.fwd = 0 → 0 < d.drop → exec (.tieRingBeat cw data par) s = .next { s with stop := put { d with drop := d.drop - 1 } }) ∧
    (d.fwd = 0 → d.drop = 0 → d.need = 0 → fieldAt data 0 1 % 64 ≠ s.params.stop → exec (.tieRingBeat cw data par) s =
      .next (if deaf ∨ bitOf (fieldAt data 0 1) 7 = true then passed { d with fwd := n }
        else (passed { d with fwd := n }).scarfSeen (envOfBytes (data.drop 4)) (data.drop 20))) ∧
    (d.fwd = 0 → d.drop = 0 → d.need = 0 → fieldAt data 0 1 % 64 = s.params.stop → deaf →
      exec (.tieRingBeat cw data par) s = .next { s with stop := put { d with drop := n } }) ∧
    (d.fwd = 0 → d.drop = 0 → (0 < d.need ∨ (fieldAt data 0 1 % 64 = s.params.stop ∧ ¬ deaf)) →
      let left := if 0 < d.need then d.need - 1 else n
      let b := d.rx ++ data
      let w : State := { s with stop := put { d with rx := [], need := 0 } }
      (beatParity data par = false → exec (.tieRingBeat cw data par) s =
        .next ({ s with stop := put { d with rx := [], need := 0, drop := left } } : State).ringFault) ∧
      (beatParity data par = true → 0 < left → exec (.tieRingBeat cw data par) s = .next { s with stop := put { d with rx := b, need := left } }) ∧
      (beatParity data par = true → left = 0 → exec (.tieRingBeat cw data par) s =
        .next (if bitOf (fieldAt b 0 1) 7 = true then w.freezeFrame none (b.drop 20)
          else { w with inbox := s.inbox ++ [(envOfBytes (b.drop 4), sliceOf b 20 (envOfBytes (b.drop 4)).len)] })))

/-- R306, R305: a port that is up accepts a good DATA flit with the expected FSEQ, and only that one: the expected number advances
and its messages are delivered. No other flit delivers anything, and a port that is not up hears none. The ACK of a good IDLE flit
takes every flit it covers out of the replay buffer. -/
def Obligations.FlitsAcceptedInOrder : Prop :=
  ∀ (s : State) (p : Fin 2) (rx : FlitRx), s.live →
    let flit := decodeFlit rx
    let k := s.kports[p]
    let used := fieldAt flit 4 1
    let fits := fieldAt flit 0 1 = 1 ∧ fieldAt flit 2 2 % 1024 = k.rxNext ∧ 1 ≤ used ∧ used ≤ 240
    (k.st ≠ .up → exec (.dataFlit p rx) s = .next s ∧ exec (.idleFlit p rx) s = .next s) ∧
    (k.st = .up → flitGood flit = true → fits →
      ∃ t, exec (.dataFlit p rx) s = .next t ∧ t.kports[p].rxNext = (k.rxNext + 1) % 1024 ∧ t.kports[p].st = .up ∧
        t.inbox = s.inbox ++ (takeMessages 241 (k.rxStream ++ sliceOf flit 8 used)).1 ∧
        (∀ q : Fin 2, q ≠ p → t.kports[q] = s.kports[q]) ∧ t = { s with kports := t.kports, inbox := t.inbox }) ∧
    (k.st = .up → flitGood flit = false ∨ ¬ fits → ∀ i, i = .dataFlit p rx ∨ i = .idleFlit p rx →
      ∃ t, exec i s = .next t ∧ t.kports[p].rxNext = k.rxNext ∧ t.kports[p].rxStream = k.rxStream ∧
        (∀ q : Fin 2, q ≠ p → t.kports[q] = s.kports[q]) ∧ t = { s with kports := t.kports }) ∧
    (k.st = .up → flitGood flit = true → fieldAt flit 0 1 = 2 → bitOf (fieldAt flit 0xFA 1) 0 = true → bitOf (fieldAt flit 0xFA 1) 1 = false →
      k.txQueue = [] → k.txStream = [] →
      ∃ t, exec (.idleFlit p rx) s = .next t ∧ t = { s with kports := t.kports } ∧ t.kports[p].txAcked = fieldAt flit 0xF8 2 % 1024 ∧
        t.kports[p].replay = k.replay.dropWhile fun x => decide ((fieldAt flit 0xF8 2 % 1024 + 1024 - x.1 - 1) % 1024 < 64)) ∧
    (k.st = .up → flitGood flit = false → k.nakFor ≠ some k.rxNext → exec (.dataFlit p rx) s = .next (s.setPort p
      { k with nakFor := some k.rxNext, nakDue := false, sent := k.sent ++ [flitBytes 2 0 0 0 [] k.rxNext 3] }))

/-- R306, R307: with no ACK for 1,024 flit times every unacknowledged flit is sent again, oldest first, and stays held; a flit sent
again 8 times makes the port retrain from T1 with all it holds. -/
def Obligations.UnacknowledgedFlitsAreResent : Prop :=
  ∀ (s : State) (p : Fin 2), s.live → s.kports[p].st = .up →
    let k := s.kports[p]
    (∀ x l, k.replay = x :: l →
      ∃ t, exec (.replayTimeout p) s = .next t ∧ t.kports[p].replay = k.replay.map (fun y => (y.1, y.2.1, y.2.2 + 1)) ∧
        t.kports[p].sent = k.sent ++ k.replay.zipIdx.map (fun y =>
          flitBytes 1 (fieldAt y.1.2.1 0 1) y.1.1 (y.1.2.1.length - 1) (y.1.2.1.drop 1) k.rxNext (1 + 2 * b2n (k.nakDue && y.2 == 0))) ∧
        t.kports[p].replays = k.replays + 1 ∧ t.kports[p].rxNext = k.rxNext ∧ t.kports[p].txNext = k.txNext ∧
        t = { s.untilCount (k.lastAck + s.replayTime) with kports := t.kports } ∧ ∀ q : Fin 2, q ≠ p → t.kports[q] = s.kports[q]) ∧
    ((∃ x ∈ k.replay, 8 ≤ x.2.2) → exec (.resendLimitRetrain p) s = .next (s.setPort p { k with
      st := .training, phase := 1, phaseStart := s.clk.edges, seen := false, helloOn := false, lanes := List.replicate 8 {}
      fromT1 := true, retrains := k.retrains + 1 }))

/-- R323, R324: a TIME flit leaves 4,096 counts after the last with Table 12.11's payload, the next TID among it, and the timestamp taken as it leaves
is kept; one that arrives is timestamped, and a child measures its offset with it. R322: after READY an error above 16 counts unlocks the counter, and a
smaller one leaves TRIM within 100 ppm of the rate estimate; before the step, the mean of 256 estimates against a locked parent is taken off COUNT. R320,
R319: a SYNC instance sets COUNT and FRAC at the pulse that RING_TIME named, and at another takes the phase error as its estimate; a time source's pulse
begins at a multiple of 4,096 and is high for 64. The instant of each is log 3's, the servo's value log 12's. -/
def Obligations.TimeIsKeptAndSent : Prop :=
  ∀ s : State, s.live →
    (∀ (p : Fin 2) (departure : Word64), s.kports[p].st = .up →
      let k := s.kports[p]
      let v := s.untilCount (k.timeAt + 4096)
      let w := v.untilCount departure.toNat
      let b := s.timePayload p
      exec (.timeFlitSend p departure) s = .next (w.setPort p { k with
        sent := k.sent ++ [flitBytes 3 0 0 0 b k.rxNext (1 + 2 * b2n k.nakDue)], nakDue := false
        txTs := ((k.txTid, (w.count * 256 + w.clk.frac.toNat / 2 ^ 24) % 2 ^ 64) :: k.txTs).take 16, txTid := (k.txTid + 1) % 2 ^ 32
        timeAt := v.count }) ∧
      fieldAt b 0 2 = s.sin % 2 ^ 16 ∧ fieldAt b 2 1 = s.image.role % 2 ^ 8 ∧ fieldAt b 3 1 = b2n s.clk.locked ∧ fieldAt b 4 4 = k.txTid % 2 ^ 32 ∧
      fieldAt b 8 8 = ((k.txTs.lookup ((k.txTid + 2 ^ 32 - 1) % 2 ^ 32)).getD 0) % 2 ^ 64 ∧ fieldAt b 16 4 = k.rxTid % 2 ^ 32 ∧
      fieldAt b 24 8 = k.rxTs % 2 ^ 64) ∧
    (∀ (p : Fin 2) (rx : FlitRx) (arrival : Word64), let flit := decodeFlit rx; s.kports[p].st = .up → flitGood flit = true → fieldAt flit 0 1 = 3 →
      let v := s.untilCount arrival.toNat
      let b := flit.drop 8
      let tid := fieldAt b 4 4
      let ts := (v.count * 256 + v.clk.frac.toNat / 2 ^ 24) % 2 ^ 64
      let hist := ((tid, ts) :: s.kports[p].rxHist).take 2
      (¬ (s.image.role = 1 ∧ s.image.parentPort = p.val) →
        ∃ t, exec (.timeFlit p rx arrival) s = .next t ∧ t.kports[p].rxTid = tid ∧ t.kports[p].rxTs = ts ∧ t.kports[p].rxHist = hist ∧
          (∀ q : Fin 2, q ≠ p → t.kports[q] = s.kports[q]) ∧ t = { v with kports := t.kports }) ∧
      ∀ b1 b2, s.image.role = 1 → s.image.parentPort = p.val → hist.lookup ((tid + 2 ^ 32 - 1) % 2 ^ 32) = some b1 →
        s.kports[p].txTs.lookup (fieldAt b 16 4) = some b2 →
        let theta := tsDiff b1 (fieldAt b 8 8) - tsDiff (fieldAt b 24 8) b2 - 2 * (s.image.ports.getD p.val {}).asym
        ∃ t, exec (.timeFlit p rx arrival) s = .next t ∧ t.clk.theta = theta ∧
          (s.nv.phase = 7 → s.clk.locked = true → theta < -8192 ∨ 8192 < theta → t.clk.locked = false ∧ t.clk.trim = s.clk.trim) ∧
          (s.nv.phase = 7 → s.clk.locked = false ∨ (-8192 ≤ theta ∧ theta ≤ 8192) → -(2 : Int) ^ 22 ≤ s.clk.rate → s.clk.rate ≤ (2 : Int) ^ 22 →
            t.clk.locked = s.clk.locked ∧ s.clk.rate - 429496 ≤ t.clk.trim ∧ t.clk.trim ≤ s.clk.rate + 429496 ∧
            -(2 : Int) ^ 22 ≤ t.clk.trim ∧ t.clk.trim ≤ (2 : Int) ^ 22) ∧
          (s.nv.phase = 6 → s.clk.stepped = false → bitOf (fieldAt b 3 1) 0 = false → s.clk.estimates.length < 256 → t.clk.count = v.clk.count ∧ t.clk.stepped = false) ∧
          (s.nv.phase = 6 → s.clk.stepped = false → bitOf (fieldAt b 3 1) 0 = true → s.clk.estimates.length = 255 →
            t.clk.stepped = true ∧ ((t.clk.count.toNat : Int) * (2 : Int) ^ 32 + t.clk.frac.toNat) =
              ((v.clk.count.toNat : Int) * (2 : Int) ^ 32 + v.clk.frac.toNat - (s.clk.estimates.sum + theta) * (2 : Int) ^ 15) % (2 : Int) ^ 96)) ∧
    (∀ ts pulse : Nat, s.visible = true → s.image.role = 2 →
      (s.nv.phase = 6 → s.clk.stepped = false → s.clk.ringTime = some pulse →
        ∃ t, exec (.syncInEdge ts pulse) s = .next t ∧ t.clk.count = BitVec.ofNat 64 (pulse + (160 + s.image.syncDelay) / 8) ∧
          t.clk.frac = BitVec.ofNat 32 ((160 + s.image.syncDelay) % 8 * 2 ^ 29) ∧
          t.clk.stepped = true ∧ t.clk.ringTime = none ∧ t = { s with clk := t.clk }) ∧
      (¬ (s.nv.phase = 6 ∧ s.clk.stepped = false ∧ s.clk.ringTime = some pulse) →
        ∃ t, exec (.syncInEdge ts pulse) s = .next t ∧
          t.clk.theta = 64 * ((((ts : Int) - 160 - s.image.syncDelay + 16384) % 32768) - 16384))) ∧
    (s.visible = true → s.image.role ≠ 2 → s.Inv → s.count < 2 ^ 64 - 8192 →
      ∃ n, n % 4096 = 0 ∧ s.count ≤ n ∧ n < s.count + 4096 ∧
        let v := s.untilCount n
        exec .syncOutPulse s = .next { v with pins := { s.pins with syncOut := s.pins.syncOut + 1, syncTill := n + 64 } } ∧ n ≤ v.count ∧
        (∀ m, m < s.clk.edgesTo n → (s.pass m).count < n) ∧ (s.clk.trim ≤ 0 → v.count = n) ∧
        ∀ t, exec .syncOutPulse s = .next t → t.syncOutPin = decide (v.count < n + 64))

/-- R303: in T5 a HELLO that matches the image and the gang map brings the port up once it says SEEN, and is answered before;
another peer makes the port DOWN as MISCABLED, another gang map as MAP_MISMATCH. HELLO's layout is log 11's. -/
def Obligations.HelloDecidesThePort : Prop :=
  ∀ (s : State) (p : Fin 2) (rx : FlitRx), let flit := decodeFlit rx
    s.live → flitGood flit = true → fieldAt flit 0 1 = 5 → s.kports[p].st = .training →
    s.kports[p].phase = 5 →
    let b := flit.drop 8
    let c := s.image.ports.getD p.val {}
    let right := fieldAt b 0 2 % 4096 = c.peerSin ∧ fieldAt b 2 1 = c.peerPort
    let sameMap := sliceOf b 8 32 = padTo 32 s.image.mapDigest
    (right → sameMap → bitOf (fieldAt b 5 1) 0 = true →
      ∃ t, exec (.hello p rx) s = .next t ∧ t.kports[p].st = .up ∧ t.kports[p].lastAck = s.count ∧ t.irqStatus = s.irqStatus ||| 128 ∧
        t = { s with kports := t.kports, irqStatus := t.irqStatus } ∧ ∀ q : Fin 2, q ≠ p → t.kports[q] = s.kports[q]) ∧
    (right → sameMap → bitOf (fieldAt b 5 1) 0 = false →
      ∃ t, exec (.hello p rx) s = .next t ∧ t.kports[p].st = .training ∧ t.kports[p].seen = true ∧
        t.kports[p].sent.length = s.kports[p].sent.length + 1 ∧ t = { s with kports := t.kports }) ∧
    (s.scarfs = [] → s.shares = [] → s.image.role ≠ 1 → ¬ right →
      ∃ t, exec (.hello p rx) s = .next t ∧ t.kports[p].st = .down ∧ t.kports[p].reason = 2 ∧
        t = { s with kports := t.kports, log := s.log.put (logBytes 0x30 0 0 0 0 0 s.count 0 0 0 (p.val + 512)), irqStatus := t.irqStatus }) ∧
    (s.scarfs = [] → s.shares = [] → s.image.role ≠ 1 → right → ¬ sameMap →
      ∃ t, exec (.hello p rx) s = .next t ∧ t.kports[p].st = .down ∧ t.kports[p].reason = 3 ∧
        t = { s with kports := t.kports, log := s.log.put (logBytes 0x30 0 0 0 0 0 s.count 0 0 0 (p.val + 768)), irqStatus := t.irqStatus })

/-- R301, R302, R303: only a frame with a valid marker is current; a training port sends PRBS13Q in T0, and after it a frame on each lane, and while it sends HELLO a HELLO beside
them, on an up port too; a phase that ends is followed by the next; one past its limit restarts at T0 three times, and then the port is
DOWN. The moment of a HELLO is log 11's. -/
def Obligations.TrainingRunsItsPhases : Prop :=
  (∀ (s : State) (p : Fin 2), s.live → s.kports[p].st = .up → s.kports[p].helloOn = true →
    let k := s.kports[p]
    exec (.trainingFrameSend p) s = .next (s.setPort p { k with
      sent := k.sent ++ [flitBytes 5 0 0 0 (s.helloPayload p k.seen) k.rxNext (1 + 2 * b2n k.nakDue)], nakDue := false })) ∧
  ∀ (s : State) (p : Fin 2), s.live → s.kports[p].st = .training →
    let k := s.kports[p]
    (∀ (lane : Nat) (marker : Word) (control status : Nat), marker ≠ 0x7E6A5A3C#32 →
      exec (.trainingFrame p lane marker control status) s = .next s) ∧
    (∀ lane control status : Nat, lane ∈ s.portLanes p → exec (.trainingFrame p lane 0x7E6A5A3C#32 control status) s =
      .next (s.setPort p { k with lanes := k.lanes.modify lane fun l => l.frameIn control status })) ∧
    (k.phase = 0 → k.signal = .prbs13q ∧ exec (.trainingFrameSend p) s = .next s) ∧
    (k.phase ≠ 0 → ∃ t, exec (.trainingFrameSend p) s = .next t ∧
      (t.kports[p].frames.drop k.frames.length).map (·.1) = s.portLanes p ∧ t.kports[p].frames.take k.frames.length = k.frames ∧
      t.kports[p].sent = k.sent ++ (if k.helloOn then [flitBytes 5 0 0 0 (s.helloPayload p k.seen) k.rxNext (1 + 2 * b2n k.nakDue)] else []) ∧
      t = { s with kports := t.kports, free := s.free + 1 }) ∧
    (k.phase < 5 → (k.phase = 2 → s.equalised p = true) →
      ∃ t, exec (.trainingPhaseDone p) s = .next t ∧ t.kports[p].phase = k.phase + 1 ∧ t.kports[p].st = .training ∧
        t.kports[p].phaseStart = s.clk.edges ∧ t.kports[p].helloOn = decide (k.phase = 4) ∧ t = { s with kports := t.kports }) ∧
    (k.phase = 2 → s.equalised p = false → exec (.trainingPhaseDone p) s = .next s) ∧
    (1 ≤ k.phase → k.restarts < 3 →
      ∃ t, exec (.trainingPhaseTimeout p) s = .next t ∧ t.kports[p].phase = 0 ∧ t.kports[p].restarts = k.restarts + 1 ∧
        t.kports[p].st = .training ∧ t = { s.pass (k.phaseStart + phaseLimit k.phase - s.clk.edges) with kports := t.kports }) ∧
    (1 ≤ k.phase → 3 ≤ k.restarts → s.scarfs = [] → s.shares = [] → s.image.role ≠ 1 →
      ∃ t, exec (.trainingPhaseTimeout p) s = .next t ∧ t.kports[p].st = .down ∧ t.kports[p].reason = (if k.fromT1 then 4 else 1) ∧
        t = { s.pass (k.phaseStart + phaseLimit k.phase - s.clk.edges) with kports := t.kports, log := t.log, irqStatus := t.irqStatus })

/-! ### The management port: ownership, atomic change, registers (R14, R349 to R376) -/

/-- R359, R349: after load end a claim is decided by the first case that applies, so of claims applied in ascending master ID the
lowest wins; up to load end a claim only sets its latch bit. -/
def Obligations.ClaimDecidedByFirstCase : Prop :=
  ∀ (s : State) (m : Fin 4), s.pins.rstN = true →
    (s.visible = true →
      exec (.claim m) s = .next (
        if s.own.owner = none ∧ s.own.target = none then
          ({ s with own := { s.own with owner := some m, reason := 1, epoch := s.own.epoch + 1, target := none, beatAt := s.clk.mgmt } } : State).answered m 0
        else if s.own.owner = some m then s.answered m 0
        else if s.own.target = some m then
          ({ s with own := { s.own with owner := some m, reason := 3, epoch := s.own.epoch + 1, target := none, beatAt := s.clk.mgmt }
                    irqStatus := s.irqStatus ||| 4 } : State).answered m 0
        else s.answered m 2)) ∧
    (s.visible = true → s.own.owner = none → s.own.target = none → ∀ n : Fin 4, m < n →
      ∃ t, exec (.claim m) s = .next t ∧ t.own.owner = some m ∧ exec (.claim n) t = .next (t.answered n 2)) ∧
    (s.visible = false → ∃ l, exec (.claim m) s = .next (({ s with own := { s.own with latch := l } } : State).answered m 0) ∧
      ∀ k, k ∈ l ↔ k = m ∨ k ∈ s.own.latch)

/-- R360: the owner's handover is pending for 1,000,000 MGMT cycles with the owner unchanged and its beats due; the target's claim within them
transfers ownership; their end withdraws it; a further one replaces it; the owner itself as the target changes nothing. -/
def Obligations.HandoverRunsItsWindow : Prop :=
  ∀ (s : State) (m n : Fin 4),
    (s.ownedBy m → exec (.handover m n) s = .next (
      (if n = m then s else { s with own := { s.own with target := some n, deadline := s.clk.mgmt + 1000000 } } : State).answered m 0)) ∧
    (s.pins.rstN = true → s.visible = true → s.own.owner ≠ some n → s.own.target = some n →
      ∃ t, exec (.claim n) s = .next t ∧ t.own.owner = some n ∧ t.own.target = none) ∧
    (s.pins.rstN = true → s.own.owner = some m → s.own.target = some n →
      (∀ beat, ∃ t, exec (.ownerBeat m beat) s = .next t ∧ t.own.owner = some m ∧ t.own.target = some n ∧ t.own.deadline = s.own.deadline ∧
        t.own.beatAt = s.clk.mgmt) ∧
      ∃ t, exec .lapse s = .next t ∧ t.own.owner = none ∧ t.own.target = none) ∧
    (s.pins.rstN = true → s.own.target = some n →
      ∃ t, exec .handoverExpired s = .next t ∧ t.own = { s.own with target := none, reason := 6 } ∧
        t.irqStatus = s.irqStatus ||| 4 ∧ s.own.deadline ≤ t.clk.mgmt ∧
        (s.Inv → s.clk.mgmt ≤ s.own.deadline → t.clk.mgmt = s.own.deadline) ∧
        t = { s with clk := t.clk, own := t.own, irqStatus := t.irqStatus })

/-- R362, R361, R363: RELEASE by the owner leaves no owner and no handover, with CLAIM beside it too; from any other master it is
answered WRONG_OWNER and changes nothing, the claim latch included. A beat restarts the timer; its expiry ends ownership. -/
def Obligations.ReleaseAndLapseEndOwnership : Prop :=
  ∀ (s : State) (m : Fin 4) (both : Bool), s.pins.rstN = true →
    (s.own.owner = some m → exec (.release m both) s = .next (({ s with
      own := { s.own with owner := none, reason := 4, epoch := s.own.epoch + 1, target := none, beatAt := s.clk.mgmt } } : State).answered m 0)) ∧
    (s.own.owner ≠ some m → exec (.release m both) s = .next (s.answered m 1)) ∧
    (s.own.owner = some m → ∀ beat, exec (.ownerBeat m beat) s =
      .next (({ s with own := { s.own with beatAt := s.clk.mgmt, beat := beat } } : State).answered m 0)) ∧
    (s.own.owner = some m →
      ∃ t, exec .lapse s = .next t ∧ s.own.beatAt + 100000000 ≤ t.clk.mgmt ∧
        (s.Inv → s.clk.mgmt ≤ s.own.beatAt + 100000000 → t.clk.mgmt = s.own.beatAt + 100000000) ∧
        t.own = { s.own with owner := none, reason := 5, epoch := s.own.epoch + 1, target := none, beatAt := t.clk.mgmt } ∧
        t.irqStatus = s.irqStatus ||| 64 ||| 2 ∧ t.log = s.log.put (logBytes 0x40 0 0 0 0 0 t.count 0 0 0 m.val) ∧
        t = { s with clk := t.clk, own := t.own, irqStatus := t.irqStatus, log := t.log })

/-- R14, R356: every write that requires the owner is answered WRONG_OWNER from another master and has no effect; the level of FREEZE_IN that
a THAW brings with it is an input and comes with it all the same (log 20). -/
def Obligations.NonOwnerWritesHaveNoEffect : Prop :=
  ∀ (s : State) (m : Fin 4), s.pins.rstN = true → s.own.owner ≠ some m →
    ∀ (b : Bool) (n g : Fin 4) (c : Fin 16) (off : Nat) (v : Word),
      (∀ i ∈ [Instr.release m b, .handover m n, .ownerBeat m v, .irqStatusClear m v, .quiesce m, .raiseLocal m, .raiseGang m off,
          .raiseAtWrite m b v, .shadowWrite m off v, .nextseqWrite m g v, .channelEnable m c, .channelDisable m c, .freeze m v,
          .retrain m off, .logTailWrite m v], exec i s = .next (s.answered m 1)) ∧
      exec (.thaw m v b) s = .next (({ s with pins := { s.pins with freezeIn := b } } : State).answered m 1) ∧
      (off ∈ [0x28, 0x2C, 0x30, 0x34, 0x40, 0x44, 0x48, 0x4C, 0x60, 0x6C, 0xC0, 0xC4, 0xC8, 0xCC, 0xD0, 0xD4, 0xE0, 0xE4, 0xE8, 0xEC, 0x1008, 0x2004] →
        exec (.registerWrite m off v) s = .next (s.answered m 1))

/-- R366: a quiesce is accepted in READY or RUNNING, drains while work runs and lays the instance down when none does; it is
answered OK in LAID_DOWN and WRONG_STATE in every other state. -/
def Obligations.QuiesceDrainsOrLaysDown : Prop :=
  ∀ (s : State) (m : Fin 4), s.ownedBy m →
    (s.lg = .ready → s.frz.running = false → s.running = [] →
      exec (.quiesce m) s = .next (({ s with draining := false, lg := .laidDown, irqStatus := s.irqStatus ||| 8 } : State).answered m 0)) ∧
    (s.lg = .ready → s.running ≠ [] → exec (.quiesce m) s = .next (({ s with draining := true } : State).answered m 0)) ∧
    (s.lg = .laidDown → exec (.quiesce m) s = .next (s.answered m 0)) ∧
    (s.lg ≠ .ready → s.lg ≠ .laidDown → exec (.quiesce m) s = .next (s.answered m 3))

/-- R367: a raise of this instance alone, and one of a gang, are judged by their checks in order; a write that fails sends nothing; one that passes runs
beside those that run already under a RAISE_ID of its own; a raise of a gang sends RAISE to every other member and answers its own. That
LATE and REFUSED set ORIGIN_HERE is the model's choice (log 20). -/
def Obligations.RaiseWritesJudgedInOrder : Prop :=
  ∀ (s : State) (m : Fin 4) (g : Nat), s.ownedBy m →
    let due := s.raising.raiseAt.toNat
    let refusedAs := fun (o : Outcome) => (({ s with
      raising := { s.raising with outcome := o, originHere := true, origin := s.sin } } : State).answered m 2)
    (if s.lg ≠ .laidDown then exec (.raiseLocal m) s = .next (s.answered m 3)
     else if s.raising.armed ≠ none then exec (.raiseLocal m) s = .next (s.answered m 2)
     else if due < s.count + 10000 then exec (.raiseLocal m) s = .next (refusedAs .late)
     else ∃ r, exec (.raiseLocal m) s = .next (({ s with raising := r } : State).answered m 0) ∧ r.armed = some due ∧
       r.outcome = .armed ∧ r.originHere = true ∧ r.id = s.newRaiseId ∧ r.raiseAt = s.raising.raiseAt ∧
       r.runs = s.raising.runs ++ [{ id := s.newRaiseId, count := due, scope := 0, results := [1], stands := true }]) ∧
    (if s.stopped = true ∨ (s.lg ≠ .ready ∧ s.lg ≠ .laidDown) then exec (.raiseGang m g) s = .next (s.answered m 3)
     else if s.sin ∉ (s.image.gangs.lookup g).getD [] then exec (.raiseGang m g) s = .next (refusedAs .refused)
     else if s.raising.armed ≠ none then exec (.raiseGang m g) s = .next (s.answered m 2)
     else if due < s.count + 10000 then exec (.raiseGang m g) s = .next (refusedAs .late)
     else s.configClean → ∃ t, exec (.raiseGang m g) s = .next t ∧ t.mg = s.mg ++ [{ master := m, code := 0 }] ∧
       (∃ rs, t.raising.runs = s.raising.runs ++ [{ id := s.newRaiseId, count := due, scope := g, results := rs }] ∧
         rs.length = (s.gangMembers g).length) ∧
       t.raising.armed = (if s.lg = .laidDown ∧ s.nv.phase = 7 then some due else none) ∧
       (∀ x ∈ s.gangMembers g, x ≠ s.sin → s.routeOf x ≠ .none → s.routeOf x ≠ .loc → ∃ k ∈ t.net, k.env.cls = 8 ∧ k.env.dest = x ∧
         fieldAt k.body 0 8 = due ∧ fieldAt k.body 8 4 = s.newRaiseId.toNat) ∧
       t.chans = s.chans ∧ t.lg = s.lg ∧ t.active = s.active ∧ t.shadow = s.shadow ∧ t.own = s.own)

/-- R357, R364, R369: a read of the low word of a 64-bit register latches the high word for the reading master; a write of the low
word is held until the high word applies both; a shadow register takes what is written; while a raise is armed the shadows and
LG_RAISE_AT are answered WRONG_STATE. -/
def Obligations.SixtyFourBitRegisters : Prop :=
  (∀ (s u : State) (m : Fin 4) (off v : Nat), s.pins.rstN = true → u.pins.rstN = true → s.reg64 off = some v →
    ∃ t, exec (.lowWordRead m off) s = .next t ∧ t = { s.answered m 0 (BitVec.ofNat 32 v) with mgHigh := t.mgHigh } ∧
      (u.mgHigh.find? (fun x => x.1 == m && x.2.1 == off) = t.mgHigh.find? (fun x => x.1 == m && x.2.1 == off) →
        exec (.lowWordRead m (off + 4)) u = .next (u.answered m 0 (BitVec.ofNat 32 (v / 2 ^ 32))))) ∧
  (∀ (s : State) (m : Fin 4) (high : Bool) (off : Nat) (v : Word), s.ownedBy m →
    (s.raising.armed ≠ none → exec (.raiseAtWrite m high v) s = .next (s.answered m 3) ∧
      exec (.shadowWrite m off v) s = .next (s.answered m 3)) ∧
    (s.raising.armed = none →
      exec (.shadowWrite m 0xC0 v) s = .next (({ s with shadow := { s.shadow with greenOk := v.getLsbD 0 } } : State).answered m 0) ∧
      exec (.shadowWrite m 0xC4 v) s = .next (({ s with shadow := { s.shadow with digestN := v } } : State).answered m 0))) ∧
  (∀ (s u : State) (m : Fin 4) (lo hi : Word), s.ownedBy m → u.ownedBy m → s.raising.armed = none → u.raising.armed = none →
    (∃ t, exec (.raiseAtWrite m false lo) s = .next t ∧ t = { s.answered m 0 with mgLow := t.mgLow } ∧ (u.mgLow = t.mgLow →
      ∃ l, exec (.raiseAtWrite m true hi) u = .next (({ u with raising := { u.raising with raiseAt := hi ++ lo }, mgLow := l } : State).answered m 0))) ∧
    (∃ t, exec (.shadowWrite m 0xC8 lo) s = .next t ∧ t = { s.answered m 0 with mgLow := t.mgLow } ∧ (u.mgLow = t.mgLow →
      ∃ l, exec (.shadowWrite m 0xCC hi) u = .next (({ u with
        shadow := { u.shadow with pole := (hi ++ lo).setWidth 48 }, mgLow := l } : State).answered m 0))) ∧
    (∃ t, exec (.shadowWrite m 0xD0 lo) s = .next t ∧ t = { s.answered m 0 with mgLow := t.mgLow } ∧ (u.mgLow = t.mgLow →
      ∃ l, exec (.shadowWrite m 0xD4 hi) u = .next (({ u with
        shadow := { u.shadow with offcut := (hi ++ lo).setWidth 48 }, mgLow := l } : State).answered m 0))))

/-- R85, R90, R376, R301, R14: the owner clears interrupt bits by ones, sets a next-SEQ while nothing of its group is queued, moves
LOG_TAIL to an entry's index, retrains ports, and enables and disables channels: a disabled channel that is not halted completes its
queue ABORTED, in order. -/
def Obligations.OwnerWritesTakeEffect : Prop :=
  ∀ (s : State) (m g : Fin 4) (c : Fin 16) (v : Word) (bits : Nat), s.ownedBy m →
    exec (.irqStatusClear m v) s = .next (({ s with irqStatus := s.irqStatus &&& ~~~(v.setWidth 9) } : State).answered m 0) ∧
    exec (.nextseqWrite m g v) s = .next (if s.groupQueued g then s.answered m 3 else ({ s with nextSeq := s.nextSeq.set g v } : State).answered m 0) ∧
    exec (.logTailWrite m v) s = .next (
      (if v.toNat % 256 < 254 then { s with log := { s.log with tail := v.toNat % 256 } } else s : State).answered m 0) ∧
    (∃ t : State, exec (.retrain m bits) s = .next (t.answered m 0) ∧ t = { s with kports := t.kports } ∧ ∀ p : Fin 2,
      if bitOf bits p.val = true ∧ s.kports[p].st ≠ .absent then t.kports[p].st = .training ∧ t.kports[p].phase = 0 ∧ t.kports[p].restarts = 0
      else t.kports[p] = s.kports[p]) ∧
    (s.mayEnable = false → exec (.channelEnable m c) s = .next (s.answered m 3) ∧ exec (.channelDisable m c) s = .next (s.answered m 3)) ∧
    (s.mayEnable = true →
      (s.chans[c].st = .off → exec (.channelDisable m c) s = .next (s.answered m 0) ∧
        exec (.channelEnable m c) s = .next (({ s with chans := s.chans.set c { s.chans[c] with st := .idle } } : State).answered m 0)) ∧
      (s.chans[c].st ≠ .off → exec (.channelEnable m c) s = .next (s.answered m 0)) ∧
      (s.chans[c].st ≠ .off → s.chans[c].halted = none →
        ∃ (t : State) (ps : List Package), exec (.channelDisable m c) s = .next (t.answered m 0) ∧ t.chans[c].st = .off ∧
          t.chans[c].queue = [] ∧ t.chans[c].val = none ∧ t.chans[c].held = s.chans[c].held ++ ps ∧
          ps.map (·.record.seq) = s.chans[c].queue.map (fun e => (Desc.parse e.desc).seq) ∧
          (∀ p ∈ ps, p.record.status = stAborted) ∧ ∀ k : Fin 16, k ≠ c → t.chans[k] = s.chans[k]))

/-- R14, R356, R375, R373: a register write is the command of its register; a read-only or unassigned offset ignores it with OK; an
unaligned address and a bad one are answered BAD_ADDR; a read returns its register's word; the read-out window reads 0 unless FROZEN
and changes nothing; IRQ is high while an enabled bit is set. A write with FREEZE and THAW both set is the THAW, judged by the level of FREEZE_IN
that the state holds (log 20). -/
def Obligations.RegistersReadAndWritten : Prop :=
  ∀ (s : State) (m : Fin 4) (off : Nat) (v : Word) (w : Bool), s.pins.rstN = true →
    (off % 4 ≠ 0 → exec (.registerWrite m off v) s = .next (s.answered m 4) ∧ exec (.lowWordRead m off) s = .next (s.answered m 4)) ∧
    exec (.mgmtBadAddress m w) s = .next (s.answered m 4) ∧
    exec (.registerWrite m 0x20 v) s = (if v.getLsbD 1 = true then exec (.release m (v.getLsbD 0)) s
      else if v.getLsbD 0 = true then exec (.claim m) s else .next (s.answered m 0)) ∧
    (v.getLsbD 2 = true → exec (.registerWrite m 0x28 v) s = exec (.handover m (Fin.ofNat 4 (v.toNat % 4))) s) ∧
    exec (.registerWrite m 0x2C v) s = exec (.ownerBeat m v) s ∧
    exec (.registerWrite m 0x30 v) s = exec (.irqStatusClear m v) s ∧
    (v.getLsbD 0 = true → exec (.registerWrite m 0x40 v) s = exec (.quiesce m) s) ∧
    (v.getLsbD 0 = true → exec (.registerWrite m 0x44 v) s =
      if bitsOf v.toNat 4 12 = 0 then exec (.raiseLocal m) s else exec (.raiseGang m (bitsOf v.toNat 4 12)) s) ∧
    (∀ high : Bool, exec (.registerWrite m (if high then 0x4C else 0x48) v) s = exec (.raiseAtWrite m high v) s) ∧
    (v.getLsbD 1 = true → exec (.registerWrite m 0x60 v) s = exec (.thaw m v s.pins.freezeIn) s) ∧
    (v.getLsbD 0 = true → v.getLsbD 1 = false → exec (.registerWrite m 0x60 v) s = exec (.freeze m v) s) ∧
    (∀ k : Fin 6, exec (.registerWrite m (0xC0 + 4 * k.val) v) s = exec (.shadowWrite m (0xC0 + 4 * k.val) v) s) ∧
    (∀ g : Fin 4, exec (.registerWrite m (0xE0 + 4 * g.val) v) s = exec (.nextseqWrite m g v) s) ∧
    (∀ c : Fin 16, exec (.registerWrite m (0x800 + 64 * c.val) v) s =
      if v.getLsbD 0 = true then exec (.channelEnable m c) s else exec (.channelDisable m c) s) ∧
    exec (.registerWrite m 0x1008 v) s = exec (.retrain m (v.toNat % 4)) s ∧
    exec (.registerWrite m 0x2004 v) s = exec (.logTailWrite m v) s ∧
    (s.own.owner = some m →
      (v.getLsbD 2 = false → exec (.registerWrite m 0x28 v) s = .next (s.answered m 0)) ∧
      (v.getLsbD 0 = false → exec (.registerWrite m 0x40 v) s = .next (s.answered m 0) ∧ exec (.registerWrite m 0x44 v) s = .next (s.answered m 0)) ∧
      (v.getLsbD 0 = false → v.getLsbD 1 = false → exec (.registerWrite m 0x60 v) s = .next (({ s with frz := { s.frz with
        onFault := v.getLsbD 2, propagate := v.getLsbD 3, scope := v.toNat / 16 % 4096, driveOut := v.getLsbD 16 } } : State).answered m 0)) ∧
      exec (.registerWrite m 0x34 v) s = .next (({ s with irqEnable := v.setWidth 9 } : State).answered m 0) ∧
      exec (.registerWrite m 0x6C v) s = .next (({ s with frz := { s.frz with page := v.toNat % 65536 } } : State).answered m 0)) ∧
    (off % 4 = 0 → off < 0x20 ∨ off = 0x24 ∨ 0x50 ≤ off ∧ off < 0x60 ∨ 0x80 ≤ off ∧ off < 0xC0 ∨ 0x100 ≤ off ∧ off < 0x800 ∨ 0x2008 ≤ off →
      exec (.registerWrite m off v) s = .next (s.answered m 0)) ∧
    (off % 4 = 0 → off < 0x4000 → s.reg64 off = none → s.high64 off = none → s.configClean →
      exec (.lowWordRead m off) s = .next (s.answered m 0 (BitVec.ofNat 32 (s.regWord off)))) ∧
    (s.lg ≠ .frozen → ∀ k, k % 4 = 0 → k < 0x4000 → exec (.readoutWindowRead m k) s = .next (s.answered m 0)) ∧
    (s.lg = .frozen → s.bays.yardCE = [] → s.bays.yardUE = [] → ∀ k, k % 4 = 0 → k < 0x4000 → s.frz.page * 16384 + k < 0x1100000 →
      exec (.readoutWindowRead m k) s = .next (s.answered m 0
        (BitVec.ofNat 32 (leNat ((List.range 4).map fun i => s.captureAt (s.frz.page * 16384 + k + i)))))) ∧
    (s.irqPin = true ↔ ∃ n, n < 9 ∧ s.irqStatus.getLsbD n = true ∧ s.irqEnable.getLsbD n = true)

/-- R365: LG_STATE reads READY while no descriptor or share has started without retiring, RUNNING while one has. -/
def Obligations.RunningStateShown : Prop :=
  ∀ s : State, s.lg = .ready →
    (s.regWord 0x10 % 8 = 1 ↔ (∀ c : Fin 16, s.chans[c].job = none) ∧ ∀ x ∈ s.shares, x.job = none) ∧
    (s.regWord 0x10 % 8 = 2 ↔ (∃ c : Fin 16, s.chans[c].job ≠ none) ∨ ∃ x ∈ s.shares, x.job ≠ none)

/-! ### Freeze and thaw (R328, R370 to R373) -/

/-- R370, R328, Table 14.5: a freeze starts on FREEZE_IN, on the owner's write and on a frame whose SCOPE names the instance, and
changes no work; a FREEZE_ID acted on before is ignored; a FREEZE flit is first one of its port's, with its ACK and NAK (R303, R306); at its
end the instance is FROZEN at the count of that moment. -/
def Obligations.FreezeSequenceRuns : Prop :=
  (∀ s : State, s.live →
    let begun := fun (t : State) (cause : Nat) => t.frz.running = true ∧ t.frz.cause = cause ∧ t.frz.frozenFrom = s.lgCode ∧
      t.frz.startedAt = s.count ∧ t.frz.preReady = decide (s.nv.phase ≠ 7) ∧ t.pins.freezeOut = (s.pins.freezeOut || t.frz.driveOut) ∧ t.lg = s.lg ∧ t.chans = s.chans ∧
      t.shares = s.shares ∧ t.bays = s.bays ∧ t.port = s.port ∧ t.own = s.own ∧ t.raising = s.raising ∧ t.log = s.log
    (∃ t, exec .freezeInEdge s = .next t ∧ begun t 1 ∧ t.pins.freezeIn = true ∧ t.mg = s.mg) ∧
    (∀ (m : Fin 4) (v : Word), s.own.owner = some m → v.getLsbD 1 = false →
      ∃ t, exec (.freeze m v) s = .next t ∧ begun t 2 ∧ t.frz.driveOut = v.getLsbD 16 ∧ t.mg = s.mg ++ [{ master := m, code := 0 }]) ∧
    ∀ (src : Option (Fin 2)) (rx : FlitRx),
      (src = none ∧ s.nv.phase ≠ 0) ∨
        (∃ p : Fin 2, src = some p ∧ s.kports[p].st = .up ∧ flitGood (decodeFlit rx) = true ∧ fieldAt (decodeFlit rx) 0 1 = 4) →
      let b := if src = none then decodeFlit rx else sliceOf (decodeFlit rx) 8 240
      let u := match src with | some p => s.flitIn p (decodeFlit rx) | none => s
      let id := fieldAt b 0 4
      let scope := fieldAt b 6 2 % 4096
      u = { s with kports := u.kports } ∧ (∀ p : Fin 2, src = some p → u.kports[p].helloOn = false) ∧
      (id ∈ s.frz.seen → exec (.freezeFrame src rx) s = .next u) ∧
      (id ∉ s.frz.seen → s.sin ∈ s.gangMembers scope →
        ∃ t, exec (.freezeFrame src rx) s = .next t ∧ begun t 3 ∧ t.frz.id.toNat = id ∧ t.frz.origin = fieldAt b 4 2 % 4096 ∧
          id ∈ t.frz.seen) ∧
      (id ∉ s.frz.seen → s.sin ∉ s.gangMembers scope →
        ∃ t, exec (.freezeFrame src rx) s = .next t ∧
          t = { s with frz := { s.frz with seen := (id :: s.frz.seen).take 8 }, kports := t.kports, stop := t.stop })) ∧
  ∀ s : State, s.pins.rstN = true → s.frz.running = true →
    ∃ t, exec .freezeComplete s = .next t ∧ t.lg = .frozen ∧ t.frz.running = false ∧ t.frz.plumb = s.clk.count ∧
      t.irqStatus = s.irqStatus ||| 32 ∧ (s.port.out = [] → t.frz.memTimeout = false) ∧
      (s.port.out ≠ [] → s.port.held = [] → t.frz.memTimeout = true) ∧
      t = { s with lg := t.lg, frz := t.frz, irqStatus := t.irqStatus }

/-- R372, R329: a thaw is answered WRONG_STATE with no effect but the level of FREEZE_IN (log 20) unless the instance is FROZEN since READY, no response was lost and
FREEZE_IN is low; otherwise LG_STATE is FROZEN_FROM again, FREEZE_OUT is deasserted, every port but an absent one retrains, a DOWN one too,
the work that stood still is unchanged, and an armed raise whose count passed is MISSED. -/
def Obligations.ThawRestartsOrIsRefused : Prop :=
  ∀ (s : State) (m : Fin 4) (v : Word) (pin : Bool), s.ownedBy m →
    let bad := s.lg ≠ .frozen ∨ s.frz.preReady = true ∨ s.frz.memTimeout = true ∨ pin = true
    (bad → exec (.thaw m v pin) s = .next (({ s with pins := { s.pins with freezeIn := pin } } : State).answered m 3)) ∧
    (¬ bad → v.getLsbD 0 = false → s.frz.pendingFault = false → s.image.role = 0 → s.running = [] → s.draining = false →
      s.heldOff = [] → s.port.held = [] → s.port.waiting = [] → s.configClean →
      ∃ t, exec (.thaw m v pin) s = .next t ∧ t.mg = s.mg ++ [{ master := m, code := 0 }] ∧ t.lg = lgOf s.frz.frozenFrom ∧
        t.pins.freezeOut = false ∧ t.chans = s.chans ∧ t.shares = s.shares ∧ t.bays = s.bays ∧
        ((∀ n, s.raising.armed = some n → s.count < n) → t.raising = s.raising) ∧
        (∀ n, s.raising.armed = some n → n ≤ s.count → t.raising.armed = none ∧ t.raising.outcome = .missed) ∧
        t.active = s.active ∧ t.shadow = s.shadow ∧ t.own = s.own ∧ t.nextSeq = s.nextSeq ∧ t.port = s.port ∧
        ∀ p : Fin 2, if s.kports[p].st = .absent then t.kports[p] = s.kports[p]
          else t.kports[p].st = .training ∧ t.kports[p].phase = 0 ∧ t.kports[p].restarts = 0)

/-! ### Reset, power-up, the flash, the test port (R331 to R353, R412 to R418) -/

/-- R412, R414, R418, R403, R406: RST_N low ends every state at once; its release samples the fuses and starts P0 with COUNT 0; AVS_CODE is 30
from the moment both rails are within range, undriven while the core rail is not; SCAN_EN that is in the instruction register takes effect as RST_N
goes low; messages held off in a clock stop are discarded (R74). What else stays through reset is log 58's. -/
def Obligations.ResetAndRails : Prop :=
  ∀ (s : State) (fuses : Nat) (ssc core sram : Bool),
    (∃ t, exec .resetAssert s = .next t ∧ t.pins.rstN = false ∧ t.pins.freezeOut = false ∧
      t.pins.avs = (if s.pins.railCore = true then some 30 else none) ∧ t.stop.fault = false ∧ t.stop.beats = s.stop.beats ∧
      (let u : State := { params := s.params, pins := t.pins, sent := s.sent, nvOut := s.nvOut, net := s.net, mg := s.mg, stop := t.stop
                          heldOff := if s.stopped = true then [] else s.heldOff
                          jtag := { s.jtag with scan := s.jtag.ir == 0x10#6 }, free := s.free, pending := s.pending }
       t = if s.jtag.ir = 0x10#6 then u.destroyStores else u) ∧
      t.pins.nvReleased = false ∧ t.pins.nvSck = none ∧ t.pins.nvCsN = none ∧ t.pins.nvIo = none) ∧
    (s.pins.rstN = false →
      ∃ t, exec (.resetRelease fuses ssc) s = .next t ∧ t.pins.rstN = true ∧ t.pins.fuses = fuses % 65536 ∧ t.pins.ssc = ssc ∧ t.clk = {} ∧
        (∀ p, p ∈ t.bays.ok ↔ p < s.params.baysBuilt ∧ bitOf fuses p = false) ∧ t.pins.avs = s.pins.avs ∧
        t = { s with pins := t.pins, clk := t.clk, jtag := { s.jtag with scan := false, mbistRunning := false }
                     bays := { s.bays with ok := t.bays.ok } }) ∧
    (s.pins.rstN = true → exec (.resetRelease fuses ssc) s = .next s) ∧
    exec (.railsWithinRange core sram) s = .next { s with pins := { s.pins with
      railCore := core, railSram := sram
      avs := if core = false then none else if sram = true ∧ s.pins.avs = none then some 30 else s.pins.avs } }

/-- R345, R414, R406, R343, R346: P0 ends with AVS_CODE set and the NV pins driven (their idle levels are log 74's); discovery finds the order of the slots and the next BOOT_ID, or faults the
instance; a slot that passes is loaded, one that fails gives way to the other, two that fail fault the instance; the self-test
leaves out a bay with a failing store or tap and no bay without a failure. -/
def Obligations.PowerUpReachesLoad : Prop :=
  ∀ s : State,
    (∀ avs, s.inPhase 0 = true → s.heldOff = [] → exec (.pllLockDone avs) s = .next { s with
      pins := { s.pins with avs := some avs, nvSck := some false, nvCsN := some true, nvIo := some 0 }, nv := { s.nv with phase := 1, phaseStart := s.clk.edges } }) ∧
    (∀ (dev : NvDevice) (hs logs : List (List Byte)), s.inPhase 1 = true →
      (dev ≠ .ok → s.frz.onFault = false → ∃ t, exec (.nvDiscoveryDone dev hs logs) s = .next t ∧ t.lg = .fault ∧ t.nv = s.nv) ∧
      (dev = .ok → ∃ t, exec (.nvDiscoveryDone dev hs logs) s = .next t ∧ t.nv.phase = 2 ∧ t.nv.current = (slotOrder (hs.getD 0 []) (hs.getD 1 [])).head? ∧
        t.nv.bootId = (((bootNewest logs).map (·.2.2)).getD 0 + 1) % 2 ^ 32 ∧ t = { s with nv := t.nv })) ∧
    (∀ (bytes : List Byte) (slot : Nat), s.inPhase 2 = true → s.nv.current = some slot →
      (checkImage bytes s.params.lanes s.params.ring = none → exec (.imageSlotReadDone bytes) s = .next { s with
        image := imageOf bytes slot, nv := { s.nv with current := none, phase := 3, phaseStart := s.clk.edges } }) ∧
      (∀ f n l, checkImage bytes s.params.lanes s.params.ring = some f → s.nv.order = n :: l →
        ∃ t, exec (.imageSlotReadDone bytes) s = .next t ∧ t.nv = { s.nv with current := some n, order := l } ∧ t.lg = .seasoning ∧
          t = { s with nv := t.nv, log := t.log, irqStatus := s.irqStatus ||| 64 }) ∧
      (∀ f, checkImage bytes s.params.lanes s.params.ring = some f → s.nv.order = [] → s.frz.onFault = false →
        ∃ t, exec (.imageSlotReadDone bytes) s = .next t ∧ t.lg = .fault ∧ t.nv.phase = 2 ∧ t.image = s.image)) ∧
    ∀ fails : List (Fin 16 × SelfFail), s.inPhase 3 = true →
      ∃ t, exec (.selfTestDone fails) s = .next t ∧ t.nv.phase = 4 ∧ t.lg = .seasoning ∧
        (fails = [] → t = { s with nv := t.nv }) ∧
        (∀ b, (∀ x ∈ fails, x.1.val ≠ b) → (b ∈ t.bays.ok ↔ b ∈ s.bays.ok)) ∧
        (∀ x ∈ fails, x.2 = .tally ∨ x.2 = .yard ∨ x.2 = .tap → x.1.val ∉ t.bays.ok)

/-- R347, R348, R344, R353: load end fixes B, applies the slot rules, clears the yards, makes the image visible and resolves the claim
latch, or faults the instance and leaves out the steps between; training and alignment end; READY opens the channels with next-SEQ 0 and slot 0; then the flash is
erased when due and released. That the sequence stands in P4 after a fault at load end is log 21's, and that the rate estimate is TRIM as alignment
leaves it log 12's. -/
def Obligations.LoadEndLeadsToReady : Prop :=
  ∀ (s : State) (ok : Bool),
    let slots := s.image.slots.map fun w => clipSlot w s.bays.ok.length
    let v : State := { s with bays := { s.bays with enabled := s.bays.ok }, image := { s.image with slots := slots } }
    (s.inPhase 4 = true → s.bays.ok.length < s.image.minBays → s.frz.onFault = false →
      ∃ t, exec (.loadEnd ok) s = .next t ∧ t.lg = .fault ∧ t.visible = true ∧ t.bays.enabled = s.bays.ok ∧ t.nv.phase = 4 ∧ t.image.slots = slots ∧
        t.bays.yard = s.bays.yard ∧ t.nvOut = s.nvOut) ∧
    (s.inPhase 4 = true → ¬ s.bays.ok.length < s.image.minBays → v.emptyAnchors ≠ [] → s.frz.onFault = false →
      ∃ t, exec (.loadEnd ok) s = .next t ∧ t.lg = .fault ∧ t.visible = true ∧ t.bays.enabled = s.bays.ok ∧ t.nv.phase = 4 ∧ t.image.slots = slots ∧
        t.bays.yard = s.bays.yard ∧ t.nvOut = s.nvOut) ∧
    (s.inPhase 4 = true → ¬ s.bays.ok.length < s.image.minBays → v.emptyAnchors = [] → s.bays.curveCE = [] → s.bays.curveUE = [] → s.configClean →
      ∃ t, exec (.loadEnd ok) s = .next t ∧ t.lg = .seasoning ∧ t.visible = true ∧ t.bays.enabled = s.bays.ok ∧ t.image.slots = slots ∧
        t.bays.yard = [] ∧ t.active.greenOk = s.image.greenOk ∧ t.active.digestN = BitVec.ofNat 32 s.image.digestN ∧ t.active.pole = 0 ∧
        t.active.offcut = 0 ∧ t.shadow = t.active ∧ t.curveDigest = sha256 s.image.curves ∧ t.nv.bootId = s.nv.bootId ∧
        t.nvOut = (if s.nv.posErased then s.nvOut ++ [(bootAddr s.nv.logSector s.nv.logPos,
          natLE 4 s.nv.bootId ++ natLE 4 (2 ^ 32 - 1 - s.nv.bootId))] else s.nvOut) ∧
        t.own.owner = (match lowestClaim s.own.latch with | some k => some k | none => s.own.owner) ∧ t.own.latch = [] ∧
        t.nv.phase = (if s.image.portMode = 0 then 6 else 5)) ∧
    (s.inPhase 5 = true → s.configClean → ∃ t, exec .trainingWindowEnd s = .next t ∧ t.nv.phase = 6 ∧ t.lg = .seasoning ∧ t.chans = s.chans ∧
      t.bays = s.bays ∧ (s.portsUp = true → t.clk.count = s.clk.count)) ∧
    (s.inPhase 6 = true → s.configClean → (∀ x ∈ s.shares, x.job = none) → ∃ t, exec .plumbAlignmentEnd s = .next t ∧ t.lg = .ready ∧ t.nv.phase = 7 ∧
      t.sched.slot = 0 ∧ t.clk.rate = s.clk.trim ∧
      (∀ g : Fin 4, t.nextSeq[g] = 0) ∧ ∀ c : Fin 16, t.chans[c].queue = [] ∧ t.chans[c].st = if (s.cfg c).enabled then .idle else .off) ∧
    (∀ k, s.eraseDue = some k → s.live → s.nv.phase = 7 → s.pins.nvReleased = false →
      ∃ t, exec (.bootLogErase ok) s = .next t ∧ t.nv.erased = true ∧ t.nvOut = s.nvOut ++ [(bootAddr k 0, [])] ∧
        (ok = true → t = { s with nv := t.nv, nvOut := t.nvOut } ∧ k ∉ t.nv.validIn) ∧
        (ok = false → t.log = s.log.put (logBytes 0x23 0 0 0 0 0 s.count 0 0 0 (bootAddr k 0)))) ∧
    (s.live → s.nv.phase = 7 → s.eraseDue = none → exec .nvRelease s = .next { s with
      pins := { s.pins with nvSck := none, nvCsN := some true, nvIo := none, nvReleased := true } }) ∧
    (s.eraseDue ≠ none → exec .nvRelease s = .next s)

/-- R418: the test port's instructions select their data registers; the scan chains and the memory test run in RST_N low alone, change the test
logic elsewhere and destroy every store there: a yard byte is undefined from then on (a free value, log 6), no tally is held. The data
registers of BYPASS, SCAN_EN and TEST_RESET are the model's (log 6). -/
def Obligations.TestPortInstructions : Prop :=
  ∀ s : State,
    let destroyed := fun (t : State) => t.bays.tallies = [] ∧ t.bays.yard = [] ∧ (∀ a, a < 2 ^ 24 → t.bays.byteAt a = Config.undefByte s.bays.undefNext a)
    (exec .idcode s = .next { s with jtag := { s.jtag with ir := 0x01, scan := false
                                                           dr := BitVec.ofNat 32 ((if s.params.stepB then 1 else 0) * 2 ^ 28 + 0x4C16 * 2 ^ 12 +
                                                             s.params.jtagMfr % 2 ^ 11 * 2 + 1) } }) ∧
    exec .fuseRead s = .next { s with jtag := { s.jtag with ir := 0x02, dr := BitVec.ofNat 32 s.pins.fuses, scan := false } } ∧
    (s.pins.rstN = true → exec .scanEn s = .next { s with jtag := { s.jtag with ir := 0x10, dr := 0, scan := false } }) ∧
    (s.pins.rstN = false → ∃ t, exec .scanEn s = .next t ∧ t.jtag = { s.jtag with ir := 0x10, dr := 0, scan := true } ∧ destroyed t ∧
      t = { s with jtag := t.jtag, bays := t.bays }) ∧
    (∀ w : Bool, (w = true → s.pins.rstN = true) → exec (.mbistRun w) s =
      .next { s with jtag := { s.jtag with ir := 0x11, dr := if w then 1 else 0, scan := false } }) ∧
    (s.pins.rstN = false → ∃ t, exec (.mbistRun true) s = .next t ∧ t.jtag = { s.jtag with
        ir := 0x11, dr := 1, scan := false, mbistRunning := true, mbistDone := false, mbistPass := false, mbistFirst := 0 } ∧ destroyed t ∧
      t = { s with jtag := t.jtag, bays := t.bays }) ∧
    (∀ (pass : Bool) (first : Nat), exec (.mbistDone pass first) s = .next (if s.jtag.mbistRunning = true then { s with jtag := { s.jtag with
        mbistRunning := false, mbistDone := true, mbistPass := pass, mbistFirst := if pass then 0 else first } } else s)) ∧
    (∃ t, exec .mbistStatus s = .next t ∧ t.jtag.ir = 0x12 ∧ t.jtag.dr.getLsbD 0 = s.jtag.mbistDone ∧ t.jtag.dr.getLsbD 1 = s.jtag.mbistPass ∧
      t.jtag.dr.toNat / 16 % 2 ^ 17 = s.jtag.mbistFirst % 2 ^ 17 ∧ t = { s with jtag := t.jtag }) ∧
    (∀ code : Nat, exec (.bypass code) s = .next { s with jtag := { s.jtag with ir := BitVec.ofNat 6 code, dr := 0, scan := false } }) ∧
    ∃ t, exec .testReset s = .next t ∧ t.jtag.ir = 0x01 ∧ t.jtag.mbistRunning = false ∧ t = { s with jtag := t.jtag }

/-! ### Sums (R149, R151) -/

/-- R149: adding to a tally and merging tallies associate and commute on every bit, so the order of the addends of a sum decides
nothing; a finite addend is added exactly. -/
def Obligations.TallySumIsOrderFree : Prop :=
  (∀ (t : Tally) (l k : List Val), l.Perm k → l.foldl Tally.add t = k.foldl Tally.add t) ∧
  (∀ a b c : Tally, a.merge b = b.merge a ∧ (a.merge b).merge c = a.merge (b.merge c)) ∧
  (∀ (a b : Tally) (l : List Val), (l.foldl Tally.add a).merge b = l.foldl Tally.add (a.merge b)) ∧
  (∀ (t : Tally) (z : Int) (q : Rat), q * pow2 320 = z → (t.add (.num q)).t = t.t + z)
end

