-- ==== Sys2Proof/Laws/State.lean ====
section
/-! SUPPORT. What each named update leaves in each field of State: one lemma per field per update, true by rfl. -/

namespace Sys2Proof.Machine

variable (s : State)

/-! ### pass -/

@[simp] theorem State.pass_params (n : Nat) : (s.pass n).params = s.params := rfl
@[simp] theorem State.pass_clk (n : Nat) : (s.pass n).clk = s.clk.run s.arithRuns s.params.arithMult n := rfl
@[simp] theorem State.pass_pins (n : Nat) : (s.pass n).pins = s.pins := rfl
@[simp] theorem State.pass_image (n : Nat) : (s.pass n).image = s.image := rfl
@[simp] theorem State.pass_visible (n : Nat) : (s.pass n).visible = s.visible := rfl
@[simp] theorem State.pass_curveDigest (n : Nat) : (s.pass n).curveDigest = s.curveDigest := rfl
@[simp] theorem State.pass_nv (n : Nat) : (s.pass n).nv = s.nv := rfl
@[simp] theorem State.pass_bays (n : Nat) : (s.pass n).bays = s.bays := rfl
@[simp] theorem State.pass_chans (n : Nat) : (s.pass n).chans = s.chans := rfl
@[simp] theorem State.pass_nextSeq (n : Nat) : (s.pass n).nextSeq = s.nextSeq := rfl
@[simp] theorem State.pass_eligNext (n : Nat) : (s.pass n).eligNext = s.eligNext := rfl
@[simp] theorem State.pass_sched (n : Nat) : (s.pass n).sched = s.sched := rfl
@[simp] theorem State.pass_port (n : Nat) : (s.pass n).port = s.port := rfl
@[simp] theorem State.pass_sent (n : Nat) : (s.pass n).sent = s.sent := rfl
@[simp] theorem State.pass_nvOut (n : Nat) : (s.pass n).nvOut = s.nvOut := rfl
@[simp] theorem State.pass_heldOff (n : Nat) : (s.pass n).heldOff = s.heldOff := rfl
@[simp] theorem State.pass_net (n : Nat) : (s.pass n).net = s.net := rfl
@[simp] theorem State.pass_inbox (n : Nat) : (s.pass n).inbox = s.inbox := rfl
@[simp] theorem State.pass_mg (n : Nat) : (s.pass n).mg = s.mg := rfl
@[simp] theorem State.pass_mgHigh (n : Nat) : (s.pass n).mgHigh = s.mgHigh := rfl
@[simp] theorem State.pass_mgLow (n : Nat) : (s.pass n).mgLow = s.mgLow := rfl
@[simp] theorem State.pass_offcut (n : Nat) : (s.pass n).offcut = s.offcut := rfl
@[simp] theorem State.pass_offcutUse (n : Nat) : (s.pass n).offcutUse = s.offcutUse := rfl
@[simp] theorem State.pass_ringKept (n : Nat) : (s.pass n).ringKept = s.ringKept := rfl
@[simp] theorem State.pass_scarfs (n : Nat) : (s.pass n).scarfs = s.scarfs := rfl
@[simp] theorem State.pass_credits (n : Nat) : (s.pass n).credits = s.credits := rfl
@[simp] theorem State.pass_boots (n : Nat) : (s.pass n).boots = s.boots := rfl
@[simp] theorem State.pass_shares (n : Nat) : (s.pass n).shares = s.shares := rfl
@[simp] theorem State.pass_heldTiles (n : Nat) : (s.pass n).heldTiles = s.heldTiles := rfl
@[simp] theorem State.pass_returns (n : Nat) : (s.pass n).returns = s.returns := rfl
@[simp] theorem State.pass_raising (n : Nat) : (s.pass n).raising = s.raising := rfl
@[simp] theorem State.pass_kports (n : Nat) : (s.pass n).kports = s.kports := rfl
@[simp] theorem State.pass_stop (n : Nat) : (s.pass n).stop = s.stop := rfl
@[simp] theorem State.pass_lg (n : Nat) : (s.pass n).lg = s.lg := rfl
@[simp] theorem State.pass_draining (n : Nat) : (s.pass n).draining = s.draining := rfl
@[simp] theorem State.pass_own (n : Nat) : (s.pass n).own = s.own := rfl
@[simp] theorem State.pass_active (n : Nat) : (s.pass n).active = s.active := rfl
@[simp] theorem State.pass_shadow (n : Nat) : (s.pass n).shadow = s.shadow := rfl
@[simp] theorem State.pass_irqStatus (n : Nat) : (s.pass n).irqStatus = s.irqStatus := rfl
@[simp] theorem State.pass_irqEnable (n : Nat) : (s.pass n).irqEnable = s.irqEnable := rfl
@[simp] theorem State.pass_frz (n : Nat) : (s.pass n).frz = s.frz := rfl
@[simp] theorem State.pass_ctr (n : Nat) : (s.pass n).ctr = s.ctr := rfl
@[simp] theorem State.pass_log (n : Nat) : (s.pass n).log = s.log := rfl
@[simp] theorem State.pass_jtag (n : Nat) : (s.pass n).jtag = s.jtag := rfl
@[simp] theorem State.pass_free (n : Nat) : (s.pass n).free = s.free := rfl
@[simp] theorem State.pass_pending (n : Nat) : (s.pass n).pending = s.pending := rfl

/-! ### setChan -/

@[simp] theorem State.setChan_params (c : Fin 16) (x : Chan) : (s.setChan c x).params = s.params := rfl
@[simp] theorem State.setChan_clk (c : Fin 16) (x : Chan) : (s.setChan c x).clk = s.clk := rfl
@[simp] theorem State.setChan_pins (c : Fin 16) (x : Chan) : (s.setChan c x).pins = s.pins := rfl
@[simp] theorem State.setChan_image (c : Fin 16) (x : Chan) : (s.setChan c x).image = s.image := rfl
@[simp] theorem State.setChan_visible (c : Fin 16) (x : Chan) : (s.setChan c x).visible = s.visible := rfl
@[simp] theorem State.setChan_curveDigest (c : Fin 16) (x : Chan) : (s.setChan c x).curveDigest = s.curveDigest := rfl
@[simp] theorem State.setChan_nv (c : Fin 16) (x : Chan) : (s.setChan c x).nv = s.nv := rfl
@[simp] theorem State.setChan_bays (c : Fin 16) (x : Chan) : (s.setChan c x).bays = s.bays := rfl
@[simp] theorem State.setChan_chans (c : Fin 16) (x : Chan) : (s.setChan c x).chans = s.chans.set c x := rfl
@[simp] theorem State.setChan_nextSeq (c : Fin 16) (x : Chan) : (s.setChan c x).nextSeq = s.nextSeq := rfl
@[simp] theorem State.setChan_eligNext (c : Fin 16) (x : Chan) : (s.setChan c x).eligNext = s.eligNext := rfl
@[simp] theorem State.setChan_sched (c : Fin 16) (x : Chan) : (s.setChan c x).sched = s.sched := rfl
@[simp] theorem State.setChan_port (c : Fin 16) (x : Chan) : (s.setChan c x).port = s.port := rfl
@[simp] theorem State.setChan_sent (c : Fin 16) (x : Chan) : (s.setChan c x).sent = s.sent := rfl
@[simp] theorem State.setChan_nvOut (c : Fin 16) (x : Chan) : (s.setChan c x).nvOut = s.nvOut := rfl
@[simp] theorem State.setChan_heldOff (c : Fin 16) (x : Chan) : (s.setChan c x).heldOff = s.heldOff := rfl
@[simp] theorem State.setChan_net (c : Fin 16) (x : Chan) : (s.setChan c x).net = s.net := rfl
@[simp] theorem State.setChan_inbox (c : Fin 16) (x : Chan) : (s.setChan c x).inbox = s.inbox := rfl
@[simp] theorem State.setChan_mg (c : Fin 16) (x : Chan) : (s.setChan c x).mg = s.mg := rfl
@[simp] theorem State.setChan_mgHigh (c : Fin 16) (x : Chan) : (s.setChan c x).mgHigh = s.mgHigh := rfl
@[simp] theorem State.setChan_mgLow (c : Fin 16) (x : Chan) : (s.setChan c x).mgLow = s.mgLow := rfl
@[simp] theorem State.setChan_offcut (c : Fin 16) (x : Chan) : (s.setChan c x).offcut = s.offcut := rfl
@[simp] theorem State.setChan_offcutUse (c : Fin 16) (x : Chan) : (s.setChan c x).offcutUse = s.offcutUse := rfl
@[simp] theorem State.setChan_ringKept (c : Fin 16) (x : Chan) : (s.setChan c x).ringKept = s.ringKept := rfl
@[simp] theorem State.setChan_scarfs (c : Fin 16) (x : Chan) : (s.setChan c x).scarfs = s.scarfs := rfl
@[simp] theorem State.setChan_credits (c : Fin 16) (x : Chan) : (s.setChan c x).credits = s.credits := rfl
@[simp] theorem State.setChan_boots (c : Fin 16) (x : Chan) : (s.setChan c x).boots = s.boots := rfl
@[simp] theorem State.setChan_shares (c : Fin 16) (x : Chan) : (s.setChan c x).shares = s.shares := rfl
@[simp] theorem State.setChan_heldTiles (c : Fin 16) (x : Chan) : (s.setChan c x).heldTiles = s.heldTiles := rfl
@[simp] theorem State.setChan_returns (c : Fin 16) (x : Chan) : (s.setChan c x).returns = s.returns := rfl
@[simp] theorem State.setChan_raising (c : Fin 16) (x : Chan) : (s.setChan c x).raising = s.raising := rfl
@[simp] theorem State.setChan_kports (c : Fin 16) (x : Chan) : (s.setChan c x).kports = s.kports := rfl
@[simp] theorem State.setChan_stop (c : Fin 16) (x : Chan) : (s.setChan c x).stop = s.stop := rfl
@[simp] theorem State.setChan_lg (c : Fin 16) (x : Chan) : (s.setChan c x).lg = s.lg := rfl
@[simp] theorem State.setChan_draining (c : Fin 16) (x : Chan) : (s.setChan c x).draining = s.draining := rfl
@[simp] theorem State.setChan_own (c : Fin 16) (x : Chan) : (s.setChan c x).own = s.own := rfl
@[simp] theorem State.setChan_active (c : Fin 16) (x : Chan) : (s.setChan c x).active = s.active := rfl
@[simp] theorem State.setChan_shadow (c : Fin 16) (x : Chan) : (s.setChan c x).shadow = s.shadow := rfl
@[simp] theorem State.setChan_irqStatus (c : Fin 16) (x : Chan) : (s.setChan c x).irqStatus = s.irqStatus := rfl
@[simp] theorem State.setChan_irqEnable (c : Fin 16) (x : Chan) : (s.setChan c x).irqEnable = s.irqEnable := rfl
@[simp] theorem State.setChan_frz (c : Fin 16) (x : Chan) : (s.setChan c x).frz = s.frz := rfl
@[simp] theorem State.setChan_ctr (c : Fin 16) (x : Chan) : (s.setChan c x).ctr = s.ctr := rfl
@[simp] theorem State.setChan_log (c : Fin 16) (x : Chan) : (s.setChan c x).log = s.log := rfl
@[simp] theorem State.setChan_jtag (c : Fin 16) (x : Chan) : (s.setChan c x).jtag = s.jtag := rfl
@[simp] theorem State.setChan_free (c : Fin 16) (x : Chan) : (s.setChan c x).free = s.free := rfl
@[simp] theorem State.setChan_pending (c : Fin 16) (x : Chan) : (s.setChan c x).pending = s.pending := rfl

/-! ### onChan -/

@[simp] theorem State.onChan_params (c : Fin 16) (f : Chan → Chan) : (s.onChan c f).params = s.params := rfl
@[simp] theorem State.onChan_clk (c : Fin 16) (f : Chan → Chan) : (s.onChan c f).clk = s.clk := rfl
@[simp] theorem State.onChan_pins (c : Fin 16) (f : Chan → Chan) : (s.onChan c f).pins = s.pins := rfl
@[simp] theorem State.onChan_image (c : Fin 16) (f : Chan → Chan) : (s.onChan c f).image = s.image := rfl
@[simp] theorem State.onChan_visible (c : Fin 16) (f : Chan → Chan) : (s.onChan c f).visible = s.visible := rfl
@[simp] theorem State.onChan_curveDigest (c : Fin 16) (f : Chan → Chan) : (s.onChan c f).curveDigest = s.curveDigest := rfl
@[simp] theorem State.onChan_nv (c : Fin 16) (f : Chan → Chan) : (s.onChan c f).nv = s.nv := rfl
@[simp] theorem State.onChan_bays (c : Fin 16) (f : Chan → Chan) : (s.onChan c f).bays = s.bays := rfl
@[simp] theorem State.onChan_chans (c : Fin 16) (f : Chan → Chan) : (s.onChan c f).chans = s.chans.set c (f s.chans[c]) := rfl
@[simp] theorem State.onChan_nextSeq (c : Fin 16) (f : Chan → Chan) : (s.onChan c f).nextSeq = s.nextSeq := rfl
@[simp] theorem State.onChan_eligNext (c : Fin 16) (f : Chan → Chan) : (s.onChan c f).eligNext = s.eligNext := rfl
@[simp] theorem State.onChan_sched (c : Fin 16) (f : Chan → Chan) : (s.onChan c f).sched = s.sched := rfl
@[simp] theorem State.onChan_port (c : Fin 16) (f : Chan → Chan) : (s.onChan c f).port = s.port := rfl
@[simp] theorem State.onChan_sent (c : Fin 16) (f : Chan → Chan) : (s.onChan c f).sent = s.sent := rfl
@[simp] theorem State.onChan_nvOut (c : Fin 16) (f : Chan → Chan) : (s.onChan c f).nvOut = s.nvOut := rfl
@[simp] theorem State.onChan_heldOff (c : Fin 16) (f : Chan → Chan) : (s.onChan c f).heldOff = s.heldOff := rfl
@[simp] theorem State.onChan_net (c : Fin 16) (f : Chan → Chan) : (s.onChan c f).net = s.net := rfl
@[simp] theorem State.onChan_inbox (c : Fin 16) (f : Chan → Chan) : (s.onChan c f).inbox = s.inbox := rfl
@[simp] theorem State.onChan_mg (c : Fin 16) (f : Chan → Chan) : (s.onChan c f).mg = s.mg := rfl
@[simp] theorem State.onChan_mgHigh (c : Fin 16) (f : Chan → Chan) : (s.onChan c f).mgHigh = s.mgHigh := rfl
@[simp] theorem State.onChan_mgLow (c : Fin 16) (f : Chan → Chan) : (s.onChan c f).mgLow = s.mgLow := rfl
@[simp] theorem State.onChan_offcut (c : Fin 16) (f : Chan → Chan) : (s.onChan c f).offcut = s.offcut := rfl
@[simp] theorem State.onChan_offcutUse (c : Fin 16) (f : Chan → Chan) : (s.onChan c f).offcutUse = s.offcutUse := rfl
@[simp] theorem State.onChan_ringKept (c : Fin 16) (f : Chan → Chan) : (s.onChan c f).ringKept = s.ringKept := rfl
@[simp] theorem State.onChan_scarfs (c : Fin 16) (f : Chan → Chan) : (s.onChan c f).scarfs = s.scarfs := rfl
@[simp] theorem State.onChan_credits (c : Fin 16) (f : Chan → Chan) : (s.onChan c f).credits = s.credits := rfl
@[simp] theorem State.onChan_boots (c : Fin 16) (f : Chan → Chan) : (s.onChan c f).boots = s.boots := rfl
@[simp] theorem State.onChan_shares (c : Fin 16) (f : Chan → Chan) : (s.onChan c f).shares = s.shares := rfl
@[simp] theorem State.onChan_heldTiles (c : Fin 16) (f : Chan → Chan) : (s.onChan c f).heldTiles = s.heldTiles := rfl
@[simp] theorem State.onChan_returns (c : Fin 16) (f : Chan → Chan) : (s.onChan c f).returns = s.returns := rfl
@[simp] theorem State.onChan_raising (c : Fin 16) (f : Chan → Chan) : (s.onChan c f).raising = s.raising := rfl
@[simp] theorem State.onChan_kports (c : Fin 16) (f : Chan → Chan) : (s.onChan c f).kports = s.kports := rfl
@[simp] theorem State.onChan_stop (c : Fin 16) (f : Chan → Chan) : (s.onChan c f).stop = s.stop := rfl
@[simp] theorem State.onChan_lg (c : Fin 16) (f : Chan → Chan) : (s.onChan c f).lg = s.lg := rfl
@[simp] theorem State.onChan_draining (c : Fin 16) (f : Chan → Chan) : (s.onChan c f).draining = s.draining := rfl
@[simp] theorem State.onChan_own (c : Fin 16) (f : Chan → Chan) : (s.onChan c f).own = s.own := rfl
@[simp] theorem State.onChan_active (c : Fin 16) (f : Chan → Chan) : (s.onChan c f).active = s.active := rfl
@[simp] theorem State.onChan_shadow (c : Fin 16) (f : Chan → Chan) : (s.onChan c f).shadow = s.shadow := rfl
@[simp] theorem State.onChan_irqStatus (c : Fin 16) (f : Chan → Chan) : (s.onChan c f).irqStatus = s.irqStatus := rfl
@[simp] theorem State.onChan_irqEnable (c : Fin 16) (f : Chan → Chan) : (s.onChan c f).irqEnable = s.irqEnable := rfl
@[simp] theorem State.onChan_frz (c : Fin 16) (f : Chan → Chan) : (s.onChan c f).frz = s.frz := rfl
@[simp] theorem State.onChan_ctr (c : Fin 16) (f : Chan → Chan) : (s.onChan c f).ctr = s.ctr := rfl
@[simp] theorem State.onChan_log (c : Fin 16) (f : Chan → Chan) : (s.onChan c f).log = s.log := rfl
@[simp] theorem State.onChan_jtag (c : Fin 16) (f : Chan → Chan) : (s.onChan c f).jtag = s.jtag := rfl
@[simp] theorem State.onChan_free (c : Fin 16) (f : Chan → Chan) : (s.onChan c f).free = s.free := rfl
@[simp] theorem State.onChan_pending (c : Fin 16) (f : Chan → Chan) : (s.onChan c f).pending = s.pending := rfl

/-! ### setPort -/

@[simp] theorem State.setPort_params (p : Fin 2) (x : KPort) : (s.setPort p x).params = s.params := rfl
@[simp] theorem State.setPort_clk (p : Fin 2) (x : KPort) : (s.setPort p x).clk = s.clk := rfl
@[simp] theorem State.setPort_pins (p : Fin 2) (x : KPort) : (s.setPort p x).pins = s.pins := rfl
@[simp] theorem State.setPort_image (p : Fin 2) (x : KPort) : (s.setPort p x).image = s.image := rfl
@[simp] theorem State.setPort_visible (p : Fin 2) (x : KPort) : (s.setPort p x).visible = s.visible := rfl
@[simp] theorem State.setPort_curveDigest (p : Fin 2) (x : KPort) : (s.setPort p x).curveDigest = s.curveDigest := rfl
@[simp] theorem State.setPort_nv (p : Fin 2) (x : KPort) : (s.setPort p x).nv = s.nv := rfl
@[simp] theorem State.setPort_bays (p : Fin 2) (x : KPort) : (s.setPort p x).bays = s.bays := rfl
@[simp] theorem State.setPort_chans (p : Fin 2) (x : KPort) : (s.setPort p x).chans = s.chans := rfl
@[simp] theorem State.setPort_nextSeq (p : Fin 2) (x : KPort) : (s.setPort p x).nextSeq = s.nextSeq := rfl
@[simp] theorem State.setPort_eligNext (p : Fin 2) (x : KPort) : (s.setPort p x).eligNext = s.eligNext := rfl
@[simp] theorem State.setPort_sched (p : Fin 2) (x : KPort) : (s.setPort p x).sched = s.sched := rfl
@[simp] theorem State.setPort_port (p : Fin 2) (x : KPort) : (s.setPort p x).port = s.port := rfl
@[simp] theorem State.setPort_sent (p : Fin 2) (x : KPort) : (s.setPort p x).sent = s.sent := rfl
@[simp] theorem State.setPort_nvOut (p : Fin 2) (x : KPort) : (s.setPort p x).nvOut = s.nvOut := rfl
@[simp] theorem State.setPort_heldOff (p : Fin 2) (x : KPort) : (s.setPort p x).heldOff = s.heldOff := rfl
@[simp] theorem State.setPort_net (p : Fin 2) (x : KPort) : (s.setPort p x).net = s.net := rfl
@[simp] theorem State.setPort_inbox (p : Fin 2) (x : KPort) : (s.setPort p x).inbox = s.inbox := rfl
@[simp] theorem State.setPort_mg (p : Fin 2) (x : KPort) : (s.setPort p x).mg = s.mg := rfl
@[simp] theorem State.setPort_mgHigh (p : Fin 2) (x : KPort) : (s.setPort p x).mgHigh = s.mgHigh := rfl
@[simp] theorem State.setPort_mgLow (p : Fin 2) (x : KPort) : (s.setPort p x).mgLow = s.mgLow := rfl
@[simp] theorem State.setPort_offcut (p : Fin 2) (x : KPort) : (s.setPort p x).offcut = s.offcut := rfl
@[simp] theorem State.setPort_offcutUse (p : Fin 2) (x : KPort) : (s.setPort p x).offcutUse = s.offcutUse := rfl
@[simp] theorem State.setPort_ringKept (p : Fin 2) (x : KPort) : (s.setPort p x).ringKept = s.ringKept := rfl
@[simp] theorem State.setPort_scarfs (p : Fin 2) (x : KPort) : (s.setPort p x).scarfs = s.scarfs := rfl
@[simp] theorem State.setPort_credits (p : Fin 2) (x : KPort) : (s.setPort p x).credits = s.credits := rfl
@[simp] theorem State.setPort_boots (p : Fin 2) (x : KPort) : (s.setPort p x).boots = s.boots := rfl
@[simp] theorem State.setPort_shares (p : Fin 2) (x : KPort) : (s.setPort p x).shares = s.shares := rfl
@[simp] theorem State.setPort_heldTiles (p : Fin 2) (x : KPort) : (s.setPort p x).heldTiles = s.heldTiles := rfl
@[simp] theorem State.setPort_returns (p : Fin 2) (x : KPort) : (s.setPort p x).returns = s.returns := rfl
@[simp] theorem State.setPort_raising (p : Fin 2) (x : KPort) : (s.setPort p x).raising = s.raising := rfl
@[simp] theorem State.setPort_kports (p : Fin 2) (x : KPort) : (s.setPort p x).kports = s.kports.set p x := rfl
@[simp] theorem State.setPort_stop (p : Fin 2) (x : KPort) : (s.setPort p x).stop = s.stop := rfl
@[simp] theorem State.setPort_lg (p : Fin 2) (x : KPort) : (s.setPort p x).lg = s.lg := rfl
@[simp] theorem State.setPort_draining (p : Fin 2) (x : KPort) : (s.setPort p x).draining = s.draining := rfl
@[simp] theorem State.setPort_own (p : Fin 2) (x : KPort) : (s.setPort p x).own = s.own := rfl
@[simp] theorem State.setPort_active (p : Fin 2) (x : KPort) : (s.setPort p x).active = s.active := rfl
@[simp] theorem State.setPort_shadow (p : Fin 2) (x : KPort) : (s.setPort p x).shadow = s.shadow := rfl
@[simp] theorem State.setPort_irqStatus (p : Fin 2) (x : KPort) : (s.setPort p x).irqStatus = s.irqStatus := rfl
@[simp] theorem State.setPort_irqEnable (p : Fin 2) (x : KPort) : (s.setPort p x).irqEnable = s.irqEnable := rfl
@[simp] theorem State.setPort_frz (p : Fin 2) (x : KPort) : (s.setPort p x).frz = s.frz := rfl
@[simp] theorem State.setPort_ctr (p : Fin 2) (x : KPort) : (s.setPort p x).ctr = s.ctr := rfl
@[simp] theorem State.setPort_log (p : Fin 2) (x : KPort) : (s.setPort p x).log = s.log := rfl
@[simp] theorem State.setPort_jtag (p : Fin 2) (x : KPort) : (s.setPort p x).jtag = s.jtag := rfl
@[simp] theorem State.setPort_free (p : Fin 2) (x : KPort) : (s.setPort p x).free = s.free := rfl
@[simp] theorem State.setPort_pending (p : Fin 2) (x : KPort) : (s.setPort p x).pending = s.pending := rfl

/-! ### irq -/

@[simp] theorem State.irq_params (n : Nat) : (s.irq n).params = s.params := rfl
@[simp] theorem State.irq_clk (n : Nat) : (s.irq n).clk = s.clk := rfl
@[simp] theorem State.irq_pins (n : Nat) : (s.irq n).pins = s.pins := rfl
@[simp] theorem State.irq_image (n : Nat) : (s.irq n).image = s.image := rfl
@[simp] theorem State.irq_visible (n : Nat) : (s.irq n).visible = s.visible := rfl
@[simp] theorem State.irq_curveDigest (n : Nat) : (s.irq n).curveDigest = s.curveDigest := rfl
@[simp] theorem State.irq_nv (n : Nat) : (s.irq n).nv = s.nv := rfl
@[simp] theorem State.irq_bays (n : Nat) : (s.irq n).bays = s.bays := rfl
@[simp] theorem State.irq_chans (n : Nat) : (s.irq n).chans = s.chans := rfl
@[simp] theorem State.irq_nextSeq (n : Nat) : (s.irq n).nextSeq = s.nextSeq := rfl
@[simp] theorem State.irq_eligNext (n : Nat) : (s.irq n).eligNext = s.eligNext := rfl
@[simp] theorem State.irq_sched (n : Nat) : (s.irq n).sched = s.sched := rfl
@[simp] theorem State.irq_port (n : Nat) : (s.irq n).port = s.port := rfl
@[simp] theorem State.irq_sent (n : Nat) : (s.irq n).sent = s.sent := rfl
@[simp] theorem State.irq_nvOut (n : Nat) : (s.irq n).nvOut = s.nvOut := rfl
@[simp] theorem State.irq_heldOff (n : Nat) : (s.irq n).heldOff = s.heldOff := rfl
@[simp] theorem State.irq_net (n : Nat) : (s.irq n).net = s.net := rfl
@[simp] theorem State.irq_inbox (n : Nat) : (s.irq n).inbox = s.inbox := rfl
@[simp] theorem State.irq_mg (n : Nat) : (s.irq n).mg = s.mg := rfl
@[simp] theorem State.irq_mgHigh (n : Nat) : (s.irq n).mgHigh = s.mgHigh := rfl
@[simp] theorem State.irq_mgLow (n : Nat) : (s.irq n).mgLow = s.mgLow := rfl
@[simp] theorem State.irq_offcut (n : Nat) : (s.irq n).offcut = s.offcut := rfl
@[simp] theorem State.irq_offcutUse (n : Nat) : (s.irq n).offcutUse = s.offcutUse := rfl
@[simp] theorem State.irq_ringKept (n : Nat) : (s.irq n).ringKept = s.ringKept := rfl
@[simp] theorem State.irq_scarfs (n : Nat) : (s.irq n).scarfs = s.scarfs := rfl
@[simp] theorem State.irq_credits (n : Nat) : (s.irq n).credits = s.credits := rfl
@[simp] theorem State.irq_boots (n : Nat) : (s.irq n).boots = s.boots := rfl
@[simp] theorem State.irq_shares (n : Nat) : (s.irq n).shares = s.shares := rfl
@[simp] theorem State.irq_heldTiles (n : Nat) : (s.irq n).heldTiles = s.heldTiles := rfl
@[simp] theorem State.irq_returns (n : Nat) : (s.irq n).returns = s.returns := rfl
@[simp] theorem State.irq_raising (n : Nat) : (s.irq n).raising = s.raising := rfl
@[simp] theorem State.irq_kports (n : Nat) : (s.irq n).kports = s.kports := rfl
@[simp] theorem State.irq_stop (n : Nat) : (s.irq n).stop = s.stop := rfl
@[simp] theorem State.irq_lg (n : Nat) : (s.irq n).lg = s.lg := rfl
@[simp] theorem State.irq_draining (n : Nat) : (s.irq n).draining = s.draining := rfl
@[simp] theorem State.irq_own (n : Nat) : (s.irq n).own = s.own := rfl
@[simp] theorem State.irq_active (n : Nat) : (s.irq n).active = s.active := rfl
@[simp] theorem State.irq_shadow (n : Nat) : (s.irq n).shadow = s.shadow := rfl
@[simp] theorem State.irq_irqStatus (n : Nat) : (s.irq n).irqStatus = s.irqStatus ||| BitVec.ofNat 9 (2 ^ n) := rfl
@[simp] theorem State.irq_irqEnable (n : Nat) : (s.irq n).irqEnable = s.irqEnable := rfl
@[simp] theorem State.irq_frz (n : Nat) : (s.irq n).frz = s.frz := rfl
@[simp] theorem State.irq_ctr (n : Nat) : (s.irq n).ctr = s.ctr := rfl
@[simp] theorem State.irq_log (n : Nat) : (s.irq n).log = s.log := rfl
@[simp] theorem State.irq_jtag (n : Nat) : (s.irq n).jtag = s.jtag := rfl
@[simp] theorem State.irq_free (n : Nat) : (s.irq n).free = s.free := rfl
@[simp] theorem State.irq_pending (n : Nat) : (s.irq n).pending = s.pending := rfl

/-! ### logRaw -/

@[simp] theorem State.logRaw_params (b : List Byte) : (s.logRaw b).params = s.params := rfl
@[simp] theorem State.logRaw_clk (b : List Byte) : (s.logRaw b).clk = s.clk := rfl
@[simp] theorem State.logRaw_pins (b : List Byte) : (s.logRaw b).pins = s.pins := rfl
@[simp] theorem State.logRaw_image (b : List Byte) : (s.logRaw b).image = s.image := rfl
@[simp] theorem State.logRaw_visible (b : List Byte) : (s.logRaw b).visible = s.visible := rfl
@[simp] theorem State.logRaw_curveDigest (b : List Byte) : (s.logRaw b).curveDigest = s.curveDigest := rfl
@[simp] theorem State.logRaw_nv (b : List Byte) : (s.logRaw b).nv = s.nv := rfl
@[simp] theorem State.logRaw_bays (b : List Byte) : (s.logRaw b).bays = s.bays := rfl
@[simp] theorem State.logRaw_chans (b : List Byte) : (s.logRaw b).chans = s.chans := rfl
@[simp] theorem State.logRaw_nextSeq (b : List Byte) : (s.logRaw b).nextSeq = s.nextSeq := rfl
@[simp] theorem State.logRaw_eligNext (b : List Byte) : (s.logRaw b).eligNext = s.eligNext := rfl
@[simp] theorem State.logRaw_sched (b : List Byte) : (s.logRaw b).sched = s.sched := rfl
@[simp] theorem State.logRaw_port (b : List Byte) : (s.logRaw b).port = s.port := rfl
@[simp] theorem State.logRaw_sent (b : List Byte) : (s.logRaw b).sent = s.sent := rfl
@[simp] theorem State.logRaw_nvOut (b : List Byte) : (s.logRaw b).nvOut = s.nvOut := rfl
@[simp] theorem State.logRaw_heldOff (b : List Byte) : (s.logRaw b).heldOff = s.heldOff := rfl
@[simp] theorem State.logRaw_net (b : List Byte) : (s.logRaw b).net = s.net := rfl
@[simp] theorem State.logRaw_inbox (b : List Byte) : (s.logRaw b).inbox = s.inbox := rfl
@[simp] theorem State.logRaw_mg (b : List Byte) : (s.logRaw b).mg = s.mg := rfl
@[simp] theorem State.logRaw_mgHigh (b : List Byte) : (s.logRaw b).mgHigh = s.mgHigh := rfl
@[simp] theorem State.logRaw_mgLow (b : List Byte) : (s.logRaw b).mgLow = s.mgLow := rfl
@[simp] theorem State.logRaw_offcut (b : List Byte) : (s.logRaw b).offcut = s.offcut := rfl
@[simp] theorem State.logRaw_offcutUse (b : List Byte) : (s.logRaw b).offcutUse = s.offcutUse := rfl
@[simp] theorem State.logRaw_ringKept (b : List Byte) : (s.logRaw b).ringKept = s.ringKept := rfl
@[simp] theorem State.logRaw_scarfs (b : List Byte) : (s.logRaw b).scarfs = s.scarfs := rfl
@[simp] theorem State.logRaw_credits (b : List Byte) : (s.logRaw b).credits = s.credits := rfl
@[simp] theorem State.logRaw_boots (b : List Byte) : (s.logRaw b).boots = s.boots := rfl
@[simp] theorem State.logRaw_shares (b : List Byte) : (s.logRaw b).shares = s.shares := rfl
@[simp] theorem State.logRaw_heldTiles (b : List Byte) : (s.logRaw b).heldTiles = s.heldTiles := rfl
@[simp] theorem State.logRaw_returns (b : List Byte) : (s.logRaw b).returns = s.returns := rfl
@[simp] theorem State.logRaw_raising (b : List Byte) : (s.logRaw b).raising = s.raising := rfl
@[simp] theorem State.logRaw_kports (b : List Byte) : (s.logRaw b).kports = s.kports := rfl
@[simp] theorem State.logRaw_stop (b : List Byte) : (s.logRaw b).stop = s.stop := rfl
@[simp] theorem State.logRaw_lg (b : List Byte) : (s.logRaw b).lg = s.lg := rfl
@[simp] theorem State.logRaw_draining (b : List Byte) : (s.logRaw b).draining = s.draining := rfl
@[simp] theorem State.logRaw_own (b : List Byte) : (s.logRaw b).own = s.own := rfl
@[simp] theorem State.logRaw_active (b : List Byte) : (s.logRaw b).active = s.active := rfl
@[simp] theorem State.logRaw_shadow (b : List Byte) : (s.logRaw b).shadow = s.shadow := rfl
@[simp] theorem State.logRaw_irqStatus (b : List Byte) : (s.logRaw b).irqStatus = s.irqStatus ||| BitVec.ofNat 9 (2 ^ 6) := rfl
@[simp] theorem State.logRaw_irqEnable (b : List Byte) : (s.logRaw b).irqEnable = s.irqEnable := rfl
@[simp] theorem State.logRaw_frz (b : List Byte) : (s.logRaw b).frz = s.frz := rfl
@[simp] theorem State.logRaw_ctr (b : List Byte) : (s.logRaw b).ctr = s.ctr := rfl
@[simp] theorem State.logRaw_log (b : List Byte) : (s.logRaw b).log = s.log.put b := rfl
@[simp] theorem State.logRaw_jtag (b : List Byte) : (s.logRaw b).jtag = s.jtag := rfl
@[simp] theorem State.logRaw_free (b : List Byte) : (s.logRaw b).free = s.free := rfl
@[simp] theorem State.logRaw_pending (b : List Byte) : (s.logRaw b).pending = s.pending := rfl

/-! ### respond -/

@[simp] theorem State.respond_params (m : Fin 4) (code : Nat) (data : Word) : (s.respond m code data).params = s.params := rfl
@[simp] theorem State.respond_clk (m : Fin 4) (code : Nat) (data : Word) : (s.respond m code data).clk = s.clk := rfl
@[simp] theorem State.respond_pins (m : Fin 4) (code : Nat) (data : Word) : (s.respond m code data).pins = s.pins := rfl
@[simp] theorem State.respond_image (m : Fin 4) (code : Nat) (data : Word) : (s.respond m code data).image = s.image := rfl
@[simp] theorem State.respond_visible (m : Fin 4) (code : Nat) (data : Word) : (s.respond m code data).visible = s.visible := rfl
@[simp] theorem State.respond_curveDigest (m : Fin 4) (code : Nat) (data : Word) : (s.respond m code data).curveDigest = s.curveDigest := rfl
@[simp] theorem State.respond_nv (m : Fin 4) (code : Nat) (data : Word) : (s.respond m code data).nv = s.nv := rfl
@[simp] theorem State.respond_bays (m : Fin 4) (code : Nat) (data : Word) : (s.respond m code data).bays = s.bays := rfl
@[simp] theorem State.respond_chans (m : Fin 4) (code : Nat) (data : Word) : (s.respond m code data).chans = s.chans := rfl
@[simp] theorem State.respond_nextSeq (m : Fin 4) (code : Nat) (data : Word) : (s.respond m code data).nextSeq = s.nextSeq := rfl
@[simp] theorem State.respond_eligNext (m : Fin 4) (code : Nat) (data : Word) : (s.respond m code data).eligNext = s.eligNext := rfl
@[simp] theorem State.respond_sched (m : Fin 4) (code : Nat) (data : Word) : (s.respond m code data).sched = s.sched := rfl
@[simp] theorem State.respond_port (m : Fin 4) (code : Nat) (data : Word) : (s.respond m code data).port = s.port := rfl
@[simp] theorem State.respond_sent (m : Fin 4) (code : Nat) (data : Word) : (s.respond m code data).sent = s.sent := rfl
@[simp] theorem State.respond_nvOut (m : Fin 4) (code : Nat) (data : Word) : (s.respond m code data).nvOut = s.nvOut := rfl
@[simp] theorem State.respond_heldOff (m : Fin 4) (code : Nat) (data : Word) : (s.respond m code data).heldOff = s.heldOff := rfl
@[simp] theorem State.respond_net (m : Fin 4) (code : Nat) (data : Word) : (s.respond m code data).net = s.net := rfl
@[simp] theorem State.respond_inbox (m : Fin 4) (code : Nat) (data : Word) : (s.respond m code data).inbox = s.inbox := rfl
@[simp] theorem State.respond_mg (m : Fin 4) (code : Nat) (data : Word) : (s.respond m code data).mg = s.mg ++ [{ master := m, code := code, data := data }] := rfl
@[simp] theorem State.respond_mgHigh (m : Fin 4) (code : Nat) (data : Word) : (s.respond m code data).mgHigh = s.mgHigh := rfl
@[simp] theorem State.respond_mgLow (m : Fin 4) (code : Nat) (data : Word) : (s.respond m code data).mgLow = s.mgLow := rfl
@[simp] theorem State.respond_offcut (m : Fin 4) (code : Nat) (data : Word) : (s.respond m code data).offcut = s.offcut := rfl
@[simp] theorem State.respond_offcutUse (m : Fin 4) (code : Nat) (data : Word) : (s.respond m code data).offcutUse = s.offcutUse := rfl
@[simp] theorem State.respond_ringKept (m : Fin 4) (code : Nat) (data : Word) : (s.respond m code data).ringKept = s.ringKept := rfl
@[simp] theorem State.respond_scarfs (m : Fin 4) (code : Nat) (data : Word) : (s.respond m code data).scarfs = s.scarfs := rfl
@[simp] theorem State.respond_credits (m : Fin 4) (code : Nat) (data : Word) : (s.respond m code data).credits = s.credits := rfl
@[simp] theorem State.respond_boots (m : Fin 4) (code : Nat) (data : Word) : (s.respond m code data).boots = s.boots := rfl
@[simp] theorem State.respond_shares (m : Fin 4) (code : Nat) (data : Word) : (s.respond m code data).shares = s.shares := rfl
@[simp] theorem State.respond_heldTiles (m : Fin 4) (code : Nat) (data : Word) : (s.respond m code data).heldTiles = s.heldTiles := rfl
@[simp] theorem State.respond_returns (m : Fin 4) (code : Nat) (data : Word) : (s.respond m code data).returns = s.returns := rfl
@[simp] theorem State.respond_raising (m : Fin 4) (code : Nat) (data : Word) : (s.respond m code data).raising = s.raising := rfl
@[simp] theorem State.respond_kports (m : Fin 4) (code : Nat) (data : Word) : (s.respond m code data).kports = s.kports := rfl
@[simp] theorem State.respond_stop (m : Fin 4) (code : Nat) (data : Word) : (s.respond m code data).stop = s.stop := rfl
@[simp] theorem State.respond_lg (m : Fin 4) (code : Nat) (data : Word) : (s.respond m code data).lg = s.lg := rfl
@[simp] theorem State.respond_draining (m : Fin 4) (code : Nat) (data : Word) : (s.respond m code data).draining = s.draining := rfl
@[simp] theorem State.respond_own (m : Fin 4) (code : Nat) (data : Word) : (s.respond m code data).own = s.own := rfl
@[simp] theorem State.respond_active (m : Fin 4) (code : Nat) (data : Word) : (s.respond m code data).active = s.active := rfl
@[simp] theorem State.respond_shadow (m : Fin 4) (code : Nat) (data : Word) : (s.respond m code data).shadow = s.shadow := rfl
@[simp] theorem State.respond_irqStatus (m : Fin 4) (code : Nat) (data : Word) : (s.respond m code data).irqStatus = s.irqStatus := rfl
@[simp] theorem State.respond_irqEnable (m : Fin 4) (code : Nat) (data : Word) : (s.respond m code data).irqEnable = s.irqEnable := rfl
@[simp] theorem State.respond_frz (m : Fin 4) (code : Nat) (data : Word) : (s.respond m code data).frz = s.frz := rfl
@[simp] theorem State.respond_ctr (m : Fin 4) (code : Nat) (data : Word) : (s.respond m code data).ctr = s.ctr := rfl
@[simp] theorem State.respond_log (m : Fin 4) (code : Nat) (data : Word) : (s.respond m code data).log = s.log := rfl
@[simp] theorem State.respond_jtag (m : Fin 4) (code : Nat) (data : Word) : (s.respond m code data).jtag = s.jtag := rfl
@[simp] theorem State.respond_free (m : Fin 4) (code : Nat) (data : Word) : (s.respond m code data).free = s.free := rfl
@[simp] theorem State.respond_pending (m : Fin 4) (code : Nat) (data : Word) : (s.respond m code data).pending = s.pending := rfl

/-! ### send -/

@[simp] theorem State.send_params (dst : Nat) (b : List Byte) : (s.send dst b).params = s.params := rfl
@[simp] theorem State.send_clk (dst : Nat) (b : List Byte) : (s.send dst b).clk = s.clk := rfl
@[simp] theorem State.send_pins (dst : Nat) (b : List Byte) : (s.send dst b).pins = s.pins := rfl
@[simp] theorem State.send_image (dst : Nat) (b : List Byte) : (s.send dst b).image = s.image := rfl
@[simp] theorem State.send_visible (dst : Nat) (b : List Byte) : (s.send dst b).visible = s.visible := rfl
@[simp] theorem State.send_curveDigest (dst : Nat) (b : List Byte) : (s.send dst b).curveDigest = s.curveDigest := rfl
@[simp] theorem State.send_nv (dst : Nat) (b : List Byte) : (s.send dst b).nv = s.nv := rfl
@[simp] theorem State.send_bays (dst : Nat) (b : List Byte) : (s.send dst b).bays = s.bays := rfl
@[simp] theorem State.send_chans (dst : Nat) (b : List Byte) : (s.send dst b).chans = s.chans := rfl
@[simp] theorem State.send_nextSeq (dst : Nat) (b : List Byte) : (s.send dst b).nextSeq = s.nextSeq := rfl
@[simp] theorem State.send_eligNext (dst : Nat) (b : List Byte) : (s.send dst b).eligNext = s.eligNext := rfl
@[simp] theorem State.send_sched (dst : Nat) (b : List Byte) : (s.send dst b).sched = s.sched := rfl
@[simp] theorem State.send_port (dst : Nat) (b : List Byte) : (s.send dst b).port = s.port := rfl
@[simp] theorem State.send_sent (dst : Nat) (b : List Byte) : (s.send dst b).sent = s.sent ++ [(dst, b)] := rfl
@[simp] theorem State.send_nvOut (dst : Nat) (b : List Byte) : (s.send dst b).nvOut = s.nvOut := rfl
@[simp] theorem State.send_heldOff (dst : Nat) (b : List Byte) : (s.send dst b).heldOff = s.heldOff := rfl
@[simp] theorem State.send_net (dst : Nat) (b : List Byte) : (s.send dst b).net = s.net := rfl
@[simp] theorem State.send_inbox (dst : Nat) (b : List Byte) : (s.send dst b).inbox = s.inbox := rfl
@[simp] theorem State.send_mg (dst : Nat) (b : List Byte) : (s.send dst b).mg = s.mg := rfl
@[simp] theorem State.send_mgHigh (dst : Nat) (b : List Byte) : (s.send dst b).mgHigh = s.mgHigh := rfl
@[simp] theorem State.send_mgLow (dst : Nat) (b : List Byte) : (s.send dst b).mgLow = s.mgLow := rfl
@[simp] theorem State.send_offcut (dst : Nat) (b : List Byte) : (s.send dst b).offcut = s.offcut := rfl
@[simp] theorem State.send_offcutUse (dst : Nat) (b : List Byte) : (s.send dst b).offcutUse = s.offcutUse := rfl
@[simp] theorem State.send_ringKept (dst : Nat) (b : List Byte) : (s.send dst b).ringKept = s.ringKept := rfl
@[simp] theorem State.send_scarfs (dst : Nat) (b : List Byte) : (s.send dst b).scarfs = s.scarfs := rfl
@[simp] theorem State.send_credits (dst : Nat) (b : List Byte) : (s.send dst b).credits = s.credits := rfl
@[simp] theorem State.send_boots (dst : Nat) (b : List Byte) : (s.send dst b).boots = s.boots := rfl
@[simp] theorem State.send_shares (dst : Nat) (b : List Byte) : (s.send dst b).shares = s.shares := rfl
@[simp] theorem State.send_heldTiles (dst : Nat) (b : List Byte) : (s.send dst b).heldTiles = s.heldTiles := rfl
@[simp] theorem State.send_returns (dst : Nat) (b : List Byte) : (s.send dst b).returns = s.returns := rfl
@[simp] theorem State.send_raising (dst : Nat) (b : List Byte) : (s.send dst b).raising = s.raising := rfl
@[simp] theorem State.send_kports (dst : Nat) (b : List Byte) : (s.send dst b).kports = s.kports := rfl
@[simp] theorem State.send_stop (dst : Nat) (b : List Byte) : (s.send dst b).stop = s.stop := rfl
@[simp] theorem State.send_lg (dst : Nat) (b : List Byte) : (s.send dst b).lg = s.lg := rfl
@[simp] theorem State.send_draining (dst : Nat) (b : List Byte) : (s.send dst b).draining = s.draining := rfl
@[simp] theorem State.send_own (dst : Nat) (b : List Byte) : (s.send dst b).own = s.own := rfl
@[simp] theorem State.send_active (dst : Nat) (b : List Byte) : (s.send dst b).active = s.active := rfl
@[simp] theorem State.send_shadow (dst : Nat) (b : List Byte) : (s.send dst b).shadow = s.shadow := rfl
@[simp] theorem State.send_irqStatus (dst : Nat) (b : List Byte) : (s.send dst b).irqStatus = s.irqStatus := rfl
@[simp] theorem State.send_irqEnable (dst : Nat) (b : List Byte) : (s.send dst b).irqEnable = s.irqEnable := rfl
@[simp] theorem State.send_frz (dst : Nat) (b : List Byte) : (s.send dst b).frz = s.frz := rfl
@[simp] theorem State.send_ctr (dst : Nat) (b : List Byte) : (s.send dst b).ctr = s.ctr := rfl
@[simp] theorem State.send_log (dst : Nat) (b : List Byte) : (s.send dst b).log = s.log := rfl
@[simp] theorem State.send_jtag (dst : Nat) (b : List Byte) : (s.send dst b).jtag = s.jtag := rfl
@[simp] theorem State.send_free (dst : Nat) (b : List Byte) : (s.send dst b).free = s.free := rfl
@[simp] theorem State.send_pending (dst : Nat) (b : List Byte) : (s.send dst b).pending = s.pending := rfl

/-! ### countUE -/

@[simp] theorem State.countUE_params : s.countUE.params = s.params := rfl
@[simp] theorem State.countUE_clk : s.countUE.clk = s.clk := rfl
@[simp] theorem State.countUE_pins : s.countUE.pins = s.pins := rfl
@[simp] theorem State.countUE_image : s.countUE.image = s.image := rfl
@[simp] theorem State.countUE_visible : s.countUE.visible = s.visible := rfl
@[simp] theorem State.countUE_curveDigest : s.countUE.curveDigest = s.curveDigest := rfl
@[simp] theorem State.countUE_nv : s.countUE.nv = s.nv := rfl
@[simp] theorem State.countUE_bays : s.countUE.bays = s.bays := rfl
@[simp] theorem State.countUE_chans : s.countUE.chans = s.chans := rfl
@[simp] theorem State.countUE_nextSeq : s.countUE.nextSeq = s.nextSeq := rfl
@[simp] theorem State.countUE_eligNext : s.countUE.eligNext = s.eligNext := rfl
@[simp] theorem State.countUE_sched : s.countUE.sched = s.sched := rfl
@[simp] theorem State.countUE_port : s.countUE.port = s.port := rfl
@[simp] theorem State.countUE_sent : s.countUE.sent = s.sent := rfl
@[simp] theorem State.countUE_nvOut : s.countUE.nvOut = s.nvOut := rfl
@[simp] theorem State.countUE_heldOff : s.countUE.heldOff = s.heldOff := rfl
@[simp] theorem State.countUE_net : s.countUE.net = s.net := rfl
@[simp] theorem State.countUE_inbox : s.countUE.inbox = s.inbox := rfl
@[simp] theorem State.countUE_mg : s.countUE.mg = s.mg := rfl
@[simp] theorem State.countUE_mgHigh : s.countUE.mgHigh = s.mgHigh := rfl
@[simp] theorem State.countUE_mgLow : s.countUE.mgLow = s.mgLow := rfl
@[simp] theorem State.countUE_offcut : s.countUE.offcut = s.offcut := rfl
@[simp] theorem State.countUE_offcutUse : s.countUE.offcutUse = s.offcutUse := rfl
@[simp] theorem State.countUE_ringKept : s.countUE.ringKept = s.ringKept := rfl
@[simp] theorem State.countUE_scarfs : s.countUE.scarfs = s.scarfs := rfl
@[simp] theorem State.countUE_credits : s.countUE.credits = s.credits := rfl
@[simp] theorem State.countUE_boots : s.countUE.boots = s.boots := rfl
@[simp] theorem State.countUE_shares : s.countUE.shares = s.shares := rfl
@[simp] theorem State.countUE_heldTiles : s.countUE.heldTiles = s.heldTiles := rfl
@[simp] theorem State.countUE_returns : s.countUE.returns = s.returns := rfl
@[simp] theorem State.countUE_raising : s.countUE.raising = s.raising := rfl
@[simp] theorem State.countUE_kports : s.countUE.kports = s.kports := rfl
@[simp] theorem State.countUE_stop : s.countUE.stop = s.stop := rfl
@[simp] theorem State.countUE_lg : s.countUE.lg = s.lg := rfl
@[simp] theorem State.countUE_draining : s.countUE.draining = s.draining := rfl
@[simp] theorem State.countUE_own : s.countUE.own = s.own := rfl
@[simp] theorem State.countUE_active : s.countUE.active = s.active := rfl
@[simp] theorem State.countUE_shadow : s.countUE.shadow = s.shadow := rfl
@[simp] theorem State.countUE_irqStatus : s.countUE.irqStatus = s.irqStatus := rfl
@[simp] theorem State.countUE_irqEnable : s.countUE.irqEnable = s.irqEnable := rfl
@[simp] theorem State.countUE_frz : s.countUE.frz = s.frz := rfl
@[simp] theorem State.countUE_ctr : s.countUE.ctr = { s.ctr with eccUe := s.ctr.eccUe + 1 } := rfl
@[simp] theorem State.countUE_log : s.countUE.log = s.log := rfl
@[simp] theorem State.countUE_jtag : s.countUE.jtag = s.jtag := rfl
@[simp] theorem State.countUE_free : s.countUE.free = s.free := rfl
@[simp] theorem State.countUE_pending : s.countUE.pending = s.pending := rfl

/-! ### hold -/

@[simp] theorem State.hold_params (c : Fin 16) (p : Package) : (s.hold c p).params = s.params := rfl
@[simp] theorem State.hold_clk (c : Fin 16) (p : Package) : (s.hold c p).clk = s.clk := rfl
@[simp] theorem State.hold_pins (c : Fin 16) (p : Package) : (s.hold c p).pins = s.pins := rfl
@[simp] theorem State.hold_image (c : Fin 16) (p : Package) : (s.hold c p).image = s.image := rfl
@[simp] theorem State.hold_visible (c : Fin 16) (p : Package) : (s.hold c p).visible = s.visible := rfl
@[simp] theorem State.hold_curveDigest (c : Fin 16) (p : Package) : (s.hold c p).curveDigest = s.curveDigest := rfl
@[simp] theorem State.hold_nv (c : Fin 16) (p : Package) : (s.hold c p).nv = s.nv := rfl
@[simp] theorem State.hold_bays (c : Fin 16) (p : Package) : (s.hold c p).bays = s.bays := rfl
@[simp] theorem State.hold_chans (c : Fin 16) (p : Package) : (s.hold c p).chans = s.chans.set c { s.chans[c] with held := s.chans[c].held ++ [p] } := rfl
@[simp] theorem State.hold_nextSeq (c : Fin 16) (p : Package) : (s.hold c p).nextSeq = s.nextSeq := rfl
@[simp] theorem State.hold_eligNext (c : Fin 16) (p : Package) : (s.hold c p).eligNext = s.eligNext := rfl
@[simp] theorem State.hold_sched (c : Fin 16) (p : Package) : (s.hold c p).sched = s.sched := rfl
@[simp] theorem State.hold_port (c : Fin 16) (p : Package) : (s.hold c p).port = s.port := rfl
@[simp] theorem State.hold_sent (c : Fin 16) (p : Package) : (s.hold c p).sent = s.sent := rfl
@[simp] theorem State.hold_nvOut (c : Fin 16) (p : Package) : (s.hold c p).nvOut = s.nvOut := rfl
@[simp] theorem State.hold_heldOff (c : Fin 16) (p : Package) : (s.hold c p).heldOff = s.heldOff := rfl
@[simp] theorem State.hold_net (c : Fin 16) (p : Package) : (s.hold c p).net = s.net := rfl
@[simp] theorem State.hold_inbox (c : Fin 16) (p : Package) : (s.hold c p).inbox = s.inbox := rfl
@[simp] theorem State.hold_mg (c : Fin 16) (p : Package) : (s.hold c p).mg = s.mg := rfl
@[simp] theorem State.hold_mgHigh (c : Fin 16) (p : Package) : (s.hold c p).mgHigh = s.mgHigh := rfl
@[simp] theorem State.hold_mgLow (c : Fin 16) (p : Package) : (s.hold c p).mgLow = s.mgLow := rfl
@[simp] theorem State.hold_offcut (c : Fin 16) (p : Package) : (s.hold c p).offcut = s.offcut := rfl
@[simp] theorem State.hold_offcutUse (c : Fin 16) (p : Package) : (s.hold c p).offcutUse = s.offcutUse := rfl
@[simp] theorem State.hold_ringKept (c : Fin 16) (p : Package) : (s.hold c p).ringKept = s.ringKept := rfl
@[simp] theorem State.hold_scarfs (c : Fin 16) (p : Package) : (s.hold c p).scarfs = s.scarfs := rfl
@[simp] theorem State.hold_credits (c : Fin 16) (p : Package) : (s.hold c p).credits = s.credits := rfl
@[simp] theorem State.hold_boots (c : Fin 16) (p : Package) : (s.hold c p).boots = s.boots := rfl
@[simp] theorem State.hold_shares (c : Fin 16) (p : Package) : (s.hold c p).shares = s.shares := rfl
@[simp] theorem State.hold_heldTiles (c : Fin 16) (p : Package) : (s.hold c p).heldTiles = s.heldTiles := rfl
@[simp] theorem State.hold_returns (c : Fin 16) (p : Package) : (s.hold c p).returns = s.returns := rfl
@[simp] theorem State.hold_raising (c : Fin 16) (p : Package) : (s.hold c p).raising = s.raising := rfl
@[simp] theorem State.hold_kports (c : Fin 16) (p : Package) : (s.hold c p).kports = s.kports := rfl
@[simp] theorem State.hold_stop (c : Fin 16) (p : Package) : (s.hold c p).stop = s.stop := rfl
@[simp] theorem State.hold_lg (c : Fin 16) (p : Package) : (s.hold c p).lg = s.lg := rfl
@[simp] theorem State.hold_draining (c : Fin 16) (p : Package) : (s.hold c p).draining = s.draining := rfl
@[simp] theorem State.hold_own (c : Fin 16) (p : Package) : (s.hold c p).own = s.own := rfl
@[simp] theorem State.hold_active (c : Fin 16) (p : Package) : (s.hold c p).active = s.active := rfl
@[simp] theorem State.hold_shadow (c : Fin 16) (p : Package) : (s.hold c p).shadow = s.shadow := rfl
@[simp] theorem State.hold_irqStatus (c : Fin 16) (p : Package) : (s.hold c p).irqStatus = s.irqStatus := rfl
@[simp] theorem State.hold_irqEnable (c : Fin 16) (p : Package) : (s.hold c p).irqEnable = s.irqEnable := rfl
@[simp] theorem State.hold_frz (c : Fin 16) (p : Package) : (s.hold c p).frz = s.frz := rfl
@[simp] theorem State.hold_ctr (c : Fin 16) (p : Package) : (s.hold c p).ctr = s.ctr := rfl
@[simp] theorem State.hold_log (c : Fin 16) (p : Package) : (s.hold c p).log = s.log := rfl
@[simp] theorem State.hold_jtag (c : Fin 16) (p : Package) : (s.hold c p).jtag = s.jtag := rfl
@[simp] theorem State.hold_free (c : Fin 16) (p : Package) : (s.hold c p).free = s.free := rfl
@[simp] theorem State.hold_pending (c : Fin 16) (p : Package) : (s.hold c p).pending = s.pending := rfl

/-! ### toPhase -/

@[simp] theorem State.toPhase_params (n : Nat) : (s.toPhase n).params = s.params := rfl
@[simp] theorem State.toPhase_clk (n : Nat) : (s.toPhase n).clk = s.clk := rfl
@[simp] theorem State.toPhase_pins (n : Nat) : (s.toPhase n).pins = s.pins := rfl
@[simp] theorem State.toPhase_image (n : Nat) : (s.toPhase n).image = s.image := rfl
@[simp] theorem State.toPhase_visible (n : Nat) : (s.toPhase n).visible = s.visible := rfl
@[simp] theorem State.toPhase_curveDigest (n : Nat) : (s.toPhase n).curveDigest = s.curveDigest := rfl
@[simp] theorem State.toPhase_nv (n : Nat) : (s.toPhase n).nv = { s.nv with phase := n, phaseStart := s.clk.edges } := rfl
@[simp] theorem State.toPhase_bays (n : Nat) : (s.toPhase n).bays = s.bays := rfl
@[simp] theorem State.toPhase_chans (n : Nat) : (s.toPhase n).chans = s.chans := rfl
@[simp] theorem State.toPhase_nextSeq (n : Nat) : (s.toPhase n).nextSeq = s.nextSeq := rfl
@[simp] theorem State.toPhase_eligNext (n : Nat) : (s.toPhase n).eligNext = s.eligNext := rfl
@[simp] theorem State.toPhase_sched (n : Nat) : (s.toPhase n).sched = s.sched := rfl
@[simp] theorem State.toPhase_port (n : Nat) : (s.toPhase n).port = s.port := rfl
@[simp] theorem State.toPhase_sent (n : Nat) : (s.toPhase n).sent = s.sent := rfl
@[simp] theorem State.toPhase_nvOut (n : Nat) : (s.toPhase n).nvOut = s.nvOut := rfl
@[simp] theorem State.toPhase_heldOff (n : Nat) : (s.toPhase n).heldOff = s.heldOff := rfl
@[simp] theorem State.toPhase_net (n : Nat) : (s.toPhase n).net = s.net := rfl
@[simp] theorem State.toPhase_inbox (n : Nat) : (s.toPhase n).inbox = s.inbox := rfl
@[simp] theorem State.toPhase_mg (n : Nat) : (s.toPhase n).mg = s.mg := rfl
@[simp] theorem State.toPhase_mgHigh (n : Nat) : (s.toPhase n).mgHigh = s.mgHigh := rfl
@[simp] theorem State.toPhase_mgLow (n : Nat) : (s.toPhase n).mgLow = s.mgLow := rfl
@[simp] theorem State.toPhase_offcut (n : Nat) : (s.toPhase n).offcut = s.offcut := rfl
@[simp] theorem State.toPhase_offcutUse (n : Nat) : (s.toPhase n).offcutUse = s.offcutUse := rfl
@[simp] theorem State.toPhase_ringKept (n : Nat) : (s.toPhase n).ringKept = s.ringKept := rfl
@[simp] theorem State.toPhase_scarfs (n : Nat) : (s.toPhase n).scarfs = s.scarfs := rfl
@[simp] theorem State.toPhase_credits (n : Nat) : (s.toPhase n).credits = s.credits := rfl
@[simp] theorem State.toPhase_boots (n : Nat) : (s.toPhase n).boots = s.boots := rfl
@[simp] theorem State.toPhase_shares (n : Nat) : (s.toPhase n).shares = s.shares := rfl
@[simp] theorem State.toPhase_heldTiles (n : Nat) : (s.toPhase n).heldTiles = s.heldTiles := rfl
@[simp] theorem State.toPhase_returns (n : Nat) : (s.toPhase n).returns = s.returns := rfl
@[simp] theorem State.toPhase_raising (n : Nat) : (s.toPhase n).raising = s.raising := rfl
@[simp] theorem State.toPhase_kports (n : Nat) : (s.toPhase n).kports = s.kports := rfl
@[simp] theorem State.toPhase_stop (n : Nat) : (s.toPhase n).stop = s.stop := rfl
@[simp] theorem State.toPhase_lg (n : Nat) : (s.toPhase n).lg = s.lg := rfl
@[simp] theorem State.toPhase_draining (n : Nat) : (s.toPhase n).draining = s.draining := rfl
@[simp] theorem State.toPhase_own (n : Nat) : (s.toPhase n).own = s.own := rfl
@[simp] theorem State.toPhase_active (n : Nat) : (s.toPhase n).active = s.active := rfl
@[simp] theorem State.toPhase_shadow (n : Nat) : (s.toPhase n).shadow = s.shadow := rfl
@[simp] theorem State.toPhase_irqStatus (n : Nat) : (s.toPhase n).irqStatus = s.irqStatus := rfl
@[simp] theorem State.toPhase_irqEnable (n : Nat) : (s.toPhase n).irqEnable = s.irqEnable := rfl
@[simp] theorem State.toPhase_frz (n : Nat) : (s.toPhase n).frz = s.frz := rfl
@[simp] theorem State.toPhase_ctr (n : Nat) : (s.toPhase n).ctr = s.ctr := rfl
@[simp] theorem State.toPhase_log (n : Nat) : (s.toPhase n).log = s.log := rfl
@[simp] theorem State.toPhase_jtag (n : Nat) : (s.toPhase n).jtag = s.jtag := rfl
@[simp] theorem State.toPhase_free (n : Nat) : (s.toPhase n).free = s.free := rfl
@[simp] theorem State.toPhase_pending (n : Nat) : (s.toPhase n).pending = s.pending := rfl

/-! ### testInstr -/

@[simp] theorem State.testInstr_params (ir : BitVec 6) (dr : Word) (scan : Bool) : (s.testInstr ir dr scan).params = s.params := rfl
@[simp] theorem State.testInstr_clk (ir : BitVec 6) (dr : Word) (scan : Bool) : (s.testInstr ir dr scan).clk = s.clk := rfl
@[simp] theorem State.testInstr_pins (ir : BitVec 6) (dr : Word) (scan : Bool) : (s.testInstr ir dr scan).pins = s.pins := rfl
@[simp] theorem State.testInstr_image (ir : BitVec 6) (dr : Word) (scan : Bool) : (s.testInstr ir dr scan).image = s.image := rfl
@[simp] theorem State.testInstr_visible (ir : BitVec 6) (dr : Word) (scan : Bool) : (s.testInstr ir dr scan).visible = s.visible := rfl
@[simp] theorem State.testInstr_curveDigest (ir : BitVec 6) (dr : Word) (scan : Bool) : (s.testInstr ir dr scan).curveDigest = s.curveDigest := rfl
@[simp] theorem State.testInstr_nv (ir : BitVec 6) (dr : Word) (scan : Bool) : (s.testInstr ir dr scan).nv = s.nv := rfl
@[simp] theorem State.testInstr_bays (ir : BitVec 6) (dr : Word) (scan : Bool) : (s.testInstr ir dr scan).bays = s.bays := rfl
@[simp] theorem State.testInstr_chans (ir : BitVec 6) (dr : Word) (scan : Bool) : (s.testInstr ir dr scan).chans = s.chans := rfl
@[simp] theorem State.testInstr_nextSeq (ir : BitVec 6) (dr : Word) (scan : Bool) : (s.testInstr ir dr scan).nextSeq = s.nextSeq := rfl
@[simp] theorem State.testInstr_eligNext (ir : BitVec 6) (dr : Word) (scan : Bool) : (s.testInstr ir dr scan).eligNext = s.eligNext := rfl
@[simp] theorem State.testInstr_sched (ir : BitVec 6) (dr : Word) (scan : Bool) : (s.testInstr ir dr scan).sched = s.sched := rfl
@[simp] theorem State.testInstr_port (ir : BitVec 6) (dr : Word) (scan : Bool) : (s.testInstr ir dr scan).port = s.port := rfl
@[simp] theorem State.testInstr_sent (ir : BitVec 6) (dr : Word) (scan : Bool) : (s.testInstr ir dr scan).sent = s.sent := rfl
@[simp] theorem State.testInstr_nvOut (ir : BitVec 6) (dr : Word) (scan : Bool) : (s.testInstr ir dr scan).nvOut = s.nvOut := rfl
@[simp] theorem State.testInstr_heldOff (ir : BitVec 6) (dr : Word) (scan : Bool) : (s.testInstr ir dr scan).heldOff = s.heldOff := rfl
@[simp] theorem State.testInstr_net (ir : BitVec 6) (dr : Word) (scan : Bool) : (s.testInstr ir dr scan).net = s.net := rfl
@[simp] theorem State.testInstr_inbox (ir : BitVec 6) (dr : Word) (scan : Bool) : (s.testInstr ir dr scan).inbox = s.inbox := rfl
@[simp] theorem State.testInstr_mg (ir : BitVec 6) (dr : Word) (scan : Bool) : (s.testInstr ir dr scan).mg = s.mg := rfl
@[simp] theorem State.testInstr_mgHigh (ir : BitVec 6) (dr : Word) (scan : Bool) : (s.testInstr ir dr scan).mgHigh = s.mgHigh := rfl
@[simp] theorem State.testInstr_mgLow (ir : BitVec 6) (dr : Word) (scan : Bool) : (s.testInstr ir dr scan).mgLow = s.mgLow := rfl
@[simp] theorem State.testInstr_offcut (ir : BitVec 6) (dr : Word) (scan : Bool) : (s.testInstr ir dr scan).offcut = s.offcut := rfl
@[simp] theorem State.testInstr_offcutUse (ir : BitVec 6) (dr : Word) (scan : Bool) : (s.testInstr ir dr scan).offcutUse = s.offcutUse := rfl
@[simp] theorem State.testInstr_ringKept (ir : BitVec 6) (dr : Word) (scan : Bool) : (s.testInstr ir dr scan).ringKept = s.ringKept := rfl
@[simp] theorem State.testInstr_scarfs (ir : BitVec 6) (dr : Word) (scan : Bool) : (s.testInstr ir dr scan).scarfs = s.scarfs := rfl
@[simp] theorem State.testInstr_credits (ir : BitVec 6) (dr : Word) (scan : Bool) : (s.testInstr ir dr scan).credits = s.credits := rfl
@[simp] theorem State.testInstr_boots (ir : BitVec 6) (dr : Word) (scan : Bool) : (s.testInstr ir dr scan).boots = s.boots := rfl
@[simp] theorem State.testInstr_shares (ir : BitVec 6) (dr : Word) (scan : Bool) : (s.testInstr ir dr scan).shares = s.shares := rfl
@[simp] theorem State.testInstr_heldTiles (ir : BitVec 6) (dr : Word) (scan : Bool) : (s.testInstr ir dr scan).heldTiles = s.heldTiles := rfl
@[simp] theorem State.testInstr_returns (ir : BitVec 6) (dr : Word) (scan : Bool) : (s.testInstr ir dr scan).returns = s.returns := rfl
@[simp] theorem State.testInstr_raising (ir : BitVec 6) (dr : Word) (scan : Bool) : (s.testInstr ir dr scan).raising = s.raising := rfl
@[simp] theorem State.testInstr_kports (ir : BitVec 6) (dr : Word) (scan : Bool) : (s.testInstr ir dr scan).kports = s.kports := rfl
@[simp] theorem State.testInstr_stop (ir : BitVec 6) (dr : Word) (scan : Bool) : (s.testInstr ir dr scan).stop = s.stop := rfl
@[simp] theorem State.testInstr_lg (ir : BitVec 6) (dr : Word) (scan : Bool) : (s.testInstr ir dr scan).lg = s.lg := rfl
@[simp] theorem State.testInstr_draining (ir : BitVec 6) (dr : Word) (scan : Bool) : (s.testInstr ir dr scan).draining = s.draining := rfl
@[simp] theorem State.testInstr_own (ir : BitVec 6) (dr : Word) (scan : Bool) : (s.testInstr ir dr scan).own = s.own := rfl
@[simp] theorem State.testInstr_active (ir : BitVec 6) (dr : Word) (scan : Bool) : (s.testInstr ir dr scan).active = s.active := rfl
@[simp] theorem State.testInstr_shadow (ir : BitVec 6) (dr : Word) (scan : Bool) : (s.testInstr ir dr scan).shadow = s.shadow := rfl
@[simp] theorem State.testInstr_irqStatus (ir : BitVec 6) (dr : Word) (scan : Bool) : (s.testInstr ir dr scan).irqStatus = s.irqStatus := rfl
@[simp] theorem State.testInstr_irqEnable (ir : BitVec 6) (dr : Word) (scan : Bool) : (s.testInstr ir dr scan).irqEnable = s.irqEnable := rfl
@[simp] theorem State.testInstr_frz (ir : BitVec 6) (dr : Word) (scan : Bool) : (s.testInstr ir dr scan).frz = s.frz := rfl
@[simp] theorem State.testInstr_ctr (ir : BitVec 6) (dr : Word) (scan : Bool) : (s.testInstr ir dr scan).ctr = s.ctr := rfl
@[simp] theorem State.testInstr_log (ir : BitVec 6) (dr : Word) (scan : Bool) : (s.testInstr ir dr scan).log = s.log := rfl
@[simp] theorem State.testInstr_jtag (ir : BitVec 6) (dr : Word) (scan : Bool) : (s.testInstr ir dr scan).jtag = { s.jtag with ir := ir, dr := dr, scan := scan } := rfl
@[simp] theorem State.testInstr_free (ir : BitVec 6) (dr : Word) (scan : Bool) : (s.testInstr ir dr scan).free = s.free := rfl
@[simp] theorem State.testInstr_pending (ir : BitVec 6) (dr : Word) (scan : Bool) : (s.testInstr ir dr scan).pending = s.pending := rfl

/-! ### taken -/

@[simp] theorem State.taken_params (e : Envelope) (b : List Byte) : (s.taken e b).params = s.params := rfl
@[simp] theorem State.taken_clk (e : Envelope) (b : List Byte) : (s.taken e b).clk = s.clk := rfl
@[simp] theorem State.taken_pins (e : Envelope) (b : List Byte) : (s.taken e b).pins = s.pins := rfl
@[simp] theorem State.taken_image (e : Envelope) (b : List Byte) : (s.taken e b).image = s.image := rfl
@[simp] theorem State.taken_visible (e : Envelope) (b : List Byte) : (s.taken e b).visible = s.visible := rfl
@[simp] theorem State.taken_curveDigest (e : Envelope) (b : List Byte) : (s.taken e b).curveDigest = s.curveDigest := rfl
@[simp] theorem State.taken_nv (e : Envelope) (b : List Byte) : (s.taken e b).nv = s.nv := rfl
@[simp] theorem State.taken_bays (e : Envelope) (b : List Byte) : (s.taken e b).bays = s.bays := rfl
@[simp] theorem State.taken_chans (e : Envelope) (b : List Byte) : (s.taken e b).chans = s.chans := rfl
@[simp] theorem State.taken_nextSeq (e : Envelope) (b : List Byte) : (s.taken e b).nextSeq = s.nextSeq := rfl
@[simp] theorem State.taken_eligNext (e : Envelope) (b : List Byte) : (s.taken e b).eligNext = s.eligNext := rfl
@[simp] theorem State.taken_sched (e : Envelope) (b : List Byte) : (s.taken e b).sched = s.sched := rfl
@[simp] theorem State.taken_port (e : Envelope) (b : List Byte) : (s.taken e b).port = s.port := rfl
@[simp] theorem State.taken_sent (e : Envelope) (b : List Byte) : (s.taken e b).sent = s.sent := rfl
@[simp] theorem State.taken_nvOut (e : Envelope) (b : List Byte) : (s.taken e b).nvOut = s.nvOut := rfl
@[simp] theorem State.taken_heldOff (e : Envelope) (b : List Byte) : (s.taken e b).heldOff = s.heldOff := rfl
@[simp] theorem State.taken_net (e : Envelope) (b : List Byte) : (s.taken e b).net = s.net := rfl
@[simp] theorem State.taken_inbox (e : Envelope) (b : List Byte) : (s.taken e b).inbox = s.inbox.erase (e, b) := rfl
@[simp] theorem State.taken_mg (e : Envelope) (b : List Byte) : (s.taken e b).mg = s.mg := rfl
@[simp] theorem State.taken_mgHigh (e : Envelope) (b : List Byte) : (s.taken e b).mgHigh = s.mgHigh := rfl
@[simp] theorem State.taken_mgLow (e : Envelope) (b : List Byte) : (s.taken e b).mgLow = s.mgLow := rfl
@[simp] theorem State.taken_offcut (e : Envelope) (b : List Byte) : (s.taken e b).offcut = s.offcut := rfl
@[simp] theorem State.taken_offcutUse (e : Envelope) (b : List Byte) : (s.taken e b).offcutUse = s.offcutUse := rfl
@[simp] theorem State.taken_ringKept (e : Envelope) (b : List Byte) : (s.taken e b).ringKept = s.ringKept := rfl
@[simp] theorem State.taken_scarfs (e : Envelope) (b : List Byte) : (s.taken e b).scarfs = s.scarfs := rfl
@[simp] theorem State.taken_credits (e : Envelope) (b : List Byte) : (s.taken e b).credits = s.credits := rfl
@[simp] theorem State.taken_boots (e : Envelope) (b : List Byte) : (s.taken e b).boots = s.boots := rfl
@[simp] theorem State.taken_shares (e : Envelope) (b : List Byte) : (s.taken e b).shares = s.shares := rfl
@[simp] theorem State.taken_heldTiles (e : Envelope) (b : List Byte) : (s.taken e b).heldTiles = s.heldTiles := rfl
@[simp] theorem State.taken_returns (e : Envelope) (b : List Byte) : (s.taken e b).returns = s.returns := rfl
@[simp] theorem State.taken_raising (e : Envelope) (b : List Byte) : (s.taken e b).raising = s.raising := rfl
@[simp] theorem State.taken_kports (e : Envelope) (b : List Byte) : (s.taken e b).kports = s.kports := rfl
@[simp] theorem State.taken_stop (e : Envelope) (b : List Byte) : (s.taken e b).stop = s.stop := rfl
@[simp] theorem State.taken_lg (e : Envelope) (b : List Byte) : (s.taken e b).lg = s.lg := rfl
@[simp] theorem State.taken_draining (e : Envelope) (b : List Byte) : (s.taken e b).draining = s.draining := rfl
@[simp] theorem State.taken_own (e : Envelope) (b : List Byte) : (s.taken e b).own = s.own := rfl
@[simp] theorem State.taken_active (e : Envelope) (b : List Byte) : (s.taken e b).active = s.active := rfl
@[simp] theorem State.taken_shadow (e : Envelope) (b : List Byte) : (s.taken e b).shadow = s.shadow := rfl
@[simp] theorem State.taken_irqStatus (e : Envelope) (b : List Byte) : (s.taken e b).irqStatus = s.irqStatus := rfl
@[simp] theorem State.taken_irqEnable (e : Envelope) (b : List Byte) : (s.taken e b).irqEnable = s.irqEnable := rfl
@[simp] theorem State.taken_frz (e : Envelope) (b : List Byte) : (s.taken e b).frz = s.frz := rfl
@[simp] theorem State.taken_ctr (e : Envelope) (b : List Byte) : (s.taken e b).ctr = s.ctr := rfl
@[simp] theorem State.taken_log (e : Envelope) (b : List Byte) : (s.taken e b).log = s.log := rfl
@[simp] theorem State.taken_jtag (e : Envelope) (b : List Byte) : (s.taken e b).jtag = s.jtag := rfl
@[simp] theorem State.taken_free (e : Envelope) (b : List Byte) : (s.taken e b).free = s.free := rfl
@[simp] theorem State.taken_pending (e : Envelope) (b : List Byte) : (s.taken e b).pending = s.pending := rfl

/-! ### holdLow -/

@[simp] theorem State.holdLow_params (m : Fin 4) (off : Nat) (v : Word) : (s.holdLow m off v).params = s.params := rfl
@[simp] theorem State.holdLow_clk (m : Fin 4) (off : Nat) (v : Word) : (s.holdLow m off v).clk = s.clk := rfl
@[simp] theorem State.holdLow_pins (m : Fin 4) (off : Nat) (v : Word) : (s.holdLow m off v).pins = s.pins := rfl
@[simp] theorem State.holdLow_image (m : Fin 4) (off : Nat) (v : Word) : (s.holdLow m off v).image = s.image := rfl
@[simp] theorem State.holdLow_visible (m : Fin 4) (off : Nat) (v : Word) : (s.holdLow m off v).visible = s.visible := rfl
@[simp] theorem State.holdLow_curveDigest (m : Fin 4) (off : Nat) (v : Word) : (s.holdLow m off v).curveDigest = s.curveDigest := rfl
@[simp] theorem State.holdLow_nv (m : Fin 4) (off : Nat) (v : Word) : (s.holdLow m off v).nv = s.nv := rfl
@[simp] theorem State.holdLow_bays (m : Fin 4) (off : Nat) (v : Word) : (s.holdLow m off v).bays = s.bays := rfl
@[simp] theorem State.holdLow_chans (m : Fin 4) (off : Nat) (v : Word) : (s.holdLow m off v).chans = s.chans := rfl
@[simp] theorem State.holdLow_nextSeq (m : Fin 4) (off : Nat) (v : Word) : (s.holdLow m off v).nextSeq = s.nextSeq := rfl
@[simp] theorem State.holdLow_eligNext (m : Fin 4) (off : Nat) (v : Word) : (s.holdLow m off v).eligNext = s.eligNext := rfl
@[simp] theorem State.holdLow_sched (m : Fin 4) (off : Nat) (v : Word) : (s.holdLow m off v).sched = s.sched := rfl
@[simp] theorem State.holdLow_port (m : Fin 4) (off : Nat) (v : Word) : (s.holdLow m off v).port = s.port := rfl
@[simp] theorem State.holdLow_sent (m : Fin 4) (off : Nat) (v : Word) : (s.holdLow m off v).sent = s.sent := rfl
@[simp] theorem State.holdLow_nvOut (m : Fin 4) (off : Nat) (v : Word) : (s.holdLow m off v).nvOut = s.nvOut := rfl
@[simp] theorem State.holdLow_heldOff (m : Fin 4) (off : Nat) (v : Word) : (s.holdLow m off v).heldOff = s.heldOff := rfl
@[simp] theorem State.holdLow_net (m : Fin 4) (off : Nat) (v : Word) : (s.holdLow m off v).net = s.net := rfl
@[simp] theorem State.holdLow_inbox (m : Fin 4) (off : Nat) (v : Word) : (s.holdLow m off v).inbox = s.inbox := rfl
@[simp] theorem State.holdLow_mg (m : Fin 4) (off : Nat) (v : Word) : (s.holdLow m off v).mg = s.mg ++ [{ master := m, code := 0, data := 0 }] := rfl
@[simp] theorem State.holdLow_mgHigh (m : Fin 4) (off : Nat) (v : Word) : (s.holdLow m off v).mgHigh = s.mgHigh := rfl
@[simp] theorem State.holdLow_mgLow (m : Fin 4) (off : Nat) (v : Word) : (s.holdLow m off v).mgLow = (m, off, v) :: s.mgLow.filter fun x => !(x.1 == m && x.2.1 == off) := rfl
@[simp] theorem State.holdLow_offcut (m : Fin 4) (off : Nat) (v : Word) : (s.holdLow m off v).offcut = s.offcut := rfl
@[simp] theorem State.holdLow_offcutUse (m : Fin 4) (off : Nat) (v : Word) : (s.holdLow m off v).offcutUse = s.offcutUse := rfl
@[simp] theorem State.holdLow_ringKept (m : Fin 4) (off : Nat) (v : Word) : (s.holdLow m off v).ringKept = s.ringKept := rfl
@[simp] theorem State.holdLow_scarfs (m : Fin 4) (off : Nat) (v : Word) : (s.holdLow m off v).scarfs = s.scarfs := rfl
@[simp] theorem State.holdLow_credits (m : Fin 4) (off : Nat) (v : Word) : (s.holdLow m off v).credits = s.credits := rfl
@[simp] theorem State.holdLow_boots (m : Fin 4) (off : Nat) (v : Word) : (s.holdLow m off v).boots = s.boots := rfl
@[simp] theorem State.holdLow_shares (m : Fin 4) (off : Nat) (v : Word) : (s.holdLow m off v).shares = s.shares := rfl
@[simp] theorem State.holdLow_heldTiles (m : Fin 4) (off : Nat) (v : Word) : (s.holdLow m off v).heldTiles = s.heldTiles := rfl
@[simp] theorem State.holdLow_returns (m : Fin 4) (off : Nat) (v : Word) : (s.holdLow m off v).returns = s.returns := rfl
@[simp] theorem State.holdLow_raising (m : Fin 4) (off : Nat) (v : Word) : (s.holdLow m off v).raising = s.raising := rfl
@[simp] theorem State.holdLow_kports (m : Fin 4) (off : Nat) (v : Word) : (s.holdLow m off v).kports = s.kports := rfl
@[simp] theorem State.holdLow_stop (m : Fin 4) (off : Nat) (v : Word) : (s.holdLow m off v).stop = s.stop := rfl
@[simp] theorem State.holdLow_lg (m : Fin 4) (off : Nat) (v : Word) : (s.holdLow m off v).lg = s.lg := rfl
@[simp] theorem State.holdLow_draining (m : Fin 4) (off : Nat) (v : Word) : (s.holdLow m off v).draining = s.draining := rfl
@[simp] theorem State.holdLow_own (m : Fin 4) (off : Nat) (v : Word) : (s.holdLow m off v).own = s.own := rfl
@[simp] theorem State.holdLow_active (m : Fin 4) (off : Nat) (v : Word) : (s.holdLow m off v).active = s.active := rfl
@[simp] theorem State.holdLow_shadow (m : Fin 4) (off : Nat) (v : Word) : (s.holdLow m off v).shadow = s.shadow := rfl
@[simp] theorem State.holdLow_irqStatus (m : Fin 4) (off : Nat) (v : Word) : (s.holdLow m off v).irqStatus = s.irqStatus := rfl
@[simp] theorem State.holdLow_irqEnable (m : Fin 4) (off : Nat) (v : Word) : (s.holdLow m off v).irqEnable = s.irqEnable := rfl
@[simp] theorem State.holdLow_frz (m : Fin 4) (off : Nat) (v : Word) : (s.holdLow m off v).frz = s.frz := rfl
@[simp] theorem State.holdLow_ctr (m : Fin 4) (off : Nat) (v : Word) : (s.holdLow m off v).ctr = s.ctr := rfl
@[simp] theorem State.holdLow_log (m : Fin 4) (off : Nat) (v : Word) : (s.holdLow m off v).log = s.log := rfl
@[simp] theorem State.holdLow_jtag (m : Fin 4) (off : Nat) (v : Word) : (s.holdLow m off v).jtag = s.jtag := rfl
@[simp] theorem State.holdLow_free (m : Fin 4) (off : Nat) (v : Word) : (s.holdLow m off v).free = s.free := rfl
@[simp] theorem State.holdLow_pending (m : Fin 4) (off : Nat) (v : Word) : (s.holdLow m off v).pending = s.pending := rfl

/-! ### dropLow -/

@[simp] theorem State.dropLow_params (m : Fin 4) (off : Nat) : (s.dropLow m off).params = s.params := rfl
@[simp] theorem State.dropLow_clk (m : Fin 4) (off : Nat) : (s.dropLow m off).clk = s.clk := rfl
@[simp] theorem State.dropLow_pins (m : Fin 4) (off : Nat) : (s.dropLow m off).pins = s.pins := rfl
@[simp] theorem State.dropLow_image (m : Fin 4) (off : Nat) : (s.dropLow m off).image = s.image := rfl
@[simp] theorem State.dropLow_visible (m : Fin 4) (off : Nat) : (s.dropLow m off).visible = s.visible := rfl
@[simp] theorem State.dropLow_curveDigest (m : Fin 4) (off : Nat) : (s.dropLow m off).curveDigest = s.curveDigest := rfl
@[simp] theorem State.dropLow_nv (m : Fin 4) (off : Nat) : (s.dropLow m off).nv = s.nv := rfl
@[simp] theorem State.dropLow_bays (m : Fin 4) (off : Nat) : (s.dropLow m off).bays = s.bays := rfl
@[simp] theorem State.dropLow_chans (m : Fin 4) (off : Nat) : (s.dropLow m off).chans = s.chans := rfl
@[simp] theorem State.dropLow_nextSeq (m : Fin 4) (off : Nat) : (s.dropLow m off).nextSeq = s.nextSeq := rfl
@[simp] theorem State.dropLow_eligNext (m : Fin 4) (off : Nat) : (s.dropLow m off).eligNext = s.eligNext := rfl
@[simp] theorem State.dropLow_sched (m : Fin 4) (off : Nat) : (s.dropLow m off).sched = s.sched := rfl
@[simp] theorem State.dropLow_port (m : Fin 4) (off : Nat) : (s.dropLow m off).port = s.port := rfl
@[simp] theorem State.dropLow_sent (m : Fin 4) (off : Nat) : (s.dropLow m off).sent = s.sent := rfl
@[simp] theorem State.dropLow_nvOut (m : Fin 4) (off : Nat) : (s.dropLow m off).nvOut = s.nvOut := rfl
@[simp] theorem State.dropLow_heldOff (m : Fin 4) (off : Nat) : (s.dropLow m off).heldOff = s.heldOff := rfl
@[simp] theorem State.dropLow_net (m : Fin 4) (off : Nat) : (s.dropLow m off).net = s.net := rfl
@[simp] theorem State.dropLow_inbox (m : Fin 4) (off : Nat) : (s.dropLow m off).inbox = s.inbox := rfl
@[simp] theorem State.dropLow_mg (m : Fin 4) (off : Nat) : (s.dropLow m off).mg = s.mg := rfl
@[simp] theorem State.dropLow_mgHigh (m : Fin 4) (off : Nat) : (s.dropLow m off).mgHigh = s.mgHigh := rfl
@[simp] theorem State.dropLow_mgLow (m : Fin 4) (off : Nat) : (s.dropLow m off).mgLow = s.mgLow.filter fun x => !(x.1 == m && x.2.1 == off) := rfl
@[simp] theorem State.dropLow_offcut (m : Fin 4) (off : Nat) : (s.dropLow m off).offcut = s.offcut := rfl
@[simp] theorem State.dropLow_offcutUse (m : Fin 4) (off : Nat) : (s.dropLow m off).offcutUse = s.offcutUse := rfl
@[simp] theorem State.dropLow_ringKept (m : Fin 4) (off : Nat) : (s.dropLow m off).ringKept = s.ringKept := rfl
@[simp] theorem State.dropLow_scarfs (m : Fin 4) (off : Nat) : (s.dropLow m off).scarfs = s.scarfs := rfl
@[simp] theorem State.dropLow_credits (m : Fin 4) (off : Nat) : (s.dropLow m off).credits = s.credits := rfl
@[simp] theorem State.dropLow_boots (m : Fin 4) (off : Nat) : (s.dropLow m off).boots = s.boots := rfl
@[simp] theorem State.dropLow_shares (m : Fin 4) (off : Nat) : (s.dropLow m off).shares = s.shares := rfl
@[simp] theorem State.dropLow_heldTiles (m : Fin 4) (off : Nat) : (s.dropLow m off).heldTiles = s.heldTiles := rfl
@[simp] theorem State.dropLow_returns (m : Fin 4) (off : Nat) : (s.dropLow m off).returns = s.returns := rfl
@[simp] theorem State.dropLow_raising (m : Fin 4) (off : Nat) : (s.dropLow m off).raising = s.raising := rfl
@[simp] theorem State.dropLow_kports (m : Fin 4) (off : Nat) : (s.dropLow m off).kports = s.kports := rfl
@[simp] theorem State.dropLow_stop (m : Fin 4) (off : Nat) : (s.dropLow m off).stop = s.stop := rfl
@[simp] theorem State.dropLow_lg (m : Fin 4) (off : Nat) : (s.dropLow m off).lg = s.lg := rfl
@[simp] theorem State.dropLow_draining (m : Fin 4) (off : Nat) : (s.dropLow m off).draining = s.draining := rfl
@[simp] theorem State.dropLow_own (m : Fin 4) (off : Nat) : (s.dropLow m off).own = s.own := rfl
@[simp] theorem State.dropLow_active (m : Fin 4) (off : Nat) : (s.dropLow m off).active = s.active := rfl
@[simp] theorem State.dropLow_shadow (m : Fin 4) (off : Nat) : (s.dropLow m off).shadow = s.shadow := rfl
@[simp] theorem State.dropLow_irqStatus (m : Fin 4) (off : Nat) : (s.dropLow m off).irqStatus = s.irqStatus := rfl
@[simp] theorem State.dropLow_irqEnable (m : Fin 4) (off : Nat) : (s.dropLow m off).irqEnable = s.irqEnable := rfl
@[simp] theorem State.dropLow_frz (m : Fin 4) (off : Nat) : (s.dropLow m off).frz = s.frz := rfl
@[simp] theorem State.dropLow_ctr (m : Fin 4) (off : Nat) : (s.dropLow m off).ctr = s.ctr := rfl
@[simp] theorem State.dropLow_log (m : Fin 4) (off : Nat) : (s.dropLow m off).log = s.log := rfl
@[simp] theorem State.dropLow_jtag (m : Fin 4) (off : Nat) : (s.dropLow m off).jtag = s.jtag := rfl
@[simp] theorem State.dropLow_free (m : Fin 4) (off : Nat) : (s.dropLow m off).free = s.free := rfl
@[simp] theorem State.dropLow_pending (m : Fin 4) (off : Nat) : (s.dropLow m off).pending = s.pending := rfl

/-! ### arm -/

@[simp] theorem State.arm_params (at1 origin : Nat) (id : Word) (scope : Nat) : (s.arm at1 origin id scope).params = s.params := rfl
@[simp] theorem State.arm_clk (at1 origin : Nat) (id : Word) (scope : Nat) : (s.arm at1 origin id scope).clk = s.clk := rfl
@[simp] theorem State.arm_pins (at1 origin : Nat) (id : Word) (scope : Nat) : (s.arm at1 origin id scope).pins = s.pins := rfl
@[simp] theorem State.arm_image (at1 origin : Nat) (id : Word) (scope : Nat) : (s.arm at1 origin id scope).image = s.image := rfl
@[simp] theorem State.arm_visible (at1 origin : Nat) (id : Word) (scope : Nat) : (s.arm at1 origin id scope).visible = s.visible := rfl
@[simp] theorem State.arm_curveDigest (at1 origin : Nat) (id : Word) (scope : Nat) : (s.arm at1 origin id scope).curveDigest = s.curveDigest := rfl
@[simp] theorem State.arm_nv (at1 origin : Nat) (id : Word) (scope : Nat) : (s.arm at1 origin id scope).nv = s.nv := rfl
@[simp] theorem State.arm_bays (at1 origin : Nat) (id : Word) (scope : Nat) : (s.arm at1 origin id scope).bays = s.bays := rfl
@[simp] theorem State.arm_chans (at1 origin : Nat) (id : Word) (scope : Nat) : (s.arm at1 origin id scope).chans = s.chans := rfl
@[simp] theorem State.arm_nextSeq (at1 origin : Nat) (id : Word) (scope : Nat) : (s.arm at1 origin id scope).nextSeq = s.nextSeq := rfl
@[simp] theorem State.arm_eligNext (at1 origin : Nat) (id : Word) (scope : Nat) : (s.arm at1 origin id scope).eligNext = s.eligNext := rfl
@[simp] theorem State.arm_sched (at1 origin : Nat) (id : Word) (scope : Nat) : (s.arm at1 origin id scope).sched = s.sched := rfl
@[simp] theorem State.arm_port (at1 origin : Nat) (id : Word) (scope : Nat) : (s.arm at1 origin id scope).port = s.port := rfl
@[simp] theorem State.arm_sent (at1 origin : Nat) (id : Word) (scope : Nat) : (s.arm at1 origin id scope).sent = s.sent := rfl
@[simp] theorem State.arm_nvOut (at1 origin : Nat) (id : Word) (scope : Nat) : (s.arm at1 origin id scope).nvOut = s.nvOut := rfl
@[simp] theorem State.arm_heldOff (at1 origin : Nat) (id : Word) (scope : Nat) : (s.arm at1 origin id scope).heldOff = s.heldOff := rfl
@[simp] theorem State.arm_net (at1 origin : Nat) (id : Word) (scope : Nat) : (s.arm at1 origin id scope).net = s.net := rfl
@[simp] theorem State.arm_inbox (at1 origin : Nat) (id : Word) (scope : Nat) : (s.arm at1 origin id scope).inbox = s.inbox := rfl
@[simp] theorem State.arm_mg (at1 origin : Nat) (id : Word) (scope : Nat) : (s.arm at1 origin id scope).mg = s.mg := rfl
@[simp] theorem State.arm_mgHigh (at1 origin : Nat) (id : Word) (scope : Nat) : (s.arm at1 origin id scope).mgHigh = s.mgHigh := rfl
@[simp] theorem State.arm_mgLow (at1 origin : Nat) (id : Word) (scope : Nat) : (s.arm at1 origin id scope).mgLow = s.mgLow := rfl
@[simp] theorem State.arm_offcut (at1 origin : Nat) (id : Word) (scope : Nat) : (s.arm at1 origin id scope).offcut = s.offcut := rfl
@[simp] theorem State.arm_offcutUse (at1 origin : Nat) (id : Word) (scope : Nat) : (s.arm at1 origin id scope).offcutUse = s.offcutUse := rfl
@[simp] theorem State.arm_ringKept (at1 origin : Nat) (id : Word) (scope : Nat) : (s.arm at1 origin id scope).ringKept = s.ringKept := rfl
@[simp] theorem State.arm_scarfs (at1 origin : Nat) (id : Word) (scope : Nat) : (s.arm at1 origin id scope).scarfs = s.scarfs := rfl
@[simp] theorem State.arm_credits (at1 origin : Nat) (id : Word) (scope : Nat) : (s.arm at1 origin id scope).credits = s.credits := rfl
@[simp] theorem State.arm_boots (at1 origin : Nat) (id : Word) (scope : Nat) : (s.arm at1 origin id scope).boots = s.boots := rfl
@[simp] theorem State.arm_shares (at1 origin : Nat) (id : Word) (scope : Nat) : (s.arm at1 origin id scope).shares = s.shares := rfl
@[simp] theorem State.arm_heldTiles (at1 origin : Nat) (id : Word) (scope : Nat) : (s.arm at1 origin id scope).heldTiles = s.heldTiles := rfl
@[simp] theorem State.arm_returns (at1 origin : Nat) (id : Word) (scope : Nat) : (s.arm at1 origin id scope).returns = s.returns := rfl
@[simp] theorem State.arm_kports (at1 origin : Nat) (id : Word) (scope : Nat) : (s.arm at1 origin id scope).kports = s.kports := rfl
@[simp] theorem State.arm_stop (at1 origin : Nat) (id : Word) (scope : Nat) : (s.arm at1 origin id scope).stop = s.stop := rfl
@[simp] theorem State.arm_lg (at1 origin : Nat) (id : Word) (scope : Nat) : (s.arm at1 origin id scope).lg = s.lg := rfl
@[simp] theorem State.arm_draining (at1 origin : Nat) (id : Word) (scope : Nat) : (s.arm at1 origin id scope).draining = s.draining := rfl
@[simp] theorem State.arm_own (at1 origin : Nat) (id : Word) (scope : Nat) : (s.arm at1 origin id scope).own = s.own := rfl
@[simp] theorem State.arm_active (at1 origin : Nat) (id : Word) (scope : Nat) : (s.arm at1 origin id scope).active = s.active := rfl
@[simp] theorem State.arm_shadow (at1 origin : Nat) (id : Word) (scope : Nat) : (s.arm at1 origin id scope).shadow = s.shadow := rfl
@[simp] theorem State.arm_irqStatus (at1 origin : Nat) (id : Word) (scope : Nat) : (s.arm at1 origin id scope).irqStatus = s.irqStatus := rfl
@[simp] theorem State.arm_irqEnable (at1 origin : Nat) (id : Word) (scope : Nat) : (s.arm at1 origin id scope).irqEnable = s.irqEnable := rfl
@[simp] theorem State.arm_frz (at1 origin : Nat) (id : Word) (scope : Nat) : (s.arm at1 origin id scope).frz = s.frz := rfl
@[simp] theorem State.arm_ctr (at1 origin : Nat) (id : Word) (scope : Nat) : (s.arm at1 origin id scope).ctr = s.ctr := rfl
@[simp] theorem State.arm_log (at1 origin : Nat) (id : Word) (scope : Nat) : (s.arm at1 origin id scope).log = s.log := rfl
@[simp] theorem State.arm_jtag (at1 origin : Nat) (id : Word) (scope : Nat) : (s.arm at1 origin id scope).jtag = s.jtag := rfl
@[simp] theorem State.arm_free (at1 origin : Nat) (id : Word) (scope : Nat) : (s.arm at1 origin id scope).free = s.free := rfl
@[simp] theorem State.arm_pending (at1 origin : Nat) (id : Word) (scope : Nat) : (s.arm at1 origin id scope).pending = s.pending := rfl

/-! ### disarm -/

@[simp] theorem State.disarm_params (o : Outcome) : (s.disarm o).params = s.params := rfl
@[simp] theorem State.disarm_clk (o : Outcome) : (s.disarm o).clk = s.clk := rfl
@[simp] theorem State.disarm_pins (o : Outcome) : (s.disarm o).pins = s.pins := rfl
@[simp] theorem State.disarm_image (o : Outcome) : (s.disarm o).image = s.image := rfl
@[simp] theorem State.disarm_visible (o : Outcome) : (s.disarm o).visible = s.visible := rfl
@[simp] theorem State.disarm_curveDigest (o : Outcome) : (s.disarm o).curveDigest = s.curveDigest := rfl
@[simp] theorem State.disarm_nv (o : Outcome) : (s.disarm o).nv = s.nv := rfl
@[simp] theorem State.disarm_bays (o : Outcome) : (s.disarm o).bays = s.bays := rfl
@[simp] theorem State.disarm_chans (o : Outcome) : (s.disarm o).chans = s.chans := rfl
@[simp] theorem State.disarm_nextSeq (o : Outcome) : (s.disarm o).nextSeq = s.nextSeq := rfl
@[simp] theorem State.disarm_eligNext (o : Outcome) : (s.disarm o).eligNext = s.eligNext := rfl
@[simp] theorem State.disarm_sched (o : Outcome) : (s.disarm o).sched = s.sched := rfl
@[simp] theorem State.disarm_port (o : Outcome) : (s.disarm o).port = s.port := rfl
@[simp] theorem State.disarm_sent (o : Outcome) : (s.disarm o).sent = s.sent := rfl
@[simp] theorem State.disarm_nvOut (o : Outcome) : (s.disarm o).nvOut = s.nvOut := rfl
@[simp] theorem State.disarm_heldOff (o : Outcome) : (s.disarm o).heldOff = s.heldOff := rfl
@[simp] theorem State.disarm_net (o : Outcome) : (s.disarm o).net = s.net := rfl
@[simp] theorem State.disarm_inbox (o : Outcome) : (s.disarm o).inbox = s.inbox := rfl
@[simp] theorem State.disarm_mg (o : Outcome) : (s.disarm o).mg = s.mg := rfl
@[simp] theorem State.disarm_mgHigh (o : Outcome) : (s.disarm o).mgHigh = s.mgHigh := rfl
@[simp] theorem State.disarm_mgLow (o : Outcome) : (s.disarm o).mgLow = s.mgLow := rfl
@[simp] theorem State.disarm_offcut (o : Outcome) : (s.disarm o).offcut = s.offcut := rfl
@[simp] theorem State.disarm_offcutUse (o : Outcome) : (s.disarm o).offcutUse = s.offcutUse := rfl
@[simp] theorem State.disarm_ringKept (o : Outcome) : (s.disarm o).ringKept = s.ringKept := rfl
@[simp] theorem State.disarm_scarfs (o : Outcome) : (s.disarm o).scarfs = s.scarfs := rfl
@[simp] theorem State.disarm_credits (o : Outcome) : (s.disarm o).credits = s.credits := rfl
@[simp] theorem State.disarm_boots (o : Outcome) : (s.disarm o).boots = s.boots := rfl
@[simp] theorem State.disarm_shares (o : Outcome) : (s.disarm o).shares = s.shares := rfl
@[simp] theorem State.disarm_heldTiles (o : Outcome) : (s.disarm o).heldTiles = s.heldTiles := rfl
@[simp] theorem State.disarm_returns (o : Outcome) : (s.disarm o).returns = s.returns := rfl
@[simp] theorem State.disarm_raising (o : Outcome) : (s.disarm o).raising = s.raising.settle o := rfl
@[simp] theorem State.disarm_kports (o : Outcome) : (s.disarm o).kports = s.kports := rfl
@[simp] theorem State.disarm_stop (o : Outcome) : (s.disarm o).stop = s.stop := rfl
@[simp] theorem State.disarm_lg (o : Outcome) : (s.disarm o).lg = s.lg := rfl
@[simp] theorem State.disarm_draining (o : Outcome) : (s.disarm o).draining = s.draining := rfl
@[simp] theorem State.disarm_own (o : Outcome) : (s.disarm o).own = s.own := rfl
@[simp] theorem State.disarm_active (o : Outcome) : (s.disarm o).active = s.active := rfl
@[simp] theorem State.disarm_shadow (o : Outcome) : (s.disarm o).shadow = s.shadow := rfl
@[simp] theorem State.disarm_irqStatus (o : Outcome) : (s.disarm o).irqStatus = s.irqStatus := rfl
@[simp] theorem State.disarm_irqEnable (o : Outcome) : (s.disarm o).irqEnable = s.irqEnable := rfl
@[simp] theorem State.disarm_frz (o : Outcome) : (s.disarm o).frz = s.frz := rfl
@[simp] theorem State.disarm_ctr (o : Outcome) : (s.disarm o).ctr = s.ctr := rfl
@[simp] theorem State.disarm_log (o : Outcome) : (s.disarm o).log = s.log := rfl
@[simp] theorem State.disarm_jtag (o : Outcome) : (s.disarm o).jtag = s.jtag := rfl
@[simp] theorem State.disarm_free (o : Outcome) : (s.disarm o).free = s.free := rfl
@[simp] theorem State.disarm_pending (o : Outcome) : (s.disarm o).pending = s.pending := rfl

end Sys2Proof.Machine
end

