-- ==== Sys2Proof/Laws/Memory.lean ====
section
/-! SUPPORT. The laws of the yard's cell list: a read after a write, and the canonical form that every write keeps. -/

namespace Sys2Proof.Machine

/-- Is every address of a cell list above a bound? -/
def cellsAbove (a : Nat) (l : List Host.Cell) : Prop := ∀ x ∈ l, a < x.1

/-- The canonical form, said of the whole list: no default value listed, addresses rising. -/
theorem cellsWf_cons (x : Host.Cell) (l : List Host.Cell) :
    cellsWf (x :: l) = true ↔ x.2 ≠ yardDefault ∧ cellsAbove x.1 l ∧ cellsWf l = true := by
  induction l generalizing x with
  | nil => simp [cellsWf, cellsAbove]
  | cons y l ih =>
    constructor
    · intro h
      simp only [cellsWf, Bool.and_eq_true, bne_iff_ne, ne_eq, decide_eq_true_eq] at h
      refine ⟨h.1.1, ?_, h.2⟩
      intro z hz
      rcases List.mem_cons.1 hz with rfl | hz
      · exact h.1.2
      · exact Nat.lt_trans h.1.2 (((ih y).1 h.2).2.1 z hz)
    · rintro ⟨h1, h2, h3⟩
      simp only [cellsWf, Bool.and_eq_true, bne_iff_ne, ne_eq, decide_eq_true_eq]
      exact ⟨⟨h1, h2 y (List.mem_cons_self ..)⟩, h3⟩

/-- A cell set does not bring in an address at or below a bound it stands above. -/
theorem setCell_above (b a : Nat) (v : Byte) (l : List Host.Cell) (hb : b < a) (h : cellsAbove b l) : cellsAbove b (setCell a v l) := by
  induction l with
  | nil =>
    unfold setCell
    split
    · exact h
    · intro x hx
      rw [List.mem_singleton] at hx
      subst hx
      exact hb
  | cons y l ih =>
    have hy : b < y.1 := h y (List.mem_cons_self ..)
    have hl : cellsAbove b l := fun x hx => h x (List.mem_cons_of_mem _ hx)
    have hav : cellsAbove b ((a, v) :: l) := by
      intro x hx
      rcases List.mem_cons.1 hx with rfl | hx
      · exact hb
      · exact hl x hx
    unfold setCell
    split
    · intro x hx
      rcases List.mem_cons.1 hx with rfl | hx
      · exact hy
      · exact ih hl x hx
    · split
      · split
        · exact hl
        · exact hav
      · split
        · exact h
        · intro x hx
          rcases List.mem_cons.1 hx with rfl | hx
          · exact hb
          · exact h x hx

/-- A write keeps the canonical form. -/
theorem setCell_wf (a : Nat) (v : Byte) (l : List Host.Cell) (h : cellsWf l = true) : cellsWf (setCell a v l) = true := by
  induction l with
  | nil => unfold setCell; split <;> simp_all [cellsWf]
  | cons y l ih =>
    obtain ⟨h1, h2, h3⟩ := (cellsWf_cons y l).1 h
    unfold setCell
    split
    · exact (cellsWf_cons _ _).2 ⟨h1, setCell_above _ _ _ _ (by assumption) h2, ih h3⟩
    · split
      · split
        · exact h3
        · exact (cellsWf_cons _ _).2 ⟨by assumption, fun x hx => by have := h2 x hx; simp_all, h3⟩
      · split
        · exact h
        · refine (cellsWf_cons _ _).2 ⟨by assumption, ?_, h⟩
          intro x hx
          rcases List.mem_cons.1 hx with rfl | hx
          · show a < x.1; omega
          · have := h2 x hx; show a < x.1; omega

/-- An address below every listed one reads as the default. -/
theorem getCell_above (a : Nat) (l : List Host.Cell) (h : cellsAbove a l) : getCell a l = yardDefault := by
  induction l with
  | nil => rfl
  | cons y l ih =>
    have := h y (List.mem_cons_self ..)
    unfold getCell
    rw [if_neg (by omega)]
    exact ih fun x hx => h x (List.mem_cons_of_mem _ hx)

/-- A read after a write: the value at its address, every other address as before. -/
theorem getCell_setCell (a b : Nat) (v : Byte) (l : List Host.Cell) (h : cellsWf l = true) :
    getCell b (setCell a v l) = if b = a then v else getCell b l := by
  induction l with
  | nil =>
    unfold setCell
    by_cases hv : v = yardDefault
    · rw [if_pos hv, hv]; simp [getCell]
    · rw [if_neg hv]
      unfold getCell
      by_cases hb : b = a
      · rw [if_pos hb, if_pos hb.symm]
      · rw [if_neg hb, if_neg (fun e => hb e.symm)]; rfl
  | cons y l ih =>
    obtain ⟨h1, h2, h3⟩ := (cellsWf_cons y l).1 h
    have ih := ih h3
    unfold setCell
    by_cases hlt : y.1 < a
    · rw [if_pos hlt]
      unfold getCell
      by_cases hy : y.1 = b
      · rw [if_pos hy, if_pos hy, if_neg (by omega)]
      · rw [if_neg hy, if_neg hy, ih]
    · rw [if_neg hlt]
      by_cases hya : y.1 = a
      · rw [if_pos hya]
        by_cases hv : v = yardDefault
        · rw [if_pos hv]
          by_cases hb : b = a
          · rw [if_pos hb, getCell_above b l (by rw [hb, ← hya]; exact h2), hv]
          · rw [if_neg hb]; conv => rhs; unfold getCell
            rw [if_neg (by omega)]
        · rw [if_neg hv]
          conv => lhs; unfold getCell
          by_cases hb : b = a
          · rw [if_pos hb, if_pos hb.symm]
          · rw [if_neg hb, if_neg (fun e => hb e.symm)]; conv => rhs; unfold getCell
            rw [if_neg (by omega)]
      · rw [if_neg hya]
        have habove : cellsAbove a (y :: l) := by
          intro x hx
          rcases List.mem_cons.1 hx with rfl | hx
          · omega
          · have := h2 x hx; omega
        by_cases hv : v = yardDefault
        · rw [if_pos hv]
          by_cases hb : b = a
          · rw [if_pos hb, hb, getCell_above a _ habove, hv]
          · rw [if_neg hb]
        · rw [if_neg hv]
          conv => lhs; unfold getCell
          by_cases hb : b = a
          · rw [if_pos hb, if_pos hb.symm]
          · rw [if_neg hb, if_neg (fun e => hb e.symm)]

/-- A yard byte written keeps the canonical form. -/
theorem Bays.setByte_wf (y : Bays) (a : Nat) (v : Byte) (h : cellsWf y.yard = true) : cellsWf (y.setByte a v).yard = true :=
  setCell_wf a v y.yard h

end Sys2Proof.Machine
end

