-- ==== Sys2Proof/Laws/Keeps.lean ====
section
/-! SUPPORT. What the shared operations keep: the queue of waiting commands, and the invariant of Safety.lean. One lemma per
operation; a command's lemma follows from those of the operations it calls. -/

set_option linter.unusedSimpArgs false

namespace Sys2Proof.Machine

/-- The part of a state that the queue and the invariant speak of. -/
structure Kern where
  pending : List Instr
  yard : List Host.Cell
  log : Log
  mgmt : Nat
  edges : Nat
  trim : Int
  phase : Nat
  seen : List Nat

/-- The kernel of a state. -/
def State.kern (s : State) : Kern :=
  ⟨s.pending, s.bays.yard, s.log, s.clk.mgmt, s.clk.edges, s.clk.trim, s.clk.arithPhase, s.frz.seen⟩

/-- The invariant, said of the kernel. -/
def Kern.Good (k : Kern) : Prop :=
  cellsWf k.yard = true ∧ k.log.head < 254 ∧ k.log.tail < 254 ∧ k.mgmt = k.edges / 10 ∧ -((2 : Int) ^ 22) ≤ k.trim ∧
    k.trim ≤ (2 : Int) ^ 22 ∧ k.phase < 20 ∧ k.seen.length ≤ 8

theorem State.inv_kern (s : State) : s.Inv ↔ s.kern.Good :=
  ⟨fun i => ⟨i.yard, i.logHead, i.logTail, i.mgmt, i.trimLow, i.trimHigh, i.phase, i.seen⟩,
   fun ⟨a, b, c, d, e, f, g, h⟩ => ⟨a, b, c, d, e, f, g, h⟩⟩

/-- The second kernel has the queue of the first, and the invariant if the first has it. -/
def Kern.To (a b : Kern) : Prop := b.pending = a.pending ∧ (a.Good → b.Good)

theorem Kern.To.rfl {a : Kern} : a.To a := ⟨Eq.refl _, id⟩

theorem Kern.To.trans {a b c : Kern} (h : a.To b) (k : b.To c) : a.To c := ⟨k.1.trans h.1, fun i => k.2 (h.2 i)⟩

/-- A record update's kernel. -/
theorem State.kern_mk (params : Params) (clk : Clk) (pins : Pins) (image : Image) (visible : Bool) (curveDigest : List Byte) (nv : Loader)
    (bays : Bays) (chans : Vector Chan 16) (nextSeq : Vector Word 4) (eligNext : Nat) (sched : Sched) (port : MemPort)
    (sent nvOut : List (Nat × List Byte)) (heldOff : List (Nat × List Byte × Bool)) (net : List NetMsg) (inbox : List (Envelope × List Byte))
    (mg : List MgResp) (mgHigh mgLow : List (Fin 4 × Nat × Word)) (offcut : List (Part × List Byte × List Byte))
    (offcutUse : Option (Part × RingUse)) (ringKept : List ((Nat × Fin 16 × Nat) × List Byte)) (scarfs : List ScarfEntry) (credits : List (Nat × Nat × Nat)) (boots : List (Nat × Nat))
    (shares : List Share) (heldTiles : List HeldTile)
    (returns : List (Envelope × List Byte)) (raising : Raising) (kports : Vector KPort 2) (stop : RingStop) (lg : Lg)
    (draining : Bool) (own : Own) (active shadow : Settings) (irqStatus irqEnable : BitVec 9) (frz : Freezing) (ctr : Counters)
    (log : Log) (jtag : Jtag) (free : Nat) (pending : List Instr) :
    (State.mk params clk pins image visible curveDigest nv bays chans nextSeq eligNext sched port sent nvOut heldOff net inbox mg mgHigh mgLow
      offcut offcutUse ringKept scarfs credits boots shares heldTiles returns raising kports stop lg draining own active shadow irqStatus irqEnable frz ctr
      log jtag free pending).kern =
      ⟨pending, bays.yard, log, clk.mgmt, clk.edges, clk.trim, clk.arithPhase, frz.seen⟩ := rfl

theorem State.kern_fold (s : State) :
    (⟨s.pending, s.bays.yard, s.log, s.clk.mgmt, s.clk.edges, s.clk.trim, s.clk.arithPhase, s.frz.seen⟩ : Kern) = s.kern := rfl

/-- `t` has the queue of `s`, and the invariant if `s` has it. -/
abbrev Keeps (s t : State) : Prop := s.kern.To t.kern

theorem Keeps.foldl {α : Type} (f : State → α → State) (h : ∀ s x, Keeps s (f s x)) (l : List α) (s : State) : Keeps s (l.foldl f s) :=
  List.foldlRecOn l f Kern.To.rfl fun t k x _ => Kern.To.trans k (h t x)

theorem Keeps.foldlFst {α β : Type} (f : State × β → α → State × β) (h : ∀ r x, Keeps r.1 (f r x).1) (l : List α) (r : State × β) :
    Keeps r.1 (l.foldl f r).1 :=
  List.foldlRecOn l f Kern.To.rfl fun t k x _ => Kern.To.trans k (h t x)

/-- The edge counter, its tenth and the divider's remainder after `n` edges. -/
theorem Clk.run_keeps (c : Clk) (on : Bool) (m n : Nat) :
    (c.run on m n).mgmt = (c.run on m n).edges / 10 ∧ (c.run on m n).trim = c.trim ∧
      (c.arithPhase < 20 → (c.run on m n).arithPhase < 20) := by
  unfold Clk.run
  cases on <;> simp <;> omega

theorem State.pass_keeps (s : State) (n : Nat) : Keeps s (s.pass n) := by
  refine ⟨rfl, fun i => ?_⟩
  have h := s.clk.run_keeps s.arithRuns s.params.arithMult n
  obtain ⟨a, b, c, d, e, f, g, k⟩ := i
  refine ⟨a, b, c, h.1, ?_, ?_, h.2.2 g, k⟩
  · show _ ≤ (s.clk.run _ _ _).trim
    rw [h.2.1]; exact e
  · show (s.clk.run _ _ _).trim ≤ _
    rw [h.2.1]; exact f

/-- The indices of the ring after an entry. -/
theorem Log.put_keeps (l : Log) (b : List Byte) : (l.head < 254 → (l.put b).head < 254) ∧ (l.put b).tail = l.tail := by
  unfold Log.put
  split
  · exact ⟨id, rfl⟩
  · exact ⟨fun _ => Nat.mod_lt _ (by decide), rfl⟩

theorem State.logRaw_keeps (s : State) (b : List Byte) : Keeps s (s.logRaw b) := by
  refine ⟨rfl, fun ⟨a, h, c, d, e, f, g, k⟩ => ⟨a, (s.log.put_keeps b).1 h, ?_, d, e, f, g, k⟩⟩
  show (s.log.put b).tail < 254
  rw [(s.log.put_keeps b).2]; exact c

/-- Bytes set in the yards keep the canonical form. -/
theorem Bays.foldSet_wf {α : Type} (f : Bays → α → Bays) (h : ∀ y x, cellsWf y.yard = true → cellsWf (f y x).yard = true)
    (l : List α) (y : Bays) (k : cellsWf y.yard = true) : cellsWf (l.foldl f y).yard = true :=
  List.foldlRecOn l f k fun t i x _ => h t x i



theorem State.untilCount_keeps (s : State) (c : Nat) : Keeps s (State.untilCount s c) := by
  unfold State.untilCount
  try dsimp only
  repeat' first
    | with_reducible exact Kern.To.rfl
    | with_reducible apply Kern.To.trans _ (State.pass_keeps _ _)
    | simp only [Keeps, State.kern_mk, State.kern_fold]
    | split

theorem State.untilArith_keeps (s : State) (a : Nat) : Keeps s (State.untilArith s a) := by
  unfold State.untilArith
  try dsimp only
  repeat' first
    | with_reducible exact Kern.To.rfl
    | with_reducible apply Kern.To.trans _ (State.pass_keeps _ _)
    | simp only [Keeps, State.kern_mk, State.kern_fold]
    | split

theorem State.untilMgmt_keeps (s : State) (m : Nat) : Keeps s (State.untilMgmt s m) := by
  unfold State.untilMgmt
  try dsimp only
  repeat' first
    | with_reducible exact Kern.To.rfl
    | with_reducible apply Kern.To.trans _ (State.pass_keeps _ _)
    | simp only [Keeps, State.kern_mk, State.kern_fold]
    | split

theorem State.setChan_keeps (s : State) (c : Fin 16) (x : Chan) : Keeps s (State.setChan s c x) := by
  unfold State.setChan
  try dsimp only
  repeat' first
    | with_reducible exact Kern.To.rfl
    | simp only [Keeps, State.kern_mk, State.kern_fold]
    | split

theorem State.onChan_keeps (s : State) (c : Fin 16) (f : Chan → Chan) : Keeps s (State.onChan s c f) := by
  unfold State.onChan
  try dsimp only
  repeat' first
    | with_reducible exact Kern.To.rfl
    | with_reducible apply Kern.To.trans _ (State.setChan_keeps _ _ _)
    | simp only [Keeps, State.kern_mk, State.kern_fold]
    | split

theorem State.setPort_keeps (s : State) (p : Fin 2) (x : KPort) : Keeps s (State.setPort s p x) := by
  unfold State.setPort
  try dsimp only
  repeat' first
    | with_reducible exact Kern.To.rfl
    | simp only [Keeps, State.kern_mk, State.kern_fold]
    | split

theorem State.setJob_keeps (s : State) (p : Part) (j : Option Job) : Keeps s (State.setJob s p j) := by
  unfold State.setJob
  try dsimp only
  repeat' first
    | with_reducible exact Kern.To.rfl
    | with_reducible apply Kern.To.trans _ (State.onChan_keeps _ _ _)
    | simp only [Keeps, State.kern_mk, State.kern_fold]
    | split

theorem State.irq_keeps (s : State) (n : Nat) : Keeps s (State.irq s n) := by
  unfold State.irq
  try dsimp only
  repeat' first
    | with_reducible exact Kern.To.rfl
    | simp only [Keeps, State.kern_mk, State.kern_fold]
    | split


theorem State.log0_keeps (s : State) (code : Nat) (disp : Nat) (detail : Nat) : Keeps s (State.log0 s code disp detail) := by
  unfold State.log0
  try dsimp only
  repeat' first
    | with_reducible exact Kern.To.rfl
    | with_reducible apply Kern.To.trans _ (State.logRaw_keeps _ _)
    | simp only [Keeps, State.kern_mk, State.kern_fold]
    | split

theorem State.logBay_keeps (s : State) (code : Nat) (disp : Nat) (bay : Nat) (lane : Nat) (detail : Nat) : Keeps s (State.logBay s code disp bay lane detail) := by
  unfold State.logBay
  try dsimp only
  repeat' first
    | with_reducible exact Kern.To.rfl
    | with_reducible apply Kern.To.trans _ (State.logRaw_keeps _ _)
    | simp only [Keeps, State.kern_mk, State.kern_fold]
    | split

theorem State.corrected_keeps (s : State) (unit : Nat) (off : Nat) : Keeps s (State.corrected s unit off) := by
  unfold State.corrected
  try dsimp only
  repeat' first
    | with_reducible exact Kern.To.rfl
    | with_reducible apply Kern.To.trans _ (State.log0_keeps _ _ _ _)
    | simp only [Keeps, State.kern_mk, State.kern_fold]
    | split

theorem State.respond_keeps (s : State) (m : Fin 4) (code : Nat) (data : Word) : Keeps s (s.respond m code data) := by
  unfold State.respond
  simp only [Keeps, State.kern_mk, State.kern_fold]
  exact Kern.To.rfl

theorem State.byOwner_keeps (s : State) (m : Fin 4) (f : State → State) (h : ∀ t, Keeps t (f t)) : Keeps s (s.byOwner m f) := by
  unfold State.byOwner
  split
  · exact .rfl
  · split
    · exact h s
    · exact s.respond_keeps m 1 0

theorem State.send_keeps (s : State) (dst : Nat) (b : List Byte) : Keeps s (State.send s dst b) := by
  unfold State.send
  try dsimp only
  repeat' first
    | with_reducible exact Kern.To.rfl
    | simp only [Keeps, State.kern_mk, State.kern_fold]
    | split

theorem State.yardWrite_keeps (s : State) (a : Nat) (b : List Byte) : Keeps s (s.yardWrite a b) := by
  unfold State.yardWrite
  dsimp only
  generalize hw : List.foldl _ s _ = t
  have ht : Keeps s t := by
    rw [← hw]
    refine Keeps.foldl _ (fun t w => ?_) _ s
    split
    · split
      · exact Kern.To.rfl
      · exact State.log0_keeps { t with ctr := _ } _ _ _
    · split
      · split
        · exact Kern.To.rfl
        · exact State.corrected_keeps { t with bays := _ } _ _
      · exact .rfl
  refine ht.trans ⟨rfl, fun i => ⟨?_, i.2⟩⟩
  refine Bays.foldSet_wf _ (fun y x h => ?_) _ _ i.1
  split
  · exact Bays.setByte_wf _ _ _ h
  · exact h

theorem State.yardCheck_keeps (s : State) (a n : Nat) : Keeps s (s.yardCheck a n).1 := by
  unfold State.yardCheck
  split
  · exact .rfl
  · refine Keeps.foldlFst _ (fun r w => ?_) _ (s, none)
    split
    · exact .rfl
    · split
      · exact Kern.To.rfl
      · split
        · exact State.corrected_keeps { r.1 with bays := _ } _ _
        · exact .rfl

theorem State.request_keeps (s : State) (l : List MemReq) : Keeps s (State.request s l) := by
  unfold State.request
  try dsimp only
  repeat' first
    | with_reducible exact Kern.To.rfl
    | simp only [Keeps, State.kern_mk, State.kern_fold]
    | split

theorem State.reissue_keeps (s : State) : Keeps s (State.reissue s) := by
  unfold State.reissue
  try dsimp only
  repeat' first
    | with_reducible exact Kern.To.rfl
    | simp only [Keeps, State.kern_mk, State.kern_fold]
    | split

theorem State.discardBlocks_keeps (s : State) (c : Fin 16) : Keeps s (State.discardBlocks s c) := by
  unfold State.discardBlocks
  try dsimp only
  repeat' first
    | with_reducible exact Kern.To.rfl
    | simp only [Keeps, State.kern_mk, State.kern_fold]
    | split

theorem State.netPut_keeps (s : State) (e : Envelope) (body : List Byte) : Keeps s (State.netPut s e body) := by
  unfold State.netPut
  try dsimp only
  repeat' first
    | with_reducible exact Kern.To.rfl
    | with_reducible apply Kern.To.trans _ (State.log0_keeps _ _ _ _)
    | with_reducible apply Kern.To.trans _ (State.setPort_keeps _ _ _)
    | simp only [Keeps, State.kern_mk, State.kern_fold]
    | split

theorem State.putScarf_keeps (s : State) (ready : Bool) : Keeps s (State.putScarf s ready) := by
  unfold State.putScarf
  try dsimp only
  repeat' first
    | with_reducible exact Kern.To.rfl
    | with_reducible apply Kern.To.trans _ (State.netPut_keeps _ _ _)
    | simp only [Keeps, State.kern_mk, State.kern_fold]
    | with_reducible refine Kern.To.trans ?_ (Keeps.foldl _ (fun _ _ => ?_) _ _)
    | split

theorem State.sendFreeze_keeps (s : State) (id : Nat) (origin : Nat) (scope : Nat) (hops : Nat) (except : Option (Fin 2)) : Keeps s (State.sendFreeze s id origin scope hops except) := by
  unfold State.sendFreeze
  try dsimp only
  repeat' first
    | with_reducible exact Kern.To.rfl
    | simp only [Keeps, State.kern_mk, State.kern_fold]
    | with_reducible refine Kern.To.trans ?_ (Keeps.foldl _ (fun _ _ => ?_) _ _)
    | split

theorem State.startFreeze_keeps (s : State) (cause : Nat) (origin : Nat) (id : Nat) (scope : Nat) (hops : Nat) (frames : Bool) (except : Option (Fin 2)) : Keeps s (State.startFreeze s cause origin id scope hops frames except) := by
  unfold State.startFreeze
  try dsimp only
  repeat' first
    | with_reducible exact Kern.To.rfl
    | with_reducible apply Kern.To.trans _ (State.sendFreeze_keeps _ _ _ _ _ _)
    | simp only [Keeps, State.kern_mk, State.kern_fold]
    | split

/-- FREEZE_IDs remembered: at most 8. -/
theorem State.remember_keeps (s : State) (l : List Nat) (f : Freezing) (h : f.seen = l.take 8) : Keeps s { s with frz := f } := by
  refine ⟨rfl, fun ⟨a, b, c, d, e, g, i, _⟩ => ⟨a, b, c, d, e, g, i, ?_⟩⟩
  show f.seen.length ≤ 8
  rw [h]
  exact List.length_take_le 8 l

theorem State.freezeHere_keeps (s : State) (cause : Nat) : Keeps s (State.freezeHere s cause) := by
  unfold State.freezeHere
  dsimp only
  have ht := s.startFreeze_keeps cause s.sin s.newFreezeId s.frz.scope 0 s.frz.propagate none
  split
  · exact Kern.To.rfl
  · split
    · exact ht.trans (State.remember_keeps _ _ _ rfl)
    · exact ht.trans Kern.To.rfl

theorem State.touchPart_keeps (s : State) (p : Part) : Keeps s (State.touchPart s p) := by
  unfold State.touchPart
  try dsimp only
  repeat' first
    | with_reducible exact Kern.To.rfl
    | with_reducible apply Kern.To.trans _ (State.setJob_keeps _ _ _)
    | simp only [Keeps, State.kern_mk, State.kern_fold]
    | split

theorem State.dropOffcut_keeps (s : State) (p : Part) : Keeps s (State.dropOffcut s p) := by
  unfold State.dropOffcut
  try dsimp only
  repeat' first
    | with_reducible exact Kern.To.rfl
    | simp only [Keeps, State.kern_mk, State.kern_fold]
    | split

theorem State.dropWaiting_keeps (s : State) (p : Part) : Keeps s (State.dropWaiting s p) := by
  unfold State.dropWaiting
  try dsimp only
  repeat' first
    | with_reducible exact Kern.To.rfl
    | with_reducible apply Kern.To.trans _ (State.dropOffcut_keeps _ _)
    | simp only [Keeps, State.kern_mk, State.kern_fold]
    | split

theorem State.haltForFault_keeps (s : State) (p : Part) : Keeps s (State.haltForFault s p) := by
  unfold State.haltForFault
  try dsimp only
  repeat' first
    | with_reducible exact Kern.To.rfl
    | with_reducible apply Kern.To.trans _ (State.dropWaiting_keeps _ _)
    | with_reducible apply Kern.To.trans _ (State.setJob_keeps _ _ _)
    | with_reducible apply Kern.To.trans _ (State.onChan_keeps _ _ _)
    | simp only [Keeps, State.kern_mk, State.kern_fold]
    | split

theorem State.scanConfig_keeps (s : State) : Keeps s (State.scanConfig s) := by
  unfold State.scanConfig
  try dsimp only
  repeat' first
    | with_reducible exact Kern.To.rfl
    | with_reducible apply Kern.To.trans _ (State.corrected_keeps _ _ _)
    | simp only [Keeps, State.kern_mk, State.kern_fold]
    | with_reducible refine Kern.To.trans ?_ (Keeps.foldl _ (fun _ _ => ?_) _ _)
    | split

theorem State.enterFault_keeps (s : State) (entry : List Byte) : Keeps s (State.enterFault s entry) := by
  unfold State.enterFault
  try dsimp only
  repeat' first
    | with_reducible exact Kern.To.rfl
    | with_reducible apply Kern.To.trans _ (State.scanConfig_keeps _)
    | with_reducible apply Kern.To.trans _ (State.haltForFault_keeps _ _)
    | with_reducible apply Kern.To.trans _ (State.putScarf_keeps _ _)
    | with_reducible apply Kern.To.trans _ (State.logRaw_keeps _ _)
    | with_reducible apply Kern.To.trans _ (State.irq_keeps _ _)
    | simp only [Keeps, State.kern_mk, State.kern_fold]
    | with_reducible refine Kern.To.trans ?_ (Keeps.foldl _ (fun _ _ => ?_) _ _)
    | split

theorem State.instanceFault_keeps (s : State) (entry : List Byte) : Keeps s (State.instanceFault s entry) := by
  unfold State.instanceFault
  try dsimp only
  repeat' first
    | with_reducible exact Kern.To.rfl
    | with_reducible apply Kern.To.trans _ (State.enterFault_keeps _ _)
    | with_reducible apply Kern.To.trans _ (State.freezeHere_keeps _ _)
    | simp only [Keeps, State.kern_mk, State.kern_fold]
    | split

theorem State.configFault_keeps (s : State) : Keeps s (State.configFault s) := by
  unfold State.configFault
  try dsimp only
  repeat' first
    | with_reducible exact Kern.To.rfl
    | with_reducible apply Kern.To.trans _ (State.instanceFault_keeps _ _)
    | simp only [Keeps, State.kern_mk, State.kern_fold]
    | split

theorem State.readConfig_keeps (s : State) : Keeps s (State.readConfig s) := by
  unfold State.readConfig
  try dsimp only
  repeat' first
    | with_reducible exact Kern.To.rfl
    | with_reducible apply Kern.To.trans _ (State.configFault_keeps _)
    | with_reducible apply Kern.To.trans _ (State.corrected_keeps _ _ _)
    | simp only [Keeps, State.kern_mk, State.kern_fold]
    | with_reducible refine Kern.To.trans ?_ (Keeps.foldl _ (fun _ _ => ?_) _ _)
    | split

theorem State.netSend_keeps (s : State) (e : Envelope) (body : List Byte) : Keeps s (State.netSend s e body) := by
  unfold State.netSend
  try dsimp only
  repeat' first
    | with_reducible exact Kern.To.rfl
    | with_reducible apply Kern.To.trans _ (State.readConfig_keeps _)
    | with_reducible apply Kern.To.trans _ (State.netPut_keeps _ _ _)
    | simp only [Keeps, State.kern_mk, State.kern_fold]
    | split

theorem State.sendScarf_keeps (s : State) (ready : Bool) : Keeps s (State.sendScarf s ready) := by
  unfold State.sendScarf
  try dsimp only
  repeat' first
    | with_reducible exact Kern.To.rfl
    | with_reducible apply Kern.To.trans _ (State.readConfig_keeps _)
    | with_reducible apply Kern.To.trans _ (State.putScarf_keeps _ _)
    | simp only [Keeps, State.kern_mk, State.kern_fold]
    | split

theorem State.gangWrite_keeps (s : State) (env : Envelope) (members bays : List Nat) (pos a : Nat) (b : List Byte) :
    Keeps s (s.gangWrite env members bays pos a b).1 := by
  unfold State.gangWrite
  refine Keeps.foldlFst _ (fun q x => ?_) _ (s, [])
  split
  · exact State.yardWrite_keeps _ _ _
  · exact State.netSend_keeps _ _ _

theorem State.undefine_keeps (s : State) (rs : List Rng) : Keeps s (State.undefine s rs) := by
  unfold State.undefine
  try dsimp only
  repeat' first
    | with_reducible exact Kern.To.rfl
    | simp only [Keeps, State.kern_mk, State.kern_fold]
    | split

theorem State.popHead_keeps (s : State) (c : Fin 16) : Keeps s (State.popHead s c) := by
  unfold State.popHead
  try dsimp only
  repeat' first
    | with_reducible exact Kern.To.rfl
    | with_reducible apply Kern.To.trans _ (State.onChan_keeps _ _ _)
    | simp only [Keeps, State.kern_mk, State.kern_fold]
    | split

theorem State.onHead_keeps (s : State) (c : Fin 16) (f : Entry → Entry) : Keeps s (State.onHead s c f) := by
  unfold State.onHead
  try dsimp only
  repeat' first
    | with_reducible exact Kern.To.rfl
    | with_reducible apply Kern.To.trans _ (State.onChan_keeps _ _ _)
    | simp only [Keeps, State.kern_mk, State.kern_fold]
    | split

theorem State.retireLower_keeps (s : State) (bay old lane detail : Nat) : Keeps s (s.retireLower bay old lane detail) :=
  ⟨rfl, fun ⟨a, b, c, d, e, f, g, k⟩ => ⟨a, b, c, d, e, f, g, k⟩⟩

theorem State.hold_keeps (s : State) (c : Fin 16) (p : Package) : Keeps s (State.hold s c p) := by
  unfold State.hold
  try dsimp only
  repeat' first
    | with_reducible exact Kern.To.rfl
    | with_reducible apply Kern.To.trans _ (State.onChan_keeps _ _ _)
    | simp only [Keeps, State.kern_mk, State.kern_fold]
    | split

theorem State.reject_keeps (s : State) (c : Fin 16) (status : Nat) : Keeps s (State.reject s c status) := by
  unfold State.reject
  try dsimp only
  repeat' first
    | with_reducible exact Kern.To.rfl
    | with_reducible apply Kern.To.trans _ (State.hold_keeps _ _ _)
    | with_reducible apply Kern.To.trans _ (State.popHead_keeps _ _)
    | simp only [Keeps, State.kern_mk, State.kern_fold]
    | split

theorem State.logDesc_keeps (s : State) (code : Nat) (disp : Nat) (head : Nat) (ch : Nat) (attempt : Nat) (seq : Nat) (gang : Bool) (place : Option (Nat × Nat)) (detail : Nat) : Keeps s (State.logDesc s code disp head ch attempt seq gang place detail) := by
  unfold State.logDesc
  try dsimp only
  repeat' first
    | with_reducible exact Kern.To.rfl
    | with_reducible apply Kern.To.trans _ (State.logRaw_keeps _ _)
    | simp only [Keeps, State.kern_mk, State.kern_fold]
    | split

theorem State.breakPromise_keeps (s : State) (c : Fin 16) : Keeps s (State.breakPromise s c) := by
  unfold State.breakPromise
  try dsimp only
  repeat' first
    | with_reducible exact Kern.To.rfl
    | simp only [Keeps, State.kern_mk, State.kern_fold]
    | split

theorem State.faultHead_keeps (s : State) (c : Fin 16) (code : Nat) (detail : Nat) (place : Option (Nat × Nat)) (strand : Bool) (seq : Nat) (lost : Option Nat) : Keeps s (State.faultHead s c code detail place strand seq lost) := by
  unfold State.faultHead
  try dsimp only
  repeat' first
    | with_reducible exact Kern.To.rfl
    | with_reducible apply Kern.To.trans _ (State.breakPromise_keeps _ _)
    | with_reducible apply Kern.To.trans _ (State.logDesc_keeps _ _ _ _ _ _ _ _ _ _)
    | with_reducible apply Kern.To.trans _ (State.onHead_keeps _ _ _)
    | with_reducible apply Kern.To.trans _ (State.dropWaiting_keeps _ _)
    | with_reducible apply Kern.To.trans _ (State.onChan_keeps _ _ _)
    | simp only [Keeps, State.kern_mk, State.kern_fold]
    | split

theorem State.faultPart_keeps (s : State) (p : Part) (code : Nat) (detail : Nat) (place : Option (Nat × Nat)) (strand : Bool) : Keeps s (State.faultPart s p code detail place strand) := by
  unfold State.faultPart
  try dsimp only
  repeat' first
    | with_reducible exact Kern.To.rfl
    | with_reducible apply Kern.To.trans _ (State.faultHead_keeps _ _ _ _ _ _ _ _)
    | with_reducible apply Kern.To.trans _ (State.logDesc_keeps _ _ _ _ _ _ _ _ _ _)
    | with_reducible apply Kern.To.trans _ (State.dropWaiting_keeps _ _)
    | with_reducible apply Kern.To.trans _ (State.setJob_keeps _ _ _)
    | simp only [Keeps, State.kern_mk, State.kern_fold]
    | split

theorem State.countUE_keeps (s : State) : Keeps s (State.countUE s) := by
  unfold State.countUE
  try dsimp only
  repeat' first
    | with_reducible exact Kern.To.rfl
    | simp only [Keeps, State.kern_mk, State.kern_fold]
    | split

theorem State.checkGangs_keeps (s : State) : Keeps s (State.checkGangs s) := by
  unfold State.checkGangs
  try dsimp only
  repeat' first
    | with_reducible exact Kern.To.rfl
    | with_reducible apply Kern.To.trans _ (State.faultHead_keeps _ _ _ _ _ _ _ _)
    | simp only [Keeps, State.kern_mk, State.kern_fold]
    | with_reducible refine Kern.To.trans ?_ (Keeps.foldl _ (fun _ _ => ?_) _ _)
    | split

theorem State.endRingFault_keeps (s : State) : Keeps s (State.endRingFault s) := by
  unfold State.endRingFault
  try dsimp only
  repeat' first
    | with_reducible exact Kern.To.rfl
    | with_reducible apply Kern.To.trans _ (State.sendScarf_keeps _ _)
    | simp only [Keeps, State.kern_mk, State.kern_fold]
    | split

theorem State.readBlocks_keeps (s : State) (c : Fin 16) (bs : List (Nat × Nat × Nat × Nat)) : Keeps s (s.readBlocks c bs) := by
  unfold State.readBlocks
  dsimp only
  generalize hr : List.foldl _ (s, ([] : List (Nat × List Byte)), false) bs = r
  have h : Keeps s r.1 := by
    rw [← hr]
    refine Keeps.foldlFst _ (fun q b => ?_) bs (s, [], false)
    split
    · split
      · exact (State.yardCheck_keeps _ _ _).trans (State.faultHead_keeps _ _ _ _ _ _ _ _)
      · exact State.yardCheck_keeps _ _ _
    · exact .rfl
  split
  · exact h
  · exact h.trans ((State.onChan_keeps _ _ _).trans (State.request_keeps _ _))

theorem State.passValidation_keeps (s : State) (c : Fin 16) : Keeps s (State.passValidation s c) := by
  unfold State.passValidation
  try dsimp only
  repeat' first
    | with_reducible exact Kern.To.rfl
    | with_reducible apply Kern.To.trans _ (State.onChan_keeps _ _ _)
    | simp only [Keeps, State.kern_mk, State.kern_fold]
    | split

theorem State.stepTest_keeps (s : State) (c : Fin 16) (d : Desc) (blocks : Blocks) : Keeps s (State.stepTest s c d blocks) := by
  unfold State.stepTest
  try dsimp only
  repeat' first
    | with_reducible exact Kern.To.rfl
    | with_reducible apply Kern.To.trans _ (State.passValidation_keeps _ _)
    | with_reducible apply Kern.To.trans _ (State.reject_keeps _ _ _)
    | simp only [Keeps, State.kern_mk, State.kern_fold]
    | split

theorem State.finishValidation_keeps (s : State) (c : Fin 16) : Keeps s (State.finishValidation s c) := by
  unfold State.finishValidation
  try dsimp only
  repeat' first
    | with_reducible exact Kern.To.rfl
    | with_reducible apply Kern.To.trans _ (State.stepTest_keeps _ _ _ _)
    | with_reducible apply Kern.To.trans _ (State.passValidation_keeps _ _)
    | with_reducible apply Kern.To.trans _ (State.readBlocks_keeps _ _ _)
    | with_reducible apply Kern.To.trans _ (State.reject_keeps _ _ _)
    | with_reducible apply Kern.To.trans _ (State.onHead_keeps _ _ _)
    | simp only [Keeps, State.kern_mk, State.kern_fold]
    | split

theorem State.beginValidation_keeps (s : State) (c : Fin 16) : Keeps s (State.beginValidation s c) := by
  unfold State.beginValidation
  try dsimp only
  repeat' first
    | with_reducible exact Kern.To.rfl
    | with_reducible apply Kern.To.trans _ (State.finishValidation_keeps _ _)
    | with_reducible apply Kern.To.trans _ (State.readBlocks_keeps _ _ _)
    | with_reducible apply Kern.To.trans _ (State.countUE_keeps _)
    | with_reducible apply Kern.To.trans _ (State.faultHead_keeps _ _ _ _ _ _ _ _)
    | with_reducible apply Kern.To.trans _ (State.reject_keeps _ _ _)
    | with_reducible apply Kern.To.trans _ (State.corrected_keeps _ _ _)
    | with_reducible apply Kern.To.trans _ (State.onChan_keeps _ _ _)
    | simp only [Keeps, State.kern_mk, State.kern_fold]
    | with_reducible refine Kern.To.trans ?_ (Keeps.foldl _ (fun _ _ => ?_) _ _)
    | split

theorem State.onRel_keeps (s : State) (c : Fin 16) (f : Release → Release) : Keeps s (State.onRel s c f) := by
  unfold State.onRel
  try dsimp only
  repeat' first
    | with_reducible exact Kern.To.rfl
    | with_reducible apply Kern.To.trans _ (State.onChan_keeps _ _ _)
    | simp only [Keeps, State.kern_mk, State.kern_fold]
    | split

theorem State.setUse_keeps (s : State) (r : RingSite) (u : Option RingUse) : Keeps s (State.setUse s r u) := by
  unfold State.setUse
  try dsimp only
  repeat' first
    | with_reducible exact Kern.To.rfl
    | with_reducible apply Kern.To.trans _ (State.onRel_keeps _ _ _)
    | simp only [Keeps, State.kern_mk, State.kern_fold]
    | split

theorem State.popItem_keeps (s : State) (r : RingSite) : Keeps s (State.popItem s r) := by
  unfold State.popItem
  try dsimp only
  repeat' first
    | with_reducible exact Kern.To.rfl
    | with_reducible apply Kern.To.trans _ (State.onRel_keeps _ _ _)
    | simp only [Keeps, State.kern_mk, State.kern_fold]
    | split

theorem State.readRing_keeps (s : State) (r : RingSite) (u : RingUse) : Keeps s (State.readRing s r u) := by
  unfold State.readRing
  try dsimp only
  repeat' first
    | with_reducible exact Kern.To.rfl
    | with_reducible apply Kern.To.trans _ (State.ringRead_keeps _ _ _ _)
    | with_reducible apply Kern.To.trans _ (State.setUse_keeps _ _ _)
    | with_reducible apply Kern.To.trans _ (State.request_keeps _ _)
    | simp only [Keeps, State.kern_mk, State.kern_fold]
    | split

theorem State.yardRing_keeps (s : State) (ring : Ring) : Keeps s (State.yardRing s ring).1 := by
  unfold State.yardRing
  try dsimp only
  repeat' first
    | with_reducible exact Kern.To.rfl
    | with_reducible apply Kern.To.trans _ (State.yardCheck_keeps _ _ _)
    | with_reducible apply Kern.To.trans _ (State.log0_keeps _ _ _ _)
    | simp only [Keeps, State.kern_mk, State.kern_fold]
    | split

theorem State.relWrite_keeps (s : State) (c : Fin 16) (a : Nat) (b : List Byte) : Keeps s (State.relWrite s c a b) := by
  unfold State.relWrite
  try dsimp only
  repeat' first
    | with_reducible exact Kern.To.rfl
    | with_reducible apply Kern.To.trans _ (State.onRel_keeps _ _ _)
    | with_reducible apply Kern.To.trans _ (State.gangWrite_keeps _ _ _ _ _ _ _)
    | simp only [Keeps, State.kern_mk, State.kern_fold]
    | split

theorem State.siteWrite_keeps (s : State) (r : RingSite) (a : Nat) (b : List Byte) : Keeps s (State.siteWrite s r a b) := by
  unfold State.siteWrite
  try dsimp only
  repeat' first
    | with_reducible exact Kern.To.rfl
    | with_reducible apply Kern.To.trans _ (State.relWrite_keeps _ _ _ _)
    | simp only [Keeps, State.kern_mk, State.kern_fold]
    | split

theorem State.putHead_keeps (s : State) (r : RingSite) (u : RingUse) : Keeps s (State.putHead s r u).1 := by
  unfold State.putHead
  try dsimp only
  repeat' first
    | with_reducible exact Kern.To.rfl
    | with_reducible apply Kern.To.trans _ (State.siteWrite_keeps _ _ _ _)
    | with_reducible apply Kern.To.trans _ (State.setUse_keeps _ _ _)
    | with_reducible apply Kern.To.trans _ (State.request_keeps _ _)
    | simp only [Keeps, State.kern_mk, State.kern_fold]
    | split

theorem Keeps.siteWrites (r : RingSite) (l : List (Nat × List Byte)) (s : State) :
    Keeps s (l.foldl (fun (s : State) w => s.siteWrite r w.1 w.2) s) := by
  refine Keeps.foldl (fun (t : State) (w : Nat × List Byte) => t.siteWrite r w.1 w.2) (fun t w => ?_) l s
  exact t.siteWrite_keeps r w.1 w.2

theorem State.placeRecords_keeps (f : Nat) : ∀ (s : State) (r : RingSite) (u : RingUse), Keeps s (State.placeRecords f s r u) := by
  induction f with
  | zero => exact fun _ _ _ => .rfl
  | succ f ih =>
    intro s r u
    simp only [State.placeRecords]
    split
    · exact s.setUse_keeps r none
    · split
      · exact s.setUse_keeps r _
      · next ws nh _ =>
        split
        · generalize hy : List.foldl _ s _ = t
          have h : Keeps s t := by rw [← hy]; exact Keeps.siteWrites r _ s
          clear hy
          split
          · exact h.trans (State.setUse_keeps _ _ _)
          · have k := h.trans (t.putHead_keeps r { u with newHead := nh })
            split
            · with_reducible apply Kern.To.trans _ (ih _ _ _)
              with_reducible apply Kern.To.trans _ (State.popItem_keeps _ _)
              exact k
            · exact k
        · exact (s.setUse_keeps r _).trans (State.request_keeps _ _)

theorem State.takeRing_keeps (s : State) (r : RingSite) : Keeps s (State.takeRing s r) := by
  unfold State.takeRing
  try dsimp only
  repeat' first
    | with_reducible exact Kern.To.rfl
    | with_reducible apply Kern.To.trans _ (State.placeRecords_keeps _ _ _ _)
    | with_reducible apply Kern.To.trans _ (State.yardRing_keeps _ _)
    | with_reducible apply Kern.To.trans _ (State.readRing_keeps _ _ _)
    | with_reducible apply Kern.To.trans _ (State.setUse_keeps _ _ _)
    | simp only [Keeps, State.kern_mk, State.kern_fold]
    | split

theorem State.returnCredits_keeps (s : State) (l : List (Nat × Nat × Nat)) : Keeps s (State.returnCredits s l) := by
  unfold State.returnCredits
  try dsimp only
  repeat' first
    | with_reducible exact Kern.To.rfl
    | simp only [Keeps, State.kern_mk, State.kern_fold]
    | with_reducible refine Kern.To.trans ?_ (Keeps.foldl _ (fun _ _ => ?_) _ _)
    | split

theorem State.complete_keeps (s : State) (c : Fin 16) : Keeps s (State.complete s c) := by
  unfold State.complete
  try dsimp only
  repeat' first
    | with_reducible exact Kern.To.rfl
    | with_reducible apply Kern.To.trans _ (State.returnCredits_keeps _ _)
    | with_reducible apply Kern.To.trans _ (State.send_keeps _ _ _)
    | with_reducible apply Kern.To.trans _ (State.onChan_keeps _ _ _)
    | simp only [Keeps, State.kern_mk, State.kern_fold]
    | split

theorem State.releaseGo_keeps (f : Nat) : ∀ (s : State) (c : Fin 16), Keeps s (State.releaseGo f s c) := by
  induction f with
  | zero => exact fun _ _ => .rfl
  | succ f ih =>
    intro s c
    simp only [State.releaseGo]
    repeat' first
      | exact .rfl
      | exact s.complete_keeps c
      | with_reducible apply Kern.To.trans _ (ih _ _)
      | with_reducible apply Kern.To.trans _ (State.request_keeps _ _)
      | with_reducible apply Kern.To.trans _ (State.onRel_keeps _ _ _)
      | with_reducible apply Kern.To.trans _ (State.relWrite_keeps _ _ _ _)
      | with_reducible apply Kern.To.trans _ (State.takeRing_keeps _ _)
      | split

theorem State.pumpRings_keeps (s : State) : Keeps s (State.pumpRings s) := by
  unfold State.pumpRings
  try dsimp only
  repeat' first
    | with_reducible exact Kern.To.rfl
    | with_reducible apply Kern.To.trans _ (State.releaseGo_keeps _ _ _)
    | with_reducible apply Kern.To.trans _ (State.takeRing_keeps _ _)
    | simp only [Keeps, State.kern_mk, State.kern_fold]
    | with_reducible refine Kern.To.trans ?_ (Keeps.foldl _ (fun _ _ => ?_) _ _)
    | split

theorem State.ringDropped_keeps (s : State) : Keeps s (State.ringDropped s) := by
  unfold State.ringDropped
  try dsimp only
  repeat' first
    | with_reducible exact Kern.To.rfl
    | with_reducible apply Kern.To.trans _ (State.pumpRings_keeps _)
    | simp only [Keeps, State.kern_mk, State.kern_fold]
    | split

theorem State.disown_keeps (s : State) (f : Use → Bool) : Keeps s (State.disown s f) := by
  unfold State.disown
  try dsimp only
  repeat' first
    | with_reducible exact Kern.To.rfl
    | simp only [Keeps, State.kern_mk, State.kern_fold]
    | split

theorem State.giveUp_keeps (s : State) (u : Use) : Keeps s (State.giveUp s u) := by
  unfold State.giveUp
  try dsimp only
  repeat' first
    | with_reducible exact Kern.To.rfl
    | with_reducible apply Kern.To.trans _ (State.disown_keeps _ _)
    | with_reducible apply Kern.To.trans _ (State.onChan_keeps _ _ _)
    | simp only [Keeps, State.kern_mk, State.kern_fold]
    | split

theorem State.retryWrite_keeps (s : State) (q : MemReq) (code : Nat) (detail : Nat) : Keeps s (State.retryWrite s q code detail) := by
  unfold State.retryWrite
  try dsimp only
  repeat' first
    | with_reducible exact Kern.To.rfl
    | with_reducible apply Kern.To.trans _ (State.giveUp_keeps _ _)
    | with_reducible apply Kern.To.trans _ (State.ringDropped_keeps _)
    | with_reducible apply Kern.To.trans _ (State.pumpRings_keeps _)
    | with_reducible apply Kern.To.trans _ (State.instanceFault_keeps _ _)
    | with_reducible apply Kern.To.trans _ (State.request_keeps _ _)
    | with_reducible apply Kern.To.trans _ (State.log0_keeps _ _ _ _)
    | simp only [Keeps, State.kern_mk, State.kern_fold]
    | split

theorem State.recordPlaced_keeps (s : State) (r : RingSite) (u : RingUse) : Keeps s (State.recordPlaced s r u) := by
  unfold State.recordPlaced
  try dsimp only
  repeat' first
    | with_reducible exact Kern.To.rfl
    | with_reducible apply Kern.To.trans _ (State.placeRecords_keeps _ _ _ _)
    | with_reducible apply Kern.To.trans _ (State.pumpRings_keeps _)
    | with_reducible apply Kern.To.trans _ (State.popItem_keeps _ _)
    | with_reducible apply Kern.To.trans _ (State.setUse_keeps _ _ _)
    | with_reducible apply Kern.To.trans _ (State.touchPart_keeps _ _)
    | simp only [Keeps, State.kern_mk, State.kern_fold]
    | split

theorem State.headWritten_keeps (s : State) (r : RingSite) : Keeps s (State.headWritten s r) := by
  unfold State.headWritten
  try dsimp only
  repeat' first
    | with_reducible exact Kern.To.rfl
    | with_reducible apply Kern.To.trans _ (State.recordPlaced_keeps _ _ _)
    | with_reducible apply Kern.To.trans _ (State.ringDropped_keeps _)
    | simp only [Keeps, State.kern_mk, State.kern_fold]
    | split

theorem State.recordWritten_keeps (s : State) (r : RingSite) : Keeps s (State.recordWritten s r) := by
  unfold State.recordWritten
  try dsimp only
  repeat' first
    | with_reducible exact Kern.To.rfl
    | with_reducible apply Kern.To.trans _ (State.recordPlaced_keeps _ _ _)
    | with_reducible apply Kern.To.trans _ (State.ringDropped_keeps _)
    | with_reducible apply Kern.To.trans _ (State.putHead_keeps _ _ _)
    | with_reducible apply Kern.To.trans _ (State.setUse_keeps _ _ _)
    | simp only [Keeps, State.kern_mk, State.kern_fold]
    | split

theorem State.keepRing_keeps (s : State) (blk : List Byte) : Keeps s (State.keepRing s blk) := by
  unfold State.keepRing
  try dsimp only
  repeat' first
    | with_reducible exact Kern.To.rfl
    | with_reducible apply Kern.To.trans _ (State.setJob_keeps _ _ _)
    | simp only [Keeps, State.kern_mk, State.kern_fold]
    | split

theorem State.passOver_keeps (s : State) (r : RingSite) : Keeps s (s.passOver r) := by
  cases r with
  | shave c => exact State.onRel_keeps _ _ _
  | pole c => exact State.onRel_keeps _ _ _
  | offcut => exact Kern.To.rfl

theorem State.ringRead_keeps (s : State) (r : RingSite) (addr : Nat) (b : List Byte) : Keeps s (State.ringRead s r addr b) := by
  unfold State.ringRead
  try dsimp only
  repeat' first
    | with_reducible exact Kern.To.rfl
    | with_reducible apply Kern.To.trans _ (State.placeRecords_keeps _ _ _ _)
    | with_reducible apply Kern.To.trans _ (State.keepRing_keeps _ _)
    | with_reducible apply Kern.To.trans _ (State.passOver_keeps _ _)
    | with_reducible apply Kern.To.trans _ (State.ringDropped_keeps _)
    | with_reducible apply Kern.To.trans _ (State.pumpRings_keeps _)
    | with_reducible apply Kern.To.trans _ (State.setUse_keeps _ _ _)
    | simp only [Keeps, State.kern_mk, State.kern_fold]
    | split

theorem State.recordAcked_keeps (s : State) (c : Fin 16) : Keeps s (State.recordAcked s c) := by
  unfold State.recordAcked
  try dsimp only
  repeat' first
    | with_reducible exact Kern.To.rfl
    | with_reducible apply Kern.To.trans _ (State.pumpRings_keeps _)
    | with_reducible apply Kern.To.trans _ (State.complete_keeps _ _)
    | simp only [Keeps, State.kern_mk, State.kern_fold]
    | split

theorem State.releaseTile_keeps (s : State) (c : Fin 16) (x : Nat × Nat × Nat) : Keeps s (State.releaseTile s c x) := by
  unfold State.releaseTile
  try dsimp only
  repeat' first
    | with_reducible exact Kern.To.rfl
    | with_reducible apply Kern.To.trans _ (State.recordAcked_keeps _ _)
    | with_reducible apply Kern.To.trans _ (State.recordWritten_keeps _ _)
    | with_reducible apply Kern.To.trans _ (State.headWritten_keeps _ _)
    | with_reducible apply Kern.To.trans _ (State.onRel_keeps _ _ _)
    | simp only [Keeps, State.kern_mk, State.kern_fold]
    | split

theorem State.jobSend_keeps (s : State) (j : Job) (cls : Nat) (dest : Nat) (body : List Byte) : Keeps s (State.jobSend s j cls dest body) := by
  unfold State.jobSend
  try dsimp only
  repeat' first
    | with_reducible exact Kern.To.rfl
    | with_reducible apply Kern.To.trans _ (State.netSend_keeps _ _ _)
    | simp only [Keeps, State.kern_mk, State.kern_fold]
    | split

theorem State.writePieces_keeps (s : State) (p : Part) (ps : List Piece) : Keeps s (State.writePieces s p ps) := by
  unfold State.writePieces
  try dsimp only
  repeat' first
    | with_reducible exact Kern.To.rfl
    | with_reducible apply Kern.To.trans _ (State.gangWrite_keeps _ _ _ _ _ _ _)
    | with_reducible apply Kern.To.trans _ (State.request_keeps _ _)
    | with_reducible apply Kern.To.trans _ (State.setJob_keeps _ _ _)
    | simp only [Keeps, State.kern_mk, State.kern_fold]
    | with_reducible refine Kern.To.trans ?_ (Keeps.foldl _ (fun _ _ => ?_) _ _)
    | split

theorem State.openTallies_keeps (s : State) (p : Part) (d : Desc) : Keeps s (State.openTallies s p d) := by
  unfold State.openTallies
  try dsimp only
  repeat' first
    | with_reducible exact Kern.To.rfl
    | simp only [Keeps, State.kern_mk, State.kern_fold]
    | split

theorem State.keepTallies_keeps (s : State) (p : Part) (l : List ((Nat × Nat) × Agg)) : Keeps s (State.keepTallies s p l) := by
  unfold State.keepTallies
  try dsimp only
  repeat' first
    | with_reducible exact Kern.To.rfl
    | simp only [Keeps, State.kern_mk, State.kern_fold]
    | with_reducible refine Kern.To.trans ?_ (Keeps.foldl _ (fun _ _ => ?_) _ _)
    | split

theorem State.gatherStage_keeps (s : State) (p : Part) (j : Job) : Keeps s (State.gatherStage s p j) := by
  unfold State.gatherStage
  try dsimp only
  repeat' first
    | with_reducible exact Kern.To.rfl
    | with_reducible apply Kern.To.trans _ (State.keepTallies_keeps _ _ _)
    | with_reducible apply Kern.To.trans _ (State.writePieces_keeps _ _ _)
    | with_reducible apply Kern.To.trans _ (State.jobSend_keeps _ _ _ _ _)
    | with_reducible apply Kern.To.trans _ (State.setJob_keeps _ _ _)
    | simp only [Keeps, State.kern_mk, State.kern_fold]
    | with_reducible refine Kern.To.trans ?_ (Keeps.foldl _ (fun _ _ => ?_) _ _)
    | split

theorem State.closeStage_keeps (s : State) (p : Part) (j : Job) : Keeps s (State.closeStage s p j) := by
  unfold State.closeStage
  try dsimp only
  repeat' first
    | with_reducible exact Kern.To.rfl
    | with_reducible apply Kern.To.trans _ (State.jobSend_keeps _ _ _ _ _)
    | with_reducible apply Kern.To.trans _ (State.setJob_keeps _ _ _)
    | simp only [Keeps, State.kern_mk, State.kern_fold]
    | with_reducible refine Kern.To.trans ?_ (Keeps.foldl _ (fun _ _ => ?_) _ _)
    | split

theorem State.checkYards_keeps (s : State) (j : Job) (l : List (Nat × Nat × Nat)) : Keeps s (s.checkYards j l).1 := by
  unfold State.checkYards
  refine Keeps.foldlFst _ (fun q b => ?_) _ (s, none)
  split
  · exact .rfl
  · exact State.yardCheck_keeps _ _ _

theorem State.readYards_keeps (s : State) (j : Job) : Keeps s (s.readYards j).1 := by
  unfold State.readYards
  exact s.checkYards_keeps j _

theorem State.readCurve_keeps (s : State) (p : Part) (d : Desc) : Keeps s (s.readCurve p d).1 := by
  unfold State.readCurve
  split
  · exact .rfl
  · exact Kern.To.trans (b := State.kern { s with bays := _ }) Kern.To.rfl (Keeps.foldl _ (fun t _ => t.corrected_keeps _ _) _ _)

theorem State.readTallies_keeps (s : State) (p : Part) (d : Desc) : Keeps s (s.readTallies p d).1 := by
  unfold State.readTallies
  split
  · exact .rfl
  · dsimp only
    generalize ht : List.foldl _ _ _ = t
    have h : Keeps s t := by
      rw [← ht]
      exact Kern.To.trans (b := State.kern { s with bays := _ }) Kern.To.rfl (Keeps.foldl _ (fun t _ => t.corrected_keeps _ _) _ _)
    exact h

theorem State.readCopies_keeps (k : Nat) (l : List Nat) : ∀ s : State, Keeps s (s.readCopies k l).1 := by
  induction l with
  | nil => exact fun _ => .rfl
  | cons b l ih =>
    intro s
    unfold State.readCopies
    split
    · exact s.countUE_keeps.trans (ih _)
    · split
      · exact Kern.To.trans (b := State.kern { s with bays := _ }) Kern.To.rfl (State.corrected_keeps _ _ _)
      · exact .rfl

theorem State.restoreCurve_keeps (s : State) (w : Nat × Nat) : Keeps s (s.restoreCurve w).1 := by
  have h := State.readCopies_keeps w.2 (s.bays.enabled.filter (· != w.1)) s
  unfold State.restoreCurve
  dsimp only
  split
  · exact h.trans Kern.To.rfl
  · exact h

theorem State.readStores_keeps (s : State) (p : Part) (j : Job) : Keeps s (s.readStores p j).1 := by
  unfold State.readStores
  dsimp only
  have hy := s.readYards_keeps j
  have hc := hy.trans (State.readCurve_keeps _ p j.d)
  have hu := hc.trans (State.countUE_keeps _)
  have hq := hc.trans (State.readTallies_keeps _ p j.d)
  split
  · exact hy.trans (State.faultPart_keeps _ _ _ _ _ _)
  · split
    · split
      · exact (hu.trans (State.restoreCurve_keeps _ _)).trans (State.instanceFault_keeps _ _)
      · exact (hu.trans (State.restoreCurve_keeps _ _)).trans (State.faultPart_keeps _ _ _ _ _ _)
    · split
      · exact (hq.trans (State.countUE_keeps _)).trans (State.faultPart_keeps _ _ _ _ _ _)
      · exact hq

theorem State.queueOffcut_keeps (s : State) (p : Part) (ring : List Byte) (recs : List (List Byte)) : Keeps s (State.queueOffcut s p ring recs) := by
  unfold State.queueOffcut
  try dsimp only
  repeat' first
    | with_reducible exact Kern.To.rfl
    | with_reducible apply Kern.To.trans _ (State.takeRing_keeps _ _)
    | simp only [Keeps, State.kern_mk, State.kern_fold]
    | split

theorem State.captureHead_keeps (s : State) (p : Part) (j : Job) : Keeps s (State.captureHead s p j) := by
  unfold State.captureHead
  try dsimp only
  repeat' first
    | with_reducible exact Kern.To.rfl
    | with_reducible apply Kern.To.trans _ (State.queueOffcut_keeps _ _ _ _)
    | simp only [Keeps, State.kern_mk, State.kern_fold]
    | split

theorem State.conclude_keeps (s : State) (p : Part) (j : Job) : Keeps s (State.conclude s p j) := by
  unfold State.conclude
  try dsimp only
  repeat' first
    | with_reducible exact Kern.To.rfl
    | with_reducible apply Kern.To.trans _ (State.writePieces_keeps _ _ _)
    | with_reducible apply Kern.To.trans _ (State.jobSend_keeps _ _ _ _ _)
    | with_reducible apply Kern.To.trans _ (State.setJob_keeps _ _ _)
    | simp only [Keeps, State.kern_mk, State.kern_fold]
    | with_reducible refine Kern.To.trans ?_ (Keeps.foldl _ (fun _ _ => ?_) _ _)
    | split

theorem State.captureOn_keeps (f : Nat) : ∀ (s : State) (p : Part), Keeps s (State.captureOn f s p) := by
  induction f with
  | zero => exact fun _ _ => .rfl
  | succ f ih =>
    intro s p
    simp only [State.captureOn]
    repeat' first
      | exact .rfl
      | with_reducible apply Kern.To.trans _ (ih _ _)
      | with_reducible apply Kern.To.trans _ (State.queueOffcut_keeps _ _ _ _)
      | with_reducible apply Kern.To.trans _ (State.setJob_keeps _ _ _)
      | with_reducible apply Kern.To.trans _ (State.request_keeps _ _)
      | split

theorem State.settle_keeps (s : State) (p : Part) (j : Job) (t : State) (h : s.settle p j = some t) : Keeps s t := by
  unfold State.settle at h
  dsimp only at h
  split at h
  · cases h
  · split at h
    · cases h; exact (s.setJob_keeps _ _).trans (State.writePieces_keeps _ _ _)
    · split at h
      · cases h
      · generalize hw : State.checkYards s j _ = w at h
        have hk : Keeps s w.1 := hw ▸ s.checkYards_keeps _ _
        generalize hy : (if w.2.isSome = true then w else _) = y at h
        have hy : Keeps s y.1 := by
          rw [← hy]
          split
          · exact hk
          · exact hk.trans (State.checkYards_keeps _ _ _)
        split at h
        · cases h; exact hy.trans (State.faultPart_keeps _ _ _ _ _ _)
        · cases h; exact (hy.trans (State.setJob_keeps _ _ _)).trans (State.request_keeps _ _)

theorem State.backStep_keeps (s : State) (p : Part) (j : Job) (n : Nat) : Keeps s (State.backStep s p j n).1 := by
  unfold State.backStep
  try dsimp only
  repeat' first
    | with_reducible exact Kern.To.rfl
    | with_reducible apply Kern.To.trans _ (State.checkYards_keeps _ _ _)
    | with_reducible apply Kern.To.trans _ (State.faultPart_keeps _ _ _ _ _ _)
    | with_reducible apply Kern.To.trans _ (State.request_keeps _ _)
    | with_reducible apply Kern.To.trans _ (State.setJob_keeps _ _ _)
    | simp only [Keeps, State.kern_mk, State.kern_fold]
    | split

theorem State.progress_keeps (f : Nat) : ∀ (s : State) (p : Part), Keeps s (State.progress f s p) := by
  induction f with
  | zero => exact fun _ _ => .rfl
  | succ f ih =>
    intro s p
    simp only [State.progress]
    repeat' first
      | with_reducible exact Kern.To.rfl
      | with_reducible exact s.captureOn_keeps _ _
      | with_reducible exact s.readStores_keeps _ _
      | with_reducible exact s.backStep_keeps _ _ _
      | next h => with_reducible exact s.settle_keeps _ _ _ h
      | with_reducible apply Kern.To.trans _ (ih _ _)
      | with_reducible apply Kern.To.trans _ (State.undefine_keeps _ _)
      | with_reducible apply Kern.To.trans _ (State.setJob_keeps _ _ _)
      | with_reducible apply Kern.To.trans _ (State.request_keeps _ _)
      | with_reducible apply Kern.To.trans _ (State.conclude_keeps _ _ _)
      | with_reducible apply Kern.To.trans _ (State.gatherStage_keeps _ _ _)
      | with_reducible apply Kern.To.trans _ (State.closeStage_keeps _ _ _)
      | split

theorem State.progressAll_keeps (s : State) : Keeps s (State.progressAll s) := by
  unfold State.progressAll
  try dsimp only
  repeat' first
    | with_reducible exact Kern.To.rfl
    | with_reducible apply Kern.To.trans _ (State.progress_keeps _ _ _)
    | simp only [Keeps, State.kern_mk, State.kern_fold]
    | with_reducible refine Kern.To.trans ?_ (Keeps.foldl _ (fun _ _ => ?_) _ _)
    | split

theorem State.launch_keeps (s : State) (p : Part) (j : Job) : Keeps s (State.launch s p j) := by
  unfold State.launch
  try dsimp only
  repeat' first
    | with_reducible exact Kern.To.rfl
    | with_reducible apply Kern.To.trans _ (State.progress_keeps _ _ _)
    | with_reducible apply Kern.To.trans _ (State.conclude_keeps _ _ _)
    | with_reducible apply Kern.To.trans _ (State.captureHead_keeps _ _ _)
    | with_reducible apply Kern.To.trans _ (State.openTallies_keeps _ _ _)
    | with_reducible apply Kern.To.trans _ (State.request_keeps _ _)
    | with_reducible apply Kern.To.trans _ (State.setJob_keeps _ _ _)
    | simp only [Keeps, State.kern_mk, State.kern_fold]
    | split

theorem State.takeCredits_keeps (s : State) (c : Fin 16) (e : Entry) : Keeps s (s.takeCredits c e).1 := by
  unfold State.takeCredits
  split
  · exact .rfl
  · exact Kern.To.rfl

theorem State.startHead_keeps (s : State) (c : Fin 16) : Keeps s (State.startHead s c) := by
  unfold State.startHead
  try dsimp only
  repeat' first
    | with_reducible apply Kern.To.trans _ (State.takeCredits_keeps _ _ _)
    | with_reducible exact Kern.To.rfl
    | with_reducible apply Kern.To.trans _ (State.takeCredits_keeps _ _ _)
    | with_reducible apply Kern.To.trans _ (State.launch_keeps _ _ _)
    | with_reducible apply Kern.To.trans _ (State.jobSend_keeps _ _ _ _ _)
    | with_reducible apply Kern.To.trans _ (State.onHead_keeps _ _ _)
    | with_reducible apply Kern.To.trans _ (State.onChan_keeps _ _ _)
    | simp only [Keeps, State.kern_mk, State.kern_fold]
    | with_reducible refine Kern.To.trans ?_ (Keeps.foldl _ (fun _ _ => ?_) _ _)
    | split

theorem State.discard_keeps (s : State) (e : Envelope) : Keeps s (State.discard s e) := by
  unfold State.discard
  try dsimp only
  repeat' first
    | with_reducible exact Kern.To.rfl
    | with_reducible apply Kern.To.trans _ (State.logRaw_keeps _ _)
    | simp only [Keeps, State.kern_mk, State.kern_fold]
    | split

theorem State.takeReturns_keeps (s : State) (x : Share) : Keeps s (State.takeReturns s x) := by
  unfold State.takeReturns
  try dsimp only
  refine Kern.To.trans ?_ (Keeps.foldl _ (fun (t : State) (e : Envelope × List Byte) => State.discard_keeps t e.1) _ _)
  simp only [State.kern_mk, State.kern_fold]
  exact Kern.To.rfl

theorem State.startShare_keeps (s : State) (x : Share) : Keeps s (State.startShare s x) := by
  unfold State.startShare
  try dsimp only
  repeat' first
    | with_reducible exact Kern.To.rfl
    | with_reducible apply Kern.To.trans _ (State.launch_keeps _ _ _)
    | with_reducible apply Kern.To.trans _ (State.takeReturns_keeps _ _)
    | with_reducible apply Kern.To.trans _ (State.countUE_keeps _)
    | with_reducible apply Kern.To.trans _ (State.faultPart_keeps _ _ _ _ _ _)
    | with_reducible apply Kern.To.trans _ (State.corrected_keeps _ _ _)
    | with_reducible apply Kern.To.trans _ (State.setJob_keeps _ _ _)
    | simp only [Keeps, State.kern_mk, State.kern_fold]
    | with_reducible refine Kern.To.trans ?_ (Keeps.foldl _ (fun _ _ => ?_) _ _)
    | split

theorem State.checkQuiesce_keeps (s : State) : Keeps s (State.checkQuiesce s) := by
  unfold State.checkQuiesce
  try dsimp only
  repeat' first
    | with_reducible exact Kern.To.rfl
    | with_reducible apply Kern.To.trans _ (State.irq_keeps _ _)
    | simp only [Keeps, State.kern_mk, State.kern_fold]
    | split

theorem State.retireHead_keeps (s : State) (c : Fin 16) (j : Job) : Keeps s (State.retireHead s c j) := by
  unfold State.retireHead
  try dsimp only
  repeat' first
    | with_reducible exact Kern.To.rfl
    | with_reducible apply Kern.To.trans _ (State.checkQuiesce_keeps _)
    | with_reducible apply Kern.To.trans _ (State.hold_keeps _ _ _)
    | with_reducible apply Kern.To.trans _ (State.popHead_keeps _ _)
    | simp only [Keeps, State.kern_mk, State.kern_fold]
    | split

theorem State.dropShare_keeps (s : State) (n : Nat) : Keeps s (State.dropShare s n) := by
  unfold State.dropShare
  try dsimp only
  repeat' first
    | with_reducible exact Kern.To.rfl
    | simp only [Keeps, State.kern_mk, State.kern_fold]
    | split

theorem State.retireShare_keeps (s : State) (n : Nat) (j : Job) : Keeps s (State.retireShare s n j) := by
  unfold State.retireShare
  try dsimp only
  repeat' first
    | with_reducible exact Kern.To.rfl
    | with_reducible apply Kern.To.trans _ (State.dropShare_keeps _ _)
    | with_reducible apply Kern.To.trans _ (State.checkQuiesce_keeps _)
    | with_reducible apply Kern.To.trans _ (State.jobSend_keeps _ _ _ _ _)
    | simp only [Keeps, State.kern_mk, State.kern_fold]
    | split

theorem State.retireAt_keeps (s : State) (j : Job) : Keeps s (State.retireAt s j) := by
  unfold State.retireAt
  try dsimp only
  repeat' first
    | with_reducible exact Kern.To.rfl
    | with_reducible apply Kern.To.trans _ (State.untilArith_keeps _ _)
    | simp only [Keeps, State.kern_mk, State.kern_fold]
    | split

theorem State.retire_keeps (s : State) (p : Part) (j : Job) : Keeps s (State.retire s p j) := by
  unfold State.retire
  try dsimp only
  repeat' first
    | with_reducible exact Kern.To.rfl
    | with_reducible apply Kern.To.trans _ (State.retireShare_keeps _ _ _)
    | with_reducible apply Kern.To.trans _ (State.retireHead_keeps _ _ _)
    | simp only [Keeps, State.kern_mk, State.kern_fold]
    | split

theorem State.writeTile_keeps (s : State) (e : Envelope) (off : Nat) (b : List Byte) : Keeps s (State.writeTile s e off b) := by
  unfold State.writeTile
  try dsimp only
  repeat' first
    | with_reducible exact Kern.To.rfl
    | with_reducible apply Kern.To.trans _ (State.netSend_keeps _ _ _)
    | with_reducible apply Kern.To.trans _ (State.yardWrite_keeps _ _ _)
    | simp only [Keeps, State.kern_mk, State.kern_fold]
    | split

theorem State.refuse_keeps (s : State) (src : Nat) (msg : List Byte) (status : Nat) : Keeps s (State.refuse s src msg status) := by
  unfold State.refuse
  try dsimp only
  repeat' first
    | with_reducible exact Kern.To.rfl
    | with_reducible apply Kern.To.trans _ (State.send_keeps _ _ _)
    | simp only [Keeps, State.kern_mk, State.kern_fold]
    | split

theorem State.queuePost_keeps (s : State) (c : Fin 16) (msg : List Byte) : Keeps s (State.queuePost s c msg) := by
  unfold State.queuePost
  try dsimp only
  repeat' first
    | with_reducible exact Kern.To.rfl
    | with_reducible apply Kern.To.trans _ (State.onChan_keeps _ _ _)
    | simp only [Keeps, State.kern_mk, State.kern_fold]
    | split

theorem State.ringDoorbell_keeps (s : State) (c : Fin 16) (n : Nat) : Keeps s (State.ringDoorbell s c n) := by
  unfold State.ringDoorbell
  try dsimp only
  repeat' first
    | with_reducible exact Kern.To.rfl
    | with_reducible apply Kern.To.trans _ (State.onChan_keeps _ _ _)
    | simp only [Keeps, State.kern_mk, State.kern_fold]
    | split

theorem State.acceptMsg_keeps (s : State) (src : Nat) (msg : List Byte) (parityOk : Bool) : Keeps s (State.acceptMsg s src msg parityOk) := by
  unfold State.acceptMsg
  try dsimp only
  repeat' first
    | with_reducible exact Kern.To.rfl
    | with_reducible apply Kern.To.trans _ (State.ringDoorbell_keeps _ _ _)
    | with_reducible apply Kern.To.trans _ (State.queuePost_keeps _ _ _)
    | with_reducible apply Kern.To.trans _ (State.refuse_keeps _ _ _ _)
    | with_reducible apply Kern.To.trans _ (State.log0_keeps _ _ _ _)
    | simp only [Keeps, State.kern_mk, State.kern_fold]
    | split

theorem State.inbound_keeps (s : State) (src : Nat) (msg : List Byte) (parityOk : Bool) : Keeps s (State.inbound s src msg parityOk) := by
  unfold State.inbound
  try dsimp only
  repeat' first
    | with_reducible exact Kern.To.rfl
    | with_reducible apply Kern.To.trans _ (State.acceptMsg_keeps _ _ _ _)
    | simp only [Keeps, State.kern_mk, State.kern_fold]
    | split

theorem State.takeHeldOff_keeps (s : State) : Keeps s (State.takeHeldOff s) := by
  unfold State.takeHeldOff
  try dsimp only
  repeat' first
    | with_reducible exact Kern.To.rfl
    | with_reducible apply Kern.To.trans _ (State.acceptMsg_keeps _ _ _ _)
    | simp only [Keeps, State.kern_mk, State.kern_fold]
    | with_reducible refine Kern.To.trans ?_ (Keeps.foldl _ (fun _ _ => ?_) _ _)
    | split

theorem State.blockArrived_keeps (s : State) (c : Fin 16) (blk : Nat) (data : List Byte) : Keeps s (State.blockArrived s c blk data) := by
  unfold State.blockArrived
  try dsimp only
  repeat' first
    | with_reducible exact Kern.To.rfl
    | with_reducible apply Kern.To.trans _ (State.finishValidation_keeps _ _)
    | with_reducible apply Kern.To.trans _ (State.onChan_keeps _ _ _)
    | simp only [Keeps, State.kern_mk, State.kern_fold]
    | split

theorem State.blockError_keeps (s : State) (c : Fin 16) (addr : Nat) : Keeps s (State.blockError s c addr) := by
  unfold State.blockError
  try dsimp only
  repeat' first
    | with_reducible exact Kern.To.rfl
    | with_reducible apply Kern.To.trans _ (State.faultHead_keeps _ _ _ _ _ _ _ _)
    | simp only [Keeps, State.kern_mk, State.kern_fold]
    | split

theorem State.blockChunk_keeps (s : State) (c : Fin 16) (blk : Nat) (addr : Nat) (data : List Byte) : Keeps s (State.blockChunk s c blk addr data) := by
  unfold State.blockChunk
  try dsimp only
  repeat' first
    | with_reducible exact Kern.To.rfl
    | with_reducible apply Kern.To.trans _ (State.blockArrived_keeps _ _ _ _)
    | with_reducible apply Kern.To.trans _ (State.onChan_keeps _ _ _)
    | simp only [Keeps, State.kern_mk, State.kern_fold]
    | split

theorem State.blockReadDone_keeps (s : State) (c : Fin 16) (blk : Nat) (err : Bool) (data : List Byte) : Keeps s (State.blockReadDone s c blk err data) := by
  unfold State.blockReadDone
  try dsimp only
  repeat' first
    | with_reducible exact Kern.To.rfl
    | with_reducible apply Kern.To.trans _ (State.blockError_keeps _ _ _)
    | with_reducible apply Kern.To.trans _ (State.blockArrived_keeps _ _ _ _)
    | with_reducible apply Kern.To.trans _ (State.reissue_keeps _)
    | simp only [Keeps, State.kern_mk, State.kern_fold]
    | split

theorem State.readFault_keeps (s : State) (p : Part) (code : Nat) (detail : Nat) : Keeps s (State.readFault s p code detail) := by
  unfold State.readFault
  try dsimp only
  repeat' first
    | with_reducible exact Kern.To.rfl
    | with_reducible apply Kern.To.trans _ (State.faultPart_keeps _ _ _ _ _ _)
    | with_reducible apply Kern.To.trans _ (State.log0_keeps _ _ _ _)
    | simp only [Keeps, State.kern_mk, State.kern_fold]
    | split

theorem State.chunkIn_keeps (s : State) (p : Part) (addr : Nat) (data : List Byte) : Keeps s (State.chunkIn s p addr data) := by
  unfold State.chunkIn
  try dsimp only
  repeat' first
    | with_reducible exact Kern.To.rfl
    | with_reducible apply Kern.To.trans _ (State.progress_keeps _ _ _)
    | with_reducible apply Kern.To.trans _ (State.setJob_keeps _ _ _)
    | simp only [Keeps, State.kern_mk, State.kern_fold]
    | split

theorem State.readAnswered_keeps (s : State) (q : MemReq) (data : List Byte) (bad : Option (Nat × Nat)) : Keeps s (State.readAnswered s q data bad) := by
  unfold State.readAnswered
  try dsimp only
  repeat' first
    | with_reducible exact Kern.To.rfl
    | with_reducible apply Kern.To.trans _ (State.chunkIn_keeps _ _ _ _)
    | with_reducible apply Kern.To.trans _ (State.readFault_keeps _ _ _ _)
    | with_reducible apply Kern.To.trans _ (State.blockChunk_keeps _ _ _ _ _)
    | with_reducible apply Kern.To.trans _ (State.progressAll_keeps _)
    | with_reducible apply Kern.To.trans _ (State.ringRead_keeps _ _ _ _)
    | with_reducible apply Kern.To.trans _ (State.ringDropped_keeps _)
    | with_reducible apply Kern.To.trans _ (State.readRing_keeps _ _ _)
    | with_reducible apply Kern.To.trans _ (State.faultHead_keeps _ _ _ _ _ _ _ _)
    | with_reducible apply Kern.To.trans _ (State.log0_keeps _ _ _ _)
    | simp only [Keeps, State.kern_mk, State.kern_fold]
    | split

theorem State.writeFailed_keeps (s : State) (q : MemReq) (code : Nat) (detail : Nat) : Keeps s (State.writeFailed s q code detail) := by
  unfold State.writeFailed
  try dsimp only
  repeat' first
    | with_reducible exact Kern.To.rfl
    | with_reducible apply Kern.To.trans _ (State.readFault_keeps _ _ _ _)
    | with_reducible apply Kern.To.trans _ (State.retryWrite_keeps _ _ _ _)
    | with_reducible apply Kern.To.trans _ (State.request_keeps _ _)
    | with_reducible apply Kern.To.trans _ (State.log0_keeps _ _ _ _)
    | simp only [Keeps, State.kern_mk, State.kern_fold]
    | split

theorem State.writeDone_keeps (s : State) (q : MemReq) : Keeps s (State.writeDone s q) := by
  unfold State.writeDone
  try dsimp only
  repeat' first
    | with_reducible exact Kern.To.rfl
    | with_reducible apply Kern.To.trans _ (State.progress_keeps _ _ _)
    | with_reducible apply Kern.To.trans _ (State.progressAll_keeps _)
    | with_reducible apply Kern.To.trans _ (State.recordAcked_keeps _ _)
    | with_reducible apply Kern.To.trans _ (State.recordWritten_keeps _ _)
    | with_reducible apply Kern.To.trans _ (State.headWritten_keeps _ _)
    | with_reducible apply Kern.To.trans _ (State.touchPart_keeps _ _)
    | simp only [Keeps, State.kern_mk, State.kern_fold]
    | split

theorem State.writeAnswered_keeps (s : State) (q : MemReq) (err : Bool) : Keeps s (State.writeAnswered s q err) := by
  unfold State.writeAnswered
  try dsimp only
  repeat' first
    | with_reducible exact Kern.To.rfl
    | with_reducible apply Kern.To.trans _ (State.writeDone_keeps _ _)
    | with_reducible apply Kern.To.trans _ (State.writeFailed_keeps _ _ _ _)
    | simp only [Keeps, State.kern_mk, State.kern_fold]
    | split

theorem State.lateResponse_keeps (s : State) (tag : Nat) : Keeps s (State.lateResponse s tag) := by
  unfold State.lateResponse
  try dsimp only
  repeat' first
    | with_reducible exact Kern.To.rfl
    | with_reducible apply Kern.To.trans _ (State.reissue_keeps _)
    | simp only [Keeps, State.kern_mk, State.kern_fold]
    | split

theorem State.readResponse_keeps (s : State) (tag : Nat) (status : Nat) (data : List Byte) (parityOk : Bool) : Keeps s (State.readResponse s tag status data parityOk) := by
  unfold State.readResponse
  try dsimp only
  repeat' first
    | with_reducible exact Kern.To.rfl
    | with_reducible apply Kern.To.trans _ (State.lateResponse_keeps _ _)
    | with_reducible apply Kern.To.trans _ (State.readAnswered_keeps _ _ _ _)
    | with_reducible apply Kern.To.trans _ (State.reissue_keeps _)
    | simp only [Keeps, State.kern_mk, State.kern_fold]
    | split

theorem State.writeResponse_keeps (s : State) (tag : Nat) (status : Nat) : Keeps s (State.writeResponse s tag status) := by
  unfold State.writeResponse
  try dsimp only
  repeat' first
    | with_reducible exact Kern.To.rfl
    | with_reducible apply Kern.To.trans _ (State.lateResponse_keeps _ _)
    | with_reducible apply Kern.To.trans _ (State.writeAnswered_keeps _ _ _)
    | with_reducible apply Kern.To.trans _ (State.reissue_keeps _)
    | simp only [Keeps, State.kern_mk, State.kern_fold]
    | split

theorem State.enterSlot_keeps (s : State) (n : Nat) (start : Nat) : Keeps s (State.enterSlot s n start) := by
  unfold State.enterSlot
  try dsimp only
  repeat' first
    | with_reducible exact Kern.To.rfl
    | with_reducible apply Kern.To.trans _ (State.progressAll_keeps _)
    | simp only [Keeps, State.kern_mk, State.kern_fold]
    | split

theorem State.beginRotation_keeps (s : State) : Keeps s (State.beginRotation s) := by
  unfold State.beginRotation
  try dsimp only
  repeat' first
    | with_reducible exact Kern.To.rfl
    | with_reducible apply Kern.To.trans _ (State.enterSlot_keeps _ _ _)
    | with_reducible apply Kern.To.trans _ (State.readConfig_keeps _)
    | simp only [Keeps, State.kern_mk, State.kern_fold]
    | split

theorem State.breakLent_keeps (s : State) (bay : Nat) : Keeps s (State.breakLent s bay) := by
  unfold State.breakLent
  try dsimp only
  repeat' first
    | with_reducible exact Kern.To.rfl
    | with_reducible apply Kern.To.trans _ (State.breakPromise_keeps _ _)
    | simp only [Keeps, State.kern_mk, State.kern_fold]
    | with_reducible refine Kern.To.trans ?_ (Keeps.foldl _ (fun _ _ => ?_) _ _)
    | split

theorem State.reexecute_keeps (s : State) (c : Fin 16) : Keeps s (State.reexecute s c) := by
  unfold State.reexecute
  try dsimp only
  repeat' first
    | with_reducible exact Kern.To.rfl
    | with_reducible apply Kern.To.trans _ (State.startHead_keeps _ _)
    | with_reducible apply Kern.To.trans _ (State.beginValidation_keeps _ _)
    | with_reducible apply Kern.To.trans _ (State.readConfig_keeps _)
    | simp only [Keeps, State.kern_mk, State.kern_fold]
    | split

theorem State.taken_keeps (s : State) (e : Envelope) (b : List Byte) : Keeps s (State.taken s e b) := by
  unfold State.taken
  try dsimp only
  repeat' first
    | with_reducible exact Kern.To.rfl
    | simp only [Keeps, State.kern_mk, State.kern_fold]
    | split

theorem State.replaceShare_keeps (s : State) (x : Share) (e : Envelope) (b : List Byte) : Keeps s (State.replaceShare s x e b) := by
  unfold State.replaceShare
  try dsimp only
  repeat' first
    | with_reducible exact Kern.To.rfl
    | with_reducible apply Kern.To.trans _ (State.dropWaiting_keeps _ _)
    | simp only [Keeps, State.kern_mk, State.kern_fold]
    | split

theorem State.shareComes_keeps (s : State) (e : Envelope) : Keeps s (State.shareComes s e) := by
  unfold State.shareComes
  try dsimp only
  repeat' first
    | with_reducible exact Kern.To.rfl
    | simp only [Keeps, State.kern_mk, State.kern_fold]
    | split

theorem State.queueShare_keeps (s : State) (e : Envelope) (b : List Byte) : Keeps s (State.queueShare s e b) := by
  unfold State.queueShare
  try dsimp only
  repeat' first
    | with_reducible exact Kern.To.rfl
    | with_reducible apply Kern.To.trans _ (State.discard_keeps _ _)
    | with_reducible apply Kern.To.trans _ (State.netSend_keeps _ _ _)
    | simp only [Keeps, State.kern_mk, State.kern_fold]
    | split

theorem State.reportedFault_keeps (s : State) (c : Fin 16) (seq : Nat) : Keeps s (State.reportedFault s c seq) := by
  unfold State.reportedFault
  try dsimp only
  repeat' first
    | with_reducible exact Kern.To.rfl
    | with_reducible apply Kern.To.trans _ (State.faultHead_keeps _ _ _ _ _ _ _ _)
    | simp only [Keeps, State.kern_mk, State.kern_fold]
    | split

theorem State.forWork_keeps (s : State) (e : Envelope) (b : List Byte) (f : State → Part → Job → State)
    (h : ∀ t p j, Keeps t (f t p j)) : Keeps s (s.forWork e b f) := by
  unfold State.forWork
  have ht := s.taken_keeps e b
  have hd := ht.trans ((s.taken e b).discard_keeps e)
  split
  · dsimp only
    split
    · split
      · split
        · split
          · exact hd
          · exact ht.trans (h _ _ _)
        · exact hd
      · exact hd
    · exact hd
  · split
    · exact ht
    · exact .rfl

theorem State.dropScarf_keeps (s : State) (m : Nat) : Keeps s (State.dropScarf s m) := by
  unfold State.dropScarf
  try dsimp only
  repeat' first
    | with_reducible exact Kern.To.rfl
    | with_reducible apply Kern.To.trans _ (State.checkGangs_keeps _)
    | simp only [Keeps, State.kern_mk, State.kern_fold]
    | split

theorem State.sendRingTime_keeps (s : State) (sins : List Nat) : Keeps s (State.sendRingTime s sins) := by
  unfold State.sendRingTime
  try dsimp only
  repeat' first
    | with_reducible exact Kern.To.rfl
    | with_reducible apply Kern.To.trans _ (State.netSend_keeps _ _ _)
    | simp only [Keeps, State.kern_mk, State.kern_fold]
    | with_reducible refine Kern.To.trans ?_ (Keeps.foldl _ (fun _ _ => ?_) _ _)
    | split

theorem State.scarfSeen_keeps (s : State) (e : Envelope) (b : List Byte) : Keeps s (State.scarfSeen s e b) := by
  unfold State.scarfSeen
  try dsimp only
  repeat' first
    | with_reducible exact Kern.To.rfl
    | with_reducible apply Kern.To.trans _ (State.sendRingTime_keeps _ _)
    | simp only [Keeps, State.kern_mk, State.kern_fold]
    | split

theorem State.storeScarf_keeps (s : State) (x : ScarfEntry) : Keeps s (State.storeScarf s x) := by
  unfold State.storeScarf
  try dsimp only
  repeat' first
    | with_reducible exact Kern.To.rfl
    | with_reducible apply Kern.To.trans _ (State.dropScarf_keeps _ _)
    | with_reducible apply Kern.To.trans _ (State.checkGangs_keeps _)
    | simp only [Keeps, State.kern_mk, State.kern_fold]
    | split

theorem State.arm_keeps (s : State) (raiseAt : Nat) (origin : Nat) (id : Word) (scope : Nat) : Keeps s (State.arm s raiseAt origin id scope) := by
  unfold State.arm
  try dsimp only
  repeat' first
    | with_reducible exact Kern.To.rfl
    | simp only [Keeps, State.kern_mk, State.kern_fold]
    | split

theorem State.disarm_keeps (s : State) (o : Outcome) : Keeps s (State.disarm s o) := by
  unfold State.disarm
  try dsimp only
  repeat' first
    | with_reducible exact Kern.To.rfl
    | simp only [Keeps, State.kern_mk, State.kern_fold]
    | split

theorem State.finalRaise_keeps (s : State) (id : Word) (o : Outcome) : Keeps s (State.finalRaise s id o) := by
  unfold State.finalRaise
  try dsimp only
  repeat' first
    | with_reducible exact Kern.To.rfl
    | with_reducible apply Kern.To.trans _ (State.irq_keeps _ _)
    | simp only [Keeps, State.kern_mk, State.kern_fold]
    | split

theorem State.cancelRun_keeps (s : State) (r : RaiseRun) : Keeps s (State.cancelRun s r) := by
  unfold State.cancelRun
  try dsimp only
  repeat' first
    | with_reducible exact Kern.To.rfl
    | with_reducible apply Kern.To.trans _ (State.finalRaise_keeps _ _ _)
    | with_reducible apply Kern.To.trans _ (State.disarm_keeps _ _)
    | with_reducible apply Kern.To.trans _ (State.netSend_keeps _ _ _)
    | simp only [Keeps, State.kern_mk, State.kern_fold]
    | with_reducible refine Kern.To.trans ?_ (Keeps.foldl _ (fun _ _ => ?_) _ _)
    | split

theorem State.forgetValidations_keeps (s : State) : Keeps s (State.forgetValidations s) := by
  unfold State.forgetValidations
  try dsimp only
  repeat' first
    | with_reducible exact Kern.To.rfl
    | with_reducible apply Kern.To.trans _ (State.discardBlocks_keeps _ _)
    | with_reducible apply Kern.To.trans _ (State.onChan_keeps _ _ _)
    | simp only [Keeps, State.kern_mk, State.kern_fold]
    | with_reducible refine Kern.To.trans ?_ (Keeps.foldl _ (fun _ _ => ?_) _ _)
    | split

theorem State.missRaise_keeps (s : State) : Keeps s (State.missRaise s) := by
  unfold State.missRaise
  try dsimp only
  repeat' first
    | with_reducible exact Kern.To.rfl
    | with_reducible apply Kern.To.trans _ (State.finalRaise_keeps _ _ _)
    | with_reducible apply Kern.To.trans _ (State.disarm_keeps _ _)
    | simp only [Keeps, State.kern_mk, State.kern_fold]
    | split

theorem State.raiseNow_keeps (s : State) : Keeps s (State.raiseNow s) := by
  unfold State.raiseNow
  try dsimp only
  repeat' first
    | with_reducible exact Kern.To.rfl
    | with_reducible apply Kern.To.trans _ (State.forgetValidations_keeps _)
    | with_reducible apply Kern.To.trans _ (State.beginRotation_keeps _)
    | simp only [Keeps, State.kern_mk, State.kern_fold]
    | split

theorem State.abandonShares_keeps (s : State) (f : Nat → Bool) : Keeps s (State.abandonShares s f) := by
  unfold State.abandonShares
  try dsimp only
  repeat' first
    | with_reducible exact Kern.To.rfl
    | with_reducible apply Kern.To.trans _ (State.dropShare_keeps _ _)
    | with_reducible apply Kern.To.trans _ (State.dropWaiting_keeps _ _)
    | with_reducible apply Kern.To.trans _ (State.setJob_keeps _ _ _)
    | simp only [Keeps, State.kern_mk, State.kern_fold]
    | with_reducible refine Kern.To.trans ?_ (Keeps.foldl _ (fun _ _ => ?_) _ _)
    | split

theorem State.ringFault_keeps (s : State) : Keeps s (State.ringFault s) := by
  unfold State.ringFault
  try dsimp only
  repeat' first
    | with_reducible exact Kern.To.rfl
    | with_reducible apply Kern.To.trans _ (State.abandonShares_keeps _ _)
    | with_reducible apply Kern.To.trans _ (State.endRingFault_keeps _)
    | with_reducible apply Kern.To.trans _ (State.checkGangs_keeps _)
    | with_reducible apply Kern.To.trans _ (State.sendScarf_keeps _ _)
    | with_reducible apply Kern.To.trans _ (State.log0_keeps _ _ _ _)
    | simp only [Keeps, State.kern_mk, State.kern_fold]
    | split

theorem State.freezeFrame_keeps (s : State) (src : Option (Fin 2)) (payload : List Byte) : Keeps s (s.freezeFrame src payload) := by
  unfold State.freezeFrame
  dsimp only
  split
  · exact .rfl
  · have h := s.remember_keeps (fieldAt payload 0 4 :: s.frz.seen)
      { s.frz with seen := (fieldAt payload 0 4 :: s.frz.seen).take 8 } rfl
    repeat' first
      | exact h
      | with_reducible apply Kern.To.trans _ (State.startFreeze_keeps _ _ _ _ _ _ _ _)
      | with_reducible apply Kern.To.trans _ (State.sendFreeze_keeps _ _ _ _ _ _)
      | split

theorem State.ringDeliver_keeps (s : State) (b : List Byte) : Keeps s (State.ringDeliver s b) := by
  unfold State.ringDeliver
  try dsimp only
  repeat' first
    | with_reducible exact Kern.To.rfl
    | with_reducible apply Kern.To.trans _ (State.freezeFrame_keeps _ _ _)
    | simp only [Keeps, State.kern_mk, State.kern_fold]
    | split

theorem State.setDir_keeps (s : State) (cw : Bool) (d : RingDir) : Keeps s (State.setDir s cw d) := by
  unfold State.setDir
  try dsimp only
  repeat' first
    | with_reducible exact Kern.To.rfl
    | simp only [Keeps, State.kern_mk, State.kern_fold]
    | split

theorem State.passBeat_keeps (s : State) (cw : Bool) (b : List Byte) (par : List Bool) : Keeps s (State.passBeat s cw b par) := by
  unfold State.passBeat
  try dsimp only
  repeat' first
    | with_reducible exact Kern.To.rfl
    | simp only [Keeps, State.kern_mk, State.kern_fold]
    | split

theorem State.consumeBeat_keeps (s : State) (cw : Bool) (d : RingDir) (left : Nat) (b : List Byte) (par : List Bool) : Keeps s (State.consumeBeat s cw d left b par) := by
  unfold State.consumeBeat
  try dsimp only
  repeat' first
    | with_reducible exact Kern.To.rfl
    | with_reducible apply Kern.To.trans _ (State.setDir_keeps _ _ _)
    | with_reducible apply Kern.To.trans _ (State.ringDeliver_keeps _ _)
    | with_reducible apply Kern.To.trans _ (State.ringFault_keeps _)
    | simp only [Keeps, State.kern_mk, State.kern_fold]
    | split

theorem State.scarfPassed_keeps (s : State) (b : List Byte) : Keeps s (State.scarfPassed s b) := by
  unfold State.scarfPassed
  try dsimp only
  repeat' first
    | with_reducible exact Kern.To.rfl
    | with_reducible apply Kern.To.trans _ (State.scarfSeen_keeps _ _ _)
    | simp only [Keeps, State.kern_mk, State.kern_fold]
    | split

theorem State.ringBeat_keeps (s : State) (cw : Bool) (b : List Byte) (par : List Bool) (deaf : Bool) : Keeps s (State.ringBeat s cw b par deaf) := by
  unfold State.ringBeat
  try dsimp only
  repeat' first
    | with_reducible exact Kern.To.rfl
    | with_reducible apply Kern.To.trans _ (State.consumeBeat_keeps _ _ _ _ _ _)
    | with_reducible apply Kern.To.trans _ (State.scarfPassed_keeps _ _)
    | with_reducible apply Kern.To.trans _ (State.passBeat_keeps _ _ _ _)
    | with_reducible apply Kern.To.trans _ (State.setDir_keeps _ _ _)
    | simp only [Keeps, State.kern_mk, State.kern_fold]
    | split

theorem State.flitIn_keeps (s : State) (p : Fin 2) (flit : List Byte) : Keeps s (State.flitIn s p flit) := by
  unfold State.flitIn
  try dsimp only
  repeat' first
    | with_reducible exact Kern.To.rfl
    | with_reducible apply Kern.To.trans _ (State.setPort_keeps _ _ _)
    | simp only [Keeps, State.kern_mk, State.kern_fold]
    | split

theorem State.unlock_keeps (s : State) (detail : Nat) : Keeps s (State.unlock s detail) := by
  unfold State.unlock
  try dsimp only
  repeat' first
    | with_reducible exact Kern.To.rfl
    | with_reducible apply Kern.To.trans _ (State.checkGangs_keeps _)
    | with_reducible apply Kern.To.trans _ (State.sendScarf_keeps _ _)
    | with_reducible apply Kern.To.trans _ (State.log0_keeps _ _ _ _)
    | with_reducible apply Kern.To.trans _ (State.irq_keeps _ _)
    | simp only [Keeps, State.kern_mk, State.kern_fold]
    | split

theorem State.portDown_keeps (s : State) (p : Fin 2) (reason : Nat) : Keeps s (State.portDown s p reason) := by
  unfold State.portDown
  try dsimp only
  repeat' first
    | with_reducible exact Kern.To.rfl
    | with_reducible apply Kern.To.trans _ (State.unlock_keeps _ _)
    | with_reducible apply Kern.To.trans _ (State.abandonShares_keeps _ _)
    | with_reducible apply Kern.To.trans _ (State.dropScarf_keeps _ _)
    | with_reducible apply Kern.To.trans _ (State.log0_keeps _ _ _ _)
    | with_reducible apply Kern.To.trans _ (State.irq_keeps _ _)
    | with_reducible apply Kern.To.trans _ (State.setPort_keeps _ _ _)
    | simp only [Keeps, State.kern_mk, State.kern_fold]
    | with_reducible refine Kern.To.trans ?_ (Keeps.foldl _ (fun _ _ => ?_) _ _)
    | split

theorem State.portUp_keeps (s : State) (p : Fin 2) (flit : List Byte) : Keeps s (State.portUp s p flit) := by
  unfold State.portUp
  try dsimp only
  repeat' first
    | with_reducible exact Kern.To.rfl
    | with_reducible apply Kern.To.trans _ (State.irq_keeps _ _)
    | with_reducible apply Kern.To.trans _ (State.setPort_keeps _ _ _)
    | simp only [Keeps, State.kern_mk, State.kern_fold]
    | split

theorem State.sendHello_keeps (s : State) (p : Fin 2) : Keeps s (State.sendHello s p) := by
  unfold State.sendHello
  try dsimp only
  repeat' first
    | with_reducible exact Kern.To.rfl
    | with_reducible apply Kern.To.trans _ (State.setPort_keeps _ _ _)
    | simp only [Keeps, State.kern_mk, State.kern_fold]
    | split

theorem State.helloIn_keeps (s : State) (p : Fin 2) (flit : List Byte) : Keeps s (State.helloIn s p flit) := by
  unfold State.helloIn
  try dsimp only
  repeat' first
    | with_reducible exact Kern.To.rfl
    | with_reducible apply Kern.To.trans _ (State.sendHello_keeps _ _)
    | with_reducible apply Kern.To.trans _ (State.portUp_keeps _ _ _)
    | with_reducible apply Kern.To.trans _ (State.portDown_keeps _ _ _)
    | with_reducible apply Kern.To.trans _ (State.setPort_keeps _ _ _)
    | simp only [Keeps, State.kern_mk, State.kern_fold]
    | split

theorem within_bounds (c f t : Int) (h : 0 ≤ f) : c - f ≤ within c f t ∧ within c f t ≤ c + f := by
  unfold within
  omega

theorem State.trimmed_keeps (s : State) : Keeps s s.trimmed := by
  refine ⟨rfl, fun i => ?_⟩
  have h := within_bounds 0 ((2 : Int) ^ 22) (if s.nv.phase = 7 then within s.clk.rate 429496 (Config.servoTrim s.free) else Config.servoTrim s.free)
    (by decide)
  rw [Int.zero_sub, Int.zero_add] at h
  exact ⟨i.1, i.2.1, i.2.2.1, i.2.2.2.1, h.1, h.2, i.2.2.2.2.2.2.1, i.2.2.2.2.2.2.2⟩

theorem State.lockNow_keeps (s : State) : Keeps s (State.lockNow s) := by
  unfold State.lockNow
  try dsimp only
  repeat' first
    | with_reducible exact Kern.To.rfl
    | with_reducible apply Kern.To.trans _ (State.sendRingTime_keeps _ _)
    | with_reducible apply Kern.To.trans _ (State.sendScarf_keeps _ _)
    | simp only [Keeps, State.kern_mk, State.kern_fold]
    | split

theorem State.estimate_keeps (s : State) (theta : Int) (good : Bool) : Keeps s (s.estimate theta good) := by
  unfold State.estimate
  dsimp only
  generalize List.drop _ _ = es
  generalize ht : State.mk .. = t
  have h : Keeps s t := by rw [← ht]; exact Kern.To.rfl
  split
  · split
    · exact h.trans (t.unlock_keeps _)
    · exact h.trans t.trimmed_keeps
  · split
    · split
      · split
        · exact (h.trans t.trimmed_keeps).trans (State.lockNow_keeps _)
        · exact h.trans t.trimmed_keeps
      · split
        · refine ⟨by simp only [State.kern], fun i => ?_⟩
          simp only [Kern.Good, State.kern, Clk.stepBack] at i ⊢
          exact i
        · exact h
    · exact h

theorem State.timeIn_keeps (s : State) (p : Fin 2) (flit : List Byte) (rxTs : Nat) : Keeps s (State.timeIn s p flit rxTs) := by
  unfold State.timeIn
  try dsimp only
  repeat' first
    | with_reducible exact Kern.To.rfl
    | with_reducible apply Kern.To.trans _ (State.estimate_keeps _ _ _)
    | with_reducible apply Kern.To.trans _ (State.setPort_keeps _ _ _)
    | simp only [Keeps, State.kern_mk, State.kern_fold]
    | split

theorem State.captureYard_keeps (s : State) (off : Nat) : Keeps s (s.captureYard off) := by
  unfold State.captureYard
  dsimp only
  split
  · exact .rfl
  · split
    · split
      · exact .rfl
      · exact Kern.To.rfl
    · split
      · exact Kern.To.trans (b := State.kern { s with bays := _ }) Kern.To.rfl (State.corrected_keeps _ _ _)
      · exact .rfl

theorem State.readWindow_keeps (s : State) (k : Nat) : Keeps s (State.readWindow s k).1 := by
  unfold State.readWindow
  try dsimp only
  repeat' first
    | with_reducible exact Kern.To.rfl
    | with_reducible apply Kern.To.trans _ (State.captureYard_keeps _ _)
    | simp only [Keeps, State.kern_mk, State.kern_fold]
    | split

theorem State.mgmtRead_keeps (s : State) (m : Fin 4) (off : Nat) : Keeps s (State.mgmtRead s m off) := by
  unfold State.mgmtRead
  try dsimp only
  repeat' first
    | with_reducible exact Kern.To.rfl
    | with_reducible apply Kern.To.trans _ (State.respond_keeps _ _ _ _)
    | with_reducible apply Kern.To.trans _ (State.readWindow_keeps _ _)
    | with_reducible apply Kern.To.trans _ (State.readConfig_keeps _)
    | simp only [Keeps, State.kern_mk, State.kern_fold]
    | split

theorem State.mgmtReadAt_keeps (s : State) (m : Fin 4) (off : Nat) : Keeps s (State.mgmtReadAt s m off) := by
  unfold State.mgmtReadAt
  try dsimp only
  repeat' first
    | with_reducible exact Kern.To.rfl
    | with_reducible apply Kern.To.trans _ (State.respond_keeps _ _ _ _)
    | with_reducible apply Kern.To.trans _ (State.mgmtRead_keeps _ _ _)
    | simp only [Keeps, State.kern_mk, State.kern_fold]
    | split

theorem State.latchClaim_keeps (s : State) (m : Fin 4) : Keeps s (State.latchClaim s m) := by
  unfold State.latchClaim
  try dsimp only
  repeat' first
    | with_reducible exact Kern.To.rfl
    | with_reducible apply Kern.To.trans _ (State.respond_keeps _ _ _ _)
    | simp only [Keeps, State.kern_mk, State.kern_fold]
    | split

theorem State.claimNow_keeps (s : State) (m : Fin 4) : Keeps s (State.claimNow s m) := by
  unfold State.claimNow
  try dsimp only
  repeat' first
    | with_reducible exact Kern.To.rfl
    | with_reducible apply Kern.To.trans _ (State.respond_keeps _ _ _ _)
    | with_reducible apply Kern.To.trans _ (State.irq_keeps _ _)
    | simp only [Keeps, State.kern_mk, State.kern_fold]
    | split

theorem State.quiesceWrite_keeps (s : State) (m : Fin 4) : Keeps s (State.quiesceWrite s m) := by
  unfold State.quiesceWrite
  try dsimp only
  repeat' first
    | with_reducible exact Kern.To.rfl
    | with_reducible apply Kern.To.trans _ (State.respond_keeps _ _ _ _)
    | with_reducible apply Kern.To.trans _ (State.checkQuiesce_keeps _)
    | simp only [Keeps, State.kern_mk, State.kern_fold]
    | split

theorem State.raiseRefused_keeps (s : State) (m : Fin 4) (o : Outcome) : Keeps s (State.raiseRefused s m o) := by
  unfold State.raiseRefused
  try dsimp only
  repeat' first
    | with_reducible exact Kern.To.rfl
    | with_reducible apply Kern.To.trans _ (State.respond_keeps _ _ _ _)
    | simp only [Keeps, State.kern_mk, State.kern_fold]
    | split

theorem State.raiseLocalWrite_keeps (s : State) (m : Fin 4) : Keeps s (State.raiseLocalWrite s m) := by
  unfold State.raiseLocalWrite
  try dsimp only
  repeat' first
    | with_reducible exact Kern.To.rfl
    | with_reducible apply Kern.To.trans _ (State.respond_keeps _ _ _ _)
    | with_reducible apply Kern.To.trans _ (State.raiseRefused_keeps _ _ _)
    | with_reducible apply Kern.To.trans _ (State.arm_keeps _ _ _ _ _)
    | simp only [Keeps, State.kern_mk, State.kern_fold]
    | split

theorem State.raiseStart_keeps (s : State) (gang : Nat) : Keeps s (State.raiseStart s gang) := by
  unfold State.raiseStart
  try dsimp only
  repeat' first
    | with_reducible exact Kern.To.rfl
    | with_reducible apply Kern.To.trans _ (State.arm_keeps _ _ _ _ _)
    | with_reducible apply Kern.To.trans _ (State.netSend_keeps _ _ _)
    | simp only [Keeps, State.kern_mk, State.kern_fold]
    | with_reducible refine Kern.To.trans ?_ (Keeps.foldl _ (fun _ _ => ?_) _ _)
    | split

theorem State.raiseGangWrite_keeps (s : State) (m : Fin 4) (gang : Nat) : Keeps s (State.raiseGangWrite s m gang) := by
  unfold State.raiseGangWrite
  try dsimp only
  repeat' first
    | with_reducible exact Kern.To.rfl
    | with_reducible apply Kern.To.trans _ (State.respond_keeps _ _ _ _)
    | with_reducible apply Kern.To.trans _ (State.raiseStart_keeps _ _)
    | with_reducible apply Kern.To.trans _ (State.raiseRefused_keeps _ _ _)
    | simp only [Keeps, State.kern_mk, State.kern_fold]
    | split

theorem State.holdLow_keeps (s : State) (m : Fin 4) (off : Nat) (v : Word) : Keeps s (State.holdLow s m off v) := by
  unfold State.holdLow
  try dsimp only
  repeat' first
    | with_reducible exact Kern.To.rfl
    | with_reducible apply Kern.To.trans _ (State.respond_keeps _ _ _ _)
    | simp only [Keeps, State.kern_mk, State.kern_fold]
    | split

theorem State.dropLow_keeps (s : State) (m : Fin 4) (off : Nat) : Keeps s (State.dropLow s m off) := by
  unfold State.dropLow
  try dsimp only
  repeat' first
    | with_reducible exact Kern.To.rfl
    | simp only [Keeps, State.kern_mk, State.kern_fold]
    | split

theorem State.raiseAtHalf_keeps (s : State) (m : Fin 4) (high : Bool) (v : Word) : Keeps s (State.raiseAtHalf s m high v) := by
  unfold State.raiseAtHalf
  try dsimp only
  repeat' first
    | with_reducible exact Kern.To.rfl
    | with_reducible apply Kern.To.trans _ (State.respond_keeps _ _ _ _)
    | with_reducible apply Kern.To.trans _ (State.dropLow_keeps _ _ _)
    | with_reducible apply Kern.To.trans _ (State.holdLow_keeps _ _ _ _)
    | simp only [Keeps, State.kern_mk, State.kern_fold]
    | split

theorem State.shadowTo_keeps (s : State) (m : Fin 4) (off : Nat) (v : Word) : Keeps s (State.shadowTo s m off v) := by
  unfold State.shadowTo
  try dsimp only
  repeat' first
    | with_reducible exact Kern.To.rfl
    | with_reducible apply Kern.To.trans _ (State.respond_keeps _ _ _ _)
    | with_reducible apply Kern.To.trans _ (State.dropLow_keeps _ _ _)
    | with_reducible apply Kern.To.trans _ (State.holdLow_keeps _ _ _ _)
    | simp only [Keeps, State.kern_mk, State.kern_fold]
    | split

theorem State.nextSeqTo_keeps (s : State) (m : Fin 4) (g : Fin 4) (v : Word) : Keeps s (State.nextSeqTo s m g v) := by
  unfold State.nextSeqTo
  try dsimp only
  repeat' first
    | with_reducible exact Kern.To.rfl
    | with_reducible apply Kern.To.trans _ (State.respond_keeps _ _ _ _)
    | simp only [Keeps, State.kern_mk, State.kern_fold]
    | split

theorem State.abortHead_keeps (s : State) (c : Fin 16) : Keeps s (State.abortHead s c) := by
  unfold State.abortHead
  try dsimp only
  repeat' first
    | with_reducible exact Kern.To.rfl
    | with_reducible apply Kern.To.trans _ (State.hold_keeps _ _ _)
    | with_reducible apply Kern.To.trans _ (State.popHead_keeps _ _)
    | simp only [Keeps, State.kern_mk, State.kern_fold]
    | split

theorem State.abortAll_keeps (f : Nat) : ∀ (s : State) (c : Fin 16), Keeps s (State.abortAll f s c) := by
  induction f with
  | zero => exact fun _ _ => .rfl
  | succ f ih => exact fun s c => (s.abortHead_keeps c).trans (ih _ _)

theorem State.disable_keeps (s : State) (c : Fin 16) : Keeps s (State.disable s c) := by
  unfold State.disable
  try dsimp only
  repeat' first
    | with_reducible exact Kern.To.rfl
    | with_reducible apply Kern.To.trans _ (State.abortAll_keeps _ _ _)
    | with_reducible apply Kern.To.trans _ (State.hold_keeps _ _ _)
    | with_reducible apply Kern.To.trans _ (State.discardBlocks_keeps _ _)
    | with_reducible apply Kern.To.trans _ (State.onChan_keeps _ _ _)
    | simp only [Keeps, State.kern_mk, State.kern_fold]
    | split

theorem State.enableWrite_keeps (s : State) (m : Fin 4) (c : Fin 16) (on : Bool) : Keeps s (State.enableWrite s m c on) := by
  unfold State.enableWrite
  try dsimp only
  repeat' first
    | with_reducible exact Kern.To.rfl
    | with_reducible apply Kern.To.trans _ (State.respond_keeps _ _ _ _)
    | with_reducible apply Kern.To.trans _ (State.disable_keeps _ _)
    | with_reducible apply Kern.To.trans _ (State.onChan_keeps _ _ _)
    | simp only [Keeps, State.kern_mk, State.kern_fold]
    | split

theorem State.driftCheck_keeps (s : State) (frozen : Nat) : Keeps s (State.driftCheck s frozen) := by
  unfold State.driftCheck
  try dsimp only
  repeat' first
    | with_reducible exact Kern.To.rfl
    | with_reducible apply Kern.To.trans _ (State.unlock_keeps _ _)
    | simp only [Keeps, State.kern_mk, State.kern_fold]
    | split

theorem State.replayResponse_keeps (s : State) (i : Instr) : Keeps s (s.replayResponse i) := by
  unfold State.replayResponse
  split
  · exact s.readResponse_keeps _ _ _ _
  · exact s.writeResponse_keeps _ _
  · exact s.blockReadDone_keeps _ _ _ _
  · split
    · exact s.writeResponse_keeps _ _
    · exact s.recordAcked_keeps _
  · split
    · exact s.writeResponse_keeps _ _
    · exact .rfl
  · exact .rfl

theorem State.resumeAll_keeps (s : State) (held : List Instr) : Keeps s (State.resumeAll s held) := by
  unfold State.resumeAll
  try dsimp only
  repeat' first
    | with_reducible exact Kern.To.rfl
    | with_reducible apply Kern.To.trans _ (State.replayResponse_keeps _ _)
    | with_reducible apply Kern.To.trans _ (State.takeHeldOff_keeps _)
    | with_reducible apply Kern.To.trans _ (State.checkQuiesce_keeps _)
    | with_reducible apply Kern.To.trans _ (State.progressAll_keeps _)
    | with_reducible apply Kern.To.trans _ (State.sendScarf_keeps _ _)
    | with_reducible apply Kern.To.trans _ (State.enterFault_keeps _ _)
    | with_reducible apply Kern.To.trans _ (State.reissue_keeps _)
    | simp only [Keeps, State.kern_mk, State.kern_fold]
    | with_reducible refine Kern.To.trans ?_ (Keeps.foldl _ (fun _ _ => ?_) _ _)
    | split

theorem State.missedInFreeze_keeps (s : State) : Keeps s (State.missedInFreeze s) := by
  unfold State.missedInFreeze
  try dsimp only
  repeat' first
    | with_reducible exact Kern.To.rfl
    | with_reducible apply Kern.To.trans _ (State.missRaise_keeps _)
    | simp only [Keeps, State.kern_mk, State.kern_fold]
    | split

theorem State.thawNow_keeps (s : State) : Keeps s (State.thawNow s) := by
  unfold State.thawNow
  try dsimp only
  repeat' first
    | with_reducible exact Kern.To.rfl
    | with_reducible apply Kern.To.trans _ (State.missedInFreeze_keeps _)
    | with_reducible apply Kern.To.trans _ (State.resumeAll_keeps _ _)
    | with_reducible apply Kern.To.trans _ (State.driftCheck_keeps _ _)
    | simp only [Keeps, State.kern_mk, State.kern_fold]
    | split

theorem State.freezeCtl_keeps (s : State) (m : Fin 4) (v : Word) : Keeps s (s.freezeCtl m v) := by
  unfold State.freezeCtl
  split
  · exact s.respond_keeps m 3 0
  · dsimp only
    generalize ht : State.respond (State.mk ..) m 0 0 = t
    have h : Keeps s t := by
      rw [← ht]
      exact Kern.To.trans (b := State.kern { s with frz := s.frz.controls v }) Kern.To.rfl (State.respond_keeps _ _ _ _)
    have hn : Keeps s (if v.getLsbD 1 then t.thawNow else t) := by
      split
      · exact h.trans t.thawNow_keeps
      · exact h
    split
    · exact hn.trans (State.freezeHere_keeps _ _)
    · exact hn

theorem State.retrainPorts_keeps (s : State) (bits : Nat) : Keeps s (State.retrainPorts s bits) := by
  unfold State.retrainPorts
  try dsimp only
  repeat' first
    | with_reducible exact Kern.To.rfl
    | simp only [Keeps, State.kern_mk, State.kern_fold]
    | split

theorem State.tailWrite_keeps (s : State) (m : Fin 4) (v : Word) : Keeps s (s.tailWrite m v) := by
  unfold State.tailWrite
  dsimp only
  refine Kern.To.trans ?_ (State.respond_keeps _ _ _ _)
  split
  · next h => exact ⟨rfl, fun ⟨a, b, _, d, e, f, g, k⟩ => ⟨a, b, h, d, e, f, g, k⟩⟩
  · exact .rfl

theorem State.claimWrite_keeps (s : State) (m : Fin 4) (v : Word) : Keeps s (s.claimWrite m v) := by
  unfold State.claimWrite
  split
  · exact s.byOwner_keeps m _ fun t => Kern.To.trans (b := State.kern { t with own := t.own.change none 4 t.clk.mgmt }) Kern.To.rfl
      (State.respond_keeps { t with own := t.own.change none 4 t.clk.mgmt } m 0 0)
  · split
    · split
      · exact s.claimNow_keeps m
      · exact s.latchClaim_keeps m
    · exact s.respond_keeps m 0 0

theorem State.ownedWrite_keeps (s : State) (m : Fin 4) (off : Nat) (v : Word) : Keeps s (State.ownedWrite s m off v) := by
  unfold State.ownedWrite
  try dsimp only
  repeat' first
    | with_reducible exact Kern.To.rfl
    | with_reducible apply Kern.To.trans _ (State.respond_keeps _ _ _ _)
    | with_reducible apply Kern.To.trans _ (State.freezeCtl_keeps _ _ _)
    | with_reducible apply Kern.To.trans _ (State.raiseAtHalf_keeps _ _ _ _)
    | with_reducible apply Kern.To.trans _ (State.raiseGangWrite_keeps _ _ _)
    | with_reducible apply Kern.To.trans _ (State.raiseLocalWrite_keeps _ _)
    | with_reducible apply Kern.To.trans _ (State.quiesceWrite_keeps _ _)
    | simp only [Keeps, State.kern_mk, State.kern_fold]
    | split

theorem State.mgmtWrite_keeps (s : State) (m : Fin 4) (off : Nat) (v : Word) : Keeps s (s.mgmtWrite m off v) := by
  unfold State.mgmtWrite
  repeat' first
    | exact s.claimWrite_keeps m v
    | exact s.byOwner_keeps m _ fun t => t.ownedWrite_keeps m off v
    | exact s.byOwner_keeps m _ fun t => t.shadowTo_keeps m off v
    | exact s.byOwner_keeps m _ fun t => t.nextSeqTo_keeps m _ v
    | exact s.byOwner_keeps m _ fun t => t.enableWrite_keeps m _ _
    | exact s.byOwner_keeps m _ fun t => (t.retrainPorts_keeps _).trans (State.respond_keeps _ _ _ _)
    | exact s.byOwner_keeps m _ fun t => t.tailWrite_keeps m v
    | exact s.respond_keeps m 0 0
    | split

theorem State.toPhase_keeps (s : State) (n : Nat) : Keeps s (State.toPhase s n) := by
  unfold State.toPhase
  try dsimp only
  repeat' first
    | with_reducible exact Kern.To.rfl
    | simp only [Keeps, State.kern_mk, State.kern_fold]
    | split

theorem State.discover_keeps (s : State) (headers : List (List Byte)) (logs : List (List Byte)) : Keeps s (State.discover s headers logs) := by
  unfold State.discover
  try dsimp only
  repeat' first
    | with_reducible exact Kern.To.rfl
    | with_reducible apply Kern.To.trans _ (State.toPhase_keeps _ _)
    | simp only [Keeps, State.kern_mk, State.kern_fold]
    | split

theorem State.logSlot_keeps (s : State) (f : ImageFault) (slot : Nat) : Keeps s (State.logSlot s f slot) := by
  unfold State.logSlot
  try dsimp only
  repeat' first
    | with_reducible exact Kern.To.rfl
    | with_reducible apply Kern.To.trans _ (State.log0_keeps _ _ _ _)
    | simp only [Keeps, State.kern_mk, State.kern_fold]
    | split

theorem State.selfTestBay_keeps (l : List (Fin 16 × SelfFail)) (s : State) (b : Nat) : Keeps s (State.selfTestBay l s b) := by
  unfold State.selfTestBay
  try dsimp only
  repeat' first
    | with_reducible exact Kern.To.rfl
    | with_reducible apply Kern.To.trans _ (State.logBay_keeps _ _ _ _ _ _)
    | simp only [Keeps, State.kern_mk, State.kern_fold]
    | with_reducible refine Kern.To.trans ?_ (Keeps.foldl _ (fun _ _ => ?_) _ _)
    | split

theorem State.readBackCurves_keeps (s : State) : Keeps s s.readBackCurves := by
  unfold State.readBackCurves
  dsimp only
  generalize hc : List.foldl (fun (s : State) _ => s.corrected 4 0) _ _ = c
  have hc : Keeps s c := hc ▸ Kern.To.trans (b := State.kern { s with bays := _ }) Kern.To.rfl (Keeps.foldl _ (fun t _ => t.corrected_keeps _ _) _ _)
  generalize hr : List.foldl _ (c, true) _ = r
  have hr : Keeps c r.1 := by
    rw [← hr]
    refine Keeps.foldlFst _ (fun r w => ?_) _ (c, true)
    exact r.1.countUE_keeps.trans (State.restoreCurve_keeps _ w)
  split
  · exact (hc.trans hr).trans Kern.To.rfl
  · exact (hc.trans hr).trans (State.instanceFault_keeps _ _)

theorem State.clearYards_keeps (s : State) : Keeps s s.clearYards :=
  ⟨rfl, fun ⟨_, b, c, d, e, f, g, k⟩ => ⟨rfl, b, c, d, e, f, g, k⟩⟩

theorem State.nvWrite_keeps (s : State) (a : Nat) (b : List Byte) : Keeps s (State.nvWrite s a b) := by
  unfold State.nvWrite
  try dsimp only
  repeat' first
    | with_reducible exact Kern.To.rfl
    | simp only [Keeps, State.kern_mk, State.kern_fold]
    | split

theorem State.programBoot_keeps (s : State) (ok : Bool) : Keeps s (State.programBoot s ok) := by
  unfold State.programBoot
  try dsimp only
  repeat' first
    | with_reducible exact Kern.To.rfl
    | with_reducible apply Kern.To.trans _ (State.nvWrite_keeps _ _ _)
    | with_reducible apply Kern.To.trans _ (State.log0_keeps _ _ _ _)
    | simp only [Keeps, State.kern_mk, State.kern_fold]
    | split

theorem State.expose_keeps (s : State) : Keeps s (State.expose s) := by
  unfold State.expose
  try dsimp only
  repeat' first
    | with_reducible exact Kern.To.rfl
    | simp only [Keeps, State.kern_mk, State.kern_fold]
    | split

theorem State.beginAlignment_keeps (s : State) : Keeps s (State.beginAlignment s) := by
  unfold State.beginAlignment
  try dsimp only
  repeat' first
    | with_reducible exact Kern.To.rfl
    | with_reducible apply Kern.To.trans _ (State.toPhase_keeps _ _)
    | with_reducible apply Kern.To.trans _ (State.lockNow_keeps _)
    | simp only [Keeps, State.kern_mk, State.kern_fold]
    | split

theorem State.beginTraining_keeps (s : State) : Keeps s (State.beginTraining s) := by
  unfold State.beginTraining
  try dsimp only
  repeat' first
    | with_reducible exact Kern.To.rfl
    | with_reducible apply Kern.To.trans _ (State.beginAlignment_keeps _)
    | with_reducible apply Kern.To.trans _ (State.toPhase_keeps _ _)
    | simp only [Keeps, State.kern_mk, State.kern_fold]
    | split

theorem State.finishLoad_keeps (s : State) (programmed : Bool) : Keeps s (State.finishLoad s programmed) := by
  unfold State.finishLoad
  try dsimp only
  repeat' first
    | with_reducible exact Kern.To.rfl
    | with_reducible apply Kern.To.trans _ (State.beginTraining_keeps _)
    | with_reducible apply Kern.To.trans _ (State.expose_keeps _)
    | with_reducible apply Kern.To.trans _ (State.programBoot_keeps _ _)
    | with_reducible apply Kern.To.trans _ (State.clearYards_keeps _)
    | with_reducible apply Kern.To.trans _ (State.readBackCurves_keeps _)
    | with_reducible apply Kern.To.trans _ (State.sendScarf_keeps _ _)
    | simp only [Keeps, State.kern_mk, State.kern_fold]
    | split

theorem State.fixBays_keeps (s : State) : Keeps s (State.fixBays s) := by
  unfold State.fixBays
  try dsimp only
  repeat' first
    | with_reducible exact Kern.To.rfl
    | with_reducible apply Kern.To.trans _ (State.instanceFault_keeps _ _)
    | simp only [Keeps, State.kern_mk, State.kern_fold]
    | split

theorem State.applySlots_keeps (s : State) : Keeps s (State.applySlots s) := by
  unfold State.applySlots
  try dsimp only
  repeat' first
    | with_reducible exact Kern.To.rfl
    | with_reducible apply Kern.To.trans _ (State.instanceFault_keeps _ _)
    | with_reducible apply Kern.To.trans _ (State.logRaw_keeps _ _)
    | simp only [Keeps, State.kern_mk, State.kern_fold]
    | split

theorem State.endWindow_keeps (s : State) (there : Bool) : Keeps s (State.endWindow s there) := by
  unfold State.endWindow
  try dsimp only
  repeat' first
    | with_reducible exact Kern.To.rfl
    | with_reducible apply Kern.To.trans _ (State.pass_keeps _ _)
    | simp only [Keeps, State.kern_mk, State.kern_fold]
    | split

theorem State.becomeReady_keeps (s : State) : Keeps s (State.becomeReady s) := by
  unfold State.becomeReady
  try dsimp only
  repeat' first
    | with_reducible exact Kern.To.rfl
    | with_reducible apply Kern.To.trans _ (State.toPhase_keeps _ _)
    | with_reducible apply Kern.To.trans _ (State.beginRotation_keeps _)
    | with_reducible apply Kern.To.trans _ (State.sendScarf_keeps _ _)
    | simp only [Keeps, State.kern_mk, State.kern_fold]
    | split

theorem State.testInstr_keeps (s : State) (ir : BitVec 6) (dr : Word) (scan : Bool) : Keeps s (State.testInstr s ir dr scan) := by
  unfold State.testInstr
  try dsimp only
  repeat' first
    | with_reducible exact Kern.To.rfl
    | simp only [Keeps, State.kern_mk, State.kern_fold]
    | split

theorem State.destroyStores_keeps (s : State) : Keeps s s.destroyStores :=
  ⟨rfl, fun i => ⟨rfl, i.2⟩⟩

end Sys2Proof.Machine
end

