-- ==== Sys2Proof/Laws/Commands.lean ====
section
/-! SUPPORT. What each command keeps, from the lemmas of Laws/Keeps.lean. -/

set_option linter.unusedSimpArgs false

namespace Sys2Proof.Machine

/-- The outcome is a next state with the same queue, well kept if `s` is. -/
def Kept (s : State) (o : Host.Outcome State Fault Refusal) : Prop := ∃ t, o = .next t ∧ Keeps s t

/-- A kernel whose clocks are at zero. -/
theorem Kern.zero_good (p : List Instr) (y : List Host.Cell) (l : Log) (n : List Nat) (a : cellsWf y = true) (b : l.head < 254)
    (c : l.tail < 254) (k : n.length ≤ 8) : Kern.Good ⟨p, y, l, 0, 0, 0, 0, n⟩ :=
  ⟨a, b, c, by simp, by simp, by simp, by simp, k⟩

theorem execPost_keeps (src : Nat) (msg : List Byte) (parityOk : Bool) (s : State) : Kept s (execPost src msg parityOk s) := by
  unfold execPost
  try dsimp only
  repeat' first
    | with_reducible exact Kern.To.rfl
    | with_reducible apply Kern.To.trans _ (State.inbound_keeps _ _ _ _)
    | simp only [Keeps, State.kern_mk, State.kern_fold]
    | split
    | refine ⟨_, rfl, ?_⟩

theorem execDoorbell_keeps (src : Nat) (msg : List Byte) (parityOk : Bool) (s : State) : Kept s (execDoorbell src msg parityOk s) := by
  unfold execDoorbell
  try dsimp only
  repeat' first
    | with_reducible exact Kern.To.rfl
    | with_reducible apply Kern.To.trans _ (State.inbound_keeps _ _ _ _)
    | simp only [Keeps, State.kern_mk, State.kern_fold]
    | split
    | refine ⟨_, rfl, ?_⟩

theorem execMalformedMessage_keeps (src : Nat) (msg : List Byte) (s : State) : Kept s (execMalformedMessage src msg s) := by
  unfold execMalformedMessage
  try dsimp only
  repeat' first
    | with_reducible exact Kern.To.rfl
    | with_reducible apply Kern.To.trans _ (State.inbound_keeps _ _ _ _)
    | simp only [Keeps, State.kern_mk, State.kern_fold]
    | split
    | refine ⟨_, rfl, ?_⟩

theorem execValidateDescriptor_keeps (c : Fin 16) (s : State) : Kept s (execValidateDescriptor c s) := by
  unfold execValidateDescriptor
  try dsimp only
  repeat' first
    | with_reducible exact Kern.To.rfl
    | with_reducible apply Kern.To.trans _ (State.beginValidation_keeps _ _)
    | with_reducible apply Kern.To.trans _ (State.readConfig_keeps _)
    | simp only [Keeps, State.kern_mk, State.kern_fold]
    | split
    | refine ⟨_, rfl, ?_⟩

theorem execValidationBlockReadDone_keeps (c : Fin 16) (blk : Nat) (err : Bool) (data : List Byte) (s : State) : Kept s (execValidationBlockReadDone c blk err data s) := by
  unfold execValidationBlockReadDone
  try dsimp only
  repeat' first
    | with_reducible exact Kern.To.rfl
    | with_reducible apply Kern.To.trans _ (State.blockReadDone_keeps _ _ _ _ _)
    | simp only [Keeps, State.kern_mk, State.kern_fold]
    | split
    | refine ⟨_, rfl, ?_⟩

theorem execDescriptorStart_keeps (p : Part) (s : State) : Kept s (execDescriptorStart p s) := by
  unfold execDescriptorStart
  try dsimp only
  repeat' first
    | with_reducible exact Kern.To.rfl
    | with_reducible apply Kern.To.trans _ (State.startShare_keeps _ _)
    | with_reducible apply Kern.To.trans _ (State.startHead_keeps _ _)
    | simp only [Keeps, State.kern_mk, State.kern_fold]
    | split
    | refine ⟨_, rfl, ?_⟩

theorem execLaunchConditionMet_keeps (c : Fin 16) (s : State) : Kept s (execLaunchConditionMet c s) := by
  unfold execLaunchConditionMet
  try dsimp only
  repeat' first
    | with_reducible exact Kern.To.rfl
    | with_reducible apply Kern.To.trans _ (State.launch_keeps _ _ _)
    | with_reducible apply Kern.To.trans _ (State.untilCount_keeps _ _)
    | simp only [Keeps, State.kern_mk, State.kern_fold]
    | split
    | refine ⟨_, rfl, ?_⟩

theorem execDescriptorRetire_keeps (p : Part) (s : State) : Kept s (execDescriptorRetire p s) := by
  unfold execDescriptorRetire
  try dsimp only
  repeat' first
    | with_reducible exact Kern.To.rfl
    | with_reducible apply Kern.To.trans _ (State.retire_keeps _ _ _)
    | with_reducible apply Kern.To.trans _ (State.retireAt_keeps _ _)
    | simp only [Keeps, State.kern_mk, State.kern_fold]
    | split
    | refine ⟨_, rfl, ?_⟩

theorem execReleasePackage_keeps (c : Fin 16) (s : State) : Kept s (execReleasePackage c s) := by
  unfold execReleasePackage
  try dsimp only
  repeat' first
    | with_reducible exact Kern.To.rfl
    | with_reducible apply Kern.To.trans _ (State.pumpRings_keeps _)
    | with_reducible apply Kern.To.trans _ (State.releaseGo_keeps _ _ _)
    | with_reducible apply Kern.To.trans _ (State.onChan_keeps _ _ _)
    | simp only [Keeps, State.kern_mk, State.kern_fold]
    | split
    | refine ⟨_, rfl, ?_⟩

theorem execCompletionRecordWriteAck_keeps (c : Fin 16) (err : Bool) (s : State) : Kept s (execCompletionRecordWriteAck c err s) := by
  unfold execCompletionRecordWriteAck
  try dsimp only
  repeat' first
    | with_reducible exact Kern.To.rfl
    | with_reducible apply Kern.To.trans _ (State.recordAcked_keeps _ _)
    | with_reducible apply Kern.To.trans _ (State.retryWrite_keeps _ _ _ _)
    | with_reducible apply Kern.To.trans _ (State.reissue_keeps _)
    | simp only [Keeps, State.kern_mk, State.kern_fold]
    | split
    | refine ⟨_, rfl, ?_⟩

theorem execSlotBoundary_keeps (s : State) : Kept s (execSlotBoundary s) := by
  unfold execSlotBoundary
  try dsimp only
  repeat' first
    | with_reducible exact Kern.To.rfl
    | with_reducible apply Kern.To.trans _ (State.enterSlot_keeps _ _ _)
    | with_reducible apply Kern.To.trans _ (State.readConfig_keeps _)
    | with_reducible apply Kern.To.trans _ (State.untilArith_keeps _ _)
    | simp only [Keeps, State.kern_mk, State.kern_fold]
    | split
    | refine ⟨_, rfl, ?_⟩

theorem execHandoverGapEnd_keeps (s : State) : Kept s (execHandoverGapEnd s) := by
  unfold execHandoverGapEnd
  try dsimp only
  repeat' first
    | with_reducible exact Kern.To.rfl
    | with_reducible apply Kern.To.trans _ (State.progressAll_keeps _)
    | with_reducible apply Kern.To.trans _ (State.untilArith_keeps _ _)
    | simp only [Keeps, State.kern_mk, State.kern_fold]
    | split
    | refine ⟨_, rfl, ?_⟩

theorem execMemoryReadResponse_keeps (tag status : Nat) (data : List Byte) (parityOk : Bool) (s : State) : Kept s (execMemoryReadResponse tag status data parityOk s) := by
  unfold execMemoryReadResponse
  try dsimp only
  repeat' first
    | with_reducible exact Kern.To.rfl
    | with_reducible apply Kern.To.trans _ (State.readResponse_keeps _ _ _ _ _)
    | simp only [Keeps, State.kern_mk, State.kern_fold]
    | split
    | refine ⟨_, rfl, ?_⟩

theorem execMemoryWriteAck_keeps (tag status : Nat) (s : State) : Kept s (execMemoryWriteAck tag status s) := by
  unfold execMemoryWriteAck
  try dsimp only
  repeat' first
    | with_reducible exact Kern.To.rfl
    | with_reducible apply Kern.To.trans _ (State.writeResponse_keeps _ _ _)
    | simp only [Keeps, State.kern_mk, State.kern_fold]
    | split
    | refine ⟨_, rfl, ?_⟩

theorem execMemoryResponseTimeout_keeps (tag : Nat) (s : State) : Kept s (execMemoryResponseTimeout tag s) := by
  unfold execMemoryResponseTimeout
  try dsimp only
  repeat' first
    | with_reducible exact Kern.To.rfl
    | with_reducible apply Kern.To.trans _ (State.writeAnswered_keeps _ _ _)
    | with_reducible apply Kern.To.trans _ (State.readAnswered_keeps _ _ _ _)
    | with_reducible apply Kern.To.trans _ (State.reissue_keeps _)
    | simp only [Keeps, State.kern_mk, State.kern_fold]
    | split
    | refine ⟨_, rfl, ?_⟩

theorem execTapBeat_keeps (bay : Fin 16) (data : List Word) (par : List Bool) (s : State) : Kept s (execTapBeat bay data par s) := by
  unfold execTapBeat
  try dsimp only
  repeat' first
    | with_reducible exact Kern.To.rfl
    | with_reducible apply Kern.To.trans _ (State.progress_keeps _ _ _)
    | with_reducible apply Kern.To.trans _ (State.faultPart_keeps _ _ _ _ _ _)
    | with_reducible apply Kern.To.trans _ (State.hold_keeps _ _ _)
    | with_reducible apply Kern.To.trans _ (State.setJob_keeps _ _ _)
    | simp only [Keeps, State.kern_mk, State.kern_fold]
    | split
    | refine ⟨_, rfl, ?_⟩

theorem execLaneCheck_keeps (bay : Fin 16) (lane op : Nat) (seen : LaneSeen) (s : State) : Kept s (execLaneCheck bay lane op seen s) := by
  unfold execLaneCheck
  try dsimp only
  repeat' first
    | with_reducible exact Kern.To.rfl
    | with_reducible apply Kern.To.trans _ (State.retireLower_keeps _ _ _ _ _)
    | with_reducible apply Kern.To.trans _ (State.breakLent_keeps _ _)
    | with_reducible apply Kern.To.trans _ (State.faultPart_keeps _ _ _ _ _ _)
    | with_reducible apply Kern.To.trans _ (State.hold_keeps _ _ _)
    | with_reducible apply Kern.To.trans _ (State.instanceFault_keeps _ _)
    | simp only [Keeps, State.kern_mk, State.kern_fold]
    | split
    | refine ⟨_, rfl, ?_⟩

theorem execSpareMapInDone_keeps (bay : Fin 16) (s : State) : Kept s (execSpareMapInDone bay s) := by
  unfold execSpareMapInDone
  try dsimp only
  repeat' first
    | with_reducible exact Kern.To.rfl
    | with_reducible apply Kern.To.trans _ (State.progressAll_keeps _)
    | with_reducible apply Kern.To.trans _ (State.hold_keeps _ _ _)
    | with_reducible apply Kern.To.trans _ (State.untilArith_keeps _ _)
    | simp only [Keeps, State.kern_mk, State.kern_fold]
    | split
    | refine ⟨_, rfl, ?_⟩

theorem execScrub_keeps (s : State) : Kept s (execScrub s) := by
  unfold execScrub
  try dsimp only
  repeat' first
    | with_reducible exact Kern.To.rfl
    | with_reducible apply Kern.To.trans _ (State.readConfig_keeps _)
    | simp only [Keeps, State.kern_mk, State.kern_fold]
    | split
    | refine ⟨_, rfl, ?_⟩

theorem execAttemptDrained_keeps (p : Part) (s : State) : Kept s (execAttemptDrained p s) := by
  unfold execAttemptDrained
  try dsimp only
  repeat' first
    | with_reducible exact Kern.To.rfl
    | with_reducible apply Kern.To.trans _ (State.dropShare_keeps _ _)
    | with_reducible apply Kern.To.trans _ (State.checkQuiesce_keeps _)
    | with_reducible apply Kern.To.trans _ (State.jobSend_keeps _ _ _ _ _)
    | with_reducible apply Kern.To.trans _ (State.endRingFault_keeps _)
    | with_reducible apply Kern.To.trans _ (State.hold_keeps _ _ _)
    | with_reducible apply Kern.To.trans _ (State.undefine_keeps _ _)
    | with_reducible apply Kern.To.trans _ (State.onChan_keeps _ _ _)
    | simp only [Keeps, State.kern_mk, State.kern_fold]
    | split
    | refine ⟨_, rfl, ?_⟩

theorem execReexecutionStart_keeps (c : Fin 16) (s : State) : Kept s (execReexecutionStart c s) := by
  unfold execReexecutionStart
  try dsimp only
  repeat' first
    | with_reducible exact Kern.To.rfl
    | with_reducible apply Kern.To.trans _ (State.reexecute_keeps _ _)
    | simp only [Keeps, State.kern_mk, State.kern_fold]
    | split
    | refine ⟨_, rfl, ?_⟩

theorem execGangLostWaitExpiry_keeps (c : Fin 16) (s : State) : Kept s (execGangLostWaitExpiry c s) := by
  unfold execGangLostWaitExpiry
  try dsimp only
  repeat' first
    | with_reducible exact Kern.To.rfl
    | with_reducible apply Kern.To.trans _ (State.reexecute_keeps _ _)
    | with_reducible apply Kern.To.trans _ (State.onChan_keeps _ _ _)
    | with_reducible apply Kern.To.trans _ (State.untilCount_keeps _ _)
    | simp only [Keeps, State.kern_mk, State.kern_fold]
    | split
    | refine ⟨_, rfl, ?_⟩

theorem execRingRecordWriteAck_keeps (r : RingSite) (err : Bool) (s : State) : Kept s (execRingRecordWriteAck r err s) := by
  unfold execRingRecordWriteAck
  try dsimp only
  repeat' first
    | with_reducible exact Kern.To.rfl
    | with_reducible apply Kern.To.trans _ (State.recordWritten_keeps _ _)
    | with_reducible apply Kern.To.trans _ (State.retryWrite_keeps _ _ _ _)
    | with_reducible apply Kern.To.trans _ (State.reissue_keeps _)
    | simp only [Keeps, State.kern_mk, State.kern_fold]
    | split
    | refine ⟨_, rfl, ?_⟩

theorem execRingSpacePoll_keeps (r : RingSite) (s : State) : Kept s (execRingSpacePoll r s) := by
  unfold execRingSpacePoll
  try dsimp only
  repeat' first
    | with_reducible exact Kern.To.rfl
    | with_reducible apply Kern.To.trans _ (State.pumpRings_keeps _)
    | with_reducible apply Kern.To.trans _ (State.takeRing_keeps _ _)
    | with_reducible apply Kern.To.trans _ (State.placeRecords_keeps _ _ _ _)
    | with_reducible apply Kern.To.trans _ (State.yardRing_keeps _ _)
    | with_reducible apply Kern.To.trans _ (State.readRing_keeps _ _ _)
    | with_reducible apply Kern.To.trans _ (State.setUse_keeps _ _ _)
    | simp only [Keeps, State.kern_mk, State.kern_fold]
    | split
    | refine ⟨_, rfl, ?_⟩

theorem execOffcutEndRecord_keeps (p : Part) (s : State) : Kept s (execOffcutEndRecord p s) := by
  unfold execOffcutEndRecord
  try dsimp only
  repeat' first
    | with_reducible exact Kern.To.rfl
    | with_reducible apply Kern.To.trans _ (State.queueOffcut_keeps _ _ _ _)
    | with_reducible apply Kern.To.trans _ (State.setJob_keeps _ _ _)
    | simp only [Keeps, State.kern_mk, State.kern_fold]
    | split
    | refine ⟨_, rfl, ?_⟩

theorem execHeldTileWrite_keeps (s : State) : Kept s (execHeldTileWrite s) := by
  unfold execHeldTileWrite
  try dsimp only
  repeat' first
    | with_reducible exact Kern.To.rfl
    | with_reducible apply Kern.To.trans _ (State.writeTile_keeps _ _ _ _)
    | simp only [Keeps, State.kern_mk, State.kern_fold]
    | refine Kern.To.trans ?_ (Keeps.foldl _ (fun _ _ => ?_) _ _)
    | split
    | refine ⟨_, rfl, ?_⟩

theorem execShare_keeps (e : Envelope) (b : List Byte) (s : State) : Kept s (execShare e b s) := by
  unfold execShare
  try dsimp only
  repeat' first
    | with_reducible exact Kern.To.rfl
    | with_reducible apply Kern.To.trans _ (State.shareComes_keeps _ _)
    | with_reducible apply Kern.To.trans _ (State.queueShare_keeps _ _ _)
    | with_reducible apply Kern.To.trans _ (State.replaceShare_keeps _ _ _ _)
    | with_reducible apply Kern.To.trans _ (State.discard_keeps _ _)
    | with_reducible apply Kern.To.trans _ (State.taken_keeps _ _ _)
    | simp only [Keeps, State.kern_mk, State.kern_fold]
    | split
    | refine ⟨_, rfl, ?_⟩

theorem execReport_keeps (e : Envelope) (b : List Byte) (s : State) : Kept s (execReport e b s) := by
  unfold execReport
  try dsimp only
  repeat' first
    | with_reducible exact Kern.To.rfl
    | refine State.forWork_keeps _ _ _ _ (fun _ _ _ => ?_)
    | with_reducible apply Kern.To.trans _ (State.reportedFault_keeps _ _ _)
    | with_reducible apply Kern.To.trans _ (State.discard_keeps _ _)
    | with_reducible apply Kern.To.trans _ (State.progress_keeps _ _ _)
    | with_reducible apply Kern.To.trans _ (State.setJob_keeps _ _ _)
    | simp only [Keeps, State.kern_mk, State.kern_fold]
    | split
    | refine ⟨_, rfl, ?_⟩

theorem State.keepReturn_keeps (s : State) (e : Envelope) (b : List Byte) : Keeps s (s.keepReturn e b) := by
  unfold State.keepReturn
  simp only [Keeps, State.kern_mk, State.kern_fold]
  exact State.taken_keeps _ _ _

theorem execPartialMsg_keeps (e : Envelope) (b : List Byte) (s : State) : Kept s (execPartialMsg e b s) := by
  unfold execPartialMsg
  try dsimp only
  repeat' first
    | exact ⟨_, rfl, State.keepReturn_keeps _ _ _⟩
    | with_reducible exact Kern.To.rfl
    | refine State.forWork_keeps _ _ _ _ (fun _ _ _ => ?_)
    | with_reducible apply Kern.To.trans _ (State.progress_keeps _ _ _)
    | with_reducible apply Kern.To.trans _ (State.setJob_keeps _ _ _)
    | simp only [Keeps, State.kern_mk, State.kern_fold]
    | split
    | refine ⟨_, rfl, ?_⟩

theorem execTile_keeps (e : Envelope) (b : List Byte) (s : State) : Kept s (execTile e b s) := by
  unfold execTile
  try dsimp only
  repeat' first
    | with_reducible exact Kern.To.rfl
    | with_reducible apply Kern.To.trans _ (State.discard_keeps _ _)
    | with_reducible apply Kern.To.trans _ (State.taken_keeps _ _ _)
    | with_reducible apply Kern.To.trans _ (State.writeTile_keeps _ _ _ _)
    | simp only [Keeps, State.kern_mk, State.kern_fold]
    | split
    | refine ⟨_, rfl, ?_⟩

theorem execTileAck_keeps (e : Envelope) (b : List Byte) (s : State) : Kept s (execTileAck e b s) := by
  unfold execTileAck
  try dsimp only
  repeat' first
    | with_reducible exact Kern.To.rfl
    | refine State.forWork_keeps _ _ _ _ (fun _ _ _ => ?_)
    | with_reducible apply Kern.To.trans _ (State.taken_keeps _ _ _)
    | with_reducible apply Kern.To.trans _ (State.progress_keeps _ _ _)
    | with_reducible apply Kern.To.trans _ (State.releaseTile_keeps _ _ _)
    | with_reducible apply Kern.To.trans _ (State.setJob_keeps _ _ _)
    | simp only [Keeps, State.kern_mk, State.kern_fold]
    | split
    | refine ⟨_, rfl, ?_⟩

theorem execSegval_keeps (e : Envelope) (b : List Byte) (s : State) : Kept s (execSegval e b s) := by
  unfold execSegval
  try dsimp only
  repeat' first
    | with_reducible exact Kern.To.rfl
    | refine State.forWork_keeps _ _ _ _ (fun _ _ _ => ?_)
    | with_reducible apply Kern.To.trans _ (State.progress_keeps _ _ _)
    | with_reducible apply Kern.To.trans _ (State.setJob_keeps _ _ _)
    | simp only [Keeps, State.kern_mk, State.kern_fold]
    | split
    | refine ⟨_, rfl, ?_⟩

theorem execScarf_keeps (e : Envelope) (b : List Byte) (s : State) : Kept s (execScarf e b s) := by
  unfold execScarf
  try dsimp only
  repeat' first
    | with_reducible exact Kern.To.rfl
    | with_reducible apply Kern.To.trans _ (State.scarfSeen_keeps _ _ _)
    | with_reducible apply Kern.To.trans _ (State.storeScarf_keeps _ _)
    | with_reducible apply Kern.To.trans _ (State.sendRingTime_keeps _ _)
    | with_reducible apply Kern.To.trans _ (State.taken_keeps _ _ _)
    | simp only [Keeps, State.kern_mk, State.kern_fold]
    | split
    | refine ⟨_, rfl, ?_⟩

theorem execScarfPeriodic_keeps (s : State) : Kept s (execScarfPeriodic s) := by
  unfold execScarfPeriodic
  try dsimp only
  repeat' first
    | with_reducible exact Kern.To.rfl
    | with_reducible apply Kern.To.trans _ (State.sendScarf_keeps _ _)
    | simp only [Keeps, State.kern_mk, State.kern_fold]
    | split
    | refine ⟨_, rfl, ?_⟩

theorem execScarfTimeout_keeps (sin : Nat) (s : State) : Kept s (execScarfTimeout sin s) := by
  unfold execScarfTimeout
  try dsimp only
  repeat' first
    | with_reducible exact Kern.To.rfl
    | with_reducible apply Kern.To.trans _ (State.dropScarf_keeps _ _)
    | with_reducible apply Kern.To.trans _ (State.untilCount_keeps _ _)
    | simp only [Keeps, State.kern_mk, State.kern_fold]
    | split
    | refine ⟨_, rfl, ?_⟩

theorem execRaise_keeps (e : Envelope) (b : List Byte) (s : State) : Kept s (execRaise e b s) := by
  unfold execRaise
  try dsimp only
  repeat' first
    | with_reducible exact Kern.To.rfl
    | with_reducible apply Kern.To.trans _ (State.arm_keeps _ _ _ _ _)
    | with_reducible apply Kern.To.trans _ (State.taken_keeps _ _ _)
    | with_reducible apply Kern.To.trans _ (State.netSend_keeps _ _ _)
    | simp only [Keeps, State.kern_mk, State.kern_fold]
    | split
    | refine ⟨_, rfl, ?_⟩

theorem execCancel_keeps (e : Envelope) (b : List Byte) (s : State) : Kept s (execCancel e b s) := by
  unfold execCancel
  try dsimp only
  repeat' first
    | with_reducible exact Kern.To.rfl
    | with_reducible apply Kern.To.trans _ (State.disarm_keeps _ _)
    | with_reducible apply Kern.To.trans _ (State.taken_keeps _ _ _)
    | simp only [Keeps, State.kern_mk, State.kern_fold]
    | split
    | refine ⟨_, rfl, ?_⟩

theorem execRaiseAck_keeps (e : Envelope) (b : List Byte) (s : State) : Kept s (execRaiseAck e b s) := by
  unfold execRaiseAck
  try dsimp only
  repeat' first
    | with_reducible exact Kern.To.rfl
    | with_reducible apply Kern.To.trans _ (State.taken_keeps _ _ _)
    | simp only [Keeps, State.kern_mk, State.kern_fold]
    | split
    | refine ⟨_, rfl, ?_⟩

theorem execRaiseDeadline_keeps (s : State) : Kept s (execRaiseDeadline s) := by
  unfold execRaiseDeadline
  try dsimp only
  repeat' first
    | with_reducible exact Kern.To.rfl
    | with_reducible apply Kern.To.trans _ (State.cancelRun_keeps _ _)
    | with_reducible apply Kern.To.trans _ (State.untilCount_keeps _ _)
    | simp only [Keeps, State.kern_mk, State.kern_fold]
    | split
    | refine ⟨_, rfl, ?_⟩

theorem execRaiseEdge_keeps (s : State) : Kept s (execRaiseEdge s) := by
  unfold execRaiseEdge
  try dsimp only
  repeat' first
    | with_reducible exact Kern.To.rfl
    | with_reducible apply Kern.To.trans _ (State.raiseNow_keeps _)
    | with_reducible apply Kern.To.trans _ (State.missRaise_keeps _)
    | with_reducible apply Kern.To.trans _ (State.finalRaise_keeps _ _ _)
    | with_reducible apply Kern.To.trans _ (State.untilCount_keeps _ _)
    | simp only [Keeps, State.kern_mk, State.kern_fold]
    | split
    | refine ⟨_, rfl, ?_⟩

theorem execRingTime_keeps (e : Envelope) (b : List Byte) (s : State) : Kept s (execRingTime e b s) := by
  unfold execRingTime
  try dsimp only
  repeat' first
    | with_reducible exact Kern.To.rfl
    | with_reducible apply Kern.To.trans _ (State.taken_keeps _ _ _)
    | simp only [Keeps, State.kern_mk, State.kern_fold]
    | split
    | refine ⟨_, rfl, ?_⟩

theorem execReservedClassMessage_keeps (e : Envelope) (b : List Byte) (s : State) : Kept s (execReservedClassMessage e b s) := by
  unfold execReservedClassMessage
  try dsimp only
  repeat' first
    | with_reducible exact Kern.To.rfl
    | with_reducible apply Kern.To.trans _ (State.taken_keeps _ _ _)
    | with_reducible apply Kern.To.trans _ (State.log0_keeps _ _ _ _)
    | simp only [Keeps, State.kern_mk, State.kern_fold]
    | split
    | refine ⟨_, rfl, ?_⟩

theorem execMessageForward_keeps (e : Envelope) (b : List Byte) (s : State) : Kept s (execMessageForward e b s) := by
  unfold execMessageForward
  try dsimp only
  repeat' first
    | with_reducible exact Kern.To.rfl
    | with_reducible apply Kern.To.trans _ (State.scarfSeen_keeps _ _ _)
    | with_reducible apply Kern.To.trans _ (State.netPut_keeps _ _ _)
    | with_reducible apply Kern.To.trans _ (State.taken_keeps _ _ _)
    | with_reducible apply Kern.To.trans _ (State.netSend_keeps _ _ _)
    | with_reducible apply Kern.To.trans _ (State.readConfig_keeps _)
    | with_reducible apply Kern.To.trans _ (State.log0_keeps _ _ _ _)
    | simp only [Keeps, State.kern_mk, State.kern_fold]
    | split
    | refine ⟨_, rfl, ?_⟩

theorem execTieRingBeat_keeps (cw : Bool) (data : List Byte) (par : List Bool) (s : State) : Kept s (execTieRingBeat cw data par s) := by
  unfold execTieRingBeat
  try dsimp only
  repeat' first
    | with_reducible exact Kern.To.rfl
    | with_reducible apply Kern.To.trans _ (State.ringBeat_keeps _ _ _ _ _)
    | simp only [Keeps, State.kern_mk, State.kern_fold]
    | split
    | refine ⟨_, rfl, ?_⟩

theorem execDataFlit_keeps (p : Fin 2) (flit : FlitRx) (s : State) : Kept s (execDataFlit p flit s) := by
  unfold execDataFlit
  try dsimp only
  repeat' first
    | with_reducible exact Kern.To.rfl
    | with_reducible apply Kern.To.trans _ (State.flitIn_keeps _ _ _)
    | simp only [Keeps, State.kern_mk, State.kern_fold]
    | split
    | refine ⟨_, rfl, ?_⟩

theorem execIdleFlit_keeps (p : Fin 2) (flit : FlitRx) (s : State) : Kept s (execIdleFlit p flit s) := by
  unfold execIdleFlit
  try dsimp only
  repeat' first
    | with_reducible exact Kern.To.rfl
    | with_reducible apply Kern.To.trans _ (State.flitIn_keeps _ _ _)
    | simp only [Keeps, State.kern_mk, State.kern_fold]
    | split
    | refine ⟨_, rfl, ?_⟩

theorem execReplayTimeout_keeps (p : Fin 2) (s : State) : Kept s (execReplayTimeout p s) := by
  unfold execReplayTimeout
  try dsimp only
  repeat' first
    | with_reducible exact Kern.To.rfl
    | with_reducible apply Kern.To.trans _ (State.setPort_keeps _ _ _)
    | with_reducible apply Kern.To.trans _ (State.untilCount_keeps _ _)
    | simp only [Keeps, State.kern_mk, State.kern_fold]
    | split
    | refine ⟨_, rfl, ?_⟩

theorem execResendLimitRetrain_keeps (p : Fin 2) (s : State) : Kept s (execResendLimitRetrain p s) := by
  unfold execResendLimitRetrain
  try dsimp only
  repeat' first
    | with_reducible exact Kern.To.rfl
    | with_reducible apply Kern.To.trans _ (State.setPort_keeps _ _ _)
    | simp only [Keeps, State.kern_mk, State.kern_fold]
    | split
    | refine ⟨_, rfl, ?_⟩

theorem execTimeFlit_keeps (p : Fin 2) (flit : FlitRx) (arrival : Word64) (s : State) : Kept s (execTimeFlit p flit arrival s) := by
  unfold execTimeFlit
  try dsimp only
  repeat' first
    | with_reducible exact Kern.To.rfl
    | with_reducible apply Kern.To.trans _ (State.timeIn_keeps _ _ _ _)
    | with_reducible apply Kern.To.trans _ (State.flitIn_keeps _ _ _)
    | with_reducible apply Kern.To.trans _ (State.untilCount_keeps _ _)
    | simp only [Keeps, State.kern_mk, State.kern_fold]
    | split
    | refine ⟨_, rfl, ?_⟩

theorem execTimeFlitSend_keeps (p : Fin 2) (departure : Word64) (s : State) : Kept s (execTimeFlitSend p departure s) := by
  unfold execTimeFlitSend
  try dsimp only
  repeat' first
    | with_reducible exact Kern.To.rfl
    | with_reducible apply Kern.To.trans _ (State.setPort_keeps _ _ _)
    | with_reducible apply Kern.To.trans _ (State.untilCount_keeps _ _)
    | simp only [Keeps, State.kern_mk, State.kern_fold]
    | split
    | refine ⟨_, rfl, ?_⟩

theorem execSyncInEdge_keeps (ts pulse : Nat) (s : State) : Kept s (execSyncInEdge ts pulse s) := by
  unfold execSyncInEdge
  try dsimp only
  repeat' first
    | with_reducible exact Kern.To.rfl
    | with_reducible apply Kern.To.trans _ (State.estimate_keeps _ _ _)
    | with_reducible apply Kern.To.trans _ (State.untilCount_keeps _ _)
    | simp only [Keeps, State.kern_mk, State.kern_fold]
    | split
    | refine ⟨_, rfl, ?_⟩

theorem execSyncOutPulse_keeps (s : State) : Kept s (execSyncOutPulse s) := by
  unfold execSyncOutPulse
  try dsimp only
  repeat' first
    | with_reducible exact Kern.To.rfl
    | with_reducible apply Kern.To.trans _ (State.untilCount_keeps _ _)
    | simp only [Keeps, State.kern_mk, State.kern_fold]
    | split
    | refine ⟨_, rfl, ?_⟩

theorem execHello_keeps (p : Fin 2) (flit : FlitRx) (s : State) : Kept s (execHello p flit s) := by
  unfold execHello
  try dsimp only
  repeat' first
    | with_reducible exact Kern.To.rfl
    | with_reducible apply Kern.To.trans _ (State.helloIn_keeps _ _ _)
    | with_reducible apply Kern.To.trans _ (State.sendHello_keeps _ _)
    | with_reducible apply Kern.To.trans _ (State.flitIn_keeps _ _ _)
    | simp only [Keeps, State.kern_mk, State.kern_fold]
    | split
    | refine ⟨_, rfl, ?_⟩

theorem execTrainingFrame_keeps (p : Fin 2) (lane : Nat) (marker : Word) (control status : Nat) (s : State) : Kept s (execTrainingFrame p lane marker control status s) := by
  unfold execTrainingFrame
  try dsimp only
  repeat' first
    | with_reducible exact Kern.To.rfl
    | with_reducible apply Kern.To.trans _ (State.setPort_keeps _ _ _)
    | simp only [Keeps, State.kern_mk, State.kern_fold]
    | split
    | refine ⟨_, rfl, ?_⟩

theorem execTrainingFrameSend_keeps (p : Fin 2) (s : State) : Kept s (execTrainingFrameSend p s) := by
  unfold execTrainingFrameSend
  try dsimp only
  repeat' first
    | with_reducible exact Kern.To.rfl
    | with_reducible apply Kern.To.trans _ (State.sendHello_keeps _ _)
    | with_reducible apply Kern.To.trans _ (State.setPort_keeps _ _ _)
    | simp only [Keeps, State.kern_mk, State.kern_fold]
    | refine Kern.To.trans ?_ (Keeps.foldl _ (fun _ _ => ?_) _ _)
    | split
    | refine ⟨_, rfl, ?_⟩

theorem execTrainingPhaseDone_keeps (p : Fin 2) (s : State) : Kept s (execTrainingPhaseDone p s) := by
  unfold execTrainingPhaseDone
  try dsimp only
  repeat' first
    | with_reducible exact Kern.To.rfl
    | with_reducible apply Kern.To.trans _ (State.sendHello_keeps _ _)
    | with_reducible apply Kern.To.trans _ (State.setPort_keeps _ _ _)
    | simp only [Keeps, State.kern_mk, State.kern_fold]
    | split
    | refine ⟨_, rfl, ?_⟩

theorem execTrainingPhaseTimeout_keeps (p : Fin 2) (s : State) : Kept s (execTrainingPhaseTimeout p s) := by
  unfold execTrainingPhaseTimeout
  try dsimp only
  repeat' first
    | with_reducible exact Kern.To.rfl
    | with_reducible apply Kern.To.trans _ (State.portDown_keeps _ _ _)
    | with_reducible apply Kern.To.trans _ (State.setPort_keeps _ _ _)
    | with_reducible apply Kern.To.trans _ (State.pass_keeps _ _)
    | simp only [Keeps, State.kern_mk, State.kern_fold]
    | split
    | refine ⟨_, rfl, ?_⟩

theorem execFreezeFrame_keeps (src : Option (Fin 2)) (frame : FlitRx) (s : State) : Kept s (execFreezeFrame src frame s) := by
  unfold execFreezeFrame
  try dsimp only
  repeat' first
    | with_reducible exact Kern.To.rfl
    | with_reducible apply Kern.To.trans _ (State.flitIn_keeps _ _ _)
    | with_reducible apply Kern.To.trans _ (State.freezeFrame_keeps _ _ _)
    | simp only [Keeps, State.kern_mk, State.kern_fold]
    | split
    | refine ⟨_, rfl, ?_⟩

theorem execFreezeInEdge_keeps (s : State) : Kept s (execFreezeInEdge s) := by
  unfold execFreezeInEdge
  try dsimp only
  repeat' first
    | with_reducible exact Kern.To.rfl
    | with_reducible apply Kern.To.trans _ (State.freezeHere_keeps _ _)
    | simp only [Keeps, State.kern_mk, State.kern_fold]
    | split
    | refine ⟨_, rfl, ?_⟩

theorem execFreezeComplete_keeps (s : State) : Kept s (execFreezeComplete s) := by
  unfold execFreezeComplete
  try dsimp only
  repeat' first
    | with_reducible exact Kern.To.rfl
    | with_reducible apply Kern.To.trans _ (State.irq_keeps _ _)
    | simp only [Keeps, State.kern_mk, State.kern_fold]
    | split
    | refine ⟨_, rfl, ?_⟩

theorem execClaim_keeps (m : Fin 4) (s : State) : Kept s (execClaim m s) := by
  unfold execClaim
  try dsimp only
  repeat' first
    | with_reducible exact Kern.To.rfl
    | with_reducible apply Kern.To.trans _ (State.claimNow_keeps _ _)
    | with_reducible apply Kern.To.trans _ (State.latchClaim_keeps _ _)
    | simp only [Keeps, State.kern_mk, State.kern_fold]
    | split
    | refine ⟨_, rfl, ?_⟩

theorem execRelease_keeps (m : Fin 4) (_withClaim : Bool) (s : State) : Kept s (execRelease m _withClaim s) := by
  unfold execRelease
  try dsimp only
  repeat' first
    | with_reducible exact Kern.To.rfl
    | refine State.byOwner_keeps _ _ _ (fun _ => ?_)
    | with_reducible apply Kern.To.trans _ (State.respond_keeps _ _ _ _)
    | simp only [Keeps, State.kern_mk, State.kern_fold]
    | split
    | refine ⟨_, rfl, ?_⟩

theorem execHandover_keeps (m target : Fin 4) (s : State) : Kept s (execHandover m target s) := by
  unfold execHandover
  try dsimp only
  repeat' first
    | with_reducible exact Kern.To.rfl
    | refine State.byOwner_keeps _ _ _ (fun _ => ?_)
    | with_reducible apply Kern.To.trans _ (State.respond_keeps _ _ _ _)
    | simp only [Keeps, State.kern_mk, State.kern_fold]
    | split
    | refine ⟨_, rfl, ?_⟩

theorem execHandoverExpired_keeps (s : State) : Kept s (execHandoverExpired s) := by
  unfold execHandoverExpired
  try dsimp only
  repeat' first
    | with_reducible exact Kern.To.rfl
    | with_reducible apply Kern.To.trans _ (State.irq_keeps _ _)
    | with_reducible apply Kern.To.trans _ (State.untilMgmt_keeps _ _)
    | simp only [Keeps, State.kern_mk, State.kern_fold]
    | split
    | refine ⟨_, rfl, ?_⟩

theorem execOwnerBeat_keeps (m : Fin 4) (beat : Word) (s : State) : Kept s (execOwnerBeat m beat s) := by
  unfold execOwnerBeat
  try dsimp only
  repeat' first
    | with_reducible exact Kern.To.rfl
    | refine State.byOwner_keeps _ _ _ (fun _ => ?_)
    | with_reducible apply Kern.To.trans _ (State.respond_keeps _ _ _ _)
    | simp only [Keeps, State.kern_mk, State.kern_fold]
    | split
    | refine ⟨_, rfl, ?_⟩

theorem execLapse_keeps (s : State) : Kept s (execLapse s) := by
  unfold execLapse
  try dsimp only
  repeat' first
    | with_reducible exact Kern.To.rfl
    | with_reducible apply Kern.To.trans _ (State.log0_keeps _ _ _ _)
    | with_reducible apply Kern.To.trans _ (State.irq_keeps _ _)
    | with_reducible apply Kern.To.trans _ (State.untilMgmt_keeps _ _)
    | simp only [Keeps, State.kern_mk, State.kern_fold]
    | split
    | refine ⟨_, rfl, ?_⟩

theorem execIrqStatusClear_keeps (m : Fin 4) (mask : Word) (s : State) : Kept s (execIrqStatusClear m mask s) := by
  unfold execIrqStatusClear
  try dsimp only
  repeat' first
    | with_reducible exact Kern.To.rfl
    | refine State.byOwner_keeps _ _ _ (fun _ => ?_)
    | with_reducible apply Kern.To.trans _ (State.respond_keeps _ _ _ _)
    | simp only [Keeps, State.kern_mk, State.kern_fold]
    | split
    | refine ⟨_, rfl, ?_⟩

theorem execQuiesce_keeps (m : Fin 4) (s : State) : Kept s (execQuiesce m s) := by
  unfold execQuiesce
  try dsimp only
  repeat' first
    | with_reducible exact Kern.To.rfl
    | refine State.byOwner_keeps _ _ _ (fun _ => ?_)
    | with_reducible apply Kern.To.trans _ (State.quiesceWrite_keeps _ _)
    | simp only [Keeps, State.kern_mk, State.kern_fold]
    | split
    | refine ⟨_, rfl, ?_⟩

theorem execRaiseLocal_keeps (m : Fin 4) (s : State) : Kept s (execRaiseLocal m s) := by
  unfold execRaiseLocal
  try dsimp only
  repeat' first
    | with_reducible exact Kern.To.rfl
    | refine State.byOwner_keeps _ _ _ (fun _ => ?_)
    | with_reducible apply Kern.To.trans _ (State.raiseLocalWrite_keeps _ _)
    | simp only [Keeps, State.kern_mk, State.kern_fold]
    | split
    | refine ⟨_, rfl, ?_⟩

theorem execRaiseGang_keeps (m : Fin 4) (gang : Nat) (s : State) : Kept s (execRaiseGang m gang s) := by
  unfold execRaiseGang
  try dsimp only
  repeat' first
    | with_reducible exact Kern.To.rfl
    | refine State.byOwner_keeps _ _ _ (fun _ => ?_)
    | with_reducible apply Kern.To.trans _ (State.raiseGangWrite_keeps _ _ _)
    | simp only [Keeps, State.kern_mk, State.kern_fold]
    | split
    | refine ⟨_, rfl, ?_⟩

theorem execRaiseAtWrite_keeps (m : Fin 4) (high : Bool) (value : Word) (s : State) : Kept s (execRaiseAtWrite m high value s) := by
  unfold execRaiseAtWrite
  try dsimp only
  repeat' first
    | with_reducible exact Kern.To.rfl
    | refine State.byOwner_keeps _ _ _ (fun _ => ?_)
    | with_reducible apply Kern.To.trans _ (State.raiseAtHalf_keeps _ _ _ _)
    | simp only [Keeps, State.kern_mk, State.kern_fold]
    | split
    | refine ⟨_, rfl, ?_⟩

theorem execShadowWrite_keeps (m : Fin 4) (off : Nat) (value : Word) (s : State) : Kept s (execShadowWrite m off value s) := by
  unfold execShadowWrite
  try dsimp only
  repeat' first
    | with_reducible exact Kern.To.rfl
    | refine State.byOwner_keeps _ _ _ (fun _ => ?_)
    | with_reducible apply Kern.To.trans _ (State.shadowTo_keeps _ _ _ _)
    | simp only [Keeps, State.kern_mk, State.kern_fold]
    | split
    | refine ⟨_, rfl, ?_⟩

theorem execNextseqWrite_keeps (m g : Fin 4) (value : Word) (s : State) : Kept s (execNextseqWrite m g value s) := by
  unfold execNextseqWrite
  try dsimp only
  repeat' first
    | with_reducible exact Kern.To.rfl
    | refine State.byOwner_keeps _ _ _ (fun _ => ?_)
    | with_reducible apply Kern.To.trans _ (State.nextSeqTo_keeps _ _ _ _)
    | simp only [Keeps, State.kern_mk, State.kern_fold]
    | split
    | refine ⟨_, rfl, ?_⟩

theorem execChannelEnable_keeps (m : Fin 4) (c : Fin 16) (s : State) : Kept s (execChannelEnable m c s) := by
  unfold execChannelEnable
  try dsimp only
  repeat' first
    | with_reducible exact Kern.To.rfl
    | refine State.byOwner_keeps _ _ _ (fun _ => ?_)
    | with_reducible apply Kern.To.trans _ (State.enableWrite_keeps _ _ _ _)
    | simp only [Keeps, State.kern_mk, State.kern_fold]
    | split
    | refine ⟨_, rfl, ?_⟩

theorem execChannelDisable_keeps (m : Fin 4) (c : Fin 16) (s : State) : Kept s (execChannelDisable m c s) := by
  unfold execChannelDisable
  try dsimp only
  repeat' first
    | with_reducible exact Kern.To.rfl
    | refine State.byOwner_keeps _ _ _ (fun _ => ?_)
    | with_reducible apply Kern.To.trans _ (State.enableWrite_keeps _ _ _ _)
    | simp only [Keeps, State.kern_mk, State.kern_fold]
    | split
    | refine ⟨_, rfl, ?_⟩

theorem execFreeze_keeps (m : Fin 4) (value : Word) (s : State) : Kept s (execFreeze m value s) := by
  unfold execFreeze
  try dsimp only
  repeat' first
    | with_reducible exact Kern.To.rfl
    | refine State.byOwner_keeps _ _ _ (fun _ => ?_)
    | with_reducible apply Kern.To.trans _ (State.freezeCtl_keeps _ _ _)
    | simp only [Keeps, State.kern_mk, State.kern_fold]
    | split
    | refine ⟨_, rfl, ?_⟩

theorem execThaw_keeps (m : Fin 4) (value : Word) (freezeIn : Bool) (s : State) : Kept s (execThaw m value freezeIn s) := by
  unfold execThaw
  try dsimp only
  repeat' first
    | with_reducible exact Kern.To.rfl
    | refine State.byOwner_keeps _ _ _ (fun _ => ?_)
    | with_reducible apply Kern.To.trans _ (State.freezeCtl_keeps _ _ _)
    | simp only [Keeps, State.kern_mk, State.kern_fold]
    | split
    | refine ⟨_, rfl, ?_⟩

theorem execRetrain_keeps (m : Fin 4) (bits : Nat) (s : State) : Kept s (execRetrain m bits s) := by
  unfold execRetrain
  try dsimp only
  repeat' first
    | with_reducible exact Kern.To.rfl
    | refine State.byOwner_keeps _ _ _ (fun _ => ?_)
    | with_reducible apply Kern.To.trans _ (State.retrainPorts_keeps _ _)
    | with_reducible apply Kern.To.trans _ (State.respond_keeps _ _ _ _)
    | simp only [Keeps, State.kern_mk, State.kern_fold]
    | split
    | refine ⟨_, rfl, ?_⟩

theorem execLogTailWrite_keeps (m : Fin 4) (value : Word) (s : State) : Kept s (execLogTailWrite m value s) := by
  unfold execLogTailWrite
  try dsimp only
  repeat' first
    | with_reducible exact Kern.To.rfl
    | refine State.byOwner_keeps _ _ _ (fun _ => ?_)
    | with_reducible apply Kern.To.trans _ (State.tailWrite_keeps _ _ _)
    | simp only [Keeps, State.kern_mk, State.kern_fold]
    | split
    | refine ⟨_, rfl, ?_⟩

theorem execReadoutWindowRead_keeps (m : Fin 4) (k : Nat) (s : State) : Kept s (execReadoutWindowRead m k s) := by
  unfold execReadoutWindowRead
  try dsimp only
  repeat' first
    | with_reducible exact Kern.To.rfl
    | with_reducible apply Kern.To.trans _ (State.mgmtReadAt_keeps _ _ _)
    | simp only [Keeps, State.kern_mk, State.kern_fold]
    | split
    | refine ⟨_, rfl, ?_⟩

theorem execRegisterWrite_keeps (m : Fin 4) (off : Nat) (value : Word) (s : State) : Kept s (execRegisterWrite m off value s) := by
  unfold execRegisterWrite
  try dsimp only
  repeat' first
    | with_reducible exact Kern.To.rfl
    | with_reducible apply Kern.To.trans _ (State.mgmtWrite_keeps _ _ _ _)
    | with_reducible apply Kern.To.trans _ (State.respond_keeps _ _ _ _)
    | simp only [Keeps, State.kern_mk, State.kern_fold]
    | split
    | refine ⟨_, rfl, ?_⟩

theorem execMgmtBadAddress_keeps (m : Fin 4) (_write : Bool) (s : State) : Kept s (execMgmtBadAddress m _write s) := by
  unfold execMgmtBadAddress
  try dsimp only
  repeat' first
    | with_reducible exact Kern.To.rfl
    | with_reducible apply Kern.To.trans _ (State.respond_keeps _ _ _ _)
    | simp only [Keeps, State.kern_mk, State.kern_fold]
    | split
    | refine ⟨_, rfl, ?_⟩

theorem execResetAssert_keeps (s : State) : Kept s (execResetAssert s) := by
  refine ⟨_, rfl, ?_⟩
  split
  · exact ⟨rfl, fun _ => Kern.zero_good s.pending [] {} [] rfl (by decide) (by decide) (by decide)⟩
  · exact ⟨rfl, fun _ => Kern.zero_good s.pending [] {} [] rfl (by decide) (by decide) (by decide)⟩

theorem execResetRelease_keeps (fuses : Nat) (ssc : Bool) (s : State) : Kept s (execResetRelease fuses ssc s) := by
  unfold execResetRelease
  split
  · exact ⟨_, rfl, .rfl⟩
  · exact ⟨_, rfl, rfl, fun ⟨a, b, c, _, _, _, _, k⟩ => Kern.zero_good s.pending s.bays.yard s.log s.frz.seen a b c k⟩

theorem execPllLockDone_keeps (avs : Nat) (s : State) : Kept s (execPllLockDone avs s) := by
  unfold execPllLockDone
  try dsimp only
  repeat' first
    | with_reducible exact Kern.To.rfl
    | with_reducible apply Kern.To.trans _ (State.toPhase_keeps _ _)
    | with_reducible apply Kern.To.trans _ (State.takeHeldOff_keeps _)
    | simp only [Keeps, State.kern_mk, State.kern_fold]
    | split
    | refine ⟨_, rfl, ?_⟩

theorem execNvDiscoveryDone_keeps (dev : NvDevice) (headers logs : List (List Byte)) (s : State) : Kept s (execNvDiscoveryDone dev headers logs s) := by
  unfold execNvDiscoveryDone
  try dsimp only
  repeat' first
    | with_reducible exact Kern.To.rfl
    | with_reducible apply Kern.To.trans _ (State.discover_keeps _ _ _)
    | with_reducible apply Kern.To.trans _ (State.instanceFault_keeps _ _)
    | simp only [Keeps, State.kern_mk, State.kern_fold]
    | split
    | refine ⟨_, rfl, ?_⟩

theorem execImageSlotReadDone_keeps (bytes : List Byte) (s : State) : Kept s (execImageSlotReadDone bytes s) := by
  unfold execImageSlotReadDone
  try dsimp only
  repeat' first
    | with_reducible exact Kern.To.rfl
    | with_reducible apply Kern.To.trans _ (State.logSlot_keeps _ _ _)
    | with_reducible apply Kern.To.trans _ (State.toPhase_keeps _ _)
    | with_reducible apply Kern.To.trans _ (State.instanceFault_keeps _ _)
    | simp only [Keeps, State.kern_mk, State.kern_fold]
    | split
    | refine ⟨_, rfl, ?_⟩

theorem execSelfTestDone_keeps (fails : List (Fin 16 × SelfFail)) (s : State) : Kept s (execSelfTestDone fails s) := by
  unfold execSelfTestDone
  try dsimp only
  repeat' first
    | with_reducible exact Kern.To.rfl
    | with_reducible apply Kern.To.trans _ (State.selfTestBay_keeps _ _ _)
    | with_reducible apply Kern.To.trans _ (State.toPhase_keeps _ _)
    | simp only [Keeps, State.kern_mk, State.kern_fold]
    | refine Kern.To.trans ?_ (Keeps.foldl _ (fun _ _ => ?_) _ _)
    | split
    | refine ⟨_, rfl, ?_⟩

theorem execLoadEnd_keeps (programmed : Bool) (s : State) : Kept s (execLoadEnd programmed s) := by
  unfold execLoadEnd
  try dsimp only
  repeat' first
    | with_reducible exact Kern.To.rfl
    | with_reducible apply Kern.To.trans _ (State.applySlots_keeps _)
    | with_reducible apply Kern.To.trans _ (State.fixBays_keeps _)
    | with_reducible apply Kern.To.trans _ (State.finishLoad_keeps _ _)
    | with_reducible apply Kern.To.trans _ (State.expose_keeps _)
    | with_reducible apply Kern.To.trans _ (State.sendScarf_keeps _ _)
    | simp only [Keeps, State.kern_mk, State.kern_fold]
    | split
    | refine ⟨_, rfl, ?_⟩

theorem execTrainingWindowEnd_keeps (s : State) : Kept s (execTrainingWindowEnd s) := by
  unfold execTrainingWindowEnd
  try dsimp only
  repeat' first
    | with_reducible exact Kern.To.rfl
    | with_reducible apply Kern.To.trans _ (State.endWindow_keeps _ _)
    | with_reducible apply Kern.To.trans _ (State.beginAlignment_keeps _)
    | simp only [Keeps, State.kern_mk, State.kern_fold]
    | split
    | refine ⟨_, rfl, ?_⟩

theorem execPlumbAlignmentEnd_keeps (s : State) : Kept s (execPlumbAlignmentEnd s) := by
  unfold execPlumbAlignmentEnd
  try dsimp only
  repeat' first
    | with_reducible exact Kern.To.rfl
    | with_reducible apply Kern.To.trans _ (State.becomeReady_keeps _)
    | with_reducible apply Kern.To.trans _ (State.endWindow_keeps _ _)
    | simp only [Keeps, State.kern_mk, State.kern_fold]
    | split
    | refine ⟨_, rfl, ?_⟩

theorem execBootLogErase_keeps (ok : Bool) (s : State) : Kept s (execBootLogErase ok s) := by
  unfold execBootLogErase
  try dsimp only
  repeat' first
    | with_reducible exact Kern.To.rfl
    | with_reducible apply Kern.To.trans _ (State.nvWrite_keeps _ _ _)
    | with_reducible apply Kern.To.trans _ (State.log0_keeps _ _ _ _)
    | simp only [Keeps, State.kern_mk, State.kern_fold]
    | split
    | refine ⟨_, rfl, ?_⟩

theorem execNvRelease_keeps (s : State) : Kept s (execNvRelease s) := by
  unfold execNvRelease
  try dsimp only
  repeat' first
    | with_reducible exact Kern.To.rfl
    | simp only [Keeps, State.kern_mk, State.kern_fold]
    | split
    | refine ⟨_, rfl, ?_⟩

theorem execIdcode_keeps (s : State) : Kept s (execIdcode s) := by
  unfold execIdcode
  try dsimp only
  repeat' first
    | with_reducible exact Kern.To.rfl
    | with_reducible apply Kern.To.trans _ (State.testInstr_keeps _ _ _ _)
    | simp only [Keeps, State.kern_mk, State.kern_fold]
    | split
    | refine ⟨_, rfl, ?_⟩

theorem execFuseRead_keeps (s : State) : Kept s (execFuseRead s) := by
  unfold execFuseRead
  try dsimp only
  repeat' first
    | with_reducible exact Kern.To.rfl
    | with_reducible apply Kern.To.trans _ (State.testInstr_keeps _ _ _ _)
    | simp only [Keeps, State.kern_mk, State.kern_fold]
    | split
    | refine ⟨_, rfl, ?_⟩

theorem execScanEn_keeps (s : State) : Kept s (execScanEn s) := by
  unfold execScanEn
  try dsimp only
  repeat' first
    | with_reducible exact Kern.To.rfl
    | with_reducible apply Kern.To.trans _ (State.destroyStores_keeps _)
    | with_reducible apply Kern.To.trans _ (State.testInstr_keeps _ _ _ _)
    | simp only [Keeps, State.kern_mk, State.kern_fold]
    | split
    | refine ⟨_, rfl, ?_⟩

theorem execMbistRun_keeps (write : Bool) (s : State) : Kept s (execMbistRun write s) := by
  unfold execMbistRun
  try dsimp only
  repeat' first
    | with_reducible exact Kern.To.rfl
    | with_reducible apply Kern.To.trans _ (State.destroyStores_keeps _)
    | with_reducible apply Kern.To.trans _ (State.testInstr_keeps _ _ _ _)
    | simp only [Keeps, State.kern_mk, State.kern_fold]
    | split
    | refine ⟨_, rfl, ?_⟩

theorem execMbistDone_keeps (pass : Bool) (firstFail : Nat) (s : State) : Kept s (execMbistDone pass firstFail s) := by
  unfold execMbistDone
  try dsimp only
  repeat' first
    | with_reducible exact Kern.To.rfl
    | with_reducible apply Kern.To.trans _ (State.pass_keeps _ _)
    | simp only [Keeps, State.kern_mk, State.kern_fold]
    | split
    | refine ⟨_, rfl, ?_⟩

theorem execMbistStatus_keeps (s : State) : Kept s (execMbistStatus s) := by
  unfold execMbistStatus
  try dsimp only
  repeat' first
    | with_reducible exact Kern.To.rfl
    | with_reducible apply Kern.To.trans _ (State.testInstr_keeps _ _ _ _)
    | simp only [Keeps, State.kern_mk, State.kern_fold]
    | split
    | refine ⟨_, rfl, ?_⟩

theorem execBypass_keeps (code : Nat) (s : State) : Kept s (execBypass code s) := by
  unfold execBypass
  try dsimp only
  repeat' first
    | with_reducible exact Kern.To.rfl
    | with_reducible apply Kern.To.trans _ (State.testInstr_keeps _ _ _ _)
    | simp only [Keeps, State.kern_mk, State.kern_fold]
    | split
    | refine ⟨_, rfl, ?_⟩

theorem execTestReset_keeps (s : State) : Kept s (execTestReset s) := by
  unfold execTestReset
  try dsimp only
  repeat' first
    | with_reducible exact Kern.To.rfl
    | simp only [Keeps, State.kern_mk, State.kern_fold]
    | split
    | refine ⟨_, rfl, ?_⟩

theorem execLowWordRead_keeps (m : Fin 4) (off : Nat) (s : State) : Kept s (execLowWordRead m off s) := by
  unfold execLowWordRead
  try dsimp only
  repeat' first
    | with_reducible exact Kern.To.rfl
    | with_reducible apply Kern.To.trans _ (State.mgmtReadAt_keeps _ _ _)
    | simp only [Keeps, State.kern_mk, State.kern_fold]
    | split
    | refine ⟨_, rfl, ?_⟩

theorem execRailsWithinRange_keeps (core sram : Bool) (s : State) : Kept s (execRailsWithinRange core sram s) := by
  unfold execRailsWithinRange
  try dsimp only
  repeat' first
    | with_reducible exact Kern.To.rfl
    | simp only [Keeps, State.kern_mk, State.kern_fold]
    | split
    | refine ⟨_, rfl, ?_⟩

end Sys2Proof.Machine
end

