-- ==== Sys2Proof/Machine/PortBeats.lean ====
section
/-! DEFINITION. How requests and messages leave and arrive in beats, and the levels of the handshake pins (16_ R397 to R399, R402, R403,
Tables 16.1 and 16.2). -/

namespace Sys2Proof.Machine

/-! ### The memory port (R398) -/

/-- A request beat (Table 16.1): lane j of `data` stands with its byte enable, bit j of `strb`. -/
structure RqBeat where
  write : Bool
  addr : Nat
  len : Nat
  tag : Nat
  data : List Byte
  strb : List Bool
  last : Bool
  deriving DecidableEq, Repr, Inhabited

/-- MP_RQ_ADDR: the request's first whole unit. -/
def MemReq.rqAddr (r : MemReq) : Nat := r.addr / 64 * 64

/-- The windows a request touches, in ascending order: their first addresses. -/
def MemReq.windows (r : MemReq) : List Nat :=
  (List.range ((r.rqAddr + 64 * r.len - 1) / 512 + 1 - r.rqAddr / 512)).map fun i => (r.rqAddr / 512 + i) * 512

/-- Does the request write the byte at an address? -/
def MemReq.writes (r : MemReq) (a : Nat) : Bool := r.write && decide (r.addr ≤ a ∧ a < r.addr + r.data.length)

/-- The beat of one window of a write: the bytes of the request in it, each in the lane of its address. -/
def MemReq.windowBeat (r : MemReq) (w : Nat) (last : Bool) : RqBeat :=
  { write := true, addr := r.rqAddr, len := r.len, tag := r.tag, last := last
    data := (List.range 512).map fun j => if r.writes (w + j) then r.data.getD (w + j - r.addr) 0#8 else 0#8
    strb := (List.range 512).map fun j => r.writes (w + j) }

/-- The beats of a request: one for a read, one per window for a write (R398). -/
def MemReq.beats (r : MemReq) : List RqBeat :=
  if r.write then r.windows.map fun w => r.windowBeat w (w == (r.windows.getLast?).getD 0)
  else [{ write := false, addr := r.rqAddr, len := r.len, tag := r.tag, data := zeros 512, strb := List.replicate 512 false, last := true }]

/-- The bytes a read delivers from the data beats of its response, one per window (R398). -/
def MemReq.gatherBeats (r : MemReq) (beats : List (List Byte)) : List Byte :=
  (List.range (64 * r.len)).map fun i =>
    let a := r.rqAddr + i
    (beats.getD (a / 512 - r.rqAddr / 512) []).getD (a % 512) 0#8

/-- MP_RS_READY: high but while a freeze has stopped FABRIC, and in reset (R399). -/
def State.mpRsReady (s : State) : Bool := !s.pins.rstN || s.lg != .frozen

/-! ### The message port (R403) -/

/-- A message in beats of 32 bytes, the last padded with zeros and marked (R403). -/
def messageBeats (msg : List Byte) : List (List Byte × Bool) :=
  let l := chunksOf 32 (padMul 32 msg)
  l.zipIdx.map fun x => (x.1, x.2 + 1 == l.length)

/-- MI_READY: low in reset, in P0 and in a freeze (R74, R403). A message is taken whole as it arrives, so the queue of 64 beats is never
full (log 65). -/
def State.miReady (s : State) : Bool := !s.heldOffNow

end Sys2Proof.Machine
end

