-- ==== Sys2Proof/Tests/Slice0.lean ====
section
/-! SUPPORT. Tests: an ill-formed term for each check of WellFormed, vectors and worked examples of the spec, and for every
statement states and operands that meet its hypotheses. -/

open Sys2Proof Sys2Proof.Machine

namespace Sys2Proof.Tests

set_option Elab.async false

/-! ### Well-formedness -/

/-- An envelope of a class with a body of `n` bytes. -/
def env (cls n : Nat) : Envelope := { cls := cls, len := n }

/-- The message-port commands: each check of Instr.wf refuses a term. -/
theorem test_wf_message_port :
    ([Instr.post 65536 (1#8 :: zeros 143) true, .post 0 (1#8 :: zeros 142) true, .post 0 (2#8 :: zeros 143) true,
      .doorbell 65536 (2#8 :: zeros 15) true, .doorbell 0 (2#8 :: zeros 16) true, .doorbell 0 (1#8 :: zeros 15) true,
      .malformedMessage 65536 (zeros 16), .malformedMessage 0 (zeros 15), .malformedMessage 0 (1#8 :: zeros 143),
      .malformedMessage 0 (2#8 :: zeros 15)].any Instr.wf) = false ∧
    ([Instr.post 0 (1#8 :: zeros 143) true, .doorbell 0 (2#8 :: zeros 15) true, .malformedMessage 0 (zeros 16)].all Instr.wf) = true := by
  decide +kernel

/-- The memory port, taps and lanes. -/
theorem test_wf_memory_and_taps :
    ([Instr.memoryReadResponse 1024 0 [] true, .memoryReadResponse 0 4 [] true, .memoryReadResponse 0 0 (zeros 63) true,
      .memoryWriteAck 1024 0, .memoryWriteAck 0 4, .memoryResponseTimeout 1024,
      .tapBeat 0 (List.replicate 63 0) (List.replicate 64 false), .tapBeat 0 (List.replicate 64 0) (List.replicate 63 false),
      .laneCheck 0 65 0 { fmt := 0, p := .nan, e := .nan }, .laneCheck 0 0 64 { fmt := 0, p := .nan, e := .nan },
      .laneCheck 0 0 0 { fmt := 16, p := .nan, e := .nan }, .laneCheck 0 0 0 { fmt := 0, p := .num 0, e := .nan }].any Instr.wf) = false ∧
    ([Instr.memoryReadResponse 1023 3 (zeros 64) true, .memoryWriteAck 1023 3, .memoryResponseTimeout 1023,
      .tapBeat 15 (List.replicate 64 0) (List.replicate 64 false), .laneCheck 15 64 63 { fmt := 15, p := .num 1, e := .zero true }].all Instr.wf) = true := by
  decide +kernel

/-- Envelopes: each field's range. -/
theorem test_wf_envelope :
    ([({ cls := 256 } : Envelope), { cls := 0, hops := 8 }, { cls := 0, len := 2049 }, { cls := 0, dest := 4096 }, { cls := 0, src := 4096 },
      { cls := 0, head := 4096 }, { cls := 0, attempt := 256 }, { cls := 0, seq := 2 ^ 32 }].any Envelope.wf) = false ∧
    Envelope.wf { cls := 255, hops := 7, len := 2048, dest := 4095, src := 4095, head := 4095, attempt := 255, seq := 2 ^ 32 - 1 } = true := by
  decide +kernel

/-- Messages between instances: class, LENGTH, body length. -/
theorem test_wf_instance_messages :
    ([Instr.share (env 2 144) (zeros 144), .share (env 1 143) (zeros 143), .share (env 1 144) (zeros 145), .report (env 2 23) (zeros 23),
      .partialMsg (env 3 15) (zeros 15), .tile (env 4 32) (zeros 32), .tile (env 4 257) (zeros 257), .tileAck (env 5 17) (zeros 17),
      .segval (env 6 23) (zeros 23), .scarf (env 7 63) (zeros 63), .raise (env 8 15) (zeros 15), .cancel (env 8 17) (zeros 17),
      .raiseAck (env 9 7) (zeros 7), .ringTime (env 10 9) (zeros 9), .reservedClassMessage (env 5 0) [], .reservedClassMessage (env 11 1) [],
      .messageForward (env 1 1) []].any Instr.wf) = false ∧
    ([Instr.share (env 1 144) (zeros 144), .report (env 2 24) (zeros 24), .partialMsg (env 3 16) (zeros 16), .tile (env 4 33) (zeros 33),
      .tileAck (env 5 16) (zeros 16), .segval (env 6 24) (zeros 24), .scarf (env 7 64) (zeros 64), .raise (env 8 16) (zeros 16),
      .cancel (env 8 16) (zeros 16), .raiseAck (env 9 8) (zeros 8), .ringTime (env 10 8) (zeros 8), .reservedClassMessage (env 0 0) [],
      .messageForward (env 1 1) [0]].all Instr.wf) = true := by
  decide +kernel

/-- The ring, the ports and the other operands. -/
theorem test_wf_links_and_registers :
    ([Instr.tieRingBeat true (zeros 31) (List.replicate 8 false), .tieRingBeat true (zeros 32) [], .dataFlit 0 (.bytes (zeros 255)),
      .idleFlit 0 (.bytes (zeros 257)), .timeFlit 0 (.bytes []) 0, .hello 0 (.ofPair (List.replicate 1087 0) 4), .trainingFrame 0 8 0 0 0, .trainingFrame 0 0 0 65536 0, .trainingFrame 0 0 0 0 65536,
      .freezeFrame none (.bytes (zeros 8)), .raiseGang 0 0, .raiseGang 0 4096, .shadowWrite 0 0xD8 0, .retrain 0 4, .readoutWindowRead 0 2,
      .readoutWindowRead 0 0x4000, .registerWrite 0 2 0, .registerWrite 0 65536 0, .resetRelease 65536 false, .pllLockDone 31,
      .mbistDone true 131072, .bypass 64, .bypass 0x11, .lowWordRead 0 1, .lowWordRead 0 65536, .scarfTimeout 4096].any Instr.wf) = false ∧
    ([Instr.tieRingBeat true (zeros 32) (List.replicate 8 false), .dataFlit 0 (.bytes (zeros 256)), .hello 0 (.ofPair (List.replicate 1088 0) 4), .trainingFrame 0 7 0 65535 65535,
      .freezeFrame none (.bytes (zeros 9)), .raiseGang 0 4095, .shadowWrite 0 0xD4 0, .retrain 0 3, .readoutWindowRead 0 0x3FFC,
      .registerWrite 0 0xFFFC 0, .resetRelease 65535 false, .pllLockDone 30, .mbistDone true 131071, .bypass 0x3F, .scarfTimeout 4095,
      .slotBoundary].all Instr.wf) = true := by
  decide +kernel

/-- Discovery: two headers of 64 bytes and two sectors of 4,096. -/
theorem test_wf_discovery :
    ([Instr.nvDiscoveryDone .ok [zeros 64] [], .nvDiscoveryDone .ok [zeros 64, zeros 63] [], .nvDiscoveryDone .ok [zeros 64, zeros 64] [zeros 4096],
      .nvDiscoveryDone .ok [zeros 64, zeros 64] [zeros 4096, zeros 4095]].any Instr.wf) = false := by
  decide +kernel

/-! ### Vectors of the spec -/

/-- Table 2.9 (R68): the rows that end in a floating format of 8 bits or fewer. -/
theorem test_convert_small :
    convertCode .fp32 .e4m3 false 0x3E99999A = (0x2A, noFlags) ∧ convertCode .fp32 .e4m3 true 0x43FA0000 = (0x7E, { ovf := true }) ∧
    convertCode .fp32 .e5m2 false 0x43FA0000 = (0x60, noFlags) ∧ convertCode .fp32 .e4m3 false 0x43E80000 = (0x7E, noFlags) ∧
    convertCode .fp32 .e2m3 false 0xFF800000 = (0x3F, { ovf := true }) ∧ convertCode .fp32 .e2m1 false 0x3FA00000 = (0x2, noFlags) ∧
    convertCode .fp32 .e2m1 false 0x40A00000 = (0x6, noFlags) ∧ convertCode .fp32 .e4m3 false 0x3A800000 = (0x00, { unf := true }) ∧
    convertCode .fp32 .e4m3 false 0xBA800000 = (0x80, { unf := true }) ∧ convertCode .fp32 .e4m3 false 0x3AC00000 = (0x01, { unf := true }) := by
  decide +kernel

/-- Table 2.9 (R68): the other rows. -/
theorem test_convert_wide_and_grids :
    convertCode .fp32 .fp16 false 0x4788B800 = (0x7BFF, { ovf := true }) ∧ convertCode .fp32 .fp16 true 0x4788B800 = (0x7C00, { ovf := true }) ∧
    convertCode .fp32 .fp16 false 0x7F800000 = (0x7C00, noFlags) ∧ convertCode .fp32 .bf16 false 0x3F808000 = (0x3F80, noFlags) ∧
    convertCode .fp32 .bf16 false 0x3F818000 = (0x3F82, noFlags) ∧ convertCode .fp32 .int8 false 0xC0600000 = (0xFC, noFlags) ∧
    convertCode .fp32 .int8 true 0x42FF3333 = (0x7F, { ovf := true }) ∧ convertCode .fp32 .int8 false 0x7FC00000 = (0x00, { inv := true }) ∧
    convertCode .fp32 .fp16 false 0xFFA00001 = (0x7E00, noFlags) ∧ convertCode .fp32 .ng4 false 0x3E99999A = (0xB, noFlags) ∧
    convertCode .fp32 .ng4 false 0x3E2F8000 = (0xA, noFlags) ∧ convertCode .fp32 .ng4 false 0xBD23D70A = (0x6, noFlags) ∧
    convertCode .fp32 .ng4 false 0xBCA3D70A = (0x7, noFlags) ∧ convertCode .fp32 .ng4 false 0x3FC00000 = (0xF, { ovf := true }) ∧
    convertCode .e4m3 .fp32 false 0x01 = (0x3B000000, noFlags) ∧ convertCode .e5m2 .fp32 false 0x7C = (0x7F800000, noFlags) ∧
    convertCode .ng4 .bf16 false 0xD = (0x3F0B, noFlags) := by
  decide +kernel

/-- An opcode on FP32 operands. -/
def fn32 (op : Nat) (r : Fmt) (ieee : Bool) (args : List Nat) : Nat × Flags :=
  evalOp op none r ieee (args.map fun c => (decodeFmt .fp32 c).1)

/-- Vectors of Table 4.7 (R129), exact and special operands. -/
theorem test_function_specials :
    fn32 0x01 .fp32 false [0xFF800000] = (0, noFlags) ∧ fn32 0x02 .fp32 false [0xC3150000] = (1, noFlags) ∧
    fn32 0x02 .fp32 false [0xC3160000] = (0, { unf := true }) ∧ fn32 0x04 .fp32 false [0x80000000] = (0xFF800000, { dz := true }) ∧
    fn32 0x04 .int8 false [0xBF800000] = (0, { inv := true }) ∧ fn32 0x05 .fp32 false [0x41000000] = (0x40400000, noFlags) ∧
    fn32 0x09 .fp32 false [0, 0x80000000] = (0x7FC00000, { inv := true }) ∧ fn32 0x09 .fp32 false [0x3F800000, 0x40400000] = (0x3EAAAAAB, noFlags) ∧
    fn32 0x0A .fp32 false [0x80000000] = (0x80000000, noFlags) ∧ fn32 0x0C .fp32 false [0x40000000, 0x41400000] = (0x45800000, noFlags) ∧
    fn32 0x0C .fp32 false [0x7FC00000, 0] = (0x3F800000, noFlags) ∧ fn32 0x19 .ng4 false [0] = (0xD, noFlags) ∧
    fn32 0x1B .fp32 false [0xFF800000] = (0x80000000, noFlags) := by decide +kernel

/-- Vectors of Table 4.7 (R129), rounded reals. -/
theorem test_function_reals :
    fn32 0x01 .fp32 false [0x3F800000] = (0x402DF854, noFlags) ∧ fn32 0x01 .fp32 false [0x42B20000] = (0x7F7FFFFF, { ovf := true }) ∧
    fn32 0x01 .e4m3 false [0x3F800000] = (0x43, noFlags) ∧ fn32 0x04 .fp32 false [0x40000000] = (0x3F317218, noFlags) ∧
    fn32 0x0A .fp32 false [0x40000000] = (0x3FB504F3, noFlags) ∧ fn32 0x10 .fp32 false [0x40490FDB] = (0xB3BBBD2E, noFlags) ∧
    fn32 0x1E .fp32 false [0] = (0x3F317218, noFlags) := by decide +kernel

/-- Curve 3 of Table 5.5 (R142). -/
def curve3 : Curve :=
  { degree := 2, isLocal := true, edge := true, xmax := 0x40000000, low := 0, high := 0x3F800000, b := [0, 0x3F800000]
    c := [[0, 0, 0x3F000000], [0x3F000000, 0x3F800000, 0xBF000000]] }

/-- The curve parsed from its bytes, and the vectors of Table 5.6 (R142). -/
theorem test_curve_vectors :
    (let area : List Byte := [1, 0, 0, 0, 8, 0, 0, 0, 0x50, 1, 0, 0, 0, 0, 0, 0] ++ zeros 24 ++ natLE 4 0x110 ++ natLE 4 0x40 ++ zeros 0xE0 ++
       ([0x03020002, 0x40000000, 0, 0x3F800000, 0, 0x3F800000, 0, 0, 0, 0, 0x3F000000, 0x3F000000, 0x3F800000, 0xBF000000, 0, 0].flatMap (natLE 4))
     Curve.parse area 3 = some curve3) ∧
    ([(0x3FA00000, Fmt.fp32), (0x3FA00000, .e4m3), (0x3F000000, .fp32), (0x40000000, .fp32), (0x40200000, .fp32), (0xC0400000, .fp32),
      (0xFF800000, .bf16), (0x80000000, .fp32), (0x7FC00000, .int8)].map fun x => evalOp 0x28 (some curve3) x.2 false [(decodeFmt .fp32 x.1).1]) =
    [(0x3F380000, noFlags), (0x34, noFlags), (0x3E000000, noFlags), (0x3F800000, noFlags), (0x3F800000, noFlags), (0, noFlags), (0, noFlags),
      (0, noFlags), (0, { inv := true })] := by decide +kernel
/-- The CTRL and OPW words of the first descriptor of Table 17.1, by the fields the text of 17_ gives. -/
theorem test_descriptor_words :
    (let d := Desc.parse (padTo 128 (natLE 8 0x0000000450408011 ++ natLE 8 0x03D2000020000000 ++ natLE 4 0x200 ++ natLE 4 0x1400))
     d.chain = 17 ∧ d.rank = 2 ∧ d.folded = true ∧ d.fmt sIn = .fp32 ∧ d.fmt sOut = .e4m3 ∧ d.fmt sX1 = .bf16 ∧ d.grain = 2 ∧ d.kind sIn = 2 ∧
       d.kind sX1 = 1 ∧ d.kind sX2 = 3 ∧ d.kind sX3 = 3 ∧ d.rmode = 0 ∧ d.cmplK = 0 ∧ d.seq = 0x200 ∧ d.step = 0x1400) := by
  decide +kernel

/-- Table 12.12 (R324): θ = 832 units and d = 10,240 units of 1/256 count; the model holds both doubled. -/
theorem test_time_exchange : exchange 0xF424000 0xF426B40 0xF42A400 0xF42C8C0 0 = (2 * 832, 2 * 10240) := by decide

/-- Table 15.6: the error-log entry on SIN 2. -/
theorem test_log_entry : logBytes 0x0003 5 7 0 6 0 7000041200 0x417 6 0x11 0xB =
    [0x03, 0x00, 0x05, 0x07, 0x00, 0x00, 0x06, 0x00, 0xF0, 0x26, 0x3C, 0xA1, 0x01, 0x00, 0x00, 0x00, 0x17, 0x04, 0x00, 0x00, 0x06, 0x11,
     0x00, 0x00, 0x0B, 0x00, 0x00, 0x00, 0x00, 0x00, 0x00, 0x00] := by decide

/-! ### States the witnesses use -/

/-- An image with two channels from source 7, the second in sequence group 1, the third designated plumb. -/
def image2 : Image :=
  { sin := 5, chans := [{ enabled := true, source := 7 }, { enabled := true, grouped := true, group := 1, source := 7 },
      { enabled := true, plumb := true, source := 7 }], slots := 0x0012000F :: List.replicate 15 0, gangs := [(0x10, [5, 6]), (0x20, [6, 5])],
    routes := [.none, .none, .none, .none, .none, .loc, .ring 6, .port 0] }

/-- READY with two bays, owned by M0, on a ring with SIN 6. -/
def up : State :=
  { State.reset with
    params := { ring := [5, 6], stop := 0 }
    lg := .ready
    visible := true
    nv := { phase := 7 }
    image := image2
    own := { owner := some 0 }
    bays := { ok := [0, 1], enabled := [0, 1] }
    chans := Vector.replicate 16 { st := .idle } }

/-- Channel 0 of a state set. -/
def on0 (s : State) (x : Chan) : State := { s with chans := s.chans.set 0 x }

/-- Chain 1 with EXP (opcode 0x01) on `n` FP32 elements from `kIn` to `kOut`, its record in COMPLETE. -/
def desc1 (kIn kOut n seq : Nat) (launch : Nat := 0) : List Byte :=
  padTo 128 (natLE 8 (1 + 2 ^ 14) ++ natLE 8 (1 + 2 ^ 48 * (kIn + 4 * kOut) + 2 ^ 52 * 63 + 2 ^ 58 * 2) ++ natLE 4 seq ++ natLE 4 0 ++
    natLE 8 launch ++ natLE 4 n ++ zeros 28 ++ natLE 6 0x1000 ++ natLE 6 0x8000)

/-- An eligible entry with that descriptor. -/
def entry1 : Entry := { desc := desc1 0 0 16 3, elig := some (0, 0) }

/-- Its validation has passed. -/
def passed1 : Validation := { passed := true, launchMet := true }

/-- READY with the entry at the head of channel 0. -/
def waiting : State := on0 up { st := .wait, queue := [entry1] }

/-- READY with the entry validated and granted the pool. -/
def granted0 : State :=
  { on0 up { st := .wait, queue := [entry1], val := some passed1 } with
    sched := { grantee := some 0, grantPtr := 0, owners := [.pool 0, .pool 0], gap := [] } }

/-- The job of that descriptor. -/
def job1 : Job := granted0.mkJob entry1.desc [] 5 0 0 0 [5] 0 0 none

/-- READY with the job on channel 0. -/
def running0 (j : Job) : State :=
  { on0 up { st := .run, queue := [entry1], job := some j } with
    sched := { grantee := some 0, grantPtr := 0, owners := [.pool 0, .pool 0], gap := [] } }

/-- Does an outcome answer a given state? -/
def answers (o : Host.Outcome State Fault Refusal) (t : State) : Bool := match o with | .next u => decide (u = t) | _ => false

/-- Does an outcome answer a state with a property? -/
def leads (o : Host.Outcome State Fault Refusal) (f : State → Bool) : Bool := match o with | .next u => f u | _ => false

/-- A message with a TYPE, channel, third byte, length `n`. -/
def msg (type c x n : Nat) : List Byte := padTo n (natLE 1 type ++ natLE 1 c ++ natLE 1 x)

/-- Table 3.11: the example's last element retires 8,327 ARITH cycles after its start edge. -/
def plumbExample : State :=
  { up with
    bays := { ok := List.range 16, enabled := List.range 16 }
    image := { image2 with slots := (List.range 64).map fun n => if n % 16 = 0 then 0x0012000F else 0 }
    sched := { gap := [0, 1, 2, 3] } }

/-- Table 3.11 (R97, R98). -/
theorem test_plumb_example : plumbExample.plumbEnd 2 (Desc.parse (desc1 1 1 131072 0)) 131072 = some 8327 := by decide +kernel

/-! ### Witnesses: the step, the port (one theorem a statement) -/

/-- `up` is well kept. -/
theorem up_inv : up.Inv := by constructor <;> decide

/-- The queue's clauses: a command in front, and an empty queue. -/
theorem witness_StepRunsFrontCommand :
    step { up with pending := Instr.nvRelease :: up.pending } = exec .nvRelease up ∧ up.pending = [] := ⟨rfl, rfl⟩

/-- A step of a well-kept state that answers. -/
theorem witness_StepKeepsWellKept : up.Inv ∧ step up = .next (up.pass 1) := ⟨up_inv, rfl⟩

/-- A wait for a count to come, at both ends of its range. -/
theorem witness_PlumbCounterAdvances : up.Inv ∧ (0 : Nat) < 2 ^ 64 - 1 ∧ 2 ^ 64 - 2 < 2 ^ 64 - 1 ∧ (up.untilCount 5).count = 5 :=
  ⟨up_inv, by decide⟩

/-- A POST that arrives, one at each check of Table 3.2, and one in a full queue. -/
theorem witness_PostDecidedInOrder :
    up.portOpen ∧ (msg 1 0 0 144).length = 144 ∧ fieldAt (msg 1 0 0 144) 0 1 = 1 ∧ (up.chans[(0 : Fin 16)]).st ≠ .off ∧ 7 = (up.cfg 0).source ∧
    ((on0 up { st := .wait, queue := List.replicate 32 entry1 }).chans[(0 : Fin 16)]).occupied = 32 ∧
    ({ up with lg := .seasoning } : State).portOpen ∧ ({ up with lg := .fault } : State).portOpen := by decide +kernel

/-- A POST by a source that is not the channel's. -/
theorem test_post_bad_source : answers (exec (.post 8 (msg 1 0 0 144) true) up) (up.refused 8 (msg 1 0 0 144) 0x10) = true := by decide +kernel

/-- A channel with two staged descriptors. -/
def staged2 : State := on0 up { st := .idle, queue := [{ entry1 with elig := none }, { entry1 with elig := none }] }

/-- DOORBELLs for none, one, two and three of two staged descriptors. -/
theorem witness_DoorbellReleasesOldestStaged :
    staged2.portOpen ∧ (msg 2 0 1 16).length = 16 ∧ fieldAt (msg 2 0 1 16) 0 1 = 2 ∧ (staged2.chans[(0 : Fin 16)]).staged = 2 ∧
    fieldAt (msg 2 0 0 16) 2 1 = 0 ∧ fieldAt (msg 2 0 2 16) 2 1 = 2 ∧ fieldAt (msg 2 0 3 16) 2 1 = 3 := by decide +kernel

/-- A DOORBELL for more than is staged is refused BAD_DOORBELL. -/
theorem test_doorbell_too_many : answers (exec (.doorbell 7 (msg 2 0 3 16) true) staged2) (staged2.refused 7 (msg 2 0 3 16) 0x12) = true := by
  decide +kernel

/-- A malformed message, a closed port, an open one. -/
theorem witness_PortRefusesHoldsAndDrops :
    up.portOpen ∧ ¬ (fieldAt (zeros 16) 0 1 = 1 ∧ (zeros 16).length = 144) ∧ ¬ (fieldAt (zeros 16) 0 1 = 2 ∧ (zeros 16).length = 16) ∧
    ¬ State.reset.portOpen := by decide +kernel

/-- A queue within its bound and a message that answers. -/
theorem witness_PortKeepsQueueBound :
    (∀ c : Fin 16, up.chans[c].occupied ≤ 32) ∧ answers (exec (.malformedMessage 7 (zeros 16)) up) (up.refused 7 (zeros 16) 0x10) = true := by
  decide +kernel

/-! ### Witnesses: channels -/

/-- The validation of a state's channel 0 begins. -/
def bare (d : List Byte) (seq : Word := 0) : State :=
  { on0 up { st := .wait, queue := [{ entry1 with desc := d }] } with nextSeq := Vector.replicate 4 seq }

/-- A descriptor that passes, one with a bad chain, one with a block read to come. -/
theorem witness_ValidationRejectsOrPasses :
    (bare entry1.desc).dueValidation 0 = true ∧ (bare entry1.desc).configClean ∧ (bare entry1.desc).bays.queueCE = [] ∧
    (bare entry1.desc).bays.queueUE = [] ∧ (bare entry1.desc).port.waiting = [] ∧ entry1.attempt = 0 ∧
    (bare entry1.desc).scarfed ((bare entry1.desc).cfg 0).gang = true ∧
    validateHead (Desc.parse entry1.desc) ((bare entry1.desc).vctx 0) = none ∧
    neededBlocks (Desc.parse entry1.desc) ((bare entry1.desc).vctx 0) = [] ∧ (Desc.parse entry1.desc).chain = 1 ∧
    validateBlocks (Desc.parse entry1.desc) ((bare entry1.desc).vctx 0) [] = none ∧ (bare entry1.desc).badSeq 0 entry1 = false ∧
    (bare entry1.desc).isLate 0 entry1 = false ∧
    (bare (zeros 128)).dueValidation 0 = true ∧ validateHead (Desc.parse (zeros 128)) ((bare (zeros 128)).vctx 0) = some stBadChain ∧
    (bare (desc1 0 0 16 3 1)).dueValidation 0 = true ∧ ((bare (desc1 0 0 16 3 1)).pass 2).isLate 0 { entry1 with desc := desc1 0 0 16 3 1 } = true ∧
    ({ bare entry1.desc with image := { image2 with chans := [{ enabled := true, source := 7, gang := 0x10 }] } } : State).scarfed 0x10 = false := by
  decide +kernel

/-- A head, with and without attempts left. -/
theorem witness_FaultHaltsTheChannel :
    waiting.chans[(0 : Fin 16)].queue = entry1 :: [] ∧ (Desc.parse entry1.desc).accum = false ∧ ¬ (3 ≤ entry1.attempt) ∧
    (running0 job1).chans[(0 : Fin 16)].job = some job1 := by decide +kernel

/-- A validation that awaits one block, and two. -/
def awaitingBlocks : State :=
  on0 up { st := .wait, queue := [entry1], val := some { awaited := [(1, 0, 0x4000, 64), (2, 0, 0x5000, 32)] } }

/-- A block answered in error, and one answered while another is awaited. -/
theorem witness_ValidationBlockAnswered :
    awaitingBlocks.live ∧ awaitingBlocks.chans[(0 : Fin 16)].queue = [entry1] ∧
    awaitingBlocks.chans[(0 : Fin 16)].val = some { awaited := [(1, 0, 0x4000, 64), (2, 0, 0x5000, 32)] } ∧
    ([(1, 0, 0x4000, 64), (2, 0, 0x5000, 32)] : List (Nat × Nat × Nat × Nat)).find? (·.1 == 1) = some (1, 0, 0x4000, 64) ∧
    (∃ b ∈ ([(1, 0, 0x4000, 64), (2, 0, 0x5000, 32)] : List (Nat × Nat × Nat × Nat)), b.1 ≠ 1) := by decide +kernel

/-- A head that waits for count 9, and one whose count has come. -/
theorem witness_LaunchConditionWaitsForCount :
    up.Inv ∧ (on0 up { st := .wait, queue := [{ entry1 with desc := desc1 0 0 16 3 9 }] }).pins.rstN = true ∧ entry1.elig.isSome = true ∧
    (Desc.parse (desc1 0 0 16 3 9)).launch = 9 ∧ (Desc.parse entry1.desc).launch ≤ up.count := ⟨up_inv, by decide +kernel⟩

/-- A share of SIN 6's descriptor. -/
def share1 : Share := { id := 0, env := { cls := 1, len := 144, dest := 5, src := 6, head := 6, seq := 9 }, gang := 0x20, body := entry1.desc ++ natLE 8 0 ++ natLE 8 16 }

/-- READY in a slot granted to the share queue. -/
def sharing : State := { up with shares := [share1], eligNext := 1, sched := { grantee := some 16, grantPtr := 16, owners := [.pool 16, .pool 16] } }

/-- A state whose channel 0 is bound to gang 0x10 of SIN 5 and 6, with one credit of SIN 6. -/
def onGang (s : State) : State :=
  { s with
    image := { image2 with chans := { enabled := true, source := 7, gang := 0x10 } :: image2.chans.drop 1 }
    credits := [(0x10, 6, 1)] }

/-- A descriptor that may start with its bays free, one whose bays wait out a gap, one bound to a gang, a share in its turn. -/
theorem witness_WorkStartsWhenItMay :
    granted0.chans[(0 : Fin 16)].queue = entry1 :: [] ∧ granted0.canStart 0 = true ∧ granted0.granted 0 = true ∧ (granted0.cfg 0).gang = 0 ∧
    processesNone (Desc.parse entry1.desc) granted0.active.digestN.toNat = false ∧ (Desc.parse entry1.desc).capture = false ∧
    granted0.issues (granted0.ownerOf (.chan 0)) = true ∧ (Desc.parse entry1.desc).chain ≠ 48 ∧
    ({ granted0 with sched := { granted0.sched with gap := [0, 1] } } : State).issues (.pool 0) = false ∧
    ({ granted0 with sched := { granted0.sched with gap := [0, 1] } } : State).canStart 0 = true ∧
    (onGang granted0).chans[(0 : Fin 16)].queue = entry1 :: [] ∧ (onGang granted0).canStart 0 = true ∧ (onGang granted0).granted 0 = true ∧
    ((onGang granted0).cfg 0).gang ≠ 0 ∧ headAlone (Desc.parse entry1.desc) = false ∧ (onGang granted0).configClean ∧
    6 ∈ (onGang granted0).otherMembers 0 ∧ (onGang granted0).routeOf 6 = .ring 6 ∧
    sharing.shares.find? (·.id == 0) = some share1 ∧ share1.job = none ∧ sharing.shareReady share1 = true ∧ sharing.servedNow = some 0 ∧
    sharing.bays.shareCE = [] ∧ sharing.bays.shareUE = [] ∧ (sharing.shareJob share1).skip = false ∧
    (Desc.parse (share1.body.take 128)).capture = false ∧
    (let s : State := { sharing with returns := [(share1.env, zeros 16)] }
     s.shareReady share1 = true ∧ s.servedNow = some 0 ∧ ∀ m ∈ s.returns, m.1.seq = share1.env.seq ∧ m.1.attempt = share1.env.attempt) := by
  decide +kernel

/-- A return kept by a share that starts (R192, R310). -/
theorem test_return_kept :
    (let s : State := { sharing with returns := [(share1.env, zeros 16)] }
     (s.returnsOf share1).map (fun q => (q.sub, q.row)) = [(0, 0)] ∧ (s.takeReturns share1).returns = []) := by decide +kernel

/-- Work whose last output is acknowledged. -/
def done1 : Job := { job1 with phase := .writing }

/-- SIN 6's share on this instance, its last output acknowledged. -/
def shareDone (j : Job) : State := { sharing with shares := [{ share1 with job := some { j with head := 6, gang := 0x20, members := [6, 5], bays := [2, 2], pos := 1 } }] }

/-- A descriptor and a share that may retire. -/
theorem witness_RetirementFormsDone :
    (∀ j, (shareDone done1).job (.share 0) = some j → (shareDone done1).mayRetire (.share 0) j = true ∧ j.due = none) ∧
    (running0 done1).live ∧ (running0 done1).chans[(0 : Fin 16)].queue = entry1 :: [] ∧ (running0 done1).chans[(0 : Fin 16)].job = some done1 ∧
    (running0 done1).mayRetire (.chan 0) done1 = true ∧ done1.due = none ∧ (running0 done1).draining = false ∧
    (running0 done1).bays.queueCE = [] ∧ (running0 done1).bays.queueUE = [] ∧
    (shareDone done1).live ∧ ((shareDone done1).job (.share 0)).isSome = true := by
  have share : ∀ j, (shareDone done1).job (.share 0) = some j → (shareDone done1).mayRetire (.share 0) j = true ∧ j.due = none := by
    intro j h
    cases h
    decide +kernel
  exact ⟨share, by decide +kernel⟩

/-- A package of channel 1, whose group waits for SEQ 4. -/
def package4 : Package := { record := { seq := 4, status := stDone, ch := 1 } }

/-- READY with packages held on channel 1. -/
def holding (seq : Word) : State :=
  { up with chans := up.chans.set 1 { st := .idle, held := [package4] }, nextSeq := Vector.replicate 4 seq }

/-- The FAULT completion of channel 1, behind a package whose hold is not met, in FAULT. -/
def faulted : State :=
  { up with
    lg := .fault
    chans := up.chans.set 1 { st := .halt, held := [package4, { package4 with record := { package4.record with status := stFault } }] } }

/-- FAULT with a package whose hold is not met on channel 1, one formed since on channel 2, one that holds for nothing on channel 3. -/
def faultedWith : State :=
  { up with
    lg := .fault
    chans := ((up.chans.set 1 { st := .idle, held := [package4] }).set 2 { st := .idle, held := [{ package4 with barred := true }] }).set 3
      { st := .idle, held := [{ package4 with freely := true }] } }

/-- A hold that is not met, one that is, a FAULT completion in its turn, and in FAULT a package that stays. -/
theorem witness_PackageReleasedWhenHoldIsMet :
    (holding 3).live ∧ (holding 3).ringsIdle ∧ (holding 3).chans[(1 : Fin 16)].held = package4 :: [] ∧ (holding 3).lg ≠ .fault ∧
    ¬ (package4.freely = true ∨ ((holding 3).nextSeq[((holding 3).cfg 1).group]).toNat = package4.record.seq) ∧ package4.barred = false ∧
    (holding 4).ringsIdle ∧ ((holding 4).nextSeq[((holding 4).cfg 1).group]).toNat = package4.record.seq ∧ package4.viaMsg = true ∧
    package4.shaves = [] ∧ package4.poles = [] ∧ faulted.live ∧ faulted.ringsIdle ∧ faulted.lg = .fault ∧
    ((faulted.chans[(1 : Fin 16)].held).find? (fun x => x.record.status == stFault)).isSome = true ∧
    faulted.chans[(1 : Fin 16)].held.head? = some package4 ∧ ¬ (faulted.nextSeq[(faulted.cfg 1).group]).toNat = package4.record.seq ∧
    (∀ k : Fin 16, k ≠ 1 → faulted.chans[k].held = [] ∧ faulted.chans[k].halted = none) ∧ package4.record.status ≠ stFault ∧
    faultedWith.live ∧ faultedWith.ringsIdle ∧ faultedWith.lg = .fault ∧
    faultedWith.chans[(2 : Fin 16)].held = { package4 with barred := true } :: [] ∧ faultedWith.chans[(1 : Fin 16)].held = package4 :: [] ∧
    ¬ (faultedWith.nextSeq[(faultedWith.cfg 1).group]).toNat = 4 ∧ faultedWith.chans[(3 : Fin 16)].held = { package4 with freely := true } :: [] := by
  decide +kernel

/-- The FAULT completion leaves first (R396). -/
theorem test_fault_completion_released :
    leads (exec (.releasePackage 1) faulted) (fun t => t.chans[(1 : Fin 16)].held = [package4] ∧ t.sent.length = 1) = true := by decide +kernel

/-- The write of a record on its way. -/
def recordReq : MemReq := { write := true, addr := 0x4000, len := 1, use := .record 0 }

/-- READY with channel 0's record written. -/
def recording : State :=
  { on0 up { st := .idle, rel := some { pkg := { package4 with viaMsg := false }, recordSent := true } } with port := { out := [recordReq] } }

/-- A record's write that is acknowledged. -/
theorem witness_CompleteFollowsRecordWrite :
    recording.live ∧ recording.chans[(0 : Fin 16)].rel = some { pkg := { package4 with viaMsg := false }, recordSent := true } ∧
    (∀ k : Fin 16, k ≠ 0 → recording.chans[k].rel = none) ∧ recording.offcut = [] ∧ recording.port.out = [recordReq] ∧
    recordReq.use = .record 0 ∧ recordReq.bad = false ∧ recording.port.waiting = [] := by decide +kernel

/-- A slot boundary and a gap that ends, a bay whose spare is being mapped in. -/
theorem witness_SlotBoundaryGrantsThePool : up.rotates = true ∧ up.configClean ∧ granted0.rotates = true ∧ granted0.hasWork 0 = true := by
  decide +kernel

/-- A slot with a gap; a bay with a hold. -/
theorem witness_HoldsEndAndWorkGoesOn :
    ({ up with sched := { gap := [0] } } : State).rotates = true ∧
    ({ up with bays := { up.bays with hold := [(1, 64)] } } : State).live ∧
    ([(1, 64)] : List (Nat × Nat)).find? (·.1 == ((1 : Fin 16)).val) = some (1, 64) := by decide +kernel

/-! ### Witnesses: the memory port, taps, lanes, drains -/

/-- Tags 0 and 1 taken, one outstanding, one reserved. -/
theorem witness_TagIsLowestFree :
    ({ out := [recordReq], dead := [1] } : MemPort).freeTag = some 2 ∧ ({} : MemPort).freeTag = some 0 ∧
    ({ out := [recordReq], dead := (List.range 1024).drop 2 } : MemPort).freeTag = some 1 := by decide +kernel

/-- An input read and an output write of channel 0's work. -/
def reading : State := { running0 job1 with port := { out := [{ tag := 3, write := false, addr := 0x1000, len := 1, use := .input (.chan 0) }] } }

/-- The same with an output write of a job. -/
def writesOf (j : Job) : State := { running0 j with port := { out := [{ tag := 4, write := true, addr := 0x8000, len := 1, use := .output (.chan 0) }] } }

/-- Of that of chain 1. -/
def writing : State := writesOf done1

/-- A COMMIT_STEP whose write has been issued. -/
def stepping : Job := { done1 with desc := natLE 8 (45 + 2 ^ 14) ++ entry1.desc.drop 8 }

/-- A read and a write of running work. -/
theorem witness_MemoryResponsesServeTheirWork :
    reading.live ∧ reading.outstanding 3 false = some { tag := 3, write := false, addr := 0x1000, len := 1, use := .input (.chan 0) } ∧
    reading.job (.chan 0) = some job1 ∧ job1.phase = .inputs ∧ reading.haltable (.chan 0) job1 = true ∧ writing.live ∧
    writing.outstanding 4 true = some { tag := 4, write := true, addr := 0x8000, len := 1, use := .output (.chan 0) } ∧
    writing.job (.chan 0) = some done1 ∧ writing.haltable (.chan 0) done1 = true ∧ ¬ (done1.d.chain = 45 ∧ done1.phase = .writing) ∧
    (writesOf stepping).job (.chan 0) = some stepping ∧ stepping.d.chain = 45 ∧ stepping.phase = .writing ∧
    (writesOf stepping).outstanding 4 true = some { tag := 4, write := true, addr := 0x8000, len := 1, use := .output (.chan 0) } ∧
    ({ tag := 4, write := true, addr := 0, len := 1, use := .discarded, bad := true } : MemReq).bad = true := by decide +kernel

/-- EXP of 1.0 and of fifteen zeros: the data arrives, and the work writes one 64-byte unit, e rounded to FP32 and ones (04_, class CR). -/
theorem test_execution_writes_result :
    leads (exec (.memoryReadResponse 3 0 (natLE 4 0x3F800000 ++ zeros 60) true) reading) (fun t =>
      t.port.out.map (fun q => (q.write, q.addr, q.data)) = [(true, 0x8000, natLE 4 0x402DF854 ++ (List.replicate 15 (natLE 4 0x3F800000)).flatten)] ∧
      (t.chans[(0 : Fin 16)].job).map (·.phase) = some .writing) = true := by decide +kernel

/-- A request that times out, one that had, and a freeze in progress. -/
theorem witness_LateResponsesAreHeldOrLost :
    reading.port.out.find? (·.tag == 3) = some { tag := 3, write := false, addr := 0x1000, len := 1, use := .input (.chan 0) } ∧
    (let s : State := { up with port := { dead := [9] } }
     s.live ∧ (∀ r ∈ s.port.out, r.tag ≠ 9) ∧ 9 ∈ s.port.dead ∧ s.port.waiting = []) ∧
    (let s : State := { up with frz := { running := true } }
     s.pins.rstN = true ∧ s.lg ≠ .frozen ∧ s.frz.running = true) := by decide +kernel

/-- 96 bytes written from 32 bytes below a window's end: one request of two units, a beat for each window with its enables (R398). -/
theorem test_request_beats :
    (let l := writeReqs .discarded 0x11E0 (List.replicate 96 0xAB#8)
     l.map (fun q => (q.addr, q.len)) = [(0x11E0, 2)] ∧
       l.flatMap (fun q => q.beats.map fun b => (b.addr, b.strb.countP id, b.last)) = [(0x11C0, 32, false), (0x11C0, 64, true)]) := by decide +kernel

/-- A codeword pair: the marker first, then the count; of 1,088 symbols 136 on each of eight lanes; the third flit lies in both codewords (R304). -/
theorem test_codeword_pair :
    (symbolsOf (pairMessage 1 [])).take 4 = [0x25A, 0x0E5, 0x01C, 0x000] ∧
    ((List.range 8).map fun n => (laneSymbols 8 n (List.replicate 1088 0#10)).length) = List.replicate 8 136 ∧
    ((List.range 5).filter (overlapsCodeword false), (List.range 5).filter (overlapsCodeword true)) = ([0, 1, 2], [2, 3, 4]) := by decide +kernel

/-- A descriptor fed by a tap. -/
def jobTap : Job := { job1 with desc := desc1 2 0 128 3 }

/-- A tap that work consumes, and one that none does. -/
theorem witness_TapBeatTransfers :
    up.live ∧ ((0 : Fin 16)).val ∈ up.bays.enabled ∧ (∀ h ∈ up.bays.hold, h.1 ≠ ((0 : Fin 16)).val) ∧ up.tapTaker 0 = none ∧
    (running0 jobTap).live ∧ ((running0 jobTap).tapTaker 0).isSome = true ∧
    (∀ x ∈ (List.replicate 64 (1#32)).zip (List.replicate 64 true), parityRight x.1 x.2 = true) ∧
    (∃ x ∈ (List.replicate 64 (1#32)).zip (List.replicate 64 false), parityRight x.1 x.2 = false) := by
  have good : (((List.replicate 64 (1#32)).zip (List.replicate 64 true)).all fun x => parityRight x.1 x.2) = true := by decide +kernel
  have bad : (((List.replicate 64 (1#32)).zip (List.replicate 64 false)).any fun x => !(parityRight x.1 x.2)) = true := by decide +kernel
  have some_bad : ∃ x ∈ (List.replicate 64 (1#32)).zip (List.replicate 64 false), parityRight x.1 x.2 = false :=
    (List.any_eq_true.mp bad).imp fun x h => ⟨h.1, by simpa using h.2⟩
  and_intros <;> first | exact List.all_eq_true.mp good | exact some_bad | decide +kernel

/-- A lane of a bay at work, with its spare free, with it used before, and used in the same cycle; an opcode watched and one that is not. -/
theorem witness_LaneCheckMapsInTheSpare :
    (running0 job1).live ∧ ((running0 job1).workOn 0).isSome = true ∧ (running0 job1).lg = .ready ∧ (running0 job1).bays.laneActive 0 63 = true ∧
    0 ∈ (running0 job1).bays.enabled ∧ ((running0 job1).bays.spared.any (·.1 == 0) || (running0 job1).bays.spareBad.contains 0) = false ∧
    (let s : State := { running0 job1 with bays := { up.bays with spared := [(0, 17)] } }
     s.bays.laneActive 0 64 = true ∧ s.bays.laneActive 0 17 = false ∧ (s.bays.spared.any (·.1 == 0) || s.bays.spareBad.contains 0) = true ∧
       s.heldSpare 0 64 = none) ∧
    (let s : State := { running0 job1 with bays := { up.bays with spared := [(0, 17)], hold := [(0, 64)] } }
     s.bays.spared.find? (·.1 == 0) = some (0, 17) ∧ (0, s.clk.arith + 64) ∈ s.bays.hold ∧ s.bays.laneActive 0 16 = true) ∧
    crossTrips 0x01 (.num 1) (.num 2) = true ∧ crossTrips 0x01 (.num 1) (.num (257 / 256)) = false ∧ crossTrips 0x21 .nan (.num 1) = false := by
  decide +kernel

/-- A configuration with a correctable word. -/
theorem witness_ScrubCorrectsConfiguration :
    (let s : State := { up with bays := { up.bays with configCE := [3] } }
     s.pins.rstN = true ∧ s.lg ≠ .frozen ∧ s.bays.configUE = []) := by decide +kernel

/-- A halted channel, its drain under way or over. -/
def halted0 (d : Bool) (p : JobPhase) : State :=
  on0 up { st := .halt, queue := [{ entry1 with attempt := 1 }], job := some { job1 with phase := p }, halted := some { disp := .reexec, time := 5, start := 2, drained := d } }

/-- A drain with a request in flight, a drain that is over, a drained share. -/
theorem witness_DrainEndsInFault :
    (halted0 false .draining).live ∧ (halted0 false .draining).chans[(0 : Fin 16)].halted = some { disp := .reexec, time := 5, start := 2 } ∧
    (halted0 false .draining).drained (.chan 0) = true ∧ (halted0 false .inputs).drained (.chan 0) = false ∧
    (halted0 false .draining).draining = false ∧ (halted0 false .draining).bays.queueUE = [] ∧
    (shareDone { job1 with phase := .draining }).live ∧ ((shareDone { job1 with phase := .draining }).job (.share 0)).isSome = true ∧
    (shareDone { job1 with phase := .draining }).drained (.share 0) = true ∧ (shareDone job1).stop.fault = false := by decide +kernel

/-- A drained channel whose validation has passed, granted the pool. -/
def again : State :=
  { on0 up { st := .halt, queue := [{ entry1 with attempt := 1 }], val := some passed1, halted := some { disp := .reexec, time := 5, start := 2, drained := true } } with
    sched := granted0.sched }

/-- A SCARF of SIN 6 with BOOT_ID 7. -/
def scarfBytes : List Byte := natLE 2 6 ++ natLE 1 16 ++ natLE 1 3 ++ natLE 4 7 ++ natLE 4 0 ++ natLE 1 32 ++ zeros 51

/-- A gang-bound descriptor at work, SIN 6's SCARF on hand. -/
def gangRunning : State := { onGang (running0 job1) with scarfs := [scarfOf scarfBytes 0] }

/-- A re-execution that may start, one that may not, one on a gang, a gang whose member falls silent, one that waits for its gang. -/
theorem witness_ReexecutionStartsOrWaits :
    again.pins.rstN = true ∧ again.chans[(0 : Fin 16)].queue = { entry1 with attempt := 1 } :: [] ∧ again.mayReexecute 0 = true ∧
    again.chans[(0 : Fin 16)].val = some passed1 ∧ again.canStart 0 = true ∧ again.granted 0 = true ∧ (again.cfg 0).gang = 0 ∧
    (halted0 false .draining).mayReexecute 0 = false ∧ (onGang again).pins.rstN = true ∧
    (onGang again).chans[(0 : Fin 16)].queue = { entry1 with attempt := 1 } :: [] ∧ (onGang again).mayReexecute 0 = true ∧
    (onGang again).chans[(0 : Fin 16)].val = some passed1 ∧ (onGang again).canStart 0 = true ∧ (onGang again).granted 0 = true ∧
    ((onGang again).cfg 0).gang ≠ 0 ∧ (onGang again).configClean ∧
    gangRunning.live ∧ gangRunning.chans[(0 : Fin 16)].queue = entry1 :: [] ∧ gangRunning.chans[(0 : Fin 16)].job = some job1 ∧
    (gangRunning.cfg 0).gang ≠ 0 ∧ gangRunning.haltable (.chan 0) job1 = true ∧ 6 ∈ gangRunning.otherMembers 0 ∧
    (gangRunning.scarfs.find? (·.sin == 6)).isSome = true ∧
    (on0 up { halted := some { disp := .reexec, time := 5, start := 2, lostUntil := some 16777221 } }).live := by decide +kernel

/-! ### Witnesses: rings, capture, tiles -/

/-- The offcut ring in use. -/
def offcutAt (p : RingPhase) (kind : Nat) : State :=
  { up with
    port := { out := [{ tag := 1, write := true, addr := 0x20000, len := 1, use := .ringRecord .offcut }] }
    offcutUse := some (.chan 0, { ring := { kind := 0, base := 0x20000, bytes := 4096, headKind := kind, headAddr := 0x100, head := 0, tail := 0 }, phase := p }) }

/-- A record's last write and an earlier one; a unit that waits for a ring in memory and for one in a yard. -/
theorem witness_RingRecordsPrecedeTheirHead :
    (offcutAt (.record 1) 0).live ∧ ((offcutAt (.record 1) 0).port.out.find? (fun x => x.use == .ringRecord .offcut)).isSome = true ∧
    ((offcutAt (.record 1) 0).useOf .offcut).map (·.phase) = some (.record 1) ∧
    ((offcutAt (.record 1) 1).useOf .offcut).map (fun u => (u.phase, u.ring.headKind)) = some (.record 1, 1) ∧
    (offcutAt .wait 1).bays.yardCE = [] ∧ (offcutAt .wait 1).bays.yardUE = [] ∧ ((offcutAt (.record 2) 0).useOf .offcut).map (·.phase) = some (.record 2) ∧
    ((offcutAt .wait 0).useOf .offcut).map (fun u => (u.phase, u.ring.bytes, u.ring.headKind)) = some (.wait, 4096, 0) ∧
    ((offcutAt .wait 1).useOf .offcut).map (fun u => (u.phase, u.ring.bytes, u.ring.headKind)) = some (.wait, 4096, 1) := by decide +kernel

/-- Work that captures and has written its outputs. -/
def jobCapture : Job := { done1 with desc := (natLE 8 (1 + 2 ^ 14 + 2 ^ 18)) ++ entry1.desc.drop 8 }

/-- Its END record is due. -/
theorem witness_EndRecordFollowsData :
    (running0 jobCapture).live ∧ (running0 jobCapture).job (.chan 0) = some jobCapture ∧ jobCapture.d.capture = true ∧ jobCapture.skip = false ∧
    jobCapture.endSent = false ∧ jobCapture.phase = .writing ∧ ((running0 jobCapture).offcut.any (·.1 == .chan 0)) = false := by decide +kernel

/-- A tile of 8 bytes for yard address 16 from SIN 6. -/
def tileBody : List Byte := zeros 16 ++ natLE 8 16 ++ natLE 2 8 ++ zeros 6 ++ List.replicate 8 0xAB#8

/-- Its envelope. -/
def tileEnv : Envelope := { cls := 4, len := 40, dest := 5, src := 6, head := 6, seq := 9 }

/-- Work that reads the yard's first KiB. -/
def jobYard : Job := { job1 with ranges := [{ kind := 1, addr := 0, len := 1024, out := false, tag := 0 }] }

/-- That work started, its ranges on record. -/
def yardBusy : State :=
  on0 (running0 jobYard) { (running0 jobYard).chans[(0 : Fin 16)] with queue := [{ entry1 with started := true, ranges := jobYard.ranges }] }

/-- The tile once taken, and a state that holds some. -/
def tile16 : HeldTile := { env := tileEnv, off := 16, bytes := List.replicate 8 0xAB#8 }

/-- A state that holds tiles. -/
def holdingTiles (s : State) (l : List HeldTile) : State := { s with heldTiles := l }

/-- A tile for a free range, one for a range in use, one held that is free and one that is not, two held; one of work held, of its attempt and not. -/
theorem witness_TilesAreWrittenOrHeld :
    up.works tileEnv = true ∧ up.workOf tileEnv = none ∧ up.tileHeld tileEnv 16 8 = false ∧ (running0 jobYard).works tileEnv = true ∧
    (running0 jobYard).workOf tileEnv = none ∧ (shareDone job1).workOf tileEnv = some (.share 0, 0) ∧ tileEnv.attempt = 0 ∧ (0 : Nat) % 256 ≠ 1 ∧ fieldAt tileBody 16 5 % 2 ^ 36 = 16 ∧ fieldAt tileBody 24 2 = 8 ∧
    yardBusy.works tileEnv = true ∧ yardBusy.workOf tileEnv = none ∧ yardBusy.tileHeld tileEnv 16 8 = true ∧
    (holdingTiles up [tile16]).works tileEnv = true ∧ (holdingTiles up [tile16]).heldTiles = [tile16] ∧
    (holdingTiles up [tile16]).tileHeld tile16.env tile16.off tile16.bytes.length = false ∧
    (holdingTiles yardBusy [tile16]).works tileEnv = true ∧ (holdingTiles yardBusy [tile16]).heldTiles = [tile16] ∧
    (holdingTiles yardBusy [tile16]).tileHeld tile16.env tile16.off tile16.bytes.length = true ∧
    ((holdingTiles yardBusy [tile16, { tile16 with off := 4096 }]).heldTiles.filter fun h =>
      !((holdingTiles yardBusy [tile16, { tile16 with off := 4096 }]).tileHeld h.env h.off h.bytes.length)) = [{ tile16 with off := 4096 }] := by
  decide +kernel

/-- Of two held tiles the one outside the range in use is written. -/
theorem test_held_tiles :
    leads (exec .heldTileWrite (holdingTiles yardBusy [tile16, { tile16 with off := 4096 }])) (fun t =>
      t.heldTiles = [tile16] ∧ t.yardByte 16 = 0 ∧ t.yardByte 4096 = 0xAB#8 ∧ t.yardByte 4104 = 0) = true := by decide +kernel

/-- The tile lands, byte for byte. -/
theorem test_tile_lands :
    leads (exec (.tile tileEnv tileBody) up) (fun t => (List.range 10).map (fun i => t.yardByte (15 + i)) = [0#8] ++ List.replicate 8 0xAB#8 ++ [0#8]) = true := by
  decide +kernel

/-- A write at both ends of a yard space of two bays. -/
theorem witness_TileBytesLandInTheYard :
    up.Inv ∧ up.bays.yardUE = [] ∧ up.bays.yardCE = [] ∧ up.bays.undef = [] ∧ up.bays.enabled.Nodup ∧
    2097151 + [0xAB#8].length ≤ up.bayCount * 2 ^ 20 ∧ (up.yardWrite 2097151 [0xAB#8]).yardByte 2097151 = 0xAB#8 :=
  ⟨up_inv, by decide +kernel⟩

/-! ### Witnesses: messages between instances -/

/-- A SHARE of SIN 6, attempt `a`. -/
def shareEnv (a : Nat) : Envelope := { share1.env with attempt := a }

/-- A free entry, a full queue, an earlier attempt's share. -/
theorem witness_ShareQueuedOrRefused :
    up.works (shareEnv 0) = true ∧ up.shares.find? (shareKey (shareEnv 0)) = none ∧ up.gangOf 6 = 0x20 ∧ up.headShare 6 = 32 ∧
    (let s : State := { up with shares := List.replicate 32 { share1 with env := { share1.env with seq := 8 } } }
     s.works (shareEnv 0) = true ∧ s.shares.find? (shareKey (shareEnv 0)) = none ∧
       ¬ (s.shares.filter (·.env.head == 6)).length < s.headShare 6) ∧
    sharing.shares.find? (shareKey (shareEnv 1)) = some share1 ∧ share1.attempt < 1 ∧ share1.job = none ∧
    (shareDone job1).shares.any (fun x => shareKey (shareEnv 1) x && x.job.isSome) = true := by decide +kernel

/-- A message of running work on channel 0, attempt `a`. -/
def workEnv (a : Nat) : Envelope := { cls := 2, len := 24, dest := 5, src := 6, head := 5, ch := 0, attempt := a, seq := 3 }

/-- A message of the attempt held and one of another, for a head and for a member. -/
theorem witness_WorkMessagesFollowTheAttempt :
    (running0 job1).works (workEnv 0) = true ∧ (running0 job1).workOf (workEnv 0) = some (.chan 0, 0) ∧ (running0 job1).job (.chan 0) = some job1 ∧
    0 % 256 = (workEnv 0).attempt ∧ (running0 job1).workOf (workEnv 1) = some (.chan 0, 0) ∧ job1.phase ≠ .draining ∧ (running0 job1).haltable (.chan 0) job1 = true ∧
    fieldAt (natLE 1 2 ++ zeros 23) 0 1 = stFault ∧ fieldAt (zeros 24) 0 1 ≠ stFault ∧
    sharing.works share1.env = true ∧ sharing.early share1.env = true ∧ up.early share1.env = true ∧
    (shareDone job1).early share1.env = false ∧ (running0 job1).early (workEnv 0) = false ∧ (shareDone job1).workOf share1.env = some (.share 0, 0) ∧ ((shareDone job1).job (.share 0)).isSome = true ∧
    (running0 job1).awaitsTile 0 (6, 0, 0) = false ∧
    (let s := { running0 job1 with chans := (running0 job1).chans.set 0 { (running0 job1).chans[(0 : Fin 16)] with
       rel := some { pkg := package4, tiles := [(6, 0, 0)] } } }
     s.works (workEnv 0) = true ∧ s.awaitsTile 0 (6, 0, 0) = true) := by decide +kernel

/-- The envelope of that SCARF. -/
def scarfEnv : Envelope := { cls := 7, len := 64, dest := 5, src := 6 }

/-- A member heard for the first time and again; one of no gang; a SCARF due; an entry to drop. -/
theorem witness_ScarfKeptSentAndDropped :
    up.running = [] ∧ up.hears scarfEnv = true ∧ up.clk.locked = false ∧ scarfEnv.cls = 7 ∧ fieldAt scarfBytes 0 2 % 4096 = 6 ∧ 6 ∈ up.params.ring ∧
    6 ≠ up.sin ∧ bitOf (fieldAt scarfBytes 3 1) 0 = true ∧ 6 ∉ up.stop.ready ∧ ({ up with clk := { locked := true } } : State).clk.locked = true ∧
    up.headedWith (scarfOf scarfBytes 0).sin ≠ [] ∧
    up.boots.lookup 6 ≠ some (scarfOf scarfBytes 0).bootId ∧
    ({ up with boots := [(6, 7)] } : State).boots.lookup 6 = some (scarfOf scarfBytes 0).bootId ∧ up.headedWith 9 = [] ∧
    up.live ∧ up.visible = true ∧ up.configClean ∧ 6 ∈ up.otherHeads ∧ up.routeOf 6 ≠ .none ∧ up.routeOf 6 ≠ .loc ∧
    (({ up with scarfs := [scarfOf scarfBytes 0] } : State).scarfs.find? (·.sin == 6)).isSome = true := by decide +kernel

/-- An instance of the ring that becomes ready gets RING_TIME from a locked time source (R320). -/
theorem test_scarf_ring_time :
    leads (exec (.scarf scarfEnv scarfBytes) { up with clk := { locked := true } }) (fun t => t.stop.ready = [6] ∧
      t.net.map (fun k => (k.env.cls, k.env.dest, leNat k.body)) = [(10, 6, 8192)]) = true := by decide +kernel

/-- A RAISE for count 1,000, its id 1. -/
def raiseBytes (n : Nat) : List Byte := natLE 8 n ++ natLE 4 1 ++ zeros 4

/-- A RAISE heard; an armed raise cancelled; an origin that gathers. -/
theorem witness_RaiseAnsweredAndCancelled :
    up.hears { scarfEnv with cls := 8 } = true ∧ ({ up with lg := .laidDown } : State).raiseAnswer 1000 = 0 ∧
    ({ up with lg := .laidDown } : State).raiseAnswer 999 = 1 ∧ up.raiseAnswer 1000 = 2 ∧
    ({ up with lg := .laidDown, raising := { armed := some 5 } } : State).raiseAnswer 1000 = 3 ∧
    (let s : State := { up with raising := { armed := some 5, armedId := 1 } }
     s.raising.armed ≠ none ∧ s.raising.armedId.toNat = fieldAt (raiseBytes 5) 8 4) ∧
    up.nv.phase = 7 ∧ up.raiseAnswer 0 = 1 ∧ State.reset.nv.phase ≠ 7 ∧ State.reset.hears { scarfEnv with dest := 0 } = true := by decide +kernel

/-- The answer ARMED of SIN 6 to the raise with id 1 (R325, R367). -/
theorem test_raise_ack :
    leads (exec (.raiseAck { scarfEnv with cls := 9 } (natLE 4 1 ++ zeros 4))
        { up with raising := { runs := [{ id := 1, count := 5000, scope := 0x10, results := [1, 0] }] } })
      (fun t => t.raising.runs.map (·.results) = [[1, 1]] ∧ t.raising.results = []) = true := by decide +kernel

/-- Laid down and armed for count 9. -/
def armed9 : State := { up with lg := .laidDown, raising := { armed := some 9 }, shadow := { greenOk := true, digestN := 100 } }

/-- A raise of gang 0x20 with id 1 for count 5,000. -/
def run6 (results : List Nat) : RaiseRun := { id := 1, count := 5000, scope := 0x20, results := results }

/-- Laid down and armed by that raise of its own. -/
def ownRaise : State :=
  { armed9 with raising := { armed := some 9, armedId := 1, armedHere := true, armedOrigin := 5, runs := [{ run6 [1, 1] with stands := true }] } }

/-- Its origin. -/
def origin (results : List Nat) : State := { up with raising := { runs := [run6 results] } }

/-- An armed instance laid down, and one that is not; an origin whose targets are all armed, and one whose are not. -/
theorem witness_RaiseEndsAtEdgeOrDeadline :
    armed9.Inv ∧ ownRaise.Inv ∧ ({ armed9 with lg := .fault } : State).Inv ∧ ({ ownRaise with lg := .fault } : State).Inv ∧
    armed9.pins.rstN = true ∧ armed9.raising.armed = some 9 ∧ armed9.raising.armedHere = false ∧ armed9.stopped = false ∧
    armed9.running = [] ∧ armed9.configClean ∧ armed9.lg = .laidDown ∧ ¬ (({ armed9 with lg := .fault } : State).lg = .laidDown) ∧
    ownRaise.pins.rstN = true ∧ ownRaise.raising.armed = some 9 ∧ ownRaise.raising.armedHere = true ∧ ownRaise.lg = .laidDown ∧
    ownRaise.stopped = false ∧ ownRaise.running = [] ∧ ownRaise.configClean ∧ ¬ (({ ownRaise with lg := .fault } : State).lg = .laidDown) ∧
    (origin [1, 1]).live ∧ (origin [1, 1]).raising.dueRun = some (run6 [1, 1]) ∧ (∀ x ∈ (run6 [1, 1]).results, x = 1) ∧
    (origin [1, 0]).configClean ∧ (∃ x ∈ (run6 [1, 0]).results, x ≠ 1) ∧ (origin [1, 0]).raising.runs.find? (·.id == 1) = some (run6 [1, 0]) ∧
    (6, 1) ∈ ((origin [1, 0]).gangMembers 0x20).zip (run6 [1, 0]).results ∧ (origin [1, 0]).routeOf 6 = .ring 6 :=
  ⟨by constructor <;> decide, by constructor <;> decide, by constructor <;> decide, by constructor <;> decide, by decide +kernel⟩

/-- The origin's own raise: OUTCOME RAISED with every target's answer, and LG_IRQ_STATUS.RAISE (R367, R376). -/
theorem test_own_raise :
    leads (exec .raiseEdge ownRaise) (fun t => t.lg = .ready ∧ t.raising.outcome = .raised ∧ t.raising.originHere = true ∧
      t.raising.results = [1, 1] ∧ t.raising.runs = [] ∧ t.irqStatus = 16) = true := by decide +kernel

/-- Of two targets that of SIN 6 is armed, the one here has not answered: CANCEL goes to SIN 6 (Table 12.13). -/
theorem test_raise_deadline_cancels :
    leads (exec .raiseDeadline (origin [1, 0])) (fun t => t.raising.results = [1, 15] ∧ t.raising.outcome = .cancelled ∧
      t.net.map (fun k => (k.env.cls, k.env.dest)) = [(8, 6)] ∧ t.count = 2000) = true := by decide +kernel

/-- Table 14.4, line 9: after the raise LG_POLICY reads 1, LG_DIGEST_N 0x64, LG_STATE 0x871 (PHASE 7, LOCKED). -/
theorem test_raise_applies_the_shadows :
    leads (exec .raiseEdge { armed9 with clk := { locked := true } })
      (fun t => t.regWord 0x14 = 1 ∧ t.regWord 0x18 = 0x64 ∧ t.regWord 0x10 = 0x871 ∧ t.count = 9) = true := by decide +kernel

/-- A message for this instance, reserved classes at both ends, a message passed on, one before load end, one with no hop left. -/
theorem witness_OtherMessagesTakenOrPassedOn :
    up.live ∧ ({ cls := 10, dest := 5 } : Envelope).dest = up.sin ∧ ({ cls := 0 } : Envelope).cls = 0 ∧ 10 < ({ cls := 11 } : Envelope).cls ∧
    ({ cls := 1, dest := 6 } : Envelope).dest ≠ up.sin ∧ up.visible = true ∧ up.configClean ∧ ({ cls := 1, dest := 6, hops := 6 } : Envelope).hops ≠ 7 ∧
    up.routeOf 6 ≠ .none ∧ ({ up with visible := false } : State).live := by decide +kernel

/-! ### Witnesses: the ring and the ports -/

/-- A beat for stop `n` of a message of `len` body bytes, class 7, for SIN 5. -/
def beat1 (n len : Nat) : List Byte := padTo 32 (natLE 4 n ++ envBytes { cls := 7, len := len, dest := 5, src := 6 })

/-- The two directions of a stop within a message: passing on, discarding, awaiting two beats and one. -/
def amid (fwd drop need : Nat) (rx : List Byte) : State :=
  { up with stop := { cw := { fwd := fwd, drop := drop, need := need, rx := rx }, ccw := { fwd := fwd, drop := drop, need := need, rx := rx } } }

/-- In either direction: a beat passed on, one discarded in reset, the first of two, one alone, later beats of each, a FREEZE message. -/
theorem witness_RingStopForwardsOrConsumes :
    up.stopped = false ∧ up.stop.cw.fwd = 0 ∧ up.stop.cw.drop = 0 ∧ up.stop.cw.need = 0 ∧ up.params.stop = 0 ∧ up.stop.cw.rx = [] ∧
    fieldAt (beat1 1 12) 0 1 % 64 ≠ 0 ∧ fieldAt (beat1 0 13) 0 1 % 64 = 0 ∧ ringBeatCount (beat1 0 13) - 1 = 1 ∧ ringBeatCount (beat1 0 12) - 1 = 0 ∧
    beatParity (beat1 0 13) (beatPar (beat1 0 13)) = true ∧ beatParity (beat1 0 12) (beatPar (beat1 0 12)) = true ∧
    beatParity (beat1 0 12) (List.replicate 8 true) = false ∧
    bitOf (fieldAt (beat1 0 12) 0 1) 7 = false ∧ State.reset.nv.phase = 0 ∧ State.reset.stopped = false ∧ State.reset.stop.ccw.fwd = 0 ∧
    State.reset.params.stop = 0 ∧ up.nv.phase ≠ 0 ∧ up.stop.ccw.fwd = 0 ∧ up.stop.ccw.drop = 0 ∧ up.stop.ccw.need = 0 ∧ up.stop.ccw.rx = [] ∧
    (amid 1 0 0 []).stopped = false ∧ 0 < (amid 1 0 0 []).stop.cw.fwd ∧ 0 < (amid 1 0 0 []).stop.ccw.fwd ∧
    (amid 0 1 0 []).stop.cw.fwd = 0 ∧ 0 < (amid 0 1 0 []).stop.cw.drop ∧ 0 < (amid 0 1 0 []).stop.ccw.drop ∧
    0 < (amid 0 0 2 (beat1 0 64)).stop.cw.need ∧ 0 < 2 - 1 ∧ (amid 0 0 1 (beat1 0 13)).stop.ccw.need - 1 = 0 ∧
    bitOf (fieldAt (beat1 128 29) 0 1) 7 = true ∧ fieldAt (beat1 128 29) 0 1 % 64 = up.params.stop ∧ ringBeatCount (beat1 128 29) - 1 = 1 := by
  decide +kernel

/-- The last beat of a message delivers it, from either direction, and gives its credit back. -/
theorem test_ring_message :
    ([true, false].all fun cw => leads (exec (.tieRingBeat cw (zeros 32) (beatPar (zeros 32))) (amid 0 0 1 (beat1 0 13))) (fun t =>
      t.inbox.map (fun m => (m.1.cls, m.2.length)) = [(7, 13)] ∧ (if cw then t.stop.cw else t.stop.ccw).returned = 1)) = true := by decide +kernel

/-- READY with port 0 up. -/
def linked (k : KPort) : State := { up with image := { image2 with portMode := 1, ports := [{ peerSin := 6, peerPort := 1 }] }, kports := Vector.replicate 2 k }

/-- An up port. -/
def portUp0 : KPort := { st := .up }

/-- A DATA flit number 0 with an empty message of class 7, an IDLE flit that acknowledges 1, a HELLO of SIN 6's port 1, a TIME flit. -/
def flitOf (type used ack : Nat) (payload : List Byte) : List Byte := flitBytes type 0 0 used payload ack 1

/-- The flits are good; a port takes the DATA flit that fits and no other; a port that is not up takes none. -/
theorem witness_FlitsAcceptedInOrder :
    (linked portUp0).live ∧ flitGood (flitOf 1 16 0 (envBytes { cls := 7, dest := 5 })) = true ∧
    fieldAt (flitOf 1 16 0 []) 2 2 % 1024 = portUp0.rxNext ∧ fieldAt (flitOf 1 16 0 []) 4 1 = 16 ∧ flitGood (flitOf 1 240 0 []) = true ∧
    flitGood (zeros 256) = false ∧ portUp0.nakFor ≠ some portUp0.rxNext ∧ (linked {}).kports[(0 : Fin 2)].st ≠ .up ∧
    flitGood (flitOf 2 0 1 []) = true ∧ fieldAt (flitOf 2 0 1 []) 0 1 = 2 ∧ bitOf (fieldAt (flitOf 2 0 1 []) 0xFA 1) 0 = true ∧
    bitOf (fieldAt (flitOf 2 0 1 []) 0xFA 1) 1 = false ∧ portUp0.txQueue = [] ∧ portUp0.txStream = [] := by decide +kernel

/-- A good IDLE flit with ACK 1 frees flit 0 of the replay buffer (R306). -/
theorem test_idle_flit_acknowledges :
    leads (exec (.idleFlit 0 (.bytes (flitOf 2 0 1 []))) (linked { portUp0 with replay := [(0, [0xFF], 0), (1, [0xFF], 0)], txNext := 2 }))
      (fun t => (t.kports[(0 : Fin 2)]).replay = [(1, [0xFF], 0)]) = true := by decide +kernel

/-- A port that holds one flit, and one that has sent it 8 times again. -/
theorem witness_UnacknowledgedFlitsAreResent :
    (linked { portUp0 with replay := [(0, [0xFF], 8)] }).live ∧ (linked portUp0).kports[(0 : Fin 2)].st = .up ∧
    (∃ x ∈ [((0 : Nat), [0xFF#8], 8)], 8 ≤ x.2.2) := by decide +kernel

/-- A SYNC instance in P6 that awaits its pulse. -/
def syncing : State := { up with lg := .seasoning, nv := { phase := 6 }, image := { image2 with role := 2 }, clk := { ringTime := some 4096 } }

/-- A child of port 0 in a phase, whose parent's TIME flits 1 and 2 bracket its own flit 0, with `n` estimates. -/
def child (ph n : Nat) (locked : Bool) : State :=
  { linked { portUp0 with rxHist := [(1, 300)], txTs := [(0, 200)], txTid := 1 } with
    nv := { phase := ph }, clk := { locked := locked, estimates := List.replicate n 0 }
    image := { image2 with portMode := 1, role := 1, ports := [{ peerSin := 6, peerPort := 1 }] } }

/-- A TIME flit of the parent with TID 2, its flit 1 sent at `a1`, ours received at `a2`. -/
def timeOf (locked a1 a2 : Nat) : List Byte :=
  flitOf 3 0 0 (natLE 2 6 ++ zeros 1 ++ natLE 1 locked ++ natLE 4 2 ++ natLE 8 a1 ++ zeros 8 ++ natLE 8 a2)

/-- An up port, a TIME flit, a child at each clause, a SYNC instance at its pulse and at another, a time source. -/
theorem witness_TimeIsKeptAndSent :
    (linked portUp0).live ∧ flitGood (flitOf 3 0 0 []) = true ∧ fieldAt (flitOf 3 0 0 []) 0 1 = 3 ∧ (linked portUp0).image.role ≠ 1 ∧
    syncing.live ∧ syncing.visible = true ∧ syncing.image.role = 2 ∧ syncing.nv.phase = 6 ∧ syncing.clk.stepped = false ∧
    syncing.clk.ringTime = some 4096 ∧ syncing.clk.ringTime ≠ some 8192 ∧ up.image.role ≠ 2 ∧ up.count < 2 ^ 64 - 8192 ∧ up.clk.trim ≤ 0 ∧
    (child 7 0 true).live ∧ (child 7 0 true).kports[(0 : Fin 2)].st = .up ∧ (child 7 0 true).image.role = 1 ∧
    (child 7 0 true).image.parentPort = ((0 : Fin 2)).val ∧ flitGood (timeOf 1 0 0) = true ∧ fieldAt (timeOf 1 0 0) 0 1 = 3 ∧
    fieldAt ((timeOf 1 0 0).drop 8) 4 4 = 2 ∧ ((2, (0 : Nat)) :: (child 7 0 true).kports[(0 : Fin 2)].rxHist).lookup 1 = some 300 ∧
    (child 7 0 true).kports[(0 : Fin 2)].txTs.lookup (fieldAt ((timeOf 1 0 0).drop 8) 16 4) = some 200 ∧
    tsDiff 300 0 - tsDiff 20000 200 - 0 < -8192 ∧ -8192 ≤ tsDiff 300 0 - tsDiff 0 200 - 0 ∧ tsDiff 300 0 - tsDiff 0 200 - 0 ≤ 8192 ∧
    (child 6 255 false).clk.estimates.length = 255 ∧ (child 6 255 false).clk.stepped = false ∧
    bitOf (fieldAt ((timeOf 1 0 0).drop 8) 3 1) 0 = true ∧ bitOf (fieldAt ((timeOf 0 0 0).drop 8) 3 1) 0 = false := by decide +kernel

/-- Against a parent that is not locked nothing is stepped; with the 256th estimate of a locked one it is (R322, R348). -/
theorem test_time_step :
    leads (exec (.timeFlit 0 (.bytes (timeOf 0 0 0)) 0) (child 6 255 false)) (fun t => t.clk.stepped = false ∧ t.clk.theta = 500) = true ∧
    leads (exec (.timeFlit 0 (.bytes (timeOf 1 0 0)) 0) (child 6 255 false)) (fun t => t.clk.stepped = true) = true := by decide +kernel

/-- A HELLO payload of a SIN, port, gang-map digest, SEEN. -/
def helloOf (sin : Nat) (map : Byte) (seen : Nat) : List Byte := flitOf 5 0 0 (natLE 2 sin ++ natLE 1 1 ++ zeros 2 ++ natLE 1 seen ++ zeros 2 ++ List.replicate 32 map)

/-- A port in T5 and the HELLO of the right peer, with SEEN and without, of another peer, with another map. -/
theorem witness_HelloDecidesThePort :
    (let s := linked { st := .training, phase := 5 }
     s.live ∧ s.kports[(0 : Fin 2)].st = .training ∧ s.kports[(0 : Fin 2)].phase = 5 ∧ s.scarfs = [] ∧ s.shares = [] ∧ s.image.role ≠ 1 ∧
       (s.image.ports.getD 0 {}).peerSin = 6 ∧ (s.image.ports.getD 0 {}).peerPort = 1 ∧ padTo 32 s.image.mapDigest = zeros 32) ∧
    flitGood (helloOf 6 0 1) = true ∧ fieldAt (helloOf 6 0 1) 0 1 = 5 ∧ fieldAt ((helloOf 6 0 1).drop 8) 0 2 % 4096 = 6 ∧
    fieldAt ((helloOf 6 0 1).drop 8) 2 1 = 1 ∧ sliceOf ((helloOf 6 0 1).drop 8) 8 32 = zeros 32 ∧
    bitOf (fieldAt ((helloOf 6 0 1).drop 8) 5 1) 0 = true ∧ bitOf (fieldAt ((helloOf 6 0 0).drop 8) 5 1) 0 = false ∧
    fieldAt ((helloOf 7 0 1).drop 8) 0 2 % 4096 ≠ 6 ∧ sliceOf ((helloOf 6 9 1).drop 8) 8 32 ≠ zeros 32 := by decide +kernel

/-- A port in each part of its training, and one that is up and still sends HELLO. -/
theorem witness_TrainingRunsItsPhases :
    (linked { portUp0 with helloOn := true }).live ∧ (linked { portUp0 with helloOn := true }).kports[(0 : Fin 2)].helloOn = true ∧
    (linked { st := .training }).live ∧ (linked { st := .training }).kports[(0 : Fin 2)].st = .training ∧
    3 ∈ (linked { st := .training }).portLanes 0 ∧ (0 : Word) ≠ 0x7E6A5A3C#32 ∧ (linked { st := .training, phase := 4 }).kports[(0 : Fin 2)].phase < 5 ∧
    ({ st := .training } : KPort).phase = 0 ∧ ({ st := .training, phase := 1 } : KPort).phase ≠ 0 ∧ (linked { st := .training, phase := 2 }).equalised 0 = false ∧
    (linked { st := .training, phase := 2, lanes := List.replicate 8 { done := true, rxStatus := 64 } }).equalised 0 = true ∧
    1 ≤ ({ st := .training, phase := 1, restarts := 3 } : KPort).phase ∧ 3 ≤ ({ st := .training, phase := 1, restarts := 3 } : KPort).restarts := by
  decide +kernel

/-! ### Witnesses: the management port -/

/-- Nobody owns the instance. -/
def unowned : State := { up with own := {} }

/-- No owner; an owner; a target; before load end. -/
theorem witness_ClaimDecidedByFirstCase :
    unowned.pins.rstN = true ∧ unowned.visible = true ∧ unowned.own.owner = none ∧ unowned.own.target = none ∧ (2 : Fin 4) < 3 ∧
    up.own.owner = some 0 ∧ ({ up with own := { owner := some 0, target := some 1 } } : State).own.target = some 1 ∧
    ({ unowned with visible := false } : State).pins.rstN = true := by decide +kernel

/-- M1's claim while M0 owns is answered REFUSED (R359). -/
theorem test_claim_refused : answers (exec (.claim 1) up) (up.answered 1 2) = true := by decide +kernel

/-- A handover pending from M0 to M1, its deadline at MGMT cycle 1,000,000. -/
def handing : State := { up with own := { owner := some 0, target := some 1, deadline := 1000000 } }

/-- An owner, a pending handover. -/
theorem witness_HandoverRunsItsWindow :
    handing.Inv ∧ up.ownedBy 0 ∧ handing.pins.rstN = true ∧ handing.visible = true ∧ handing.own.owner = some 0 ∧ handing.own.owner ≠ some 1 ∧ handing.own.target = some 1 ∧
    handing.clk.mgmt ≤ handing.own.deadline := ⟨by constructor <;> decide, by decide +kernel⟩

/-- The window ends at MGMT cycle 1,000,000, REASON HANDOVER_EXPIRED (R360). -/
theorem test_handover_expires :
    leads (exec .handoverExpired handing) (fun t => t.clk.mgmt = 1000000 ∧ t.own.owner = some 0 ∧ t.own.target = none ∧ t.own.reason = 6) = true := by
  decide +kernel

/-- An owner that releases, another master, a lapse to come. -/
theorem witness_ReleaseAndLapseEndOwnership :
    up.Inv ∧ up.pins.rstN = true ∧ up.own.owner = some 0 ∧ up.own.owner ≠ some 1 ∧ up.clk.mgmt ≤ up.own.beatAt + 100000000 := ⟨up_inv, by decide⟩

/-- A master that is not the owner, and no owner at all. -/
theorem witness_NonOwnerWritesHaveNoEffect :
    up.pins.rstN = true ∧ up.own.owner ≠ some 3 ∧ unowned.pins.rstN = true ∧ unowned.own.owner ≠ some 0 := by decide +kernel

/-- Each state a quiesce can meet. -/
theorem witness_QuiesceDrainsOrLaysDown :
    up.ownedBy 0 ∧ up.lg = .ready ∧ up.frz.running = false ∧ up.running = [] ∧ (running0 job1).ownedBy 0 ∧ (running0 job1).running ≠ [] ∧
    ({ up with lg := .laidDown } : State).ownedBy 0 ∧ ({ up with lg := .seasoning } : State).ownedBy 0 := by decide +kernel

/-- Laid down with LG_RAISE_AT at a count. -/
def raisable (n : Nat) : State := { up with lg := .laidDown, raising := { raiseAt := BitVec.ofNat 64 n } }

/-- Each check of a raise, at the boundary of the lead. -/
theorem witness_RaiseWritesJudgedInOrder :
    (raisable 10000).ownedBy 0 ∧ (raisable 10000).lg = .laidDown ∧ (raisable 10000).raising.armed = none ∧ ¬ (10000 < (raisable 10000).count + 10000) ∧
    9999 < (raisable 9999).count + 10000 ∧ (raisable 10000).sin ∈ ((raisable 10000).image.gangs.lookup 0x10).getD [] ∧
    (raisable 10000).sin ∉ ((raisable 10000).image.gangs.lookup 0x11).getD [] ∧ (raisable 10000).stopped = false ∧ up.ownedBy 0 ∧ up.lg ≠ .laidDown ∧
    armed9.ownedBy 0 ∧ armed9.raising.armed ≠ none ∧ (raisable 10000).configClean ∧ 6 ∈ (raisable 10000).gangMembers 0x10 ∧ (raisable 10000).routeOf 6 = .ring 6 := by decide +kernel

/-- Table 14.4, line 7: LG_RAISE_STATUS reads 0x11 (ARMED, origin) after a raise of the gang, here by SIN 5 (ORIGIN bits 0x0005). -/
theorem test_raise_gang_status :
    leads (exec (.raiseGang 0 0x10) (raisable 50000)) (fun t => t.regWord 0x50 = 0x00050011 ∧ t.raising.runs.map (·.results) = [[1, 0]] ∧ t.net.length = 1) = true := by
  decide +kernel

/-- 64-bit registers at both ends of the list, armed and not. -/
theorem witness_SixtyFourBitRegisters :
    up.pins.rstN = true ∧ up.reg64 0x48 = some 0 ∧ up.reg64 0x140 = some 0 ∧ up.ownedBy 0 ∧ up.raising.armed = none ∧ armed9.ownedBy 0 ∧
    armed9.raising.armed ≠ none := by decide +kernel

/-- Table 14.4, line 6: 0x540C_A750 then 0x0000_0002 make LG_RAISE_AT 10,000,050,000. -/
theorem test_raise_at_halves :
    leads (exec (.raiseAtWrite 0 false 0x540CA750) up) (fun t => t.raising.raiseAt = 0 ∧
      leads (exec (.raiseAtWrite 0 true 2) t) (fun u => u.raising.raiseAt = 10000050000)) = true := by decide +kernel

/-- An owner; a group with nothing queued and with something; a channel on, off, and with a queue; a port absent and not. -/
theorem witness_OwnerWritesTakeEffect :
    up.ownedBy 0 ∧ up.groupQueued 1 = false ∧ (holding 3).groupQueued 1 = true ∧ up.mayEnable = true ∧ (running0 job1).mayEnable = false ∧
    up.chans[(0 : Fin 16)].st ≠ .off ∧ waiting.chans[(0 : Fin 16)].halted = none ∧ waiting.mayEnable = true ∧ waiting.ownedBy 0 ∧
    (on0 up {}).chans[(0 : Fin 16)].st = .off ∧ (linked portUp0).ownedBy 0 ∧ (linked portUp0).kports[(0 : Fin 2)].st ≠ .absent ∧
    ¬ (255 < 254) ∧ 253 % 256 < 254 := by decide +kernel

/-- A disabled channel completes its descriptor ABORTED (R85). -/
theorem test_disable_aborts :
    leads (exec (.channelDisable 0 0) waiting) (fun t => t.chans[(0 : Fin 16)].st = .off ∧
      t.chans[(0 : Fin 16)].held.map (fun p => (p.record.status, p.record.seq)) = [(0x0C, 3)]) = true := by decide +kernel

/-- Offsets of each kind; the window frozen and not. -/
theorem witness_RegistersReadAndWritten :
    up.pins.rstN = true ∧ up.own.owner = some 0 ∧ 2 % 4 ≠ 0 ∧ 0x1C < 0x20 ∧ 0x5C < 0x60 ∧ up.reg64 0x10 = none ∧ up.high64 0x10 = none ∧
    up.configClean ∧ up.lg ≠ .frozen ∧ (4 : Word).getLsbD 2 = true ∧ (3 : Word).getLsbD 0 = true ∧ (3 : Word).getLsbD 1 = true ∧
    (4 : Word).getLsbD 0 = false ∧ (4 : Word).getLsbD 1 = false ∧
    (let s : State := { up with lg := .frozen, frz := { page := 0x43F } }
     s.pins.rstN = true ∧ s.lg = .frozen ∧ s.bays.yardCE = [] ∧ s.bays.yardUE = [] ∧ s.frz.page * 16384 + 0x3FFC < 0x1100000) := by decide +kernel

/-- LG_ID reads 0xF1E7_4C16 (Table 14.7); a read at offset 2 is answered BAD_ADDR. -/
theorem test_register_reads :
    answers (exec (.lowWordRead 0 0) up) (up.answered 0 0 0xF1E74C16#32) = true ∧ answers (exec (.lowWordRead 3 2) up) (up.answered 3 4) = true := by
  decide +kernel

/-- READY and RUNNING. -/
theorem witness_RunningStateShown :
    up.lg = .ready ∧ (∀ c : Fin 16, up.chans[c].job = none) ∧ (running0 job1).lg = .ready ∧ (running0 job1).chans[(0 : Fin 16)].job ≠ none := by
  decide +kernel

/-- A FREEZE frame with an id, scope and hops. -/
def freezeOf (id scope : Nat) : List Byte := natLE 4 id ++ natLE 2 6 ++ natLE 2 scope ++ natLE 1 7

/-- A freeze by each cause; a known id; a scope without the instance; a sequence that ends with and without responses lost. -/
theorem witness_FreezeSequenceRuns :
    up.live ∧ up.own.owner = some 0 ∧ (0 : Word).getLsbD 1 = false ∧ up.nv.phase ≠ 0 ∧ (linked portUp0).live ∧
    (linked portUp0).kports[(0 : Fin 2)].st = .up ∧ flitGood (decodeFlit (.bytes (flitOf 4 0 1 (freezeOf 9 0)))) = true ∧
    fieldAt (decodeFlit (.bytes (flitOf 4 0 1 (freezeOf 9 0)))) 0 1 = 4 ∧ fieldAt (freezeOf 9 0) 0 4 ∉ up.frz.seen ∧ up.sin ∈ up.gangMembers 0 ∧
    up.sin ∈ up.gangMembers 0x10 ∧ up.sin ∉ up.gangMembers 0x11 ∧ ({ up with frz := { seen := [9] } } : State).live ∧
    fieldAt (freezeOf 9 0) 0 4 ∈ ({ up with frz := { seen := [9] } } : State).frz.seen ∧
    (let s : State := { up with frz := { running := true } }
     s.pins.rstN = true ∧ s.port.out = [] ∧ s.port.held = []) ∧
    ({ recording with frz := { running := true } } : State).port.out ≠ [] := by decide +kernel

/-- A FREEZE flit acknowledges as any other, ends the sending of HELLO, and freezes (R303, R305, R370). -/
theorem test_freeze_flit :
    leads (exec (.freezeFrame (some 0) (.bytes (flitOf 4 0 1 (freezeOf 9 0)))) (linked { portUp0 with helloOn := true, replay := [(0, [0xFF], 0)], txNext := 1 }))
      (fun t => t.frz.running = true ∧ t.frz.seen = [9] ∧ (t.kports[(0 : Fin 2)]).replay = [] ∧ (t.kports[(0 : Fin 2)]).helloOn = false) = true := by
  decide +kernel

/-- Frozen from READY, with port 0 up before. -/
def frozen : State := { linked portUp0 with lg := .frozen, frz := { frozenFrom := 1 }, pins := { freezeOut := true } }

/-- A thaw that succeeds and each reason to refuse one. -/
theorem witness_ThawRestartsOrIsRefused :
    frozen.ownedBy 0 ∧ frozen.lg = .frozen ∧ frozen.frz.preReady = false ∧ frozen.frz.memTimeout = false ∧ (0 : Word).getLsbD 0 = false ∧
    frozen.frz.pendingFault = false ∧ frozen.image.role = 0 ∧ frozen.running = [] ∧ frozen.draining = false ∧ frozen.heldOff = [] ∧
    frozen.port.held = [] ∧ frozen.port.waiting = [] ∧ frozen.configClean ∧ frozen.raising.armed = none ∧ up.ownedBy 0 ∧ up.lg ≠ .frozen ∧
    ({ frozen with frz := { preReady := true } } : State).ownedBy 0 ∧ ({ frozen with frz := { memTimeout := true } } : State).ownedBy 0 := by decide +kernel

/-- A thaw with FREEZE_IN high is answered WRONG_STATE; one with it low makes LG_STATE READY and retrains the port (R372). -/
theorem test_thaw :
    leads (exec (.thaw 0 0 true) frozen) (fun t => t.lg = .frozen ∧ t.mg = [{ master := 0, code := 3 }]) = true ∧
    leads (exec (.thaw 0 0 false) frozen) (fun t => t.lg = .ready ∧ t.pins.freezeOut = false ∧ (t.kports[(0 : Fin 2)]).st = .training ∧
      t.mg = [{ master := 0, code := 0 }]) = true := by decide +kernel

/-! ### Witnesses: reset, power-up, the test port -/

/-- RST_N low, and not. -/
theorem witness_ResetAndRails : ({ State.reset with pins := { rstN := false } } : State).pins.rstN = false ∧ up.pins.rstN = true ∧
    up.stopped = false ∧ ({ up with lg := .frozen } : State).stopped = true ∧ up.jtag.ir ≠ 0x10#6 ∧
    ({ up with jtag := { ir := 0x10 } } : State).jtag.ir = 0x10#6 := by decide +kernel

/-- SCAN_EN loaded while RST_N is high takes effect as RST_N goes low; what a clock stop held off is gone, what P0 holds off waits (R418, R74). -/
theorem test_reset_scan_and_held_off :
    leads (exec .resetAssert { up with lg := .frozen, heldOff := [(7, [], true)], jtag := { ir := 0x10 } }) (fun t => t.jtag.scan = true ∧ t.heldOff = []) = true ∧
    leads (exec .resetAssert { State.reset with heldOff := [(7, [], true)] }) (fun t => t.jtag.scan = false ∧ t.heldOff.length = 1) = true := by decide +kernel

/-- Reset release with fuses 0x8001 leaves bays 1 to 14 (R32). -/
theorem test_reset_release_fuses :
    leads (exec (.resetRelease 0x8001 false) { State.reset with pins := { rstN := false } }) (fun t => t.bays.ok = (List.range 15).drop 1 ∧ t.clk.count = 0) = true := by
  decide +kernel

/-- SEASONING in a phase. -/
def phase (n : Nat) : State := { State.reset with nv := { phase := n, current := some 0, order := [1] } }

/-- The directory entry of a section. -/
def dirAt (t off len : Nat) : List Byte := natLE 2 t ++ zeros 2 ++ natLE 4 off ++ natLE 4 len ++ zeros 4

/-- The bytes from 0x40 on of the smallest image: every section at its shortest, one pool slot after 63 of them, one route, no gang. -/
def imageRest : List Byte :=
  (dirAt 1 0x140 32 ++ dirAt 2 0x180 128 ++ dirAt 3 0x200 256 ++ dirAt 4 0x300 32 ++ dirAt 5 0x340 0x110 ++ dirAt 6 0x480 0x34 ++
    dirAt 7 0x4C0 16 ++ zeros 144) ++
  (natLE 1 1 ++ natLE 1 8 ++ zeros 62) ++ zeros (128 + 256) ++ zeros 64 ++
  (natLE 4 1 ++ zeros 4 ++ natLE 4 0x110 ++ zeros (0x140 - 12)) ++
  (natLE 2 0x200 ++ zeros 0x26 ++ natLE 2 1 ++ zeros 6 ++ natLE 4 1 ++ zeros 12) ++
  (zeros 4 ++ natLE 4 16 ++ zeros 56)

/-- The header with a digest (Table 13.2). -/
def imageHead (dig : List Byte) : List Byte :=
  natLE 4 0x314C474C ++ natLE 2 1 ++ zeros 2 ++ natLE 4 1 ++ natLE 4 0x500 ++ zeros 16 ++ dig

/-- The image with its digest, which an independent SHA-256 gave (R334). -/
def smallImage : List Byte := imageHead (natLE 32 34094605464170894531092218804541025952577602982393184991350132322673768210534) ++ imageRest

/-- The image passes its load checks for a build of eight lanes (R342, R343). -/
theorem test_image_passes :
    checkImage smallImage 8 [0] = none ∧ (imageOf smallImage 0).minBays = 1 ∧ (imageOf smallImage 0).portMode = 2 ∧
      (imageOf smallImage 0).routes = [.loc] := by decide +kernel

/-- Each phase up to load; an image that fails; bays that fail. -/
theorem witness_PowerUpReachesLoad :
    checkImage smallImage 8 [0] = none ∧
    (phase 0).inPhase 0 = true ∧ (phase 0).heldOff = [] ∧ (phase 1).inPhase 1 = true ∧ (phase 1).frz.onFault = false ∧ (phase 2).inPhase 2 = true ∧
    (phase 2).nv.current = some 0 ∧ (phase 2).nv.order = 1 :: [] ∧ checkImage [] 8 = some .magic ∧ (phase 2).params.lanes = 8 ∧
    ({ phase 2 with nv := { phase := 2, current := some 1 } } : State).nv.order = [] ∧ (phase 3).inPhase 3 = true ∧
    (∀ x ∈ [((4 : Fin 16), SelfFail.tap)], x.1.val ≠ 5) ∧ ((4 : Fin 16), SelfFail.tap).2 = .tap := ⟨test_image_passes.1, by decide +kernel⟩

/-- A bay with two failing lanes is disabled, one with one lane is repaired (R346). -/
theorem test_self_test :
    leads (exec (.selfTestDone [(2, .lane 3), (2, .lane 9), (4, .lane 17)]) (phase 3))
      (fun t => t.bays.ok.contains 2 = false ∧ t.bays.ok.contains 4 = true ∧ t.bays.spared = [(4, 17)]) = true := by decide +kernel

/-- P4 with a minimum of bays and a plumb channel's anchor slot on bays 0 to 3. -/
def loading (least : Nat) : State := { phase 4 with image := { image2 with minBays := least } }

/-- Load end with too few bays, with an anchor left empty, and with all it needs; training, alignment and flash. -/
theorem witness_LoadEndLeadsToReady :
    (loading 17).inPhase 4 = true ∧ (loading 17).bays.ok.length < (loading 17).image.minBays ∧ (loading 17).frz.onFault = false ∧
    (loading 16).inPhase 4 = true ∧ ¬ (loading 16).bays.ok.length < (loading 16).image.minBays ∧
    ({ loading 16 with bays := { (loading 16).bays with enabled := (loading 16).bays.ok }
                       image := { image2 with slots := image2.slots.map fun w => clipSlot w 16 } } : State).emptyAnchors = [] ∧
    ({ loading 0 with bays := { ok := [] }, image := { image2 with slots := image2.slots.map fun w => clipSlot w 0 } } : State).emptyAnchors ≠ [] ∧
    (loading 16).bays.curveCE = [] ∧ (loading 16).bays.curveUE = [] ∧ (loading 16).configClean ∧ (phase 5).configClean ∧ (phase 6).configClean ∧ (phase 5).inPhase 5 = true ∧ (phase 5).portsUp = true ∧
    (phase 6).inPhase 6 = true ∧ (∀ x ∈ (phase 6).shares, x.job = none) ∧
    (let s : State := { up with nv := { phase := 7, validIn := [0, 1], newest := 0 } }
     s.eraseDue = some 1 ∧ s.live ∧ s.nv.phase = 7 ∧ s.pins.nvReleased = false) ∧ up.eraseDue = none := by decide +kernel

/-- IDCODE of a B0 part without a manufacturer code (Table 16.11): 0x14C1_6001. -/
theorem test_idcode : leads (exec .idcode up) (fun t => t.jtag.dr = 0x14C16001#32 ∧ t.jtag.ir = 0x01) = true := by decide +kernel

/-- Two orders of the same addends, and an addend that is a whole number of units of 2^-320. -/
theorem witness_TallySumIsOrderFree :
    [Val.num 1, .num (-1)].Perm [.num (-1), .num 1] ∧ (1 : Rat) * pow2 320 = ((2 ^ 320 : Nat) : Rat) := ⟨List.Perm.swap _ _ _, by decide +kernel⟩

end Sys2Proof.Tests
end

section
/-! PROOFS. The message port (03_ R69 to R74): how an open port takes a message, what Table 3.2 answers, and the order in which a
DOORBELL makes staged descriptors eligible. -/

namespace Sys2Proof.Machine

/-! ### A message at an open port -/

theorem exec_post (src : Nat) (msg : List Byte) (ok : Bool) (s : State) : exec (.post src msg ok) s = .next (s.inbound src msg ok) := rfl

theorem exec_doorbell (src : Nat) (msg : List Byte) (ok : Bool) (s : State) : exec (.doorbell src msg ok) s = .next (s.inbound src msg ok) := rfl

theorem State.heldOffNow_eq_false_of_portOpen {s : State} (h : s.portOpen) : s.heldOffNow = false := by
  obtain ⟨⟨hrst, hstop⟩, hphase⟩ := h
  simp [State.heldOffNow, hrst, hstop, hphase]

theorem State.inbound_of_portOpen {s : State} (h : s.portOpen) (src : Nat) (msg : List Byte) (ok : Bool) :
    s.inbound src msg ok = s.acceptMsg src msg ok := by
  simp [State.inbound, State.heldOffNow_eq_false_of_portOpen h]

theorem malformed_eq_false_of_post {msg : List Byte} (hlen : msg.length = 144) (htype : fieldAt msg 0 1 = 1) : malformed msg = false := by
  simp [malformed, hlen, htype]

theorem malformed_eq_false_of_doorbell {msg : List Byte} (hlen : msg.length = 16) (htype : fieldAt msg 0 1 = 2) : malformed msg = false := by
  simp [malformed, hlen, htype]

theorem State.refuse_eq_refused (s : State) (src : Nat) (msg : List Byte) (status : Nat) : s.refuse src msg status = s.refused src msg status := rfl

/-! ### Table 3.2 -/

/-- The channel a message names (R69). -/
abbrev msgChannel (msg : List Byte) : Fin 16 := Fin.ofNat 16 (fieldAt msg 1 1)

/-- Table 3.2's third check: the channel is OFF or the sender is not its source. -/
abbrev State.badChannel (s : State) (src : Nat) (msg : List Byte) : Prop :=
  s.chans[msgChannel msg].st = .off ∨ src ≠ (s.cfg (msgChannel msg)).source

section PortCheck
variable {s : State} {src : Nat} {msg : List Byte}

theorem State.portCheck_of_seasoning (h : s.lg = .seasoning) : s.portCheck src msg = some stSeasoning := by simp [State.portCheck, h]

theorem State.portCheck_of_fault (h : s.lg = .fault) : s.portCheck src msg = some stFault := by simp [State.portCheck, h]

theorem State.portCheck_of_badChannel (hs : s.lg ≠ .seasoning) (hf : s.lg ≠ .fault) (hc : s.badChannel src msg) :
    s.portCheck src msg = some stBadChannel := by
  simp only [State.portCheck, if_neg hs, if_neg hf, if_pos hc]

/-- Past the checks of the instance and the channel a POST is refused only by a full queue. -/
theorem State.portCheck_post (htype : fieldAt msg 0 1 = 1) (hs : s.lg ≠ .seasoning) (hf : s.lg ≠ .fault) (hc : ¬ s.badChannel src msg) :
    s.portCheck src msg = if 32 ≤ s.chans[msgChannel msg].occupied then some stNoCredit else none := by
  simp only [State.portCheck, if_neg hs, if_neg hf, if_neg hc]
  simp [htype]

/-- Past the checks of the instance and the channel a DOORBELL is refused only by a COUNT above the staged descriptors. -/
theorem State.portCheck_doorbell (htype : fieldAt msg 0 1 = 2) (hs : s.lg ≠ .seasoning) (hf : s.lg ≠ .fault)
    (hc : ¬ s.badChannel src msg) :
    s.portCheck src msg = if s.chans[msgChannel msg].staged < fieldAt msg 2 1 then some stBadDoorbell else none := by
  simp only [State.portCheck, if_neg hs, if_neg hf, if_neg hc]
  simp [htype]

/-! ### What the foreman does with a message that is not malformed -/

theorem State.acceptMsg_of_refused {status : Nat} (hm : malformed msg = false) (h : s.portCheck src msg = some status) :
    s.acceptMsg src msg true = s.refused src msg status := by
  simp [State.acceptMsg, hm, h, State.refuse_eq_refused]

theorem State.acceptMsg_post (hm : malformed msg = false) (htype : fieldAt msg 0 1 = 1) (h : s.portCheck src msg = none) :
    s.acceptMsg src msg true = s.queuePost (msgChannel msg) msg := by
  simp [State.acceptMsg, hm, h, htype]

theorem State.acceptMsg_doorbell (hm : malformed msg = false) (htype : fieldAt msg 0 1 = 2) (h : s.portCheck src msg = none) :
    s.acceptMsg src msg true = s.ringDoorbell (msgChannel msg) (fieldAt msg 2 1) := by
  simp [State.acceptMsg, hm, h, htype]

end PortCheck

theorem State.queuePost_eq (s : State) (c : Fin 16) (msg : List Byte) :
    s.queuePost c msg =
      { s with chans := s.chans.set c { s.chans[c] with queue := s.chans[c].queue ++ [{ desc := msg.drop 16, elig := none }] } } := rfl

/-! ### The oldest staged descriptors -/

/-- The staged entries that stand before position `i` of a queue. -/
def stagedBefore (l : List Entry) (i : Nat) : Nat := ((l.take i).filter fun y => y.elig.isNone).length

theorem stagedBefore_zero (l : List Entry) : stagedBefore l 0 = 0 := by simp [stagedBefore]

theorem stagedBefore_cons_of_staged {e : Entry} (h : e.elig = none) (l : List Entry) (i : Nat) :
    stagedBefore (e :: l) (i + 1) = stagedBefore l i + 1 := by
  simp [stagedBefore, h]

theorem stagedBefore_cons_of_eligible {e : Entry} (h : e.elig ≠ none) (l : List Entry) (i : Nat) :
    stagedBefore (e :: l) (i + 1) = stagedBefore l i := by
  simp [stagedBefore, h]

theorem makeEligible_zero (k t : Nat) (l : List Entry) : makeEligible 0 k t l = l := by
  induction l with
  | nil => rfl
  | cons e l ih => simp [makeEligible, ih]

theorem makeEligible_cons_of_eligible {e : Entry} (h : e.elig ≠ none) (n k t : Nat) (l : List Entry) :
    makeEligible n k t (e :: l) = e :: makeEligible n k t l := by
  simp [makeEligible, Option.isSome_iff_ne_none, h]

theorem makeEligible_succ_cons_of_staged {e : Entry} (h : e.elig = none) (n k t : Nat) (l : List Entry) :
    makeEligible (n + 1) k t (e :: l) = { e with elig := some (k, t) } :: makeEligible n (k + 1) t l := by
  simp [makeEligible, h]

theorem length_makeEligible (n k t : Nat) (l : List Entry) : (makeEligible n k t l).length = l.length := by
  induction l generalizing n k with
  | nil => rfl
  | cons e l ih => unfold makeEligible; split <;> simp [ih]

/-- The entry at position `i` after a release: a staged one with fewer than `n` staged before it becomes eligible, its number
counted on from `k` by those; every other entry stays as it is. -/
theorem getElem?_makeEligible (n k t : Nat) (l : List Entry) (i : Nat) (e : Entry) (he : l[i]? = some e) :
    (makeEligible n k t l)[i]? =
      some (if e.elig = none ∧ stagedBefore l i < n then { e with elig := some (k + stagedBefore l i, t) } else e) := by
  induction l generalizing n k i with
  | nil => simp at he
  | cons a l ih =>
    cases n with
    | zero => simp [makeEligible_zero, he]
    | succ n =>
      by_cases ha : a.elig = none
      · rw [makeEligible_succ_cons_of_staged ha]
        cases i with
        | zero =>
          obtain rfl : a = e := by simpa using he
          simp [stagedBefore_zero, ha]
        | succ i =>
          have hnum : k + 1 + stagedBefore l i = k + (stagedBefore l i + 1) := by omega
          rw [List.getElem?_cons_succ, ih n (k + 1) i (by simpa using he), stagedBefore_cons_of_staged ha, hnum]
          simp only [Nat.add_lt_add_iff_right]
      · rw [makeEligible_cons_of_eligible ha]
        cases i with
        | zero =>
          obtain rfl : a = e := by simpa using he
          simp [ha]
        | succ i =>
          rw [List.getElem?_cons_succ, ih (n + 1) k i (by simpa using he), stagedBefore_cons_of_eligible ha]

theorem State.ringDoorbell_zero (s : State) (c : Fin 16) : s.ringDoorbell c 0 = s := rfl

theorem State.ringDoorbell_pos {n : Nat} (hn : n ≠ 0) (s : State) (c : Fin 16) :
    s.ringDoorbell c n =
      { s with
        chans := s.chans.set c { s.chans[c] with
          queue := makeEligible n s.eligNext s.count s.chans[c].queue
          st := if s.chans[c].st = .idle then .wait else s.chans[c].st }
        eligNext := s.eligNext + n } := by
  simp only [State.ringDoorbell, if_neg hn]
  rfl

/-! ### The obligations -/

/-- Settles O6: an open port hands the message to Table 3.2, one case a check. -/
theorem postDecidedInOrder : Obligations.PostDecidedInOrder := by
  intro s src msg hopen hlen htype c x
  have hm : malformed msg = false := malformed_eq_false_of_post hlen htype
  rw [exec_post, State.inbound_of_portOpen hopen]
  by_cases hs : s.lg = .seasoning
  · rw [if_pos hs, State.acceptMsg_of_refused hm (State.portCheck_of_seasoning hs)]
  by_cases hf : s.lg = .fault
  · rw [if_neg hs, if_pos hf, State.acceptMsg_of_refused hm (State.portCheck_of_fault hf)]
  by_cases hc : s.badChannel src msg
  · rw [if_neg hs, if_neg hf, if_pos hc, State.acceptMsg_of_refused hm (State.portCheck_of_badChannel hs hf hc)]
  rw [if_neg hs, if_neg hf, if_neg hc]
  have hcheck := State.portCheck_post htype hs hf hc
  by_cases hfull : 32 ≤ x.occupied
  · rw [if_pos hfull, State.acceptMsg_of_refused hm (hcheck.trans (if_pos hfull))]
  · rw [if_neg hfull, State.acceptMsg_post hm htype (hcheck.trans (if_neg hfull)), State.queuePost_eq]

/-- Settles O7: the checks of Table 3.2 as for a POST; the queue of an accepted DOORBELL is `makeEligible`'s, read entry by entry. -/
theorem doorbellReleasesOldestStaged : Obligations.DoorbellReleasesOldestStaged := by
  intro s src msg hopen hlen htype c x n
  have hm : malformed msg = false := malformed_eq_false_of_doorbell hlen htype
  rw [exec_doorbell, State.inbound_of_portOpen hopen]
  by_cases hs : s.lg = .seasoning
  · rw [if_pos hs, State.acceptMsg_of_refused hm (State.portCheck_of_seasoning hs)]
  by_cases hf : s.lg = .fault
  · rw [if_neg hs, if_pos hf, State.acceptMsg_of_refused hm (State.portCheck_of_fault hf)]
  by_cases hc : s.badChannel src msg
  · rw [if_neg hs, if_neg hf, if_pos hc, State.acceptMsg_of_refused hm (State.portCheck_of_badChannel hs hf hc)]
  rw [if_neg hs, if_neg hf, if_neg hc]
  have hcheck := State.portCheck_doorbell htype hs hf hc
  by_cases hfew : x.staged < n
  · rw [if_pos hfew, State.acceptMsg_of_refused hm (hcheck.trans (if_pos hfew))]
  rw [if_neg hfew, State.acceptMsg_doorbell hm htype (hcheck.trans (if_neg hfew))]
  by_cases hn : fieldAt msg 2 1 = 0
  · rw [if_pos hn, hn, State.ringDoorbell_zero]
  · rw [if_neg hn, State.ringDoorbell_pos hn]
    exact ⟨makeEligible n s.eligNext s.count x.queue, rfl, length_makeEligible _ _ _ _, getElem?_makeEligible _ _ _ _⟩

end Sys2Proof.Machine
end

section
/-! PROOFS. The management port (14_ R357 to R365): ownership, the halves of its 64-bit registers, and LG_STATE between
READY and RUNNING. -/

namespace Sys2Proof.Machine

/-! ### The commands -/

theorem exec_claim (m : Fin 4) (s : State) : exec (.claim m) s = execClaim m s := rfl

theorem exec_release (m : Fin 4) (both : Bool) (s : State) :
    exec (.release m both) s = .next (s.byOwner m fun s => ({ s with own := s.own.change none 4 s.clk.mgmt } : State).answered m 0) := rfl

theorem exec_handover (m n : Fin 4) (s : State) :
    exec (.handover m n) s = .next (s.byOwner m fun s => if n = m then s.answered m 0
      else ({ s with own := { s.own with target := some n, deadline := s.clk.mgmt + 1000000 } } : State).answered m 0) := rfl

theorem exec_ownerBeat (m : Fin 4) (beat : Word) (s : State) :
    exec (.ownerBeat m beat) s =
      .next (s.byOwner m fun s => ({ s with own := { s.own with beatAt := s.clk.mgmt, beat := beat } } : State).answered m 0) := rfl

theorem exec_raiseAtWrite (m : Fin 4) (high : Bool) (v : Word) (s : State) :
    exec (.raiseAtWrite m high v) s = .next (s.byOwner m fun s => s.raiseAtHalf m high v) := rfl

theorem exec_shadowWrite (m : Fin 4) (off : Nat) (v : Word) (s : State) :
    exec (.shadowWrite m off v) s = .next (s.byOwner m fun s => s.shadowTo m off v) := rfl

/-! ### Writes that require the owner (R14) -/

theorem State.byOwner_of_ownedBy {s : State} {m : Fin 4} (h : s.ownedBy m) (f : State → State) : s.byOwner m f = f s := by
  obtain ⟨hrst, howner⟩ := h
  simp [State.byOwner, hrst, howner]

theorem State.byOwner_of_other {s : State} {m : Fin 4} (hrst : s.pins.rstN = true) (h : s.own.owner ≠ some m) (f : State → State) :
    s.byOwner m f = s.answered m 1 := by
  simp only [State.byOwner, hrst, if_neg h, Bool.true_eq_false, if_false]
  rfl

/-! ### Waiting for a MGMT cycle (log 3) -/

theorem Clk.run_mgmt (c : Clk) (on : Bool) (mult n : Nat) : (c.run on mult n).mgmt = (c.edges + n) / 10 := by
  cases on <;> rfl

theorem State.untilMgmt_mgmt (s : State) (n : Nat) : (s.untilMgmt n).clk.mgmt = (s.clk.edges + (10 * n - s.clk.edges)) / 10 :=
  s.clk.run_mgmt _ _ _

theorem State.le_untilMgmt_mgmt (s : State) (n : Nat) : n ≤ (s.untilMgmt n).clk.mgmt := by
  rw [s.untilMgmt_mgmt]
  omega

/-- A cycle that has not passed is met exactly. -/
theorem State.untilMgmt_mgmt_eq {s : State} (hinv : s.Inv) {n : Nat} (h : s.clk.mgmt ≤ n) : (s.untilMgmt n).clk.mgmt = n := by
  have hcycle := hinv.mgmt
  rw [s.untilMgmt_mgmt]
  omega

/-! ### Claims (R349, R359) -/

/-- The claim latch after a claim of M before load end. -/
def latched (l : List (Fin 4)) (m : Fin 4) : List (Fin 4) := if l.contains m then l else l ++ [m]

theorem mem_latched (l : List (Fin 4)) (m k : Fin 4) : k ∈ latched l m ↔ k = m ∨ k ∈ l := by
  unfold latched
  split
  next h =>
    have hm : m ∈ l := by simpa using h
    exact (or_iff_right_of_imp fun e => e ▸ hm).symm
  next => rw [List.mem_append, List.mem_singleton, or_comm]

section Claim
variable {s : State} {m : Fin 4}

theorem exec_claim_of_not_visible (hrst : s.pins.rstN = true) (hv : s.visible = false) :
    exec (.claim m) s = .next (({ s with own := { s.own with latch := latched s.own.latch m } } : State).answered m 0) := by
  have hlatch : exec (.claim m) s = .next (s.latchClaim m) := by simp [exec_claim, execClaim, hrst, hv]
  exact hlatch

theorem exec_claim_of_visible (hrst : s.pins.rstN = true) (hv : s.visible = true) : exec (.claim m) s = .next (s.claimNow m) := by
  simp [exec_claim, execClaim, hrst, hv]

theorem exec_claim_of_free (hrst : s.pins.rstN = true) (hv : s.visible = true) (h : s.own.owner = none ∧ s.own.target = none) :
    exec (.claim m) s = .next (({ s with own := s.own.change (some m) 1 s.clk.mgmt } : State).answered m 0) := by
  simp only [exec_claim_of_visible hrst hv, State.claimNow, if_pos h]
  rfl

theorem exec_claim_of_owner (hrst : s.pins.rstN = true) (hv : s.visible = true) (h : s.own.owner = some m) :
    exec (.claim m) s = .next (s.answered m 0) := by
  have howned : ¬ (s.own.owner = none ∧ s.own.target = none) := by simp [h]
  simp only [exec_claim_of_visible hrst hv, State.claimNow, if_neg howned, if_pos h]
  rfl

theorem exec_claim_of_target (hrst : s.pins.rstN = true) (hv : s.visible = true) (howner : s.own.owner ≠ some m)
    (h : s.own.target = some m) :
    exec (.claim m) s =
      .next (({ s with own := s.own.change (some m) 3 s.clk.mgmt, irqStatus := s.irqStatus ||| 4 } : State).answered m 0) := by
  have hpending : ¬ (s.own.owner = none ∧ s.own.target = none) := by simp [h]
  simp only [exec_claim_of_visible hrst hv, State.claimNow, if_neg hpending, if_neg howner, if_pos h]
  rfl

theorem exec_claim_of_other (hrst : s.pins.rstN = true) (hv : s.visible = true)
    (hfree : ¬ (s.own.owner = none ∧ s.own.target = none)) (howner : s.own.owner ≠ some m) (htarget : s.own.target ≠ some m) :
    exec (.claim m) s = .next (s.answered m 2) := by
  simp only [exec_claim_of_visible hrst hv, State.claimNow, if_neg hfree, if_neg howner, if_neg htarget]
  rfl

end Claim

/-! ### The ends of a handover and of an owner's beats (R360, R361) -/

theorem exec_handoverExpired_of_pending {s : State} (hrst : s.pins.rstN = true) {n : Fin 4} (h : s.own.target = some n) :
    exec .handoverExpired s = .next { s with
      clk := (s.untilMgmt s.own.deadline).clk
      own := { s.own with target := none, reason := 6 }
      irqStatus := s.irqStatus ||| 4 } := by
  have hpending : s.pins.rstN = true ∧ s.own.target ≠ none := ⟨hrst, by simp [h]⟩
  calc exec .handoverExpired s = execHandoverExpired s := rfl
    _ = _ := by simp only [execHandoverExpired, if_pos hpending]; rfl

/-- The MGMT cycle at which the owner's beat timer expires (R361). -/
abbrev State.lapseAt (s : State) : Nat := s.own.beatAt + 100000000

theorem exec_lapse_of_owner {s : State} (hrst : s.pins.rstN = true) {m : Fin 4} (h : s.own.owner = some m) :
    exec .lapse s = .next { s with
      clk := (s.untilMgmt s.lapseAt).clk
      own := s.own.change none 5 (s.untilMgmt s.lapseAt).clk.mgmt
      irqStatus := s.irqStatus ||| 64 ||| 2
      log := s.log.put (logBytes 0x40 0 0 0 0 0 (s.untilMgmt s.lapseAt).count 0 0 0 m.val) } := by
  calc exec .lapse s = execLapse s := rfl
    _ = _ := by simp only [execLapse, h, if_pos hrst]; rfl

/-! ### Reads of 64-bit registers (R357) -/

/-- The offsets of the low words of the 64-bit registers (Tables 14.9 to 14.12). -/
def IsLow64 (off : Nat) : Prop :=
  off = 0x48 ∨ off = 0x70 ∨ off = 0x80 ∨ off = 0x88 ∨ off = 0x90 ∨ off = 0xC8 ∨ off = 0xD0 ∨ 0x100 ≤ off ∧ off < 0x148 ∧ off % 8 = 0

/-- Which offsets hold a low word does not depend on the state. -/
theorem State.reg64_ne_none_iff (s : State) (off : Nat) : s.reg64 off ≠ none ↔ IsLow64 off := by
  unfold State.reg64 IsLow64
  split
  case h_8 =>
    split
    next h =>
      have hindex : (off - 0x100) / 8 < s.ctr.list.length := by
        have hlen : s.ctr.list.length = 9 := rfl
        omega
      simp [List.getElem?_eq_getElem hindex, h]
    next h => simp_all
  all_goals simp

theorem fromConfig_of_isLow64 {off : Nat} (h : IsLow64 off) : fromConfig off = false ∧ fromConfig (off + 4) = false := by
  unfold IsLow64 at h
  simp only [fromConfig, Bool.or_eq_false_iff, Bool.and_eq_false_iff, beq_eq_false_iff_ne, decide_eq_false_iff_not]
  omega

theorem aligned_of_isLow64 {off : Nat} (h : IsLow64 off) : off % 4 = 0 ∧ (off + 4) % 4 = 0 ∧ off + 4 < 0x4000 := by
  unfold IsLow64 at h
  omega

theorem not_isLow64_add_four {off : Nat} (h : IsLow64 off) : ¬ IsLow64 (off + 4) := by
  unfold IsLow64 at *
  omega

theorem State.high64_add_four (s : State) (off : Nat) : s.high64 (off + 4) = s.reg64 off := by simp [State.high64]

section Halves
variable {s : State} {m : Fin 4} {off v : Nat}

theorem exec_lowWordRead_of_aligned (hrst : s.pins.rstN = true) (h : off % 4 = 0) :
    exec (.lowWordRead m off) s = .next (s.mgmtRead m off) := by
  calc exec (.lowWordRead m off) s = execLowWordRead m off s := rfl
    _ = _ := by simp only [execLowWordRead, State.mgmtReadAt, if_pos hrst, if_pos h]

theorem State.mgmtRead_low (h : s.reg64 off = some v) :
    s.mgmtRead m off =
      ({ s with mgHigh := (m, off, BitVec.ofNat 32 (v / 2 ^ 32)) :: s.mgHigh.filter fun x => !(x.1 == m && x.2.1 == off) } : State).answered
        m 0 (BitVec.ofNat 32 v) := by
  have hlow : IsLow64 off := (s.reg64_ne_none_iff off).1 (by simp [h])
  have hwindow : ¬ (0x4000 ≤ off ∧ off < 0x8000) := by have := aligned_of_isLow64 hlow; omega
  simp only [State.mgmtRead, (fromConfig_of_isLow64 hlow).1, Bool.and_false, Bool.false_eq_true, if_false, if_neg hwindow, h]
  rfl

theorem State.mgmtRead_high_of_latched (hlow : IsLow64 off) {x : Fin 4 × Nat × Word}
    (h : s.mgHigh.find? (fun x => x.1 == m && x.2.1 == off) = some x) : s.mgmtRead m (off + 4) = s.answered m 0 x.2.2 := by
  have hwindow : ¬ (0x4000 ≤ off + 4 ∧ off + 4 < 0x8000) := by have := aligned_of_isLow64 hlow; omega
  have hnone : s.reg64 (off + 4) = none :=
    Decidable.of_not_not fun hsome => not_isLow64_add_four hlow ((s.reg64_ne_none_iff _).1 hsome)
  obtain ⟨w, hw⟩ := Option.ne_none_iff_exists'.1 ((s.reg64_ne_none_iff off).2 hlow)
  have hhigh : s.high64 (off + 4) = some w := (s.high64_add_four off).trans hw
  simp only [State.mgmtRead, (fromConfig_of_isLow64 hlow).2, Bool.and_false, Bool.false_eq_true, if_false, if_neg hwindow, hnone, hhigh,
    Nat.add_sub_cancel, h]
  rfl

end Halves

/-! ### Writes of 64-bit registers (R357, R364, R369) -/

section Writes
variable {s : State} {m : Fin 4}

theorem State.raiseAtHalf_of_armed (h : s.raising.armed ≠ none) (high : Bool) (v : Word) : s.raiseAtHalf m high v = s.answered m 3 := by
  simp only [State.raiseAtHalf, if_pos (Option.isSome_iff_ne_none.2 h)]
  rfl

theorem State.shadowTo_of_armed (h : s.raising.armed ≠ none) (off : Nat) (v : Word) : s.shadowTo m off v = s.answered m 3 := by
  simp only [State.shadowTo, if_pos (Option.isSome_iff_ne_none.2 h)]
  rfl

theorem State.find?_holdLow (s : State) (m : Fin 4) (off : Nat) (v : Word) :
    (s.holdLow m off v).mgLow.find? (fun x => x.1 == m && x.2.1 == off) = some (m, off, v) := by
  simp

/-- The halves of a master's write of a 64-bit register meet: the low word that `s` takes is the one a state with the same held words uses. -/
theorem State.bothHalves_of_mgLow_eq {u : State} {off : Nat} {lo : Word} (h : u.mgLow = (s.holdLow m off lo).mgLow) (stands : Nat) (hi : Word) :
    u.bothHalves m off stands hi = hi ++ lo := by
  simp only [State.bothHalves, h, s.find?_holdLow]

section Unarmed
variable (h : s.raising.armed = none) (v : Word)
include h

theorem State.raiseAtHalf_low : s.raiseAtHalf m false v = s.holdLow m 0x48 v := by simp [State.raiseAtHalf, h]

theorem State.raiseAtHalf_high :
    s.raiseAtHalf m true v =
      (({ s with raising := { s.raising with raiseAt := s.bothHalves m 0x48 s.raising.raiseAt.toNat v } } : State).dropLow m 0x48).answered m 0 := by
  simp [State.raiseAtHalf, h, State.respond]

theorem State.shadowTo_policy :
    s.shadowTo m 0xC0 v = ({ s with shadow := { s.shadow with greenOk := v.getLsbD 0 } } : State).answered m 0 := by
  simp [State.shadowTo, h, State.respond]

theorem State.shadowTo_digestN : s.shadowTo m 0xC4 v = ({ s with shadow := { s.shadow with digestN := v } } : State).answered m 0 := by
  simp [State.shadowTo, h, State.respond]

theorem State.shadowTo_poleLow : s.shadowTo m 0xC8 v = s.holdLow m 0xC8 v := by simp [State.shadowTo, h]

theorem State.shadowTo_poleHigh :
    s.shadowTo m 0xCC v = (({ s with shadow := { s.shadow with
      pole := (s.bothHalves m 0xC8 s.shadow.pole.toNat v).setWidth 48 } } : State).dropLow m 0xC8).answered m 0 := by
  simp [State.shadowTo, h, State.respond]

theorem State.shadowTo_offcutLow : s.shadowTo m 0xD0 v = s.holdLow m 0xD0 v := by simp [State.shadowTo, h]

theorem State.shadowTo_offcutHigh :
    s.shadowTo m 0xD4 v = (({ s with shadow := { s.shadow with
      offcut := (s.bothHalves m 0xD0 s.shadow.offcut.toNat v).setWidth 48 } } : State).dropLow m 0xD0).answered m 0 := by
  simp [State.shadowTo, h, State.respond]

end Unarmed

end Writes

/-! ### READY and RUNNING (R365) -/

theorem mem_channels (c : Fin 16) : c ∈ channels := by
  revert c
  decide

theorem State.running_eq_nil_iff (s : State) :
    s.running = [] ↔ (∀ c : Fin 16, s.chans[c].job = none) ∧ ∀ x ∈ s.shares, x.job = none := by
  simp [State.running, mem_channels]

theorem State.lgCode_of_ready {s : State} (h : s.lg = .ready) : s.lgCode = if s.running = [] then 1 else 2 := by
  simp [State.lgCode, h]

theorem State.regWord_state_mod (s : State) : s.regWord 0x10 % 8 = s.lgCode % 8 := by
  have hword : s.regWord 0x10 =
      s.lgCode + 8 * b2n s.draining + 16 * s.nv.phase + 2 ^ 8 * s.frz.frozenFrom + 2 ^ 11 * b2n s.clk.locked := rfl
  omega

/-! ### The obligations -/

/-- Settles O44: one lemma a case of R359; after the lowest master's claim another's meets the last case. -/
theorem claimDecidedByFirstCase : Obligations.ClaimDecidedByFirstCase := by
  intro s m hrst
  refine ⟨fun hv => ?_, fun hv howner htarget n hmn => ?_, fun hv => ?_⟩
  · by_cases hfree : s.own.owner = none ∧ s.own.target = none
    · rw [if_pos hfree]
      exact exec_claim_of_free hrst hv hfree
    by_cases howner : s.own.owner = some m
    · rw [if_neg hfree, if_pos howner]
      exact exec_claim_of_owner hrst hv howner
    by_cases htarget : s.own.target = some m
    · rw [if_neg hfree, if_neg howner, if_pos htarget]
      exact exec_claim_of_target hrst hv howner htarget
    · rw [if_neg hfree, if_neg howner, if_neg htarget]
      exact exec_claim_of_other hrst hv hfree howner htarget
  · have hne : some m ≠ some n := fun h => Fin.ne_of_lt hmn (Option.some.inj h)
    exact ⟨_, exec_claim_of_free hrst hv ⟨howner, htarget⟩, rfl,
      exec_claim_of_other hrst hv (by simp [Own.change]) hne (by simp [Own.change])⟩
  · exact ⟨latched s.own.latch m, exec_claim_of_not_visible hrst hv, mem_latched s.own.latch m⟩

/-- Settles O45: the owner's write opens the window, which the target's claim, the owner's lapse or its own end closes. -/
theorem handoverRunsItsWindow : Obligations.HandoverRunsItsWindow := by
  intro s m n
  refine ⟨fun howned => ?_, fun hrst hv howner htarget => ?_, fun hrst howner htarget => ⟨fun beat => ?_, ?_⟩, fun hrst htarget => ?_⟩
  · rw [exec_handover, State.byOwner_of_ownedBy howned]
    split <;> rfl
  · exact ⟨_, exec_claim_of_target hrst hv howner htarget, rfl, rfl⟩
  · rw [exec_ownerBeat, State.byOwner_of_ownedBy ⟨hrst, howner⟩]
    exact ⟨_, rfl, howner, htarget, rfl, rfl⟩
  · exact ⟨_, exec_lapse_of_owner hrst howner, rfl, rfl⟩
  · exact ⟨_, exec_handoverExpired_of_pending hrst htarget, rfl, rfl, s.le_untilMgmt_mgmt _,
      fun hinv hopen => State.untilMgmt_mgmt_eq hinv hopen, rfl⟩

/-- Settles O46: RELEASE and a beat are writes of the owner's, and the expiry of its timer is the end of a wait for a MGMT cycle. -/
theorem releaseAndLapseEndOwnership : Obligations.ReleaseAndLapseEndOwnership := by
  intro s m both hrst
  refine ⟨fun howner => ?_, fun hother => ?_, fun howner beat => ?_, fun howner => ?_⟩
  · rw [exec_release, State.byOwner_of_ownedBy ⟨hrst, howner⟩]
    rfl
  · rw [exec_release, State.byOwner_of_other hrst hother]
  · rw [exec_ownerBeat, State.byOwner_of_ownedBy ⟨hrst, howner⟩]
  · exact ⟨_, exec_lapse_of_owner hrst howner, s.le_untilMgmt_mgmt _, fun hinv hopen => State.untilMgmt_mgmt_eq hinv hopen,
      rfl, rfl, rfl, rfl⟩

/-- Settles O50: a low word that was latched or held is the first of its master and offset, so the access of the high word finds it. -/
theorem sixtyFourBitRegisters : Obligations.SixtyFourBitRegisters := by
  refine ⟨fun s u m off v hs hu hreg => ?_, fun s m high off v howned => ⟨fun harmed => ?_, fun hidle => ?_⟩,
    fun s u m lo hi hs hu hsIdle huIdle => ?_⟩
  · have hlow : IsLow64 off := (s.reg64_ne_none_iff off).1 (by simp [hreg])
    obtain ⟨hoff, hoff4, -⟩ := aligned_of_isLow64 hlow
    refine ⟨_, (exec_lowWordRead_of_aligned hs hoff).trans (congrArg _ (State.mgmtRead_low hreg)), rfl, fun hlatch => ?_⟩
    rw [List.find?_cons_of_pos (by simp)] at hlatch
    rw [exec_lowWordRead_of_aligned hu hoff4, State.mgmtRead_high_of_latched hlow hlatch]
  · rw [exec_raiseAtWrite, exec_shadowWrite, State.byOwner_of_ownedBy howned, State.byOwner_of_ownedBy howned,
      State.raiseAtHalf_of_armed harmed, State.shadowTo_of_armed harmed]
    exact ⟨rfl, rfl⟩
  · rw [exec_shadowWrite, exec_shadowWrite, State.byOwner_of_ownedBy howned, State.byOwner_of_ownedBy howned,
      State.shadowTo_policy hidle, State.shadowTo_digestN hidle]
    exact ⟨rfl, rfl⟩
  · simp only [exec_raiseAtWrite, exec_shadowWrite, State.byOwner_of_ownedBy hs, State.byOwner_of_ownedBy hu,
      State.raiseAtHalf_low hsIdle, State.shadowTo_poleLow hsIdle, State.shadowTo_offcutLow hsIdle,
      State.raiseAtHalf_high huIdle, State.shadowTo_poleHigh huIdle, State.shadowTo_offcutHigh huIdle]
    refine ⟨⟨_, rfl, rfl, fun hheld => ?_⟩, ⟨_, rfl, rfl, fun hheld => ?_⟩, ⟨_, rfl, rfl, fun hheld => ?_⟩⟩ <;>
      rw [State.bothHalves_of_mgLow_eq hheld] <;> exact ⟨_, rfl⟩

/-- Settles O53: while READY the three low bits of LG_STATE are its code, which the running work decides. -/
theorem runningStateShown : Obligations.RunningStateShown := by
  intro s hready
  have hidle := s.running_eq_nil_iff
  have hbusy : s.running ≠ [] ↔ (∃ c : Fin 16, s.chans[c].job ≠ none) ∨ ∃ x ∈ s.shares, x.job ≠ none := by
    rw [Ne, hidle, Classical.not_and_iff_not_or_not]
    simp only [Classical.not_forall, exists_prop, ne_eq]
  rw [s.regWord_state_mod, State.lgCode_of_ready hready, ← hidle, ← hbusy]
  by_cases hrun : s.running = [] <;> simp [hrun]

end Sys2Proof.Machine
end

section
/-! PROOFS. The step, the queue and the invariant; the plumb counter (12_ R317) and the waits for a count. -/

namespace Sys2Proof.Machine

/-! ### Every command keeps the queue and the invariant -/

/-- The lemmas of Laws/Commands.lean, one a command. -/
theorem exec_keeps (s : State) : (c : Instr) → Kept s (exec c s)
  | .post src msg parityOk => execPost_keeps src msg parityOk s
  | .doorbell src msg parityOk => execDoorbell_keeps src msg parityOk s
  | .malformedMessage src msg => execMalformedMessage_keeps src msg s
  | .validateDescriptor c => execValidateDescriptor_keeps c s
  | .validationBlockReadDone c blk err data => execValidationBlockReadDone_keeps c blk err data s
  | .descriptorStart p => execDescriptorStart_keeps p s
  | .launchConditionMet c => execLaunchConditionMet_keeps c s
  | .descriptorRetire p => execDescriptorRetire_keeps p s
  | .releasePackage c => execReleasePackage_keeps c s
  | .completionRecordWriteAck c err => execCompletionRecordWriteAck_keeps c err s
  | .slotBoundary => execSlotBoundary_keeps s
  | .handoverGapEnd => execHandoverGapEnd_keeps s
  | .memoryReadResponse tag status data parityOk => execMemoryReadResponse_keeps tag status data parityOk s
  | .memoryWriteAck tag status => execMemoryWriteAck_keeps tag status s
  | .memoryResponseTimeout tag => execMemoryResponseTimeout_keeps tag s
  | .tapBeat bay data par => execTapBeat_keeps bay data par s
  | .laneCheck bay lane op seen => execLaneCheck_keeps bay lane op seen s
  | .spareMapInDone bay => execSpareMapInDone_keeps bay s
  | .scrub => execScrub_keeps s
  | .attemptDrained p => execAttemptDrained_keeps p s
  | .reexecutionStart c => execReexecutionStart_keeps c s
  | .gangLostWaitExpiry c => execGangLostWaitExpiry_keeps c s
  | .ringRecordWriteAck r err => execRingRecordWriteAck_keeps r err s
  | .ringSpacePoll r => execRingSpacePoll_keeps r s
  | .offcutEndRecord p => execOffcutEndRecord_keeps p s
  | .heldTileWrite => execHeldTileWrite_keeps s
  | .share env body => execShare_keeps env body s
  | .report env body => execReport_keeps env body s
  | .partialMsg env body => execPartialMsg_keeps env body s
  | .tile env body => execTile_keeps env body s
  | .tileAck env body => execTileAck_keeps env body s
  | .segval env body => execSegval_keeps env body s
  | .scarf env body => execScarf_keeps env body s
  | .scarfPeriodic => execScarfPeriodic_keeps s
  | .scarfTimeout sin => execScarfTimeout_keeps sin s
  | .raise env body => execRaise_keeps env body s
  | .cancel env body => execCancel_keeps env body s
  | .raiseAck env body => execRaiseAck_keeps env body s
  | .raiseDeadline => execRaiseDeadline_keeps s
  | .raiseEdge => execRaiseEdge_keeps s
  | .ringTime env body => execRingTime_keeps env body s
  | .reservedClassMessage env body => execReservedClassMessage_keeps env body s
  | .messageForward env body => execMessageForward_keeps env body s
  | .tieRingBeat cw data par => execTieRingBeat_keeps cw data par s
  | .dataFlit port flit => execDataFlit_keeps port flit s
  | .idleFlit port flit => execIdleFlit_keeps port flit s
  | .replayTimeout port => execReplayTimeout_keeps port s
  | .resendLimitRetrain port => execResendLimitRetrain_keeps port s
  | .timeFlit port flit arrival => execTimeFlit_keeps port flit arrival s
  | .timeFlitSend port departure => execTimeFlitSend_keeps port departure s
  | .syncInEdge ts pulse => execSyncInEdge_keeps ts pulse s
  | .syncOutPulse => execSyncOutPulse_keeps s
  | .hello port flit => execHello_keeps port flit s
  | .trainingFrame port lane marker control status => execTrainingFrame_keeps port lane marker control status s
  | .trainingFrameSend port => execTrainingFrameSend_keeps port s
  | .trainingPhaseDone port => execTrainingPhaseDone_keeps port s
  | .trainingPhaseTimeout port => execTrainingPhaseTimeout_keeps port s
  | .freezeFrame fromPort payload => execFreezeFrame_keeps fromPort payload s
  | .freezeInEdge => execFreezeInEdge_keeps s
  | .freezeComplete => execFreezeComplete_keeps s
  | .claim m => execClaim_keeps m s
  | .release m withClaim => execRelease_keeps m withClaim s
  | .handover m target => execHandover_keeps m target s
  | .handoverExpired => execHandoverExpired_keeps s
  | .ownerBeat m beat => execOwnerBeat_keeps m beat s
  | .lapse => execLapse_keeps s
  | .irqStatusClear m mask => execIrqStatusClear_keeps m mask s
  | .quiesce m => execQuiesce_keeps m s
  | .raiseLocal m => execRaiseLocal_keeps m s
  | .raiseGang m gang => execRaiseGang_keeps m gang s
  | .raiseAtWrite m high value => execRaiseAtWrite_keeps m high value s
  | .shadowWrite m off value => execShadowWrite_keeps m off value s
  | .nextseqWrite m g value => execNextseqWrite_keeps m g value s
  | .channelEnable m c => execChannelEnable_keeps m c s
  | .channelDisable m c => execChannelDisable_keeps m c s
  | .freeze m value => execFreeze_keeps m value s
  | .thaw m value freezeIn => execThaw_keeps m value freezeIn s
  | .retrain m bits => execRetrain_keeps m bits s
  | .logTailWrite m value => execLogTailWrite_keeps m value s
  | .readoutWindowRead m k => execReadoutWindowRead_keeps m k s
  | .registerWrite m off value => execRegisterWrite_keeps m off value s
  | .mgmtBadAddress m write => execMgmtBadAddress_keeps m write s
  | .resetAssert => execResetAssert_keeps s
  | .resetRelease fuses ssc => execResetRelease_keeps fuses ssc s
  | .pllLockDone avs => execPllLockDone_keeps avs s
  | .nvDiscoveryDone dev headers logs => execNvDiscoveryDone_keeps dev headers logs s
  | .imageSlotReadDone bytes => execImageSlotReadDone_keeps bytes s
  | .selfTestDone fails => execSelfTestDone_keeps fails s
  | .loadEnd programmed => execLoadEnd_keeps programmed s
  | .trainingWindowEnd => execTrainingWindowEnd_keeps s
  | .plumbAlignmentEnd => execPlumbAlignmentEnd_keeps s
  | .bootLogErase ok => execBootLogErase_keeps ok s
  | .nvRelease => execNvRelease_keeps s
  | .idcode => execIdcode_keeps s
  | .fuseRead => execFuseRead_keeps s
  | .scanEn => execScanEn_keeps s
  | .mbistRun write => execMbistRun_keeps write s
  | .mbistDone pass firstFail => execMbistDone_keeps pass firstFail s
  | .mbistStatus => execMbistStatus_keeps s
  | .bypass code => execBypass_keeps code s
  | .testReset => execTestReset_keeps s
  | .lowWordRead m off => execLowWordRead_keeps m off s
  | .railsWithinRange core sram => execRailsWithinRange_keeps core sram s

theorem Kern.To.inv {s t : State} (h : Keeps s t) (hs : s.Inv) : t.Inv := (State.inv_kern t).2 (h.2 ((State.inv_kern s).1 hs))

theorem step_nil {s : State} (h : s.pending = []) : step s = .next (s.pass 1) := by simp only [step, h]

theorem step_cons {s : State} {c : Instr} {l : List Instr} (h : s.pending = c :: l) : step s = exec c s.popped := by simp only [step, h]

theorem State.Inv.popped {s : State} (h : s.Inv) : s.popped.Inv := ⟨h.yard, h.logHead, h.logTail, h.mgmt, h.trimLow, h.trimHigh, h.phase, h.seen⟩

/-! ### The plumb counter -/

/-- COUNT with its fraction, in units of 2^-32 count. -/
def Clk.time (c : Clk) : Int := (c.count.toNat : Int) * (2 : Int) ^ 32 + c.frac.toNat

/-- A count of `q` further and a fraction of `r` stand for `q · 2^32 + r` units, modulo the counter's 96 bits. -/
theorem count_mul_add_frac (n : Word64) (q r : Int) (h0 : 0 ≤ r) (h1 : r < (2 : Int) ^ 32) :
    ((n + BitVec.ofInt 64 q).toNat : Int) * (2 : Int) ^ 32 + (BitVec.ofInt 32 r).toNat =
      (n.toNat * (2 : Int) ^ 32 + q * (2 : Int) ^ 32 + r) % (2 : Int) ^ 96 := by
  have hcount : ((n + BitVec.ofInt 64 q).toNat : Int) = (n.toNat + q) % (2 : Int) ^ 64 := by
    rw [BitVec.toNat_add, BitVec.toNat_ofInt]
    omega
  have hfrac : ((BitVec.ofInt 32 r).toNat : Int) = r := by
    rw [BitVec.toNat_ofInt]
    omega
  rw [hcount, hfrac]
  omega

theorem Clk.run_count (c : Clk) (on : Bool) (m n : Nat) :
    (c.run on m n).count = c.count + BitVec.ofInt 64 ((c.frac.toNat + n * ((2 : Int) ^ 32 + c.trim)) / (2 : Int) ^ 32) := by
  cases on <;> rfl

theorem Clk.run_frac (c : Clk) (on : Bool) (m n : Nat) :
    (c.run on m n).frac = BitVec.ofInt 32 ((c.frac.toNat + n * ((2 : Int) ^ 32 + c.trim)) % (2 : Int) ^ 32) := by
  cases on <;> rfl

theorem Clk.run_edges (c : Clk) (on : Bool) (m n : Nat) : (c.run on m n).edges = c.edges + n := by
  cases on <;> rfl

theorem Clk.run_trim (c : Clk) (on : Bool) (m n : Nat) : (c.run on m n).trim = c.trim := by
  cases on <;> rfl

/-- R317: each edge adds 1 + TRIM / 2^32. -/
theorem Clk.run_time (c : Clk) (on : Bool) (m n : Nat) :
    (c.run on m n).time = (c.time + n * ((2 : Int) ^ 32 + c.trim)) % (2 : Int) ^ 96 := by
  rw [Clk.time, c.run_count, c.run_frac, count_mul_add_frac _ _ _ (Int.emod_nonneg _ (by decide)) (Int.emod_lt_of_pos _ (by decide)), Clk.time]
  congr 1
  generalize (n : Int) * ((2 : Int) ^ 32 + c.trim) = k
  omega

/-- Short of the counter's wrap COUNT is the whole part of the time. -/
theorem State.pass_count_eq {s : State} {m : Nat} (h0 : 0 ≤ s.clk.time + m * ((2 : Int) ^ 32 + s.clk.trim))
    (h1 : s.clk.time + m * ((2 : Int) ^ 32 + s.clk.trim) < (2 : Int) ^ 96) :
    ((s.pass m).count : Int) = (s.clk.time + m * ((2 : Int) ^ 32 + s.clk.trim)) / (2 : Int) ^ 32 := by
  have htime : (s.pass m).clk.time = s.clk.time + m * ((2 : Int) ^ 32 + s.clk.trim) :=
    (s.clk.run_time _ _ _).trans (Int.emod_eq_of_lt h0 h1)
  rw [← htime, Clk.time, State.count]
  have := (s.pass m).clk.frac.isLt
  omega

theorem Clk.edgesTo_of_le {k : Clk} {c : Nat} (h : c ≤ k.count.toNat) : k.edgesTo c = 0 := if_pos h

/-- The number of edges to a count that has not passed is the least after which the time is that count's or more. -/
theorem Clk.edgesTo_spec {k : Clk} {c : Nat} (h : k.count.toNat < c) (hstep : 0 < (2 : Int) ^ 32 + k.trim) :
    (c : Int) * (2 : Int) ^ 32 ≤ k.time + k.edgesTo c * ((2 : Int) ^ 32 + k.trim) ∧
      k.time + k.edgesTo c * ((2 : Int) ^ 32 + k.trim) < (c : Int) * (2 : Int) ^ 32 + ((2 : Int) ^ 32 + k.trim) ∧
      ∀ m, m < k.edgesTo c → k.time + m * ((2 : Int) ^ 32 + k.trim) < (c : Int) * (2 : Int) ^ 32 := by
  rw [Clk.edgesTo, if_neg (Nat.not_le.2 h), Clk.time]
  simp only
  generalize (2 : Int) ^ 32 + k.trim = step at hstep
  have hneed : (0 : Int) < ((c - k.count.toNat : Nat) : Int) * (2 : Int) ^ 32 - k.frac.toNat := by
    have := k.frac.isLt
    omega
  have hsum : (c : Int) * (2 : Int) ^ 32 =
      k.count.toNat * (2 : Int) ^ 32 + k.frac.toNat + (((c - k.count.toNat : Nat) : Int) * (2 : Int) ^ 32 - k.frac.toNat) := by
    omega
  rw [hsum]
  generalize (((c - k.count.toNat : Nat) : Int) * (2 : Int) ^ 32 - k.frac.toNat) = need at hneed
  generalize hq : (need + step - 1) / step = q
  have hdiv := Int.mul_ediv_add_emod (need + step - 1) step
  rw [hq] at hdiv
  have hlow := Int.emod_nonneg (need + step - 1) (Int.ne_of_gt hstep)
  have hhigh := Int.emod_lt_of_pos (need + step - 1) hstep
  have hqpos : 0 ≤ q := hq ▸ Int.ediv_nonneg (by omega) (Int.le_of_lt hstep)
  have hcast : ((q.toNat : Nat) : Int) = q := Int.toNat_of_nonneg hqpos
  rw [hcast, Int.mul_comm q step]
  refine ⟨by omega, by omega, fun m hm => ?_⟩
  have hmq : (m : Int) + 1 ≤ q := by omega
  have hmul : ((m : Int) + 1) * step ≤ q * step := Int.mul_le_mul_of_nonneg_right hmq (Int.le_of_lt hstep)
  rw [Int.add_mul, Int.one_mul, Int.mul_comm q step] at hmul
  omega

/-- R99: a wait for a count ends at the first edge at which COUNT has reached it. -/
theorem State.untilCount_first {s : State} (hinv : s.Inv) {n : Nat} (hn : n < 2 ^ 64 - 1) :
    n ≤ (s.untilCount n).count ∧ ∀ m, m < s.clk.edgesTo n → (s.pass m).count < n := by
  have hlow := hinv.trimLow
  have hhigh := hinv.trimHigh
  have hnow : 0 ≤ s.clk.time := by unfold Clk.time; omega
  by_cases hle : n ≤ s.clk.count.toNat
  · rw [Clk.edgesTo_of_le hle, State.untilCount, Clk.edgesTo_of_le hle]
    refine ⟨?_, fun m hm => absurd hm (Nat.not_lt_zero m)⟩
    have hcount := State.pass_count_eq (s := s) (m := 0) (by simpa using hnow) (by
      have := s.clk.count.isLt; have := s.clk.frac.isLt; unfold Clk.time; omega)
    unfold Clk.time at hcount
    omega
  · obtain ⟨hge, hlt, hbefore⟩ := Clk.edgesTo_spec (Nat.lt_of_not_le hle) (show 0 < (2 : Int) ^ 32 + s.clk.trim by omega)
    refine ⟨?_, fun m hm => ?_⟩
    · have hcount := State.pass_count_eq (s := s) (m := s.clk.edgesTo n) (by omega) (by omega)
      rw [State.untilCount]
      omega
    · have hm := hbefore m hm
      have hstep : 0 ≤ (m : Int) * ((2 : Int) ^ 32 + s.clk.trim) := Int.mul_nonneg (by omega) (by omega)
      have hcount := State.pass_count_eq (s := s) (m := m) (by omega) (by omega)
      omega

theorem Clk.run_zero {c : Clk} (hmgmt : c.mgmt = c.edges / 10) (hphase : c.arithPhase < 20) (on : Bool) (m : Nat) : c.run on m 0 = c := by
  have hfrac := c.frac.isLt
  have hquot : ((c.frac.toNat : Int) / 4294967296) = 0 := by omega
  have hrem : ((c.frac.toNat : Int) % 4294967296) = c.frac.toNat := by omega
  cases on <;> simp [Clk.run, hquot, hrem, ← hmgmt, Nat.div_eq_of_lt hphase, Nat.mod_eq_of_lt hphase]

theorem State.untilCount_of_le {s : State} {n : Nat} (hinv : s.Inv) (h : n ≤ s.count) : s.untilCount n = s := by
  rw [State.untilCount, Clk.edgesTo_of_le h, State.pass, Clk.run_zero hinv.mgmt hinv.phase]

/-! ### The obligations -/

/-- Settles O1: both equations of `step`. -/
theorem stepRunsFrontCommand : Obligations.StepRunsFrontCommand := ⟨fun _ _ => rfl, fun _ h => step_nil h⟩

/-- Settles O2: every command keeps the queue. -/
theorem everyCommandAnswersAndKeepsQueue : Obligations.EveryCommandAnswersAndKeepsQueue := by
  intro c s
  obtain ⟨t, ht, hkeeps⟩ := exec_keeps s c
  exact ⟨t, ht, hkeeps.1⟩

/-- Settles O3: a step is an edge of the plumb clock or a command, and both keep the invariant. -/
theorem stepKeepsWellKept : Obligations.StepKeepsWellKept := by
  intro s t hinv hstep
  cases hp : s.pending with
  | nil =>
    obtain rfl : s.pass 1 = t := Host.Outcome.next.inj ((step_nil hp).symm.trans hstep)
    exact (s.pass_keeps 1).inv hinv
  | cons c l =>
    obtain ⟨u, hu, hkeeps⟩ := exec_keeps s.popped c
    obtain rfl : u = t := Host.Outcome.next.inj (hu.symm.trans ((step_cons hp).symm.trans hstep))
    exact hkeeps.inv hinv.popped

/-- Settles O4: the state after reset release is a literal. -/
theorem resetIsWellKeptSeasoning : Obligations.ResetIsWellKeptSeasoning := by
  refine ⟨⟨rfl, by decide, by decide, rfl, by decide, by decide, by decide, by decide⟩, rfl, rfl, rfl, rfl, rfl, rfl, rfl, rfl, rfl, rfl, rfl,
    rfl, fun c => ?_, fun a => rfl⟩
  rw [show State.reset.chans = Vector.replicate 16 {} from rfl, Fin.getElem_fin, Vector.getElem_replicate]
  exact ⟨rfl, rfl⟩

/-- Settles O5: one edge by `Clk.run_time`, a wait by `State.untilCount_first`. -/
theorem plumbCounterAdvances : Obligations.PlumbCounterAdvances := by
  refine ⟨fun s => ⟨_, rfl, ?_, s.clk.run_edges _ _ _, s.clk.run_trim _ _ _, rfl⟩, fun s n hinv hn => State.untilCount_first hinv hn⟩
  have htime := s.clk.run_time s.arithRuns s.params.arithMult 1
  rw [Int.natCast_one, Int.one_mul, ← Int.add_assoc] at htime
  exact htime

end Sys2Proof.Machine
end

section
/-! PROOFS. Small facts of the ports and the sums: messages the foreman refuses, holds off or drops (03_ R69, R74), the bound of a channel's
queue (R70), the launch condition (R99), tags (16_ R399) and tallies (06_ R149). -/

namespace Sys2Proof.Machine

/-! ### Messages refused, held off and dropped (R69, R74, R384) -/

theorem exec_malformedMessage (src : Nat) (msg : List Byte) (s : State) :
    exec (.malformedMessage src msg) s = .next (s.inbound src msg true) := rfl

theorem State.heldOffNow_eq_true_of_not_portOpen {s : State} (h : ¬ s.portOpen) : s.heldOffNow = true := by
  refine Decidable.byContradiction fun hopen => ?_
  simp only [State.heldOffNow, Bool.or_eq_true, Bool.not_eq_true', beq_iff_eq, not_or, Bool.not_eq_false, Bool.not_eq_true] at hopen
  obtain ⟨⟨hrst, hphase⟩, hstop⟩ := hopen
  exact h ⟨⟨hrst, hstop⟩, hphase⟩

theorem State.inbound_of_not_portOpen {s : State} (h : ¬ s.portOpen) (src : Nat) (msg : List Byte) (ok : Bool) :
    s.inbound src msg ok = { s with heldOff := s.heldOff ++ [(src, msg, ok)] } := by
  simp only [State.inbound, State.heldOffNow_eq_true_of_not_portOpen h, if_true]

theorem malformed_eq_true {msg : List Byte} (hpost : ¬ (fieldAt msg 0 1 = 1 ∧ msg.length = 144))
    (hbell : ¬ (fieldAt msg 0 1 = 2 ∧ msg.length = 16)) : malformed msg = true := by
  simp only [malformed, Bool.not_eq_true', Bool.or_eq_false_iff, Bool.and_eq_false_imp, beq_iff_eq, beq_eq_false_iff_ne]
  exact ⟨fun h k => hpost ⟨h, k⟩, fun h k => hbell ⟨h, k⟩⟩

theorem State.acceptMsg_of_malformed {s : State} {msg : List Byte} (h : malformed msg = true) (src : Nat) :
    s.acceptMsg src msg true = s.refused src msg stBadChannel := by
  simp [State.acceptMsg, h, State.refuse_eq_refused]

theorem State.acceptMsg_of_wrongParity (s : State) (src : Nat) (msg : List Byte) :
    s.acceptMsg src msg false = s.logged (logBytes 0x34 0 0 0 0 0 s.count 0 0 0 (11 * 2 ^ 48)) := rfl

/-! ### A queue of 32 entries (R70) -/

theorem Chan.occupied_of_length_eq {x : Chan} {q : List Entry} (h : q.length = x.queue.length) (st : ChSt) :
    ({ x with queue := q, st := st } : Chan).occupied = x.occupied := by
  simp only [Chan.occupied, h]

theorem Chan.occupied_append (x : Chan) (e : Entry) : ({ x with queue := x.queue ++ [e] } : Chan).occupied = x.occupied + 1 := by
  simp only [Chan.occupied, List.length_append, List.length_singleton]
  omega

theorem State.occupied_set_le {s : State} {c : Fin 16} {x : Chan} {n : Nat} (hall : ∀ k : Fin 16, s.chans[k].occupied ≤ n) (hx : x.occupied ≤ n)
    (k : Fin 16) : (s.chans.set c x)[k].occupied ≤ n := by
  rw [Fin.getElem_fin, Vector.getElem_set]
  split
  · exact hx
  · exact hall k

theorem State.occupied_lt_of_portCheck_post {s : State} {src : Nat} {msg : List Byte} (htype : fieldAt msg 0 1 = 1)
    (h : s.portCheck src msg = none) : s.chans[msgChannel msg].occupied < 32 := by
  refine Decidable.byContradiction fun hfull => ?_
  simp only [State.portCheck] at h
  split at h
  · cases h
  · split at h
    · cases h
    · split at h
      · cases h
      · rw [if_pos ⟨htype, Nat.le_of_not_lt hfull⟩] at h
        cases h

theorem State.ringDoorbell_occupied {s : State} (h : ∀ k : Fin 16, s.chans[k].occupied ≤ 32) (c : Fin 16) (n : Nat) (k : Fin 16) :
    (s.ringDoorbell c n).chans[k].occupied ≤ 32 := by
  by_cases hn : n = 0
  · rw [hn, State.ringDoorbell_zero]
    exact h k
  · rw [State.ringDoorbell_pos hn]
    exact State.occupied_set_le h (Nat.le_trans (Nat.le_of_eq (Chan.occupied_of_length_eq (length_makeEligible _ _ _ _) _)) (h c)) k

/-- Only an accepted POST lengthens a queue, and its check found room. -/
theorem State.acceptMsg_occupied {s : State} (h : ∀ k : Fin 16, s.chans[k].occupied ≤ 32) (src : Nat) (msg : List Byte) (ok : Bool)
    (k : Fin 16) : (s.acceptMsg src msg ok).chans[k].occupied ≤ 32 := by
  unfold State.acceptMsg
  split
  · exact h k
  · split
    · exact h k
    · cases hcheck : s.portCheck src msg with
      | some status => exact h k
      | none =>
        by_cases htype : fieldAt msg 0 1 = 1
        · simp only [if_pos htype, State.queuePost_eq]
          exact State.occupied_set_le h (Nat.le_trans (Nat.le_of_eq (Chan.occupied_append _ _)) (State.occupied_lt_of_portCheck_post htype hcheck)) k
        · simp only [if_neg htype]
          exact State.ringDoorbell_occupied h _ _ k

theorem State.inbound_occupied {s : State} (h : ∀ k : Fin 16, s.chans[k].occupied ≤ 32) (src : Nat) (msg : List Byte) (ok : Bool) (k : Fin 16) :
    (s.inbound src msg ok).chans[k].occupied ≤ 32 := by
  unfold State.inbound
  split
  · exact h k
  · exact State.acceptMsg_occupied h src msg ok k

/-! ### The launch condition (R99) -/

theorem exec_launchConditionMet_of_eligible {s : State} {c : Fin 16} {e : Entry} {l : List Entry} (hrst : s.pins.rstN = true)
    (hqueue : s.chans[c].queue = e :: l) (helig : e.elig.isSome = true) (hjob : s.chans[c].job = none) :
    exec (.launchConditionMet c) s = .next (s.untilCount (Desc.parse e.desc).launch) := by
  calc exec (.launchConditionMet c) s = execLaunchConditionMet c s := rfl
    _ = _ := by simp only [execLaunchConditionMet, hqueue, hrst, helig, hjob, Option.isNone_none, and_self, if_true]

/-! ### Tallies (R149) -/

theorem Tally.merge_comm (a b : Tally) : a.merge b = b.merge a := by
  simp only [Tally.merge, Tally.mk.injEq]
  exact ⟨Int.add_comm _ _, Bool.or_comm _ _, Bool.or_comm _ _, Bool.or_comm _ _, Bool.or_comm _ _, Bool.or_comm _ _⟩

theorem Tally.merge_assoc (a b c : Tally) : (a.merge b).merge c = a.merge (b.merge c) := by
  simp only [Tally.merge, Tally.mk.injEq]
  exact ⟨Int.add_assoc _ _ _, Bool.or_assoc _ _ _, Bool.or_assoc _ _ _, Bool.or_assoc _ _ _, Bool.or_assoc _ _ _, Bool.or_assoc _ _ _⟩

/-- Adding one addend is merging the tally of that addend alone. -/
theorem Tally.add_eq_merge (t : Tally) (v : Val) : t.add v = t.merge (Tally.empty.add v) := by
  cases v with
  | nan => simp [Tally.add, Tally.merge, Tally.empty]
  | inf n => cases n <;> simp [Tally.add, Tally.merge, Tally.empty]
  | zero n => simp [Tally.add, Tally.merge, Tally.empty]
  | num q => simp [Tally.add, Tally.merge, Tally.empty]

theorem Tally.add_right_comm (t : Tally) (v w : Val) : (t.add v).add w = (t.add w).add v := by
  rw [Tally.add_eq_merge (t.add v), Tally.add_eq_merge t v, Tally.add_eq_merge (t.add w), Tally.add_eq_merge t w, Tally.merge_assoc,
    Tally.merge_assoc, Tally.merge_comm (Tally.empty.add v)]

theorem Tally.add_merge (a b : Tally) (v : Val) : (a.add v).merge b = (a.merge b).add v := by
  rw [Tally.add_eq_merge a, Tally.add_eq_merge (a.merge b), Tally.merge_assoc, Tally.merge_comm _ b, Tally.merge_assoc]

theorem Tally.foldl_add_merge (a b : Tally) (l : List Val) : (l.foldl Tally.add a).merge b = l.foldl Tally.add (a.merge b) := by
  induction l generalizing a with
  | nil => rfl
  | cons v l ih => rw [List.foldl_cons, List.foldl_cons, ih, Tally.add_merge]

theorem Tally.add_num_of_eq (t : Tally) {z : Int} {q : Rat} (h : q * pow2 320 = z) : (t.add (.num q)).t = t.t + z := by
  simp only [Tally.add, h, Rat.floor_intCast]

/-! ### The obligations -/

/-- Settles O8: the length and TYPE are judged before Table 3.2, the parity before them. -/
theorem portRefusesHoldsAndDrops : Obligations.PortRefusesHoldsAndDrops := by
  refine ⟨fun s src msg hopen hpost hbell => ?_, fun s src msg ok => ⟨fun hclosed => ?_, fun hopen => ?_⟩⟩
  · rw [exec_malformedMessage, exec_post, exec_doorbell, State.inbound_of_portOpen hopen,
      State.acceptMsg_of_malformed (malformed_eq_true hpost hbell)]
    exact ⟨rfl, rfl, rfl⟩
  · rw [exec_malformedMessage, exec_post, exec_doorbell, State.inbound_of_not_portOpen hclosed, State.inbound_of_not_portOpen hclosed]
    exact ⟨rfl, rfl, rfl⟩
  · rw [exec_post, exec_doorbell, State.inbound_of_portOpen hopen, State.acceptMsg_of_wrongParity]
    exact ⟨rfl, rfl⟩

/-- Settles O9: each of the three commands is `State.inbound`. -/
theorem portKeepsQueueBound : Obligations.PortKeepsQueueBound := by
  rintro s t src msg ok i hi hbound hexec c
  rcases hi with rfl | rfl | rfl
  · exact Host.Outcome.next.inj hexec ▸ State.inbound_occupied hbound src msg ok c
  · exact Host.Outcome.next.inj hexec ▸ State.inbound_occupied hbound src msg ok c
  · exact Host.Outcome.next.inj hexec ▸ State.inbound_occupied hbound src msg true c

/-- Settles O13: the command is a wait for LAUNCH_AT. -/
theorem launchConditionWaitsForCount : Obligations.LaunchConditionWaitsForCount := by
  intro s c e l hinv hrst hqueue helig hjob hlaunch n
  obtain ⟨hreached, hfirst⟩ := State.untilCount_first hinv hlaunch
  exact ⟨_, exec_launchConditionMet_of_eligible hrst hqueue helig hjob, rfl, rfl, hreached, hfirst, State.untilCount_of_le hinv⟩

/-- Settles O20: the search runs over the tags in ascending order. -/
theorem tagIsLowestFree : Obligations.TagIsLowestFree := by
  intro m t h
  have hsearch : (List.range 1024).find? (fun u => !(m.out.any (·.tag == u)) && !(m.dead.contains u)) = some t := by
    unfold MemPort.freeTag at h
    split at h
    · cases h
    · exact h
  obtain ⟨hfree, hmem, hbelow⟩ := List.find?_range_eq_some.1 hsearch
  simp only [Bool.and_eq_true, Bool.not_eq_true', List.any_eq_false, beq_iff_eq, List.contains_eq_mem, decide_eq_false_iff_not] at hfree
  refine ⟨List.mem_range.1 hmem, hfree.1, hfree.2, fun u hu => ?_⟩
  have htaken := hbelow u hu
  refine Decidable.byContradiction fun hnone => ?_
  rw [not_or] at hnone
  obtain ⟨hout, hdead⟩ := hnone
  have : m.out.any (·.tag == u) = false := by simpa [List.any_eq_false] using hout
  simp [this, hdead] at htaken

/-- Settles O60: adding is merging, and merging is addition of T and disjunction of the side bits. -/
theorem tallySumIsOrderFree : Obligations.TallySumIsOrderFree :=
  ⟨fun t _ _ h => h.foldl_eq' (fun x _ y _ z => Tally.add_right_comm z x y) t,
    fun a b c => ⟨Tally.merge_comm a b, Tally.merge_assoc a b c⟩, Tally.foldl_add_merge, fun t _ _ h => t.add_num_of_eq h⟩

end Sys2Proof.Machine
end

section
/-! PROOFS. Facts that many commands share: one place of a vector, a configuration store without marks (15_ R421), the messages a state
sends (12_ R310, R340), and a queue whose head leaves with its package (03_ R82, R86). -/

namespace Sys2Proof.Machine

/-! ### Little-endian fields (00_ R10) -/

@[simp] theorem natLE_length (n v : Nat) : (natLE n v).length = n := by
  induction n generalizing v with
  | zero => rfl
  | succ n ih => simp [natLE, ih]

theorem leNat_natLE (n v : Nat) : leNat (natLE n v) = v % 256 ^ n := by
  induction n generalizing v with
  | zero => simp [natLE, leNat, Nat.mod_one]
  | succ n ih =>
    have hbyte : (BitVec.ofNat 8 v).toNat = v % 256 := rfl
    rw [natLE, leNat, ih, hbyte, Nat.pow_succ', Nat.mod_mul]

/-- The first field of a layout. -/
theorem fieldAt_natLE (n v : Nat) (b : List Byte) : fieldAt (natLE n v ++ b) 0 n = v % 256 ^ n := by
  rw [fieldAt, sliceOf, List.drop_zero, List.take_left' (natLE_length n v), leNat_natLE]

/-- A field behind the first of a layout. -/
theorem fieldAt_natLE_append {m off : Nat} (h : m ≤ off) (v : Nat) (b : List Byte) (n : Nat) :
    fieldAt (natLE m v ++ b) off n = fieldAt b (off - m) n := by
  rw [fieldAt, sliceOf, List.drop_append, natLE_length, List.drop_eq_nil_of_le (by simpa using h), List.nil_append]
  rfl

/-! ### One place of a vector -/

theorem getElem_set_fin_self {α : Type} {n : Nat} (v : Vector α n) (c : Fin n) (x : α) : (v.set c x)[c] = x := Vector.getElem_set_self _

theorem getElem_set_fin_ne {α : Type} {n : Nat} (v : Vector α n) {c k : Fin n} (x : α) (h : k ≠ c) : (v.set c x)[k] = v[k] :=
  Vector.getElem_set_ne _ _ fun e => h (Fin.ext e.symm)

theorem set_getElem_fin_self {α : Type} {n : Nat} (v : Vector α n) (c : Fin n) : v.set c v[c] = v := Vector.set_getElem_self _

/-! ### A command that acts on live work -/

theorem State.live.idle_eq_false {s : State} (h : s.live) : (s.stopped || !s.pins.rstN) = false := by
  obtain ⟨hrst, hstop⟩ := h
  simp [hrst, hstop]

theorem State.live.linkRuns_eq_true {s : State} (h : s.live) : s.linkRuns = true := by
  obtain ⟨hrst, hstop⟩ := h
  simp [State.linkRuns, hrst, hstop]

theorem State.live.lg_ne_frozen {s : State} (h : s.live) : s.lg ≠ .frozen := by
  intro hfrozen
  simpa [State.stopped, hfrozen] using h.2

theorem State.live.frz_running_eq_false {s : State} (h : s.live) : s.frz.running = false := by
  obtain ⟨-, hstop⟩ := h
  simp only [State.stopped, Bool.or_eq_false_iff] at hstop
  exact hstop.1

/-! ### The configuration store (R421) -/

theorem Bays.clear_configCE {b : Bays} (h : b.configCE = []) : { b with configCE := [] } = b := by rw [← h]

theorem Bays.clear_queueMarks {b : Bays} (hce : b.queueCE = []) (hue : b.queueUE = []) : { b with queueUE := [], queueCE := [] } = b := by
  cases b
  subst hce hue
  rfl

theorem State.readConfig_of_clean {s : State} (h : s.configClean) : s.readConfig = s := by
  obtain ⟨hce, hue⟩ := h
  have hsame : ({ s with bays := { s.bays with configCE := [] } } : State) = s := by rw [Bays.clear_configCE hce]
  unfold State.readConfig
  rw [hce, List.foldl_nil, hsame]
  dsimp only
  rw [hue]

theorem State.netSend_of_clean {s : State} (h : s.configClean) (e : Envelope) (b : List Byte) : s.netSend e b = s.netPut e b := by
  simp only [State.netSend, State.readConfig_of_clean h, Bool.and_not_self, Bool.false_eq_true, if_false]

/-! ### Sending (R310, R340) -/

/-- `t` is `s` after messages were sent: only what a message touches on its way out differs, and every message sent before stands. -/
def State.Sends (s t : State) : Prop :=
  t = { s with net := t.net, stop := t.stop, kports := t.kports, log := t.log, irqStatus := t.irqStatus } ∧ ∀ k ∈ s.net, k ∈ t.net

theorem State.Sends.refl (s : State) : s.Sends s := ⟨rfl, fun _ h => h⟩

theorem State.Sends.trans {s t u : State} (h : s.Sends t) (k : t.Sends u) : s.Sends u := by
  obtain ⟨ht, hnet⟩ := h
  obtain ⟨hu, hnet'⟩ := k
  refine ⟨?_, fun x hx => hnet' x (hnet x hx)⟩
  rw [hu, ht]

theorem State.Sends.image_eq {s t : State} (h : s.Sends t) : t.image = s.image := by rw [h.1]

theorem State.Sends.sin_eq {s t : State} (h : s.Sends t) : t.sin = s.sin := by simp only [State.sin, h.image_eq]

theorem State.Sends.routeOf_eq {s t : State} (h : s.Sends t) (d : Nat) : t.routeOf d = s.routeOf d := by simp only [State.routeOf, h.image_eq]

theorem State.Sends.configClean {s t : State} (h : s.Sends t) (hs : s.configClean) : t.configClean := by
  rw [h.1]
  exact hs

theorem State.netPut_sends (s : State) (e : Envelope) (b : List Byte) : s.Sends (s.netPut e b) := by
  unfold State.netPut
  cases hr : s.routeOf e.dest with
  | none => exact ⟨rfl, fun _ h => h⟩
  | loc => exact .refl s
  | ring n => exact ⟨rfl, fun _ h => List.mem_append_left _ h⟩
  | port p => exact ⟨rfl, fun _ h => List.mem_append_left _ h⟩

/-- A message with a route beyond this stop leaves. -/
theorem State.mem_netPut {s : State} {e : Envelope} (hnone : s.routeOf e.dest ≠ .none) (hloc : s.routeOf e.dest ≠ .loc) (b : List Byte) :
    ⟨s.routeOf e.dest, e, b⟩ ∈ (s.netPut e b).net := by
  unfold State.netPut
  cases hr : s.routeOf e.dest with
  | none => exact absurd hr hnone
  | loc => exact absurd hr hloc
  | ring n => exact List.mem_append_right _ (List.mem_singleton_self _)
  | port p => exact List.mem_append_right _ (List.mem_singleton_self _)

/-- Messages sent one after another all leave, those with a route beyond this stop. -/
theorem State.foldl_netPut {α : Type} {step : State → α → State} (e : α → Envelope) (b : α → List Byte) (l : List α) (s : State)
    (hstep : ∀ t x, s.Sends t → x ∈ l → step t x = t.netPut (e x) (b x)) :
    s.Sends (l.foldl step s) ∧ ∀ x ∈ l, s.routeOf (e x).dest ≠ .none → s.routeOf (e x).dest ≠ .loc →
      ∃ k ∈ (l.foldl step s).net, k.env = e x ∧ k.body = b x := by
  induction l generalizing s with
  | nil => exact ⟨.refl s, fun _ h => absurd h List.not_mem_nil⟩
  | cons a l ih =>
    have hfirst : step s a = s.netPut (e a) (b a) := hstep s a (.refl s) List.mem_cons_self
    have hsent : s.Sends (step s a) := hfirst ▸ s.netPut_sends _ _
    obtain ⟨hrest, hleft⟩ := ih (step s a) fun t x ht hx => hstep t x (hsent.trans ht) (List.mem_cons_of_mem _ hx)
    refine ⟨hsent.trans hrest, fun x hx hnone hloc => ?_⟩
    rcases List.mem_cons.1 hx with rfl | hx
    · exact ⟨_, hrest.2 _ (hfirst ▸ State.mem_netPut hnone hloc _), rfl, rfl⟩
    · exact hleft x hx (by rwa [hsent.routeOf_eq]) (by rwa [hsent.routeOf_eq])

/-- The same for messages that read the configuration store, which has no marks. -/
theorem State.foldl_netSend {α : Type} {step : State → α → State} (e : α → Envelope) (b : α → List Byte) (l : List α) {s : State}
    (hclean : s.configClean) (hstep : ∀ t x, s.Sends t → x ∈ l → step t x = t.netSend (e x) (b x)) :
    s.Sends (l.foldl step s) ∧ ∀ x ∈ l, s.routeOf (e x).dest ≠ .none → s.routeOf (e x).dest ≠ .loc →
      ∃ k ∈ (l.foldl step s).net, k.env = e x ∧ k.body = b x :=
  s.foldl_netPut e b l fun t x ht hx => (hstep t x ht hx).trans (State.netSend_of_clean (ht.configClean hclean) _ _)

/-- SCARF is put on its way to every other head (R316). -/
theorem State.putScarf_sends (s : State) (ready : Bool) (hlg : s.lg ≠ .frozen) :
    s.Sends (s.putScarf ready) ∧ ∀ h ∈ s.otherHeads, s.routeOf h ≠ .none → s.routeOf h ≠ .loc →
      ∃ k ∈ (s.putScarf ready).net, k.env = s.envTo 7 h (s.scarfBody h ready) ∧ k.body = s.scarfBody h ready := by
  rw [State.putScarf, if_neg hlg]
  refine s.foldl_netPut (fun h => s.envTo 7 h (s.scarfBody h ready)) (fun h => s.scarfBody h ready) s.otherHeads fun t h ht _ => ?_
  rw [ht.1]
  rfl

theorem State.sendScarf_sends {s : State} (hlg : s.lg ≠ .frozen) (hclean : s.configClean) (ready : Bool) : s.Sends (s.sendScarf ready) := by
  unfold State.sendScarf
  split
  · exact .refl s
  · rw [State.readConfig_of_clean hclean]
    simp only [hclean.2, List.isEmpty_nil, Bool.true_or, if_true]
    exact (s.putScarf_sends ready hlg).1

/-! ### A head leaves with its package (R82, R86) -/

/-- A channel whose head has left with package `p` held behind the others. -/
def Chan.popWith (x : Chan) (p : Package) : Chan :=
  Chan.next { x with held := x.held ++ [p], queue := x.queue.tail, val := none, job := none, halted := none }

theorem State.hold_popHead_chans (s : State) (c : Fin 16) (p : Package) :
    ((s.hold c p).popHead c).chans = s.chans.set c (s.chans[c].popWith p) := by
  simp only [State.popHead, State.hold, State.onChan, State.setChan, getElem_set_fin_self, Vector.set_set]
  rfl

/-- Error marks of a queue's words would move up; there are none. -/
theorem State.hold_popHead {s : State} (hce : s.bays.queueCE = []) (hue : s.bays.queueUE = []) (c : Fin 16) (p : Package) :
    (s.hold c p).popHead c = { s with chans := s.chans.set c (s.chans[c].popWith p) } := by
  rw [← s.hold_popHead_chans c p]
  have hmarks : ((s.hold c p).popHead c).bays = s.bays := by
    simp only [State.popHead, State.onChan_bays, State.hold_bays, hce, hue, List.filterMap_nil, Bays.clear_queueMarks hce hue]
  rw [← hmarks]
  rfl

theorem Chan.next_held (x : Chan) : x.next.held = x.held := by
  unfold Chan.next
  split <;> rfl

theorem Chan.next_queue (x : Chan) : x.next.queue = x.queue := by
  unfold Chan.next
  split <;> rfl

theorem Chan.popWith_held (x : Chan) (p : Package) : (x.popWith p).held = x.held ++ [p] := Chan.next_held _

theorem Chan.popWith_queue (x : Chan) (p : Package) : (x.popWith p).queue = x.queue.tail := Chan.next_queue _

end Sys2Proof.Machine
end

section
/-! PROOFS. The owner's writes (14_ R356 to R376; 03_ R85, R90; 12_ R301): what another master's answer, and what each does. -/

namespace Sys2Proof.Machine

/-! ### The commands under the owner's check -/

theorem exec_irqStatusClear (m : Fin 4) (mask : Word) (s : State) : exec (.irqStatusClear m mask) s =
    .next (s.byOwner m fun s => ({ s with irqStatus := s.irqStatus &&& ~~~(mask.setWidth 9) } : State).answered m 0) := rfl

theorem exec_quiesce (m : Fin 4) (s : State) : exec (.quiesce m) s = .next (s.byOwner m fun s => s.quiesceWrite m) := rfl

theorem exec_raiseLocal (m : Fin 4) (s : State) : exec (.raiseLocal m) s = .next (s.byOwner m fun s => s.raiseLocalWrite m) := rfl

theorem exec_raiseGang (m : Fin 4) (g : Nat) (s : State) : exec (.raiseGang m g) s = .next (s.byOwner m fun s => s.raiseGangWrite m g) := rfl

theorem exec_nextseqWrite (m g : Fin 4) (v : Word) (s : State) :
    exec (.nextseqWrite m g v) s = .next (s.byOwner m fun s => s.nextSeqTo m g v) := rfl

theorem exec_channelEnable (m : Fin 4) (c : Fin 16) (s : State) :
    exec (.channelEnable m c) s = .next (s.byOwner m fun s => s.enableWrite m c true) := rfl

theorem exec_channelDisable (m : Fin 4) (c : Fin 16) (s : State) :
    exec (.channelDisable m c) s = .next (s.byOwner m fun s => s.enableWrite m c false) := rfl

theorem exec_freeze (m : Fin 4) (v : Word) (s : State) : exec (.freeze m v) s = .next (s.byOwner m fun s => s.freezeCtl m (v ||| 1)) := rfl

theorem exec_thaw (m : Fin 4) (v : Word) (pin : Bool) (s : State) : exec (.thaw m v pin) s =
    .next (({ s with pins := { s.pins with freezeIn := pin } } : State).byOwner m fun s => s.freezeCtl m (v ||| 2)) := rfl

theorem exec_retrain (m : Fin 4) (bits : Nat) (s : State) :
    exec (.retrain m bits) s = .next (s.byOwner m fun s => (s.retrainPorts bits).answered m 0) := rfl

theorem exec_logTailWrite (m : Fin 4) (v : Word) (s : State) : exec (.logTailWrite m v) s = .next (s.byOwner m fun s => s.tailWrite m v) := rfl

theorem exec_registerWrite_of_aligned {s : State} (hrst : s.pins.rstN = true) (m : Fin 4) {off : Nat} (h : off % 4 = 0) (v : Word) :
    exec (.registerWrite m off v) s = .next (s.mgmtWrite m off v) :=
  calc exec (.registerWrite m off v) s = execRegisterWrite m off v s := rfl
    _ = .next (s.mgmtWrite m off v) := by rw [execRegisterWrite, if_pos hrst, if_pos h]

/-! ### Writes of another master (R14) -/

/-- The registers whose every write is the owner's (Tables 14.8 to 14.14). -/
def ownedOffsets : List Nat :=
  [0x28, 0x2C, 0x30, 0x34, 0x40, 0x44, 0x48, 0x4C, 0x60, 0x6C, 0xC0, 0xC4, 0xC8, 0xCC, 0xD0, 0xD4, 0xE0, 0xE4, 0xE8, 0xEC, 0x1008, 0x2004]

theorem ownedOffsets_aligned : ∀ off ∈ ownedOffsets, off % 4 = 0 := by decide

/-- A register write of the owner's is judged as its command is. -/
theorem State.mgmtWrite_of_other {s : State} {m : Fin 4} (h : ∀ f : State → State, s.byOwner m f = s.answered m 1) (v : Word) :
    ∀ off ∈ ownedOffsets, s.mgmtWrite m off v = s.answered m 1 := by
  simp only [ownedOffsets, List.forall_mem_cons]
  simp [State.mgmtWrite, h]

/-- Settles O47: every owner's command is judged by `byOwner`, and so is every write of a register that is the owner's. -/
theorem nonOwnerWritesHaveNoEffect : Obligations.NonOwnerWritesHaveNoEffect := by
  intro s m hrst howner b n g c off v
  have hrefused : ∀ f : State → State, s.byOwner m f = s.answered m 1 := s.byOwner_of_other hrst howner
  refine ⟨?_, ?_, fun hoff => ?_⟩
  · simp only [List.forall_mem_cons, List.not_mem_nil, false_implies, implies_true, and_true, exec_release, exec_handover, exec_ownerBeat, exec_irqStatusClear,
      exec_quiesce, exec_raiseLocal, exec_raiseGang, exec_raiseAtWrite, exec_shadowWrite, exec_nextseqWrite, exec_channelEnable,
      exec_channelDisable, exec_freeze, exec_retrain, exec_logTailWrite, hrefused]
  · rw [exec_thaw]
    exact congrArg _ (State.byOwner_of_other (s := { s with pins := { s.pins with freezeIn := b } }) hrst howner _)
  · rw [exec_registerWrite_of_aligned hrst m (ownedOffsets_aligned off hoff), State.mgmtWrite_of_other hrefused v off hoff]

/-! ### Quiesce (R366) -/

theorem State.checkQuiesce_of_running {s : State} (h : s.running ≠ []) : s.checkQuiesce = s := by
  simp [State.checkQuiesce, h]

theorem State.checkQuiesce_of_idle {s : State} (hdrain : s.draining = true) (h : s.running = []) :
    s.checkQuiesce = ({ s with draining := false, lg := .laidDown } : State).irq 3 := by
  simp [State.checkQuiesce, hdrain, h]

/-- The state that a quiesce accepted in READY leaves before its check (R366). -/
def State.quiescing (s : State) (m : Fin 4) : State := ({ s with draining := true } : State).answered m 0

theorem State.quiesceWrite_of_ready {s : State} (h : s.lg = .ready) (m : Fin 4) :
    s.quiesceWrite m = if (s.quiescing m).stopped then s.quiescing m else (s.quiescing m).checkQuiesce := by
  unfold State.quiesceWrite
  split
  · rfl
  · next hlaid => exact absurd (h.symm.trans hlaid) (by decide)
  · next hready _ => exact absurd h hready

theorem State.quiesceWrite_of_laidDown {s : State} (h : s.lg = .laidDown) (m : Fin 4) : s.quiesceWrite m = s.answered m 0 := by
  unfold State.quiesceWrite
  split
  · next hready => exact absurd (h.symm.trans hready) (by decide)
  · rfl
  · next _ hlaid => exact absurd h hlaid

theorem State.quiesceWrite_of_other {s : State} (hready : s.lg ≠ .ready) (hlaid : s.lg ≠ .laidDown) (m : Fin 4) :
    s.quiesceWrite m = s.answered m 3 := by
  unfold State.quiesceWrite
  split
  · next h => exact absurd h hready
  · next h => exact absurd h hlaid
  · rfl

/-- Settles O48: an instance at rest is laid down by the check that its last retirement would make (R366). -/
theorem quiesceDrainsOrLaysDown : Obligations.QuiesceDrainsOrLaysDown := by
  intro s m hown
  rw [exec_quiesce, State.byOwner_of_ownedBy hown]
  refine ⟨fun hlg hfrz hidle => ?_, fun hlg hrun => ?_, fun hlg => ?_, fun hready hlaid => ?_⟩
  · have hgo : (s.quiescing m).stopped = false := by simp [State.stopped, State.quiescing, hlg, hfrz]
    rw [State.quiesceWrite_of_ready hlg, if_neg (ne_true_of_eq_false hgo), State.checkQuiesce_of_idle (s := s.quiescing m) rfl hidle]
    rfl
  · rw [State.quiesceWrite_of_ready hlg, State.checkQuiesce_of_running (s := s.quiescing m) hrun, ite_self]
    rfl
  · rw [State.quiesceWrite_of_laidDown hlg]
  · rw [State.quiesceWrite_of_other hready hlaid]

/-! ### Channels (R85) -/

theorem State.abortAll_chans (n : Nat) (s : State) (c : Fin 16) (hn : s.chans[c].queue.length = n) :
    ∃ (x : Chan) (ps : List Package), (State.abortAll n s c).chans = s.chans.set c x ∧ x.queue = [] ∧ x.held = s.chans[c].held ++ ps ∧
      ps.map (·.record.seq) = s.chans[c].queue.map (fun e => (Desc.parse e.desc).seq) ∧ ∀ p ∈ ps, p.record.status = stAborted := by
  induction n generalizing s with
  | zero =>
    have hempty : s.chans[c].queue = [] := List.length_eq_zero_iff.1 hn
    exact ⟨s.chans[c], [], (set_getElem_fin_self _ _).symm, hempty, (List.append_nil _).symm, by rw [hempty]; rfl, by simp⟩
  | succ n ih =>
    obtain ⟨e, l, hq⟩ := List.exists_cons_of_length_eq_add_one hn
    obtain ⟨p, hp, hseq, hst⟩ : ∃ p : Package, s.abortHead c = (s.hold c p).popHead c ∧ p.record.seq = (Desc.parse e.desc).seq ∧
        p.record.status = stAborted := by
      unfold State.abortHead
      rw [hq]
      exact ⟨_, rfl, rfl, rfl⟩
    have hchans : (s.abortHead c).chans = s.chans.set c (s.chans[c].popWith p) := by rw [hp, s.hold_popHead_chans]
    have hchan : (s.abortHead c).chans[c] = s.chans[c].popWith p := by rw [hchans, getElem_set_fin_self]
    obtain ⟨x, ps, hx, hxq, hheld, hseqs, hsts⟩ := ih (s.abortHead c) (by
      rw [hchan, Chan.popWith_queue, List.length_tail, hn, Nat.add_sub_cancel])
    rw [hchan, Chan.popWith_held] at hheld
    rw [hchan, Chan.popWith_queue, hq] at hseqs
    refine ⟨x, p :: ps, ?_, hxq, by rw [hheld]; simp, ?_, List.forall_mem_cons.2 ⟨hst, hsts⟩⟩
    · rw [State.abortAll, hx, hchans, Vector.set_set]
    · rw [hq, List.map_cons, List.map_cons, hseq, hseqs, List.tail_cons]

/-- A channel that is not halted and is disabled: its queue completes ABORTED, in order (R85). -/
theorem State.disable_of_not_halted {s : State} {c : Fin 16} (h : s.chans[c].halted = none) :
    ∃ (x : Chan) (ps : List Package), (s.disable c).chans = s.chans.set c x ∧ x.st = .off ∧ x.queue = [] ∧ x.val = none ∧
      x.held = s.chans[c].held ++ ps ∧ ps.map (·.record.seq) = s.chans[c].queue.map (fun e => (Desc.parse e.desc).seq) ∧
      ∀ p ∈ ps, p.record.status = stAborted := by
  obtain ⟨x, ps, hx, hxq, hheld, hseqs, hsts⟩ := State.abortAll_chans s.chans[c].queue.length (s.discardBlocks c) c rfl
  refine ⟨{ x with st := .off, val := none, halted := none }, ps, ?_, rfl, hxq, rfl, hheld, hseqs, hsts⟩
  simp only [State.disable, h, State.onChan, State.setChan, hx, getElem_set_fin_self, Vector.set_set]
  rfl

/-! ### Ports (R301) -/

/-- A port that the owner retrains starts again at T0 with its restarts cleared; any other stays. -/
theorem State.retrainPorts_kports (s : State) (bits : Nat) (p : Fin 2) :
    if bitOf bits p.val = true ∧ s.kports[p].st ≠ .absent then
      (s.retrainPorts bits).kports[p].st = .training ∧ (s.retrainPorts bits).kports[p].phase = 0 ∧ (s.retrainPorts bits).kports[p].restarts = 0
    else (s.retrainPorts bits).kports[p] = s.kports[p] := by
  have hport : (s.retrainPorts bits).kports[p] = if bitOf bits p.val = true ∧ s.kports[p].st ≠ .absent then
      { s.kports[p].train 0 s.clk.edges with restarts := 0, reason := 0, fromT1 := false } else s.kports[p] := Vector.getElem_mapFinIdx ..
  split
  · next h =>
    rw [hport, if_pos h]
    exact ⟨rfl, rfl, rfl⟩
  · next h => rw [hport, if_neg h]

theorem State.enableWrite_of_barred {s : State} (h : s.mayEnable = false) (m : Fin 4) (c : Fin 16) (on : Bool) :
    s.enableWrite m c on = s.answered m 3 := by
  simp only [State.enableWrite, h, if_true]
  rfl

/-- Settles O51: each write under the owner's check; a disabled channel completes its queue by induction on it. -/
theorem ownerWritesTakeEffect : Obligations.OwnerWritesTakeEffect := by
  intro s m g c v bits hown
  have hby : ∀ f : State → State, s.byOwner m f = f s := State.byOwner_of_ownedBy hown
  simp only [exec_irqStatusClear, exec_nextseqWrite, exec_logTailWrite, exec_retrain, exec_channelEnable, exec_channelDisable, hby]
  refine ⟨trivial, rfl, rfl, ⟨s.retrainPorts bits, rfl, rfl, s.retrainPorts_kports bits⟩, fun hbar => ?_, fun hmay => ?_⟩
  · exact ⟨congrArg _ (State.enableWrite_of_barred hbar m c true), congrArg _ (State.enableWrite_of_barred hbar m c false)⟩
  · simp only [State.enableWrite, hmay, Bool.true_eq_false, Bool.false_eq_true, if_false, if_true]
    refine ⟨fun hoff => ?_, fun hon => ?_, fun hon hhalted => ?_⟩
    · rw [if_pos hoff, if_pos hoff]
      exact ⟨rfl, rfl⟩
    · rw [if_neg hon]
      rfl
    · obtain ⟨x, ps, hx, hst, hxq, hval, hheld, hseqs, hsts⟩ := State.disable_of_not_halted hhalted
      have hchan : (s.disable c).chans[c] = x := by rw [hx, getElem_set_fin_self]
      refine ⟨s.disable c, ps, by rw [if_neg hon]; rfl, by rw [hchan, hst], by rw [hchan, hxq], by rw [hchan, hval], by rw [hchan, hheld],
        hseqs, hsts, fun k hk => ?_⟩
      rw [hx, getElem_set_fin_ne _ _ hk]

end Sys2Proof.Machine
end

section
/-! PROOFS. The raise writes of an owner (14_ R367; 12_ R326), and the registers as they are written and read (14_ R356, R357, R373). -/

namespace Sys2Proof.Machine

/-! ### Raise writes (R367) -/

section RaiseWrites
variable {s : State} {m : Fin 4}

theorem State.raiseLocalWrite_of_not_laidDown (h : s.lg ≠ .laidDown) : s.raiseLocalWrite m = s.answered m 3 := by
  rw [State.raiseLocalWrite, if_pos h]
  rfl

theorem State.raiseLocalWrite_of_armed (hlg : s.lg = .laidDown) (h : s.raising.armed ≠ none) : s.raiseLocalWrite m = s.answered m 2 := by
  rw [State.raiseLocalWrite, if_neg (Classical.not_not.2 hlg), if_pos (Option.isSome_iff_ne_none.2 h)]
  rfl

theorem State.raiseLocalWrite_of_late (hlg : s.lg = .laidDown) (h : s.raising.armed = none) (hdue : s.raising.raiseAt.toNat < s.count + 10000) :
    s.raiseLocalWrite m = s.raiseRefused m .late := by
  rw [State.raiseLocalWrite, if_neg (Classical.not_not.2 hlg), if_neg (by simp [h]), if_pos hdue]

theorem State.raiseLocalWrite_of_due (hlg : s.lg = .laidDown) (h : s.raising.armed = none) (hdue : ¬ s.raising.raiseAt.toNat < s.count + 10000) :
    s.raiseLocalWrite m = ({ s with raising := { (s.arm s.raising.raiseAt.toNat s.sin s.newRaiseId 0).raising with
      made := s.raising.made + 1
      runs := s.raising.runs ++
        [{ id := s.newRaiseId, count := s.raising.raiseAt.toNat, scope := 0, results := [1], stands := true }] } } : State).answered m 0 := by
  rw [State.raiseLocalWrite, if_neg (Classical.not_not.2 hlg), if_neg (by simp [h]), if_neg hdue]
  rfl

theorem State.raiseGangWrite_eq (g : Nat) : s.raiseGangWrite m g =
    if s.stopped = true ∨ (s.lg ≠ .ready ∧ s.lg ≠ .laidDown) then s.answered m 3
    else if s.sin ∉ (s.image.gangs.lookup g).getD [] then s.raiseRefused m .refused
    else if s.raising.armed ≠ none then s.answered m 2
    else if s.raising.raiseAt.toNat < s.count + 10000 then s.raiseRefused m .late
    else (s.raiseStart g).answered m 0 := by
  simp only [State.raiseGangWrite, Bool.or_eq_true, Bool.and_eq_true, bne_iff_ne, List.contains_eq_mem, decide_eq_false_iff_not,
    Option.isSome_iff_ne_none]
  rfl

end RaiseWrites

/-- The instance as a gang raise begins here, before RAISE goes to the others (R326, R367). -/
def State.raiseBegun (s : State) (g : Nat) : State :=
  let own := s.raiseAnswer s.raising.raiseAt.toNat
  let t := if own = 0 then s.arm s.raising.raiseAt.toNat s.sin s.newRaiseId g
    else { s with raising := { s.raising with outcome := .idle, originHere := true, origin := s.sin, id := s.newRaiseId, scope := g } }
  { t with raising := { t.raising with
      made := t.raising.made + 1
      runs := t.raising.runs ++ [{ id := s.newRaiseId, count := s.raising.raiseAt.toNat, scope := g
                                   results := (s.gangMembers g).map fun x => if x = s.sin then own + 1 else 0 }] } }

theorem State.raiseBegun_eq (s : State) (g : Nat) : s.raiseBegun g = { s with raising := (s.raiseBegun g).raising } := by
  unfold State.raiseBegun
  dsimp only
  split <;> rfl

theorem State.raiseBegun_runs (s : State) (g : Nat) : (s.raiseBegun g).raising.runs = s.raising.runs ++
    [{ id := s.newRaiseId, count := s.raising.raiseAt.toNat, scope := g
       results := (s.gangMembers g).map fun x => if x = s.sin then s.raiseAnswer s.raising.raiseAt.toNat + 1 else 0 }] := by
  unfold State.raiseBegun
  dsimp only
  split <;> rfl

/-- The instance's own answer is ARMED exactly where it is laid down past load end (Table 12.13). -/
theorem State.raiseAnswer_eq_zero_iff {s : State} (hfree : s.raising.armed = none) {n : Nat} (hdue : ¬ n < s.count + 10000) :
    s.raiseAnswer n = 0 ↔ s.lg = .laidDown ∧ s.nv.phase = 7 := by
  have hlate : ¬ n < s.count + 1000 := by omega
  by_cases hphase : s.nv.phase = 7 <;> by_cases hlg : s.lg = .laidDown <;> simp [State.raiseAnswer, hphase, hlg, hlate, hfree]

theorem State.raiseBegun_armed {s : State} (hfree : s.raising.armed = none) (hdue : ¬ s.raising.raiseAt.toNat < s.count + 10000) (g : Nat) :
    (s.raiseBegun g).raising.armed = if s.lg = .laidDown ∧ s.nv.phase = 7 then some s.raising.raiseAt.toNat else none := by
  have hiff := State.raiseAnswer_eq_zero_iff hfree hdue
  unfold State.raiseBegun
  dsimp only
  split
  · next h => rw [if_pos (hiff.1 h)]; rfl
  · next h => rw [if_neg (mt hiff.2 h)]; exact hfree

/-- The body of the RAISE of this instance (Table 12.9). -/
def State.raiseOut (s : State) (g : Nat) : List Byte := raiseBody s.raising.raiseAt.toNat s.newRaiseId.toNat g 0

theorem State.raiseStart_eq (s : State) (g : Nat) : s.raiseStart g =
    ((s.gangMembers g).filter (· != s.sin)).foldl (fun t x => t.netSend (t.envTo 8 x (s.raiseOut g)) (s.raiseOut g)) (s.raiseBegun g) := rfl

/-- RAISE leaves to every other member (R326). -/
theorem State.raiseStart_sends {s : State} (hclean : s.configClean) (g : Nat) : (s.raiseBegun g).Sends (s.raiseStart g) ∧
    ∀ x ∈ s.gangMembers g, x ≠ s.sin → s.routeOf x ≠ .none → s.routeOf x ≠ .loc →
      ∃ k ∈ (s.raiseStart g).net, k.env = s.envTo 8 x (s.raiseOut g) ∧ k.body = s.raiseOut g := by
  have himage : (s.raiseBegun g).image = s.image := by rw [s.raiseBegun_eq g]
  have hbegun : (s.raiseBegun g).configClean := by
    rw [s.raiseBegun_eq g]
    exact hclean
  have hsin : ∀ t, (s.raiseBegun g).Sends t → t.sin = s.sin := fun t ht => by simp only [State.sin, ht.image_eq, himage]
  obtain ⟨hall, hleft⟩ := State.foldl_netSend (step := fun t x => t.netSend (t.envTo 8 x (s.raiseOut g)) (s.raiseOut g))
    (fun x => s.envTo 8 x (s.raiseOut g)) (fun _ => s.raiseOut g) ((s.gangMembers g).filter (· != s.sin)) hbegun
    fun t x ht _ => by simp only [State.envTo, hsin t ht]
  rw [s.raiseStart_eq]
  refine ⟨hall, fun x hx hne hnone hloc => hleft x (List.mem_filter.2 ⟨hx, by simpa using hne⟩) ?_ ?_⟩
  · rwa [State.routeOf, himage]
  · rwa [State.routeOf, himage]

theorem raiseBody_fields (n id g op : Nat) (hn : n < 2 ^ 64) (hid : id < 2 ^ 32) :
    fieldAt (raiseBody n id g op) 0 8 = n ∧ fieldAt (raiseBody n id g op) 8 4 = id := by
  unfold raiseBody
  simp only [List.append_assoc]
  rw [fieldAt_natLE, fieldAt_natLE_append (by decide), fieldAt_natLE]
  exact ⟨Nat.mod_eq_of_lt hn, Nat.mod_eq_of_lt hid⟩

/-- Settles O49: the checks one after another; a gang raise that passes sends RAISE to each other member. -/
theorem raiseWritesJudgedInOrder : Obligations.RaiseWritesJudgedInOrder := by
  intro s m g hown
  rw [exec_raiseLocal, exec_raiseGang, State.byOwner_of_ownedBy hown, State.byOwner_of_ownedBy hown]
  refine ⟨?_, ?_⟩
  · by_cases hlg : s.lg ≠ .laidDown
    · rw [if_pos hlg, State.raiseLocalWrite_of_not_laidDown hlg]
    rw [if_neg hlg]
    by_cases harmed : s.raising.armed ≠ none
    · rw [if_pos harmed, State.raiseLocalWrite_of_armed (Classical.not_not.1 hlg) harmed]
    rw [if_neg harmed]
    by_cases hdue : s.raising.raiseAt.toNat < s.count + 10000
    · rw [if_pos hdue, State.raiseLocalWrite_of_late (Classical.not_not.1 hlg) (Classical.not_not.1 harmed) hdue]
      rfl
    · rw [if_neg hdue]
      rw [State.raiseLocalWrite_of_due (Classical.not_not.1 hlg) (Classical.not_not.1 harmed) hdue]
      exact ⟨_, rfl, rfl, rfl, by simp [State.arm], rfl, rfl, rfl⟩
  · rw [State.raiseGangWrite_eq]
    by_cases hlg : s.stopped = true ∨ (s.lg ≠ .ready ∧ s.lg ≠ .laidDown)
    · rw [if_pos hlg, if_pos hlg]
    rw [if_neg hlg, if_neg hlg]
    by_cases hmember : s.sin ∉ (s.image.gangs.lookup g).getD []
    · rw [if_pos hmember, if_pos hmember]
      rfl
    rw [if_neg hmember, if_neg hmember]
    by_cases harmed : s.raising.armed ≠ none
    · rw [if_pos harmed, if_pos harmed]
    rw [if_neg harmed, if_neg harmed]
    by_cases hdue : s.raising.raiseAt.toNat < s.count + 10000
    · rw [if_pos hdue, if_pos hdue]
      rfl
    · rw [if_neg hdue, if_neg hdue]
      intro hclean
      obtain ⟨hsent, hleft⟩ := State.raiseStart_sends hclean g
      have hkept := hsent.1
      rw [s.raiseBegun_eq g] at hkept
      refine ⟨_, rfl, by rw [hkept], ⟨_, (congrArg (·.raising.runs) hkept).trans (s.raiseBegun_runs g), List.length_map _⟩, ?_,
        fun x hx hne hnone hloc => ?_, by rw [hkept], by rw [hkept], by rw [hkept],
        by rw [hkept], by rw [hkept]⟩
      · rw [hkept]
        exact State.raiseBegun_armed (Classical.not_not.1 harmed) hdue g
      · obtain ⟨k, hk, henv, hbody⟩ := hleft x hx hne hnone hloc
        obtain ⟨hat, hid⟩ := raiseBody_fields s.raising.raiseAt.toNat s.newRaiseId.toNat g 0 s.raising.raiseAt.isLt s.newRaiseId.isLt
        rw [← State.raiseOut, ← hbody] at hat hid
        exact ⟨k, hk, by rw [henv]; rfl, by rw [henv]; rfl, hat, hid⟩

/-! ### Registers as they are written (R14, R350, R356) -/

theorem exec_registerWrite_of_unaligned {s : State} (hrst : s.pins.rstN = true) (m : Fin 4) {off : Nat} (h : off % 4 ≠ 0) (v : Word) :
    exec (.registerWrite m off v) s = .next (s.answered m 4) :=
  calc exec (.registerWrite m off v) s = execRegisterWrite m off v s := rfl
    _ = .next (s.answered m 4) := by rw [execRegisterWrite, if_pos hrst, if_neg h]; rfl

theorem exec_lowWordRead_of_unaligned {s : State} (hrst : s.pins.rstN = true) (m : Fin 4) {off : Nat} (h : off % 4 ≠ 0) :
    exec (.lowWordRead m off) s = .next (s.answered m 4) :=
  calc exec (.lowWordRead m off) s = execLowWordRead m off s := rfl
    _ = .next (s.answered m 4) := by rw [execLowWordRead, if_pos hrst, State.mgmtReadAt, if_neg h]; rfl

theorem exec_readoutWindowRead {s : State} (hrst : s.pins.rstN = true) (m : Fin 4) {k : Nat} (hk : k % 4 = 0) (hlt : k < 0x4000) :
    exec (.readoutWindowRead m k) s = .next (s.mgmtRead m (0x4000 + k)) :=
  calc exec (.readoutWindowRead m k) s = execReadoutWindowRead m k s := rfl
    _ = .next (s.mgmtRead m (0x4000 + k)) := by
      rw [execReadoutWindowRead, if_pos hrst, State.mgmtReadAt, Nat.mod_eq_of_lt hlt, if_pos (by omega)]

theorem exec_mgmtBadAddress {s : State} (hrst : s.pins.rstN = true) (m : Fin 4) (w : Bool) :
    exec (.mgmtBadAddress m w) s = .next (s.answered m 4) :=
  calc exec (.mgmtBadAddress m w) s = execMgmtBadAddress m w s := rfl
    _ = .next (s.answered m 4) := by rw [execMgmtBadAddress, if_pos hrst]; rfl

section Writes
variable (s : State) (m : Fin 4) (v : Word)

theorem State.mgmtWrite_handover (h : v.getLsbD 2 = true) : s.mgmtWrite m 0x28 v = s.byOwner m fun s =>
    if Fin.ofNat 4 (v.toNat % 4) = m then s.answered m 0
    else ({ s with own := { s.own with target := some (Fin.ofNat 4 (v.toNat % 4)), deadline := s.clk.mgmt + 1000000 } } : State).answered m 0 := by
  have howned : s.mgmtWrite m 0x28 v = s.byOwner m fun s => s.ownedWrite m 0x28 v := rfl
  rw [howned]
  refine congrArg _ (funext fun u => ?_)
  simp [State.ownedWrite, h, State.respond]

theorem State.mgmtWrite_quiesce :
    s.mgmtWrite m 0x40 v = s.byOwner m fun s => if v.getLsbD 0 then s.quiesceWrite m else s.answered m 0 := rfl

theorem State.mgmtWrite_raise : s.mgmtWrite m 0x44 v = s.byOwner m fun s => if v.getLsbD 0 then
    (if bitsOf v.toNat 4 12 = 0 then s.raiseLocalWrite m else s.raiseGangWrite m (bitsOf v.toNat 4 12)) else s.answered m 0 := rfl

theorem State.mgmtWrite_shadow (k : Fin 6) : s.mgmtWrite m (0xC0 + 4 * k.val) v = s.byOwner m fun s => s.shadowTo m (0xC0 + 4 * k.val) v :=
  match k with | 0 | 1 | 2 | 3 | 4 | 5 => rfl

theorem State.mgmtWrite_nextSeq (g : Fin 4) : s.mgmtWrite m (0xE0 + 4 * g.val) v = s.byOwner m fun s => s.nextSeqTo m g v :=
  match g with | 0 | 1 | 2 | 3 => rfl

theorem State.mgmtWrite_enable (c : Fin 16) : s.mgmtWrite m (0x800 + 64 * c.val) v = s.byOwner m fun s => s.enableWrite m c (v.getLsbD 0) := by
  have hin : 0x800 ≤ 0x800 + 64 * c.val ∧ 0x800 + 64 * c.val < 0xC00 ∧ (0x800 + 64 * c.val) % 64 = 0 := by omega
  have hchannel : Fin.ofNat 16 ((0x800 + 64 * c.val - 0x800) / 64) = c := by
    rw [Nat.add_sub_cancel_left, Nat.mul_div_cancel_left _ (by decide)]
    exact Fin.ext (Nat.mod_eq_of_lt c.isLt)
  unfold State.mgmtWrite
  rw [if_neg (by omega), if_neg (by simp; omega), if_neg (by simp; omega), if_neg (by simp; omega), if_pos hin, hchannel]

/-- A write of an offset where no register stands, or of one that only reads, is answered OK and does nothing (R356). -/
theorem State.mgmtWrite_ignored {off : Nat}
    (h : off < 0x20 ∨ off = 0x24 ∨ 0x50 ≤ off ∧ off < 0x60 ∨ 0x80 ≤ off ∧ off < 0xC0 ∨ 0x100 ≤ off ∧ off < 0x800 ∨ 0x2008 ≤ off) :
    s.mgmtWrite m off v = s.answered m 0 := by
  have hchannel : ¬ (0x800 ≤ off ∧ off < 0xC00 ∧ off % 64 = 0) := by omega
  unfold State.mgmtWrite
  rw [if_neg (by omega), if_neg (by simp; omega), if_neg (by simp; omega), if_neg (by simp; omega), if_neg hchannel, if_neg (by omega),
    if_neg (by omega)]
  rfl

end Writes

/-! ### Registers as they are read (R356, R373, R421) -/

theorem State.mgmtRead_of_word {s : State} {m : Fin 4} {off : Nat} (hoff : off < 0x4000) (hlow : s.reg64 off = none)
    (hhigh : s.high64 off = none) (hclean : s.configClean) : s.mgmtRead m off = s.answered m 0 (BitVec.ofNat 32 (s.regWord off)) := by
  have hwindow : ¬ (0x4000 ≤ off ∧ off < 0x8000) := by omega
  simp only [State.mgmtRead, State.readConfig_of_clean hclean, ite_self, if_neg hwindow, hlow, hhigh, State.respond]

/-- The read-out window is no part of the configuration store (R373, R421). -/
theorem State.mgmtRead_window (s : State) (m : Fin 4) {k : Nat} (hk : k < 0x4000) :
    s.mgmtRead m (0x4000 + k) = (s.readWindow k).1.respond m 0 (s.readWindow k).2 := by
  have hconfig : fromConfig (0x4000 + k) = false := by
    simp only [fromConfig, Bool.or_eq_false_iff, Bool.and_eq_false_iff, beq_eq_false_iff_ne, decide_eq_false_iff_not]
    omega
  have hwindow : 0x4000 ≤ 0x4000 + k ∧ 0x4000 + k < 0x8000 := by omega
  simp only [State.mgmtRead, hconfig, Bool.and_false, Bool.false_eq_true, if_false, if_pos hwindow, Nat.add_sub_cancel_left]

theorem State.readWindow_of_not_frozen {s : State} (h : s.lg ≠ .frozen) (k : Nat) : s.readWindow k = (s, 0) := by
  rw [State.readWindow, if_pos h]

theorem State.captureYard_of_clean {s : State} (hce : s.bays.yardCE = []) (hue : s.bays.yardUE = []) (off : Nat) : s.captureYard off = s := by
  simp [State.captureYard, hce, hue]

theorem State.readWindow_of_frozen {s : State} (h : s.lg = .frozen) (hce : s.bays.yardCE = []) (hue : s.bays.yardUE = []) {k : Nat}
    (hk : k % 4 = 0) (hin : s.frz.page * 16384 + k < 0x1100000) :
    s.readWindow k = (s, BitVec.ofNat 32 (leNat ((List.range 4).map fun i => s.captureAt (s.frz.page * 16384 + k + i)))) := by
  have hword : k / 4 * 4 = k := by omega
  rw [State.readWindow, if_neg (Classical.not_not.2 h)]
  simp only [hword, if_neg (Nat.not_le.2 hin), State.captureYard_of_clean hce hue]

/-! ### IRQ (Table 14.8) -/

theorem State.irqPin_eq_true_iff (s : State) : s.irqPin = true ↔ ∃ n, n < 9 ∧ s.irqStatus.getLsbD n = true ∧ s.irqEnable.getLsbD n = true := by
  have hzero : s.irqPin = true ↔ ∃ n, (s.irqStatus &&& s.irqEnable).getLsbD n = true := by
    rw [State.irqPin, bne_iff_ne]
    constructor
    · intro hne
      refine Classical.byContradiction fun hall => hne (BitVec.eq_of_getLsbD_eq fun n _ => ?_)
      exact (Bool.eq_false_iff.2 fun h => hall ⟨n, h⟩).trans BitVec.getLsbD_zero.symm
    · rintro ⟨n, hn⟩ h
      simp [h] at hn
  rw [hzero]
  refine ⟨fun ⟨n, hn⟩ => ⟨n, BitVec.lt_of_getLsbD hn, by simpa using hn⟩, fun ⟨n, _, hn⟩ => ⟨n, by simpa using hn⟩⟩

/-- A bit that a word has already (log 20: the write of FREEZE or THAW alone). -/
theorem or_twoPow_of_getLsbD {v : Word} {k : Nat} (h : v.getLsbD k = true) : v ||| BitVec.twoPow 32 k = v :=
  BitVec.eq_of_getLsbD_eq fun n _ => by
    rw [BitVec.getLsbD_or, BitVec.getLsbD_twoPow]
    by_cases hn : k = n
    · subst hn
      simp [h]
    · simp [hn]

/-- Settles O52: each register's write is its command's function under the owner's check, each read its word. -/
theorem registersReadAndWritten : Obligations.RegistersReadAndWritten := by
  intro s m off v w hrst
  have hwrite : ∀ o, o % 4 = 0 → exec (.registerWrite m o v) s = .next (s.mgmtWrite m o v) :=
    fun o ho => exec_registerWrite_of_aligned hrst m ho v
  refine ⟨fun h => ⟨exec_registerWrite_of_unaligned hrst m h v, exec_lowWordRead_of_unaligned hrst m h⟩, exec_mgmtBadAddress hrst m w,
    ?claim, fun h => ?handover, ?beat, ?clear, fun h => ?quiesce, fun h => ?raise, fun high => ?raiseAt, fun h => ?thaw, fun h h' => ?freeze,
    fun k => ?shadow, fun g => ?nextSeq, fun c => ?channel, ?retrain, ?tail, fun howner => ?owned, fun h hoff => ?ignored,
    fun h hlt hlow hhigh hclean => ?read, fun hlg k hk hlt => ?closed, fun hlg hce hue k hk hlt hin => ?window, s.irqPin_eq_true_iff⟩
  case claim =>
    have hclaim : exec (.claim m) s = .next (if s.visible then s.claimNow m else s.latchClaim m) := by
      rw [exec_claim, execClaim, if_neg (by simp [hrst])]
      split <;> rfl
    have hthis : s.mgmtWrite m 0x20 v = s.claimWrite m v := rfl
    rw [hwrite _ rfl, hthis, hclaim, State.claimWrite]
    split
    · rfl
    · split <;> rfl
  case handover => rw [hwrite _ rfl, exec_handover, State.mgmtWrite_handover _ _ _ h]
  case beat => rw [hwrite _ rfl]; rfl
  case clear => rw [hwrite _ rfl]; rfl
  case quiesce =>
    simp only [hwrite 0x40 rfl, State.mgmtWrite_quiesce, h, if_true, exec_quiesce]
  case raise =>
    simp only [hwrite 0x44 rfl, State.mgmtWrite_raise, h, if_true, exec_raiseLocal, exec_raiseGang]
    split <;> rfl
  case raiseAt =>
    cases high
    · exact hwrite _ rfl
    · exact hwrite _ rfl
  case thaw =>
    have hsame : v ||| 2 = v := or_twoPow_of_getLsbD h
    rw [hwrite _ rfl, exec_thaw, hsame]
    rfl
  case freeze =>
    have hsame : v ||| 1 = v := or_twoPow_of_getLsbD h
    rw [hwrite _ rfl, exec_freeze, hsame]
    rfl
  case shadow => rw [hwrite _ (by omega), State.mgmtWrite_shadow]; rfl
  case nextSeq => rw [hwrite _ (by omega), State.mgmtWrite_nextSeq]; rfl
  case channel =>
    rw [hwrite _ (by omega), State.mgmtWrite_enable, exec_channelEnable, exec_channelDisable]
    cases v.getLsbD 0 <;> rfl
  case retrain => rw [hwrite _ rfl]; rfl
  case tail => rw [hwrite _ rfl]; rfl
  case owned =>
    have hby : ∀ f : State → State, s.byOwner m f = f s := State.byOwner_of_ownedBy ⟨hrst, howner⟩
    refine ⟨fun h => ?_, fun h => ⟨?_, ?_⟩, fun h h' => ?_, ?_, ?_⟩
    · have hthis : s.mgmtWrite m 0x28 v = s.byOwner m fun s => s.ownedWrite m 0x28 v := rfl
      rw [hwrite _ rfl, hthis, hby]
      simp only [State.ownedWrite, h, Bool.false_eq_true, false_and, if_false]
      rfl
    · simp only [hwrite 0x40 rfl, State.mgmtWrite_quiesce, hby, h, Bool.false_eq_true, if_false]
    · simp only [hwrite 0x44 rfl, State.mgmtWrite_raise, hby, h, Bool.false_eq_true, if_false]
    · have hthis : s.mgmtWrite m 0x60 v = s.byOwner m fun s => s.freezeCtl m v := rfl
      rw [hwrite _ rfl, hthis, hby, State.freezeCtl]
      simp only [h, h', Bool.false_and, Bool.false_eq_true, if_false]
      rfl
    · exact (hwrite _ rfl).trans (congrArg _ (hby fun s => s.ownedWrite m 0x34 v))
    · exact (hwrite _ rfl).trans (congrArg _ (hby fun s => s.ownedWrite m 0x6C v))
  case ignored => rw [hwrite _ h, State.mgmtWrite_ignored _ _ _ hoff]
  case read => rw [exec_lowWordRead_of_aligned hrst h, State.mgmtRead_of_word hlt hlow hhigh hclean]
  case closed => rw [exec_readoutWindowRead hrst m hk hlt, State.mgmtRead_window _ _ hlt, State.readWindow_of_not_frozen hlg]; rfl
  case window => rw [exec_readoutWindowRead hrst m hk hlt, State.mgmtRead_window _ _ hlt, State.readWindow_of_frozen hlg hce hue hk hin]; rfl

end Sys2Proof.Machine
end

section
/-! PROOFS. The test port (16_ R418), and reset and rails (16_ R412, R414; 03_ R74, R403). -/

namespace Sys2Proof.Machine

/-! ### The stores a scan or a memory test destroys (R418) -/

theorem State.destroyStores_byteAt (s : State) {a : Nat} (h : a < 2 ^ 24) :
    s.destroyStores.bays.byteAt a = Config.undefByte s.bays.undefNext a := by
  unfold Bays.byteAt
  dsimp only [State.destroyStores]
  rw [List.find?_cons_of_pos (by simpa using h)]

/-! ### The test port -/

theorem idcodeOf_eq (p : Params) :
    idcodeOf p = BitVec.ofNat 32 ((if p.stepB then 1 else 0) * 2 ^ 28 + 0x4C16 * 2 ^ 12 + p.jtagMfr % 2 ^ 11 * 2 + 1) := by
  unfold idcodeOf
  cases p.stepB <;> rfl

theorem b2n_le_one (b : Bool) : b2n b ≤ 1 := by cases b <;> decide

/-- MBIST_STATUS as a number (Table 16.11). -/
theorem mbistStatus_lt (done pass : Bool) (first : Nat) : b2n done + 2 * b2n pass + 16 * (first % 2 ^ 17) < 2 ^ 32 := by
  have hdone := b2n_le_one done
  have hpass := b2n_le_one pass
  omega

theorem mbistStatus_done (done pass : Bool) (first : Nat) :
    (BitVec.ofNat 32 (b2n done + 2 * b2n pass + 16 * (first % 2 ^ 17))).getLsbD 0 = done := by
  have hodd : (b2n done + 2 * b2n pass + 16 * (first % 2 ^ 17)) % 2 = b2n done := by
    have hdone := b2n_le_one done
    omega
  rw [BitVec.getLsbD_ofNat, Nat.testBit_zero, hodd]
  cases done <;> rfl

theorem mbistStatus_pass (done pass : Bool) (first : Nat) :
    (BitVec.ofNat 32 (b2n done + 2 * b2n pass + 16 * (first % 2 ^ 17))).getLsbD 1 = pass := by
  have hhalf : (b2n done + 2 * b2n pass + 16 * (first % 2 ^ 17)) / 2 % 2 = b2n pass := by
    have hdone := b2n_le_one done
    have hpass := b2n_le_one pass
    omega
  rw [BitVec.getLsbD_ofNat, Nat.testBit_succ, Nat.testBit_zero, hhalf]
  cases pass <;> rfl

theorem mbistStatus_first (done pass : Bool) (first : Nat) :
    (BitVec.ofNat 32 (b2n done + 2 * b2n pass + 16 * (first % 2 ^ 17))).toNat / 16 % 2 ^ 17 = first % 2 ^ 17 := by
  rw [BitVec.toNat_ofNat, Nat.mod_eq_of_lt (mbistStatus_lt done pass first)]
  have hdone := b2n_le_one done
  have hpass := b2n_le_one pass
  omega

/-- Settles O59: each instruction sets the test logic; scan and memory test destroy the stores in reset alone. -/
theorem testPortInstructions : Obligations.TestPortInstructions := by
  intro s
  refine ⟨?idcode, rfl, fun hrst => ?scan, fun hrst => ?scanReset, fun w hw => ?mbist, fun hrst => ?mbistReset, fun pass first => ?done, ?status,
    fun _ => rfl, ⟨_, rfl, rfl, rfl, rfl⟩⟩
  case idcode =>
    rw [← idcodeOf_eq]
    rfl
  case scan =>
    calc exec .scanEn s = execScanEn s := rfl
      _ = _ := by rw [execScanEn, hrst]; rfl
  case scanReset =>
    have hexec : exec .scanEn s = .next (s.testInstr 0x10 0 true).destroyStores :=
      calc exec .scanEn s = execScanEn s := rfl
        _ = _ := by rw [execScanEn, hrst]; rfl
    exact ⟨_, hexec, rfl, ⟨rfl, rfl, fun a ha => (s.testInstr 0x10 0 true).destroyStores_byteAt ha⟩, rfl⟩
  case mbist =>
    have hidle : ¬ (w = true ∧ s.pins.rstN = false) := fun ⟨h, h'⟩ => absurd (hw h) (by simp [h'])
    calc exec (.mbistRun w) s = execMbistRun w s := rfl
      _ = _ := by
        rw [execMbistRun, if_neg hidle]
        cases w <;> rfl
  case mbistReset =>
    have hexec : exec (.mbistRun true) s = .next ({ (s.testInstr 0x11 1 false).destroyStores with
        jtag := { s.jtag with ir := 0x11, dr := 1, scan := false, mbistRunning := true, mbistDone := false, mbistPass := false, mbistFirst := 0 } } : State) :=
      calc exec (.mbistRun true) s = execMbistRun true s := rfl
        _ = _ := by rw [execMbistRun, if_pos ⟨rfl, hrst⟩]; rfl
    exact ⟨_, hexec, rfl, ⟨rfl, rfl, fun a ha => (s.testInstr 0x11 1 false).destroyStores_byteAt ha⟩, rfl⟩
  case done =>
    calc exec (.mbistDone pass first) s = execMbistDone pass first s := rfl
      _ = _ := by
        unfold execMbistDone
        split <;> rfl
  case status =>
    exact ⟨_, rfl, rfl, mbistStatus_done _ _ _, mbistStatus_pass _ _ _, mbistStatus_first _ _ _, rfl⟩

/-! ### Reset and rails -/

/-- Settles O56: reset keeps what survives it and, with SCAN_EN in the instruction register, destroys the stores. -/
theorem resetAndRails : Obligations.ResetAndRails := by
  intro s fuses ssc core sram
  refine ⟨?assert, fun hrst => ?release, fun hrst => ?running, ?rails⟩
  case assert =>
    have hexec : exec .resetAssert s = execResetAssert s := rfl
    rw [hexec, execResetAssert]
    by_cases hscan : s.jtag.ir = 0x10#6
    · simp only [hscan, beq_self_eq_true, if_true]
      exact ⟨_, rfl, rfl, rfl, rfl, rfl, rfl, rfl, rfl, rfl, rfl, rfl⟩
    · have hscan' : (s.jtag.ir == 0x10) = false := beq_eq_false_iff_ne.2 hscan
      simp only [hscan', if_neg hscan, Bool.false_eq_true, if_false]
      exact ⟨_, rfl, rfl, rfl, rfl, rfl, rfl, by rw [beq_eq_false_iff_ne.2 hscan], rfl, rfl, rfl, rfl⟩
  case release =>
    have hexec : exec (.resetRelease fuses ssc) s = execResetRelease fuses ssc s := rfl
    rw [hexec, execResetRelease, if_neg (by simp [hrst])]
    exact ⟨_, rfl, rfl, rfl, rfl, rfl, fun p => by simp, rfl, rfl⟩
  case running =>
    calc exec (.resetRelease fuses ssc) s = execResetRelease fuses ssc s := rfl
      _ = .next s := by rw [execResetRelease, if_pos hrst]
  case rails =>
    have hexec : exec (.railsWithinRange core sram) s =
      .next { s with pins := { s.pins with railCore := core, railSram := sram, avs := avsOf core sram s.pins.avs } } := rfl
    have havs : avsOf core sram s.pins.avs =
        if core = false then none else if sram = true ∧ s.pins.avs = none then some 30 else s.pins.avs := by
      simp only [avsOf, Bool.and_eq_true, Option.isNone_iff_eq_none]
    rw [hexec, havs]

end Sys2Proof.Machine
end

section
/-! PROOFS. The power-up sequence (13_ R341 to R353): phases P0 to P3, what an instance fault leaves alone, and load end to READY. -/

namespace Sys2Proof.Machine

theorem State.inPhase_iff {s : State} {n : Nat} :
    s.inPhase n = true ↔ s.pins.rstN = true ∧ s.lg = .seasoning ∧ s.stopped = false ∧ s.nv.phase = n := by
  simp only [State.inPhase, Bool.and_eq_true, Bool.not_eq_true', beq_iff_eq, and_assoc]

theorem State.takeHeldOff_of_nil {s : State} (h : s.heldOff = []) : s.takeHeldOff = s := by
  have hsame : ({ s with heldOff := [] } : State) = s := by rw [← h]
  unfold State.takeHeldOff
  rw [h, hsame]
  exact ite_self _

/-! ### What an instance fault leaves alone (R396) -/

/-- `t` is `s` but for the work that halts, what is logged and what is sent. -/
def State.Halts (s t : State) : Prop :=
  t = { s with
    chans := t.chans, shares := t.shares, port := t.port, offcut := t.offcut, offcutUse := t.offcutUse, log := t.log, irqStatus := t.irqStatus
    ctr := t.ctr, net := t.net, stop := t.stop, kports := t.kports, bays := { s.bays with configCE := t.bays.configCE } }

theorem State.Halts.refl (s : State) : s.Halts s := rfl

theorem State.Halts.trans {s t u : State} (h : s.Halts t) (k : t.Halts u) : s.Halts u := by
  unfold State.Halts at *
  rw [k, h]

theorem State.Sends.halts {s t : State} (h : s.Sends t) : s.Halts t := by
  unfold State.Halts
  rw [h.1]

theorem State.Halts.foldl {α : Type} {step : State → α → State} (hstep : ∀ (s : State) (x : α), s.Halts (step s x)) (l : List α) (s : State) :
    s.Halts (l.foldl step s) := by
  induction l generalizing s with
  | nil => exact .refl s
  | cons a l ih => exact (hstep s a).trans (ih _)

theorem State.setJob_halts (s : State) (p : Part) (j : Option Job) : s.Halts (s.setJob p j) := by
  cases p <;> rfl

theorem State.dropOffcut_halts (s : State) (p : Part) : s.Halts (s.dropOffcut p) := by
  unfold State.dropOffcut
  split
  · dsimp only
    split <;> rfl
  · rfl

theorem State.dropWaiting_halts (s : State) (p : Part) : s.Halts (s.dropWaiting p) := (s.dropOffcut_halts p).trans rfl

theorem State.haltForFault_halts (s : State) (p : Part) : s.Halts (s.haltForFault p) := by
  unfold State.haltForFault
  split
  · rfl
  · next j _ =>
    split
    · rfl
    · have hdrop : s.Halts ((s.setJob p (some j.drain)).dropWaiting p) := (s.setJob_halts p _).trans (State.dropWaiting_halts _ p)
      cases p with
      | chan c => exact hdrop.trans rfl
      | share n => exact hdrop.trans (State.setJob_halts _ _ _)

theorem State.corrected_halts (s : State) (unit off : Nat) : s.Halts (s.corrected unit off) := by
  unfold State.corrected
  dsimp only
  split <;> rfl

theorem State.scanConfig_halts (s : State) : s.Halts s.scanConfig := by
  have hclear : s.Halts { s with bays := { s.bays with configCE := [] } } := rfl
  have hread := hclear.trans (State.Halts.foldl (step := fun s _ => s.corrected 5 0) (fun s _ => s.corrected_halts 5 0) s.bays.configCE _)
  unfold State.scanConfig
  dsimp only
  split
  · exact hread
  · exact hread.trans rfl

section
variable {s t : State} (h : s.Halts t)
include h

theorem State.Halts.lg_eq : t.lg = s.lg := by rw [h]

theorem State.Halts.nv_eq : t.nv = s.nv := by rw [h]

theorem State.Halts.image_eq : t.image = s.image := by rw [h]

theorem State.Halts.visible_eq : t.visible = s.visible := by rw [h]

theorem State.Halts.enabled_eq : t.bays.enabled = s.bays.enabled := by rw [h]

theorem State.Halts.yard_eq : t.bays.yard = s.bays.yard := by rw [h]

theorem State.Halts.nvOut_eq : t.nvOut = s.nvOut := by rw [h]

end

/-- The instance as it enters FAULT, its work not yet halted (R396). -/
def State.faulted (s : State) (entry : List Byte) : State := (({ s with lg := .fault, draining := false } : State).irq 0).logRaw entry

theorem State.enterFault_eq (s : State) (entry : List Byte) : s.enterFault entry =
    let t := ((s.faulted entry).running.map (·.1)).foldl State.haltForFault (s.faulted entry)
    if t.otherHeads.isEmpty then t else t.scanConfig.putScarf false := rfl

/-- An instance that enters FAULT keeps everything but its work, its log and its messages. -/
theorem State.enterFault_halts (s : State) (entry : List Byte) : (s.faulted entry).Halts (s.enterFault entry) := by
  have hwork := State.Halts.foldl State.haltForFault_halts ((s.faulted entry).running.map (·.1)) (s.faulted entry)
  rw [State.enterFault_eq]
  dsimp only
  split
  · exact hwork
  · have hscan := hwork.trans (State.scanConfig_halts _)
    exact hscan.trans (State.putScarf_sends _ false (by rw [hscan.lg_eq]; exact fun h => nomatch h)).1.halts

/-- An instance fault met in SEASONING, not turned into a freeze, is FAULT at once (R370, R396). -/
theorem State.instanceFault_of_seasoning {s : State} (hlg : s.lg = .seasoning) (hgo : s.stopped = false) (hfault : s.frz.onFault = false)
    (entry : List Byte) : s.instanceFault entry = s.enterFault entry := by
  rw [State.instanceFault, if_neg (by simp [hlg]), if_neg (by simp [hgo]), if_neg (by simp [hfault])]

/-- The instance in FAULT: what `Halts` says of it (R396). -/
theorem State.enterFault_facts (s : State) (entry : List Byte) :
    (s.enterFault entry).lg = .fault ∧ (s.enterFault entry).nv = s.nv ∧ (s.enterFault entry).image = s.image := by
  have h := s.enterFault_halts entry
  exact ⟨h.lg_eq, h.nv_eq, h.image_eq⟩

/-! ### The self-test (R346) -/

/-- What the failures of a bay disable it for: two lanes or one with the spare, a tally, a yard, a tap (R346). -/
def deadCauses (l : List (Fin 16 × SelfFail)) (b : Nat) : List Nat :=
  (if 2 ≤ (failedLanes l b).length ∨ (failedLanes l b ≠ [] ∧ failedWith l b (.lane 64)) then [0] else []) ++
    (if failedWith l b .tally then [1] else []) ++ (if failedWith l b .yard then [2] else []) ++ (if failedWith l b .tap then [3] else [])

/-- `t` is `s` with entries made. -/
def State.Logs (s t : State) : Prop := t = { s with log := t.log, irqStatus := t.irqStatus }

theorem State.Logs.trans {s t u : State} (h : s.Logs t) (k : t.Logs u) : s.Logs u := by
  unfold State.Logs at *
  rw [k, h]

theorem State.Logs.foldl {α : Type} {step : State → α → State} (hstep : ∀ (s : State) (x : α), s.Logs (step s x)) (l : List α) (s : State) :
    s.Logs (l.foldl step s) := by
  induction l generalizing s with
  | nil => rfl
  | cons a l ih => exact (hstep s a).trans (ih _)

theorem State.logBay_logs (s : State) (code disp bay lane detail : Nat) : s.Logs (s.logBay code disp bay lane detail) := rfl

/-- The entries of a bay's failures (R346). -/
def State.logFailures (l : List (Fin 16 × SelfFail)) (s : State) (b : Nat) : State :=
  let s := (failedLanes l b).foldl (fun (s : State) n => s.logBay 0x10 0 b n 0) s
  let s := if failedWith l b (.lane 64) then s.logBay 0x11 0 b 64 0 else s
  (deadCauses l b).foldl (fun (s : State) d => s.logBay 0x12 0 b 0 d) s

theorem State.logFailures_logs (l : List (Fin 16 × SelfFail)) (s : State) (b : Nat) : s.Logs (s.logFailures l b) := by
  have hlanes := State.Logs.foldl (step := fun s n => s.logBay 0x10 0 b n 0) (fun s n => s.logBay_logs 0x10 0 b n 0) (failedLanes l b) s
  unfold State.logFailures
  dsimp only
  split
  · exact (hlanes.trans (State.logBay_logs _ 0x11 0 b 64 0)).trans (State.Logs.foldl (fun s d => s.logBay_logs 0x12 0 b 0 d) _ _)
  · exact hlanes.trans (State.Logs.foldl (fun s d => s.logBay_logs 0x12 0 b 0 d) _ _)

/-- `t` is `s` after a self-test of some bays. -/
def State.SelfTests (s t : State) : Prop :=
  t = { s with log := t.log, irqStatus := t.irqStatus
               bays := { s.bays with ok := t.bays.ok, spared := t.bays.spared, spareBad := t.bays.spareBad } }

theorem State.SelfTests.trans {s t u : State} (h : s.SelfTests t) (k : t.SelfTests u) : s.SelfTests u := by
  unfold State.SelfTests at *
  rw [k, h]

theorem State.selfTestBay_tests (l : List (Fin 16 × SelfFail)) (s : State) (b : Nat) : s.SelfTests (s.selfTestBay l b) := by
  have hlogs : s.SelfTests (s.logFailures l b) := by
    unfold State.SelfTests
    rw [s.logFailures_logs l b]
  exact hlogs.trans rfl

theorem State.selfTestBay_ok (l : List (Fin 16 × SelfFail)) (s : State) (b : Nat) :
    (s.selfTestBay l b).bays.ok = if (deadCauses l b).isEmpty then s.bays.ok else s.bays.ok.filter (· != b) := by
  have hbays : (s.logFailures l b).bays = s.bays := by rw [s.logFailures_logs l b]
  calc (s.selfTestBay l b).bays.ok
      = if (deadCauses l b).isEmpty then (s.logFailures l b).bays.ok else (s.logFailures l b).bays.ok.filter (· != b) := rfl
    _ = _ := by rw [hbays]

/-- After the bays of a list are tested, those of them that are disabled are left out. -/
theorem State.foldl_selfTestBay (l : List (Fin 16 × SelfFail)) (bs : List Nat) (s : State) : s.SelfTests (bs.foldl (State.selfTestBay l) s) ∧
    ∀ b, b ∈ (bs.foldl (State.selfTestBay l) s).bays.ok ↔ b ∈ s.bays.ok ∧ (b ∈ bs → deadCauses l b = []) := by
  induction bs generalizing s with
  | nil => exact ⟨rfl, fun b => by simp⟩
  | cons a bs ih =>
    obtain ⟨hframe, hok⟩ := ih (s.selfTestBay l a)
    refine ⟨(s.selfTestBay_tests l a).trans hframe, fun b => (hok b).trans ?_⟩
    rw [s.selfTestBay_ok l a]
    by_cases hba : b = a
    · subst hba
      by_cases hdead : deadCauses l b = [] <;> simp [hdead]
    · by_cases hdead : deadCauses l a = [] <;> simp [hdead, hba]

theorem deadCauses_of_no_failure {l : List (Fin 16 × SelfFail)} {b : Nat} (h : ∀ x ∈ l, x.1.val ≠ b) : deadCauses l b = [] := by
  have hwith : ∀ f, failedWith l b f = false := fun f => by
    simp only [failedWith, List.any_eq_false, Bool.and_eq_true, beq_iff_eq, not_and]
    exact fun x hx hxb => absurd hxb (h x hx)
  have hlanes : failedLanes l b = [] := by
    simp only [failedLanes, List.filterMap_eq_nil_iff]
    intro x hx
    split
    · exact if_neg fun hxb => h x hx hxb.1
    · rfl
  simp [deadCauses, hwith, hlanes]

theorem deadCauses_ne_nil {l : List (Fin 16 × SelfFail)} {x : Fin 16 × SelfFail} (hx : x ∈ l)
    (hkind : x.2 = .tally ∨ x.2 = .yard ∨ x.2 = .tap) : deadCauses l x.1.val ≠ [] := by
  have hwith : failedWith l x.1.val x.2 = true := List.any_eq_true.2 ⟨x, hx, by simp⟩
  rcases hkind with h | h | h <;> rw [h] at hwith <;> simp [deadCauses, hwith]

theorem State.selfTestBay_of_no_failure (s : State) (b : Nat) : s.selfTestBay [] b = s := rfl

/-! ### P0 to P3 -/

theorem State.logSlot_logs (s : State) (f : ImageFault) (slot : Nat) :
    s.logSlot f slot = { s with log := (s.logSlot f slot).log, irqStatus := s.irqStatus ||| 64 } := by
  cases f <;> rfl

/-- Settles O57: each phase's command where the sequence stands in it. -/
theorem powerUpReachesLoad : Obligations.PowerUpReachesLoad := by
  intro s
  refine ⟨fun avs hphase hheld => ?pll, fun dev hs logs hphase => ⟨fun hdev hfault => ?noDevice, fun hdev => ?discovered⟩,
    fun bytes slot hphase hslot => ⟨fun hok => ?passes, fun f n l hbad horder => ?other, fun f hbad horder hfault => ?noSlot⟩,
    fun fails hphase => ?selfTest⟩
  case pll =>
    calc exec (.pllLockDone avs) s = execPllLockDone avs s := rfl
      _ = _ := by
        rw [execPllLockDone, if_pos hphase, State.takeHeldOff_of_nil (by exact hheld)]
        rfl
  case noDevice =>
    obtain ⟨-, hlg, hgo, -⟩ := State.inPhase_iff.1 hphase
    have hexec : ∃ entry, exec (.nvDiscoveryDone dev hs logs) s = .next (s.enterFault entry) := by
      have hfaults : ∀ entry, (.next (s.instanceFault entry) : Host.Outcome State Fault Refusal) = .next (s.enterFault entry) := fun entry =>
        congrArg _ (State.instanceFault_of_seasoning hlg hgo hfault entry)
      cases dev with
      | ok => exact absurd rfl hdev
      | noSfdp => exact ⟨_, Eq.trans (if_pos hphase) (hfaults _)⟩
      | noQuad => exact ⟨_, Eq.trans (if_pos hphase) (hfaults _)⟩
      | tooSmall => exact ⟨_, Eq.trans (if_pos hphase) (hfaults _)⟩
    obtain ⟨entry, hexec⟩ := hexec
    obtain ⟨hlg', hnv, -⟩ := s.enterFault_facts entry
    exact ⟨_, hexec, hlg', hnv⟩
  case discovered =>
    subst hdev
    have hexec : exec (.nvDiscoveryDone .ok hs logs) s = .next (s.discover hs logs) :=
      calc exec (.nvDiscoveryDone .ok hs logs) s = execNvDiscoveryDone .ok hs logs s := rfl
        _ = _ := if_pos hphase
    exact ⟨_, hexec, rfl, rfl, rfl, rfl⟩
  case passes =>
    calc exec (.imageSlotReadDone bytes) s = execImageSlotReadDone bytes s := rfl
      _ = _ := by
        rw [execImageSlotReadDone, hslot]
        simp only [hphase, if_true, hok]
        rfl
  case other =>
    refine ⟨{ s.logSlot f slot with nv := { s.nv with current := some n, order := l } }, ?_, rfl, ?_, ?_⟩
    · calc exec (.imageSlotReadDone bytes) s = execImageSlotReadDone bytes s := rfl
        _ = _ := by
          rw [execImageSlotReadDone, hslot]
          simp only [hphase, if_true, hbad]
          rw [s.logSlot_logs f slot]
          simp only [horder]
    · rw [s.logSlot_logs f slot]
      exact (State.inPhase_iff.1 hphase).2.1
    · rw [s.logSlot_logs f slot]
  case noSlot =>
    obtain ⟨-, hlg, hgo, hnv⟩ := State.inPhase_iff.1 hphase
    have hexec : exec (.imageSlotReadDone bytes) s = .next (({ s.logSlot f slot with nv := { s.nv with current := none } } : State).instanceFault
        ((s.logSlot f slot).faultEntry 0x27 slot)) :=
      calc exec (.imageSlotReadDone bytes) s = execImageSlotReadDone bytes s := rfl
        _ = _ := by
          rw [execImageSlotReadDone, hslot]
          simp only [hphase, if_true, hbad]
          rw [s.logSlot_logs f slot]
          simp only [horder]
    have hslotEq := s.logSlot_logs f slot
    rw [State.instanceFault_of_seasoning (by rw [hslotEq]; exact hlg) (by rw [hslotEq]; exact hgo) (by rw [hslotEq]; exact hfault)] at hexec
    obtain ⟨hlg', hnv', himage⟩ := State.enterFault_facts ({ s.logSlot f slot with nv := { s.nv with current := none } } : State)
      ((s.logSlot f slot).faultEntry 0x27 slot)
    exact ⟨_, hexec, hlg', by rw [hnv']; exact hnv, by rw [himage, hslotEq]⟩
  case selfTest =>
    obtain ⟨hframe, hok⟩ := State.foldl_selfTestBay fails s.bays.ok s
    have hexec : exec (.selfTestDone fails) s = .next ((s.bays.ok.foldl (State.selfTestBay fails) s).toPhase 4) :=
      calc exec (.selfTestDone fails) s = execSelfTestDone fails s := rfl
        _ = _ := if_pos hphase
    refine ⟨_, hexec, rfl, ?_, fun hnone => ?_, fun b hb => ?_, fun x hx hkind hin => ?_⟩
    · exact Eq.trans (by rw [hframe]; rfl) (State.inPhase_iff.1 hphase).2.1
    · have hnothing : ∀ bs : List Nat, bs.foldl (State.selfTestBay []) s = s := fun bs => by
        induction bs with
        | nil => rfl
        | cons b bs ih => rw [List.foldl_cons, s.selfTestBay_of_no_failure, ih]
      rw [hnone, hnothing]
      rfl
    · exact (hok b).trans ⟨And.left, fun h => ⟨h, fun _ => deadCauses_of_no_failure hb⟩⟩
    · obtain ⟨hbay, hdead⟩ := (hok _).1 hin
      exact deadCauses_ne_nil hx hkind (hdead hbay)

end Sys2Proof.Machine
end

section
/-! PROOFS. Load end, training, alignment, READY and the flash after it (13_ R344, R347, R348, R353). -/

namespace Sys2Proof.Machine

/-! ### Messages of an instance in FAULT -/

theorem State.readConfig_halts_of_fault {s : State} (h : s.lg = .fault) : s.Halts s.readConfig := by
  have hclear : s.Halts { s with bays := { s.bays with configCE := [] } } := rfl
  have hread := hclear.trans (State.Halts.foldl (step := fun s _ => s.corrected 5 0) (fun s _ => s.corrected_halts 5 0) s.bays.configCE _)
  unfold State.readConfig
  dsimp only
  split
  · exact hread
  · refine hread.trans ?_
    rw [State.configFault, State.instanceFault, if_pos (by exact hread.lg_eq.trans h)]
    rfl

theorem State.sendScarf_halts_of_fault {s : State} (h : s.lg = .fault) (ready : Bool) : s.Halts (s.sendScarf ready) := by
  have hread := State.readConfig_halts_of_fault h
  unfold State.sendScarf
  split
  · rfl
  · dsimp only
    split
    · exact hread.trans (State.putScarf_sends _ ready (by rw [hread.lg_eq, h]; exact fun h => nomatch h)).1.halts
    · exact hread

/-! ### Load end (R347) -/

/-- The state with B fixed (R347, step 1). -/
def State.withBays (s : State) : State := { s with bays := { s.bays with enabled := s.bays.ok } }

/-- The state with the slot rules applied (R95, step 2). -/
def State.clipped (s : State) : State := { s with image := { s.image with slots := s.image.slots.map fun w => clipSlot w s.bayCount } }

theorem State.fixBays_of_enough {s : State} (h : ¬ s.bays.ok.length < s.image.minBays) : s.fixBays = s.withBays := if_neg h

theorem State.fixBays_of_few {s : State} (h : s.bays.ok.length < s.image.minBays) :
    ∃ entry, s.fixBays = s.withBays.instanceFault entry := ⟨_, if_pos h⟩

theorem State.applySlots_of_anchored {s : State} (h : s.clipped.emptyAnchors = []) : s.applySlots = s.clipped := by
  unfold State.applySlots
  dsimp only
  split
  · next hcons => exact absurd (hcons.symm.trans h) (List.cons_ne_nil _ _)
  · rfl

theorem State.applySlots_of_empty {s : State} (h : s.clipped.emptyAnchors ≠ []) (hlg : s.lg ≠ .fault) :
    ∃ entry, s.applySlots = s.clipped.instanceFault entry := by
  unfold State.applySlots
  dsimp only
  split
  · exact ⟨_, if_neg hlg⟩
  · next hnil => exact absurd hnil h

theorem State.applySlots_of_fault {s : State} (hlg : s.lg = .fault) : s.clipped.Logs s.applySlots := by
  unfold State.applySlots
  dsimp only
  split
  · rw [if_pos hlg]
    rfl
  · rfl

/-- `t` is an instance whose load end has faulted in step 1 or 2: FAULT with B and the slots fixed, and the steps between left out. -/
structure State.LoadFails (s t : State) : Prop where
  lg : t.lg = .fault
  enabled : t.bays.enabled = s.bays.ok
  nv : t.nv = s.nv
  slots : t.image.slots = s.image.slots.map fun w => clipSlot w s.bays.ok.length
  yard : t.bays.yard = s.bays.yard
  nvOut : t.nvOut = s.nvOut

theorem State.LoadFails.halts {s t u : State} (h : s.LoadFails t) (k : t.Halts u) : s.LoadFails u :=
  ⟨k.lg_eq.trans h.lg, k.enabled_eq.trans h.enabled, k.nv_eq.trans h.nv, by rw [k.image_eq, h.slots], k.yard_eq.trans h.yard,
    k.nvOut_eq.trans h.nvOut⟩

/-- The fault of too few bays (R347, step 1). -/
theorem State.loadFails_of_few {s : State} (hlg : s.lg = .seasoning) (hgo : s.stopped = false) (hfault : s.frz.onFault = false)
    (h : s.bays.ok.length < s.image.minBays) : s.LoadFails s.fixBays.applySlots := by
  obtain ⟨entry, hfix⟩ := State.fixBays_of_few h
  rw [State.instanceFault_of_seasoning (s := s.withBays) hlg hgo hfault] at hfix
  have hhalt := s.withBays.enterFault_halts entry
  rw [← hfix] at hhalt
  have hcount : s.fixBays.bayCount = s.bays.ok.length := congrArg List.length hhalt.enabled_eq
  have hclip : s.LoadFails s.fixBays.clipped := by
    refine ⟨hhalt.lg_eq, hhalt.enabled_eq, hhalt.nv_eq, ?_, hhalt.yard_eq, hhalt.nvOut_eq⟩
    simp only [State.clipped, hcount, hhalt.image_eq]
    rfl
  refine hclip.halts ?_
  unfold State.Halts
  rw [State.applySlots_of_fault hhalt.lg_eq]

/-- The fault of an anchor slot without a bay (R95, step 2). -/
theorem State.loadFails_of_empty {s : State} (hlg : s.lg = .seasoning) (hgo : s.stopped = false) (hfault : s.frz.onFault = false)
    (h : ¬ s.bays.ok.length < s.image.minBays) (hempty : s.withBays.clipped.emptyAnchors ≠ []) : s.LoadFails s.fixBays.applySlots := by
  obtain ⟨entry, happly⟩ := State.applySlots_of_empty hempty (by rw [State.withBays, hlg]; exact fun h => nomatch h)
  rw [State.fixBays_of_enough h, happly, State.instanceFault_of_seasoning (s := s.withBays.clipped) hlg hgo hfault]
  have hhalt := s.withBays.clipped.enterFault_halts entry
  exact ⟨hhalt.lg_eq, hhalt.enabled_eq, hhalt.nv_eq, by rw [hhalt.image_eq]; rfl, hhalt.yard_eq, hhalt.nvOut_eq⟩

theorem exec_loadEnd_of_fault {s : State} (hphase : s.inPhase 4 = true) (h : s.fixBays.applySlots.lg = .fault) (ok : Bool) :
    exec (.loadEnd ok) s = .next (s.fixBays.applySlots.expose.sendScarf false) := by
  have hout : s.fixBays.applySlots.inPhase 4 ≠ true := fun hin => absurd (State.inPhase_iff.1 hin).2.1 (by rw [h]; exact fun h => nomatch h)
  calc exec (.loadEnd ok) s = execLoadEnd ok s := rfl
    _ = _ := by rw [execLoadEnd, if_pos hphase]; simp only [if_neg hout]

theorem State.expose_sendScarf_of_loadFails {s t : State} (h : s.LoadFails t) : s.LoadFails (t.expose.sendScarf false) ∧
    (t.expose.sendScarf false).visible = true := by
  have hsend : t.expose.Halts (t.expose.sendScarf false) := State.sendScarf_halts_of_fault (s := t.expose) h.lg false
  exact ⟨State.LoadFails.halts (t := t.expose) ⟨h.lg, h.enabled, h.nv, h.slots, h.yard, h.nvOut⟩ hsend, hsend.visible_eq⟩

/-! ### The steps after the slot rules (R347, R348) -/

theorem State.readBackCurves_of_clean {s : State} (hce : s.bays.curveCE = []) (hue : s.bays.curveUE = []) : s.readBackCurves = s := by
  have hclear : ({ s with bays := { s.bays with curveCE := [] } } : State) = s := by rw [← hce]
  have hclear' : ({ s with bays := { s.bays with curveUE := [] } } : State) = s := by rw [← hue]
  have hwords : (s.bays.enabled.flatMap fun b => s.bays.curveUE.filter (·.1 == b)) = [] := by simp [hue]
  unfold State.readBackCurves
  rw [hce, List.foldl_nil, hclear]
  dsimp only
  rw [hwords]
  exact hclear'

/-- `t` is `s` after its boot-log entry was programmed or could not be (R344, R406). -/
structure State.Programs (s t : State) : Prop where
  frame : t = { s with
    log := t.log, irqStatus := t.irqStatus, nvOut := t.nvOut
    nv := { s.nv with programmed := t.nv.programmed, newest := t.nv.newest, validIn := t.nv.validIn } }
  nvOut : t.nvOut = if s.nv.posErased then s.nvOut ++ [(bootAddr s.nv.logSector s.nv.logPos, bootEntry s.nv.bootId)] else s.nvOut

/-- The entry an earlier reset left partly programmed is logged (R406). -/
def State.logTorn (s : State) : State := match s.nv.torn with | some a => s.log0 0x23 0 a | none => s

/-- The entry of this load, behind that record. -/
def State.programEntry (s : State) (ok : Bool) : State :=
  let t := if s.nv.posErased then s.nvWrite (bootAddr s.nv.logSector s.nv.logPos) (bootEntry s.nv.bootId) else s
  if ok ∧ t.nv.posErased then
    { t with nv := { t.nv with programmed := true, newest := t.nv.logSector, validIn := dedup (t.nv.validIn ++ [t.nv.logSector]) } }
  else t.log0 0x23 0 (bootAddr t.nv.logSector t.nv.logPos)

theorem State.programBoot_eq (s : State) (ok : Bool) : s.programBoot ok = s.logTorn.programEntry ok := rfl

theorem State.logTorn_logs (s : State) : s.Logs s.logTorn := by
  unfold State.logTorn
  split <;> rfl

theorem State.programEntry_programs (s : State) (ok : Bool) : s.Programs (s.programEntry ok) := by
  unfold State.programEntry
  dsimp only
  by_cases he : s.nv.posErased = true
  · rw [if_pos he]
    split <;> exact ⟨rfl, (if_pos he).symm⟩
  · rw [if_neg he]
    split <;> exact ⟨rfl, (if_neg he).symm⟩

theorem State.programBoot_programs (s : State) (ok : Bool) : s.Programs (s.programBoot ok) := by
  obtain ⟨hframe, hout⟩ := s.logTorn.programEntry_programs ok
  rw [← State.programBoot_eq] at hframe hout
  have hlog := s.logTorn_logs
  refine ⟨?_, ?_⟩
  · rw [hframe, hlog]
  · rw [hout, hlog]

theorem State.expose_owner (s : State) : s.expose.own.owner =
    match lowestClaim s.own.latch with | some k => some k | none => s.own.owner := by
  unfold State.expose
  cases lowestClaim s.own.latch <;> rfl

/-- The state with its curves' digest and its yards cleared (R347, step 4). -/
def State.cleared (s : State) : State := ({ s with curveDigest := sha256 s.image.curves } : State).clearYards

/-- The state after steps 1 to 7 of a load end without a fault, before its SCARF. -/
def State.loaded (s : State) (ok : Bool) : State := (s.cleared.programBoot ok).expose

theorem State.finishLoad_of_clean {s : State} (hce : s.bays.curveCE = []) (hue : s.bays.curveUE = []) (ok : Bool) :
    s.finishLoad ok = if ((s.loaded ok).sendScarf false).lg = .seasoning ∧ ¬ ((s.loaded ok).sendScarf false).stopped then
      ((s.loaded ok).sendScarf false).beginTraining else (s.loaded ok).sendScarf false := by
  unfold State.finishLoad
  rw [State.readBackCurves_of_clean hce hue]
  rfl

theorem State.sendRingTime_sends {s : State} (hclean : s.configClean) (l : List Nat) : s.Sends (s.sendRingTime l) := by
  unfold State.sendRingTime
  split
  · exact .refl s
  · refine (State.foldl_netSend (fun m => s.envTo 10 m (natLE 8 (roundUp (s.count + 8192) 4096)))
      (fun _ => natLE 8 (roundUp (s.count + 8192) 4096)) l hclean fun t m ht _ => ?_).1
    simp only [State.envTo, ht.sin_eq]

/-- The counter locked, and nothing else but messages (R316, R320, R321). -/
theorem State.lockNow_sends {s : State} (hlg : s.lg ≠ .frozen) (hclean : s.configClean) :
    ({ s with clk := { s.clk with locked := true } } : State).Sends s.lockNow := by
  have hscarf := State.sendScarf_sends (s := { s with clk := { s.clk with locked := true } }) hlg hclean
    ({ s with clk := { s.clk with locked := true } } : State).scarfReady
  exact hscarf.trans (State.sendRingTime_sends (hscarf.configClean hclean) _)

theorem State.beginAlignment_sends {s : State} (hlg : s.lg ≠ .frozen) (hclean : s.configClean) :
    ({ s.toPhase 6 with clk := { s.clk with locked := s.beginAlignment.clk.locked } } : State).Sends s.beginAlignment := by
  unfold State.beginAlignment
  dsimp only
  split
  · have hlock := State.lockNow_sends (s := s.toPhase 6) hlg hclean
    have hlocked : (s.toPhase 6).lockNow.clk.locked = true := by rw [hlock.1]
    rw [hlocked]
    exact hlock
  · exact .refl _

/-- P5 begins, or P6 where there is no port to train (R348). -/
theorem State.beginTraining_sends {s : State} (hlg : s.lg ≠ .frozen) (hclean : s.configClean) :
    ({ s.toPhase (if s.image.portMode = 0 then 6 else 5) with
      clk := { s.clk with locked := s.beginTraining.clk.locked } } : State).Sends s.beginTraining := by
  unfold State.beginTraining
  split
  · exact State.beginAlignment_sends hlg hclean
  · exact ⟨rfl, fun _ h => h⟩

/-- A load end without a fault ends in P5 or P6, with messages sent and the counter of a ROOT locked (R347, R348). -/
theorem State.finishLoad_eq {s : State} (hlg : s.lg = .seasoning) (hgo : s.stopped = false) (hclean : s.configClean)
    (hce : s.bays.curveCE = []) (hue : s.bays.curveUE = []) (ok : Bool) :
    s.finishLoad ok = { (s.loaded ok).toPhase (if s.image.portMode = 0 then 6 else 5) with
      clk := { s.clk with locked := (s.finishLoad ok).clk.locked }, net := (s.finishLoad ok).net, stop := (s.finishLoad ok).stop
      kports := (s.finishLoad ok).kports, log := (s.finishLoad ok).log, irqStatus := (s.finishLoad ok).irqStatus } := by
  have hprog := (s.cleared.programBoot_programs ok).frame
  have hload : s.loaded ok = { s with
      curveDigest := (s.loaded ok).curveDigest, bays := (s.loaded ok).bays, log := (s.loaded ok).log, irqStatus := (s.loaded ok).irqStatus
      nvOut := (s.loaded ok).nvOut, nv := (s.loaded ok).nv, visible := true, active := (s.loaded ok).active, shadow := (s.loaded ok).shadow
      own := (s.loaded ok).own } := by
    unfold State.loaded
    rw [hprog]
    rfl
  have hbays : (s.loaded ok).bays = s.clearYards.bays := by
    unfold State.loaded
    rw [hprog]
    rfl
  have hlg' : (s.loaded ok).lg = .seasoning := by rw [hload]; exact hlg
  have hgo' : (s.loaded ok).stopped = false := by rw [hload]; exact hgo
  have hclean' : (s.loaded ok).configClean := by
    unfold State.configClean
    rw [hbays]
    exact hclean
  have hscarf := State.sendScarf_sends (by rw [hlg']; exact fun h => nomatch h) hclean' false
  have hlg2 : ((s.loaded ok).sendScarf false).lg = .seasoning := by rw [hscarf.1]; exact hlg'
  have hgo2 : ((s.loaded ok).sendScarf false).stopped = false := by rw [hscarf.1]; exact hgo'
  have hfinish : s.finishLoad ok = ((s.loaded ok).sendScarf false).beginTraining := by
    rw [State.finishLoad_of_clean hce hue, if_pos ⟨hlg2, by rw [hgo2]; exact Bool.false_ne_true⟩]
  have htrain := State.beginTraining_sends (by rw [hlg2]; exact fun h => nomatch h) (hscarf.configClean hclean')
  rw [← hfinish] at htrain
  rw [htrain.1, hscarf.1]
  rw [hload]
  rfl

theorem exec_loadEnd_of_good {s : State} (hphase : s.inPhase 4 = true) (h : ¬ s.bays.ok.length < s.image.minBays)
    (hanchors : s.withBays.clipped.emptyAnchors = []) (ok : Bool) : exec (.loadEnd ok) s = .next (s.withBays.clipped.finishLoad ok) := by
  have hsteps : s.fixBays.applySlots = s.withBays.clipped := by rw [State.fixBays_of_enough h, State.applySlots_of_anchored hanchors]
  calc exec (.loadEnd ok) s = execLoadEnd ok s := rfl
    _ = _ := by rw [execLoadEnd, if_pos hphase]; simp only [hsteps]; exact congrArg _ (if_pos hphase)

/-! ### Training, alignment, READY (R348) -/

theorem State.endWindow_clk (s : State) (there : Bool) : s.endWindow there = { s with clk := (s.endWindow there).clk } := by
  unfold State.endWindow
  split <;> rfl

theorem State.endWindow_trim (s : State) (there : Bool) : (s.endWindow there).clk.trim = s.clk.trim := by
  unfold State.endWindow
  split
  · rfl
  · rw [State.pass_clk, Clk.run_trim]

theorem State.progressAll_of_idle {s : State} (h : s.running = []) : s.progressAll = s := by
  rw [State.progressAll, h]
  rfl

/-- The slot table's state as a slot begins (R96, R97). -/
def State.slotSched (s : State) (n start : Nat) : Sched :=
  let w := s.slotWord n
  let lent := if slotPlumb w then slotBays w else []
  let g := s.nextGrant
  let owners := (List.range s.bayCount).map fun j =>
    if lent.contains j then BayOwner.plumb (slotChan w) else match g with | some p => .pool p | none => .none
  let gap := (List.range s.bayCount).filter fun j => owners.getD j .none != .none && owners.getD j .none != s.sched.owners.getD j .none
  { s.sched with
    slot := n, slotStart := start, edge := s.clk.edges, leaving := s.sched.owners, served := s.sched.serving
    grantPtr := g.getD s.sched.grantPtr, grantee := g, owners := owners, gap := gap
    serving := if g = some 16 then s.shareOfSlot else s.sched.serving }

theorem State.enterSlot_eq (s : State) (n start : Nat) : s.enterSlot n start = ({ s with sched := s.slotSched n start } : State).progressAll := rfl

/-- The rotation at its start: no owner anywhere (R96). -/
def State.unrotated (s : State) : State :=
  { s with sched := { slot := 0, slotStart := s.clk.arith, grantPtr := 16, serving := s.sched.serving } }

theorem State.beginRotation_of_idle {s : State} (hclean : s.configClean) (hgo : s.stopped = false) (hidle : s.running = []) :
    s.beginRotation = { s with sched := s.unrotated.slotSched 0 s.clk.arith } :=
  calc s.beginRotation
      = if s.unrotated.readConfig.stopped then s.unrotated.readConfig else s.unrotated.readConfig.enterSlot 0 s.clk.arith := rfl
    _ = s.unrotated.enterSlot 0 s.clk.arith := by
      rw [State.readConfig_of_clean (s := s.unrotated) hclean]
      exact if_neg (ne_true_of_eq_false hgo)
    _ = { s with sched := s.unrotated.slotSched 0 s.clk.arith } := by
      rw [State.enterSlot_eq]
      exact State.progressAll_of_idle hidle

/-- READY as it begins, before the rotation (R348). -/
def State.opened (s : State) : State :=
  ({ s with
    lg := .ready
    clk := { s.clk with rate := s.clk.trim }
    chans := Vector.ofFn fun c => { st := if (s.cfg c).enabled then .idle else .off }
    nextSeq := Vector.replicate 4 0 } : State).toPhase 7

theorem State.becomeReady_eq (s : State) : s.becomeReady = s.opened.beginRotation.sendScarf s.opened.beginRotation.scarfReady := rfl

theorem State.opened_running {s : State} (h : ∀ x ∈ s.shares, x.job = none) : s.opened.running = [] := by
  rw [State.running_eq_nil_iff]
  refine ⟨fun c => ?_, h⟩
  have hchan : s.opened.chans[c] = { st := if (s.cfg c).enabled then .idle else .off } := Vector.getElem_ofFn _
  rw [hchan]

/-- Settles O58: load end with and without a fault, then each step to READY and the flash. -/
theorem loadEndLeadsToReady : Obligations.LoadEndLeadsToReady := by
  intro s ok slots v
  refine ⟨fun hphase hfew hfault => ?few, fun hphase henough hempty hfault => ?empty, fun hphase henough hanchors hce hue hclean => ?good,
    fun hphase hclean => ?trained, fun hphase hclean hshares => ?ready, fun k hdue hlive hphase hdriven => ?erase,
    fun hlive hphase hdue => ?release, fun hdue => ?waits⟩
  case few =>
    obtain ⟨-, hlg, hgo, hnv⟩ := State.inPhase_iff.1 hphase
    have hfails := State.loadFails_of_few hlg hgo hfault hfew
    obtain ⟨hend, hvisible⟩ := State.expose_sendScarf_of_loadFails hfails
    exact ⟨_, exec_loadEnd_of_fault hphase hfails.lg ok, hend.lg, hvisible, hend.enabled, by rw [hend.nv, hnv], hend.slots, hend.yard, hend.nvOut⟩
  case empty =>
    obtain ⟨-, hlg, hgo, hnv⟩ := State.inPhase_iff.1 hphase
    have hfails := State.loadFails_of_empty hlg hgo hfault henough hempty
    obtain ⟨hend, hvisible⟩ := State.expose_sendScarf_of_loadFails hfails
    exact ⟨_, exec_loadEnd_of_fault hphase hfails.lg ok, hend.lg, hvisible, hend.enabled, by rw [hend.nv, hnv], hend.slots, hend.yard, hend.nvOut⟩
  case good =>
    obtain ⟨-, hlg, hgo, hnv⟩ := State.inPhase_iff.1 hphase
    have hend := State.finishLoad_eq (s := s.withBays.clipped) hlg hgo hclean hce hue ok
    have hprog := s.withBays.clipped.cleared.programBoot_programs ok
    refine ⟨_, exec_loadEnd_of_good hphase henough hanchors ok, ?_⟩
    rw [hend]
    unfold State.loaded
    rw [hprog.frame]
    refine ⟨hlg, rfl, rfl, rfl, rfl, rfl, rfl, rfl, rfl, rfl, rfl, rfl, hprog.nvOut, State.expose_owner _, rfl, rfl⟩
  case trained =>
    obtain ⟨-, hlg, hgo, hnv⟩ := State.inPhase_iff.1 hphase
    have hexec : exec .trainingWindowEnd s = .next (s.endWindow s.portsUp).beginAlignment :=
      calc exec .trainingWindowEnd s = execTrainingWindowEnd s := rfl
        _ = _ := if_pos hphase
    have hwin := s.endWindow_clk s.portsUp
    have hlg' : (s.endWindow s.portsUp).lg = .seasoning := by rw [hwin]; exact hlg
    have hend := State.beginAlignment_sends (s := s.endWindow s.portsUp) (by rw [hlg']; exact fun h => nomatch h) (by rw [hwin]; exact hclean)
    refine ⟨_, hexec, ?_, ?_, ?_, ?_, fun hup => ?_⟩
    · rw [hend.1]
      rfl
    · rw [hend.1]
      exact hlg'
    · rw [hend.1, hwin]
      rfl
    · rw [hend.1, hwin]
      rfl
    · rw [hend.1, State.endWindow, if_pos hup]
  case ready =>
    have hexec : exec .plumbAlignmentEnd s = .next (s.endWindow s.clk.locked).becomeReady :=
      calc exec .plumbAlignmentEnd s = execPlumbAlignmentEnd s := rfl
        _ = _ := if_pos hphase
    obtain ⟨-, hlg, hgo, hnv⟩ := State.inPhase_iff.1 hphase
    have hwin := s.endWindow_clk s.clk.locked
    generalize hw : s.endWindow s.clk.locked = w at hexec hwin
    have htrim : w.clk.trim = s.clk.trim := hw ▸ s.endWindow_trim s.clk.locked
    have hclean' : w.opened.configClean := by
      rw [hwin]
      exact hclean
    have hgo' : w.opened.stopped = false := by
      rw [State.stopped, Bool.or_eq_false_iff] at hgo ⊢
      exact ⟨by rw [hwin]; exact hgo.1, rfl⟩
    have hrot := State.beginRotation_of_idle hclean' hgo' (State.opened_running (by rw [hwin]; exact hshares))
    have hsend := State.sendScarf_sends (s := w.opened.beginRotation) (by rw [hrot]; exact fun h => nomatch h) (by rw [hrot]; exact hclean')
      w.opened.beginRotation.scarfReady
    rw [← State.becomeReady_eq, hrot] at hsend
    refine ⟨_, hexec, ?_, ?_, ?_, ?_, fun g => ?_, fun c => ?_⟩
    · rw [hsend.1]
      rfl
    · rw [hsend.1]
      rfl
    · rw [hsend.1]
      rfl
    · rw [hsend.1]
      exact htrim
    · rw [hsend.1]
      exact Vector.getElem_replicate _
    · have hcfg : w.cfg c = s.cfg c := by rw [hwin]; rfl
      have hchan : w.opened.chans[c] = { st := if (w.cfg c).enabled then .idle else .off } := Vector.getElem_ofFn _
      rw [hcfg] at hchan
      rw [hsend.1]
      exact ⟨congrArg Chan.queue hchan, congrArg Chan.st hchan⟩
  case erase =>
    obtain ⟨hrst, hgo⟩ := hlive
    have hexec : exec (.bootLogErase ok) s = .next (let t : State := { s.nvWrite (bootAddr k 0) [] with nv := { s.nv with
        erased := true, validIn := if ok then s.nv.validIn.filter (· != k) else s.nv.validIn } }
        if ok then t else t.log0 0x23 0 (bootAddr k 0)) :=
      calc exec (.bootLogErase ok) s = execBootLogErase ok s := rfl
        _ = _ := by
          rw [execBootLogErase, hdue]
          exact if_pos ⟨hrst, hphase, by rw [hgo]; exact Bool.false_ne_true, hdriven⟩
    refine ⟨_, hexec, ?_, ?_, fun hok => ?_, fun hok => ?_⟩
    · cases ok <;> rfl
    · cases ok <;> rfl
    · subst hok
      exact ⟨rfl, by simp⟩
    · subst hok
      rfl
  case release =>
    obtain ⟨hrst, hgo⟩ := hlive
    calc exec .nvRelease s = execNvRelease s := rfl
      _ = _ := if_pos ⟨hrst, hphase, by rw [hgo]; exact Bool.false_ne_true, hdue⟩
  case waits =>
    calc exec .nvRelease s = execNvRelease s := rfl
      _ = .next s := if_neg fun h => hdue h.2.2.2

end Sys2Proof.Machine
end

section
/-! PROOFS. A Klody port's transmitter and receiver (12_ R303 to R308): what sending leaves alone, which flit is accepted, what is sent
again. -/

namespace Sys2Proof.Machine

/-! ### What the transmitter changes -/

/-- `q` is the port `p` after its transmitter has acted: the receiver, the training and the clock transfer stand. -/
def KPort.Transmits (p q : KPort) : Prop :=
  q = { p with
    txNext := q.txNext, txAcked := q.txAcked, replay := q.replay, nakDue := q.nakDue, txStream := q.txStream, txQueue := q.txQueue
    txLast := q.txLast, sent := q.sent, replays := q.replays }

theorem KPort.Transmits.refl (p : KPort) : p.Transmits p := rfl

theorem KPort.Transmits.trans {p q r : KPort} (h : p.Transmits q) (k : q.Transmits r) : p.Transmits r := by
  unfold KPort.Transmits at *
  rw [k, h]

theorem KPort.streamTake_transmits (f n : Nat) (p : KPort) : p.Transmits (KPort.streamTake f n p).2 := by
  induction f generalizing n p with
  | zero => rfl
  | succ f ih =>
    unfold KPort.streamTake
    split
    · rfl
    · split
      · split
        · rfl
        · refine KPort.Transmits.trans ?_ (ih _ _)
          rfl
      · refine KPort.Transmits.trans ?_ (ih _ _)
        rfl

/-- One more DATA flit sent and held (R306, R308). -/
def KPort.sendNext (p : KPort) : KPort :=
  let t := p.streamTake (2 * p.txQueue.length + 3) 240
  let first := firstField p.txStream.length t.1.length
  { t.2.emit 1 first p.txNext t.1.length t.1 with
    txNext := (p.txNext + 1) % 1024, replay := p.replay ++ [(p.txNext, natLE 1 first ++ t.1, 0)] }

theorem KPort.sendNext_transmits (p : KPort) : p.Transmits p.sendNext := by
  have htake := KPort.streamTake_transmits (2 * p.txQueue.length + 3) 240 p
  unfold KPort.sendNext
  dsimp only
  generalize KPort.streamTake (2 * p.txQueue.length + 3) 240 p = t at *
  refine htake.trans ?_
  rfl

theorem KPort.pump_succ (f : Nat) (p : KPort) : KPort.pump (f + 1) p =
    if p.st ≠ .up ∨ 64 ≤ p.unacked ∨ (p.txStream.isEmpty ∧ p.txQueue.isEmpty) then p else KPort.pump f p.sendNext := rfl

theorem KPort.pump_transmits (f : Nat) (p : KPort) : p.Transmits (KPort.pump f p) := by
  induction f generalizing p with
  | zero => rfl
  | succ f ih =>
    rw [KPort.pump_succ]
    split
    · rfl
    · exact p.sendNext_transmits.trans (ih _)

/-- A DATA flit of the replay buffer sent again. -/
def KPort.emitAgain (p : KPort) (x : Nat × List Byte × Nat) : KPort := p.emit 1 (fieldAt x.2.1 0 1) x.1 (x.2.1.length - 1) (x.2.1.drop 1)

theorem KPort.emitAgain_eq (p : KPort) (l : List (Nat × List Byte × Nat)) :
    l.foldl KPort.emitAgain p = { p with sent := (l.foldl KPort.emitAgain p).sent, nakDue := (l.foldl KPort.emitAgain p).nakDue } := by
  induction l generalizing p with
  | nil => rfl
  | cons x l ih =>
    rw [List.foldl_cons, ih]
    rfl

theorem KPort.emitAgain_transmits (p : KPort) (l : List (Nat × List Byte × Nat)) : p.Transmits (l.foldl KPort.emitAgain p) := by
  unfold KPort.Transmits
  rw [p.emitAgain_eq l]

/-- What is held from number `a` on. -/
def KPort.heldFrom (p : KPort) (a : Nat) : List (Nat × List Byte × Nat) := p.replay.drop (p.replay.takeWhile fun x => x.1 != a).length

theorem KPort.resend_eq (p : KPort) (a : Nat) : p.resend a = { (p.heldFrom a).foldl KPort.emitAgain p with
    replay := (p.replay.takeWhile fun x => x.1 != a) ++ (p.heldFrom a).map fun x => (x.1, x.2.1, x.2.2 + 1)
    replays := p.replays + 1 } := rfl

theorem KPort.resend_transmits (p : KPort) (a : Nat) : p.Transmits (p.resend a) := by
  have hall := p.emitAgain_transmits (p.heldFrom a)
  rw [KPort.resend_eq]
  generalize (p.heldFrom a).foldl KPort.emitAgain p = q at *
  refine hall.trans ?_
  rfl

theorem KPort.heed_transmits (p : KPort) (flit : List Byte) : p.Transmits (p.heed flit) := by
  unfold KPort.heed
  dsimp only
  split
  · split
    · refine KPort.Transmits.trans ?_ (KPort.resend_transmits _ _)
      rfl
    · rfl
  · rfl

theorem KPort.acks_transmits (p : KPort) (flit : List Byte) : p.Transmits (p.acks flit) := by
  unfold KPort.acks
  split
  · exact (p.heed_transmits flit).trans (KPort.pump_transmits _ _)
  · rfl

theorem KPort.acksAt_transmits (p : KPort) (now : Nat) (flit : List Byte) :
    ({ p with lastAck := (p.acksAt now flit).lastAck } : KPort).Transmits (p.acksAt now flit) := by
  have hacks := p.acks_transmits flit
  unfold KPort.acksAt KPort.Transmits
  dsimp only
  split <;> rw [hacks]

theorem KPort.resume_eq (p : KPort) : p.resume =
    KPort.pump 64 { p.replay.foldl KPort.emitAgain p with replay := p.replay.map fun x => (x.1, x.2.1, 0) } := rfl

theorem KPort.resume_transmits (p : KPort) : p.Transmits p.resume := by
  have hall := p.emitAgain_transmits p.replay
  rw [KPort.resume_eq]
  generalize p.replay.foldl KPort.emitAgain p = q at *
  refine hall.trans (KPort.Transmits.trans ?_ (KPort.pump_transmits 64 _))
  rfl

section
variable {p q : KPort} (h : p.Transmits q)
include h

theorem KPort.Transmits.st_eq : q.st = p.st := by rw [h]

theorem KPort.Transmits.rxNext_eq : q.rxNext = p.rxNext := by rw [h]

theorem KPort.Transmits.rxStream_eq : q.rxStream = p.rxStream := by rw [h]

end

/-- A port with nothing to say stays as it is (R306). -/
theorem KPort.pump_of_silent {p : KPort} (hstream : p.txStream = []) (hqueue : p.txQueue = []) (f : Nat) : KPort.pump f p = p := by
  cases f with
  | zero => rfl
  | succ f =>
    rw [KPort.pump_succ]
    exact if_pos (Or.inr (Or.inr ⟨by rw [hstream]; rfl, by rw [hqueue]; rfl⟩))

/-! ### One port of the two -/

theorem State.setPort_self (s : State) (p : Fin 2) (k : KPort) : (s.setPort p k).kports[p] = k := getElem_set_fin_self _ _ _

theorem State.setPort_ne (s : State) {p q : Fin 2} (h : q ≠ p) (k : KPort) : (s.setPort p k).kports[q] = s.kports[q] := getElem_set_fin_ne _ _ h

/-! ### A flit on a port (R303, R305, R306) -/

section FlitIn
variable {s : State} {p : Fin 2} {flit : List Byte}

theorem State.flitIn_of_not_up (h : s.kports[p].st ≠ .up) : s.flitIn p flit = s := by
  have hbar : (!s.linkRuns || s.kports[p].st != .up) = true := by rw [bne_iff_ne.2 h, Bool.or_true]
  exact if_pos hbar

/-- An up port of a live instance hears flits. -/
theorem State.flit_heard (hlive : s.live) (hup : s.kports[p].st = .up) : ¬ (!s.linkRuns || s.kports[p].st != .up) = true := by
  rw [hlive.linkRuns_eq_true, hup]
  decide

theorem State.flitIn_of_bad (hlive : s.live) (hup : s.kports[p].st = .up) (h : flitGood flit = false) :
    s.flitIn p flit = s.setPort p s.kports[p].nak :=
  (if_neg (State.flit_heard hlive hup)).trans (if_pos h)

/-- The port after the ACK and NAK fields of a good flit (R306). -/
def State.acked (s : State) (p : Fin 2) (flit : List Byte) : KPort :=
  ({ s.kports[p] with helloOn := s.kports[p].helloOn && fieldAt flit 0 1 == 5 } : KPort).acksAt s.count flit

theorem State.flitIn_of_data (hlive : s.live) (hup : s.kports[p].st = .up) (h : flitGood flit = true) (hdata : fieldAt flit 0 1 = 1) :
    s.flitIn p flit = { s.setPort p ((s.acked p flit).receive flit).1 with inbox := s.inbox ++ ((s.acked p flit).receive flit).2 } :=
  ((if_neg (State.flit_heard hlive hup)).trans (if_neg (by rw [h]; decide))).trans (if_pos hdata)

theorem State.flitIn_of_other (hlive : s.live) (hup : s.kports[p].st = .up) (h : flitGood flit = true) (hdata : fieldAt flit 0 1 ≠ 1) :
    s.flitIn p flit = s.setPort p (s.acked p flit) :=
  ((if_neg (State.flit_heard hlive hup)).trans (if_neg (by rw [h]; decide))).trans (if_neg hdata)

theorem State.acked_transmits (s : State) (p : Fin 2) (flit : List Byte) :
    ({ s.kports[p] with
      helloOn := s.kports[p].helloOn && fieldAt flit 0 1 == 5, lastAck := (s.acked p flit).lastAck } : KPort).Transmits (s.acked p flit) :=
  KPort.acksAt_transmits _ _ _

end FlitIn

/-- A good DATA flit with the expected number is accepted (R306, R308). -/
def KPort.accepts (p : KPort) (flit : List Byte) : Prop :=
  fieldAt flit 0 1 = 1 ∧ fieldAt flit 2 2 % 1024 = p.rxNext ∧ 1 ≤ fieldAt flit 4 1 ∧ fieldAt flit 4 1 ≤ 240

theorem KPort.receive_of_accepts {p : KPort} {flit : List Byte} (hgood : flitGood flit = true) (h : p.accepts flit) :
    (p.receive flit).1.rxNext = (p.rxNext + 1) % 1024 ∧ (p.receive flit).1.st = p.st ∧
      (p.receive flit).2 = (takeMessages 241 (p.rxStream ++ sliceOf flit 8 (fieldAt flit 4 1))).1 := by
  have hfits : flitGood flit ∧ fieldAt flit 0 1 = 1 ∧ fieldAt flit 2 2 % 1024 = p.rxNext ∧
      1 ≤ fieldAt flit 4 1 ∧ fieldAt flit 4 1 ≤ 240 := ⟨hgood, h⟩
  unfold KPort.receive
  dsimp only
  rw [if_pos hfits]
  exact ⟨rfl, rfl, rfl⟩

theorem KPort.receive_of_not_accepts {p : KPort} {flit : List Byte} (h : ¬ p.accepts flit) : p.receive flit = (p.nak, []) :=
  if_neg fun hfits => h hfits.2

theorem KPort.nak_rx (p : KPort) : p.nak.rxNext = p.rxNext ∧ p.nak.rxStream = p.rxStream := by
  unfold KPort.nak
  split <;> exact ⟨rfl, rfl⟩

theorem exec_dataFlit (p : Fin 2) (rx : FlitRx) (s : State) : exec (.dataFlit p rx) s = .next (s.flitIn p (decodeFlit rx)) := rfl

theorem exec_idleFlit (p : Fin 2) (rx : FlitRx) (s : State) : exec (.idleFlit p rx) s = .next (s.flitIn p (decodeFlit rx)) := rfl

/-- What a flit that is not accepted leaves of its port and of the rest (R305, R306). -/
theorem State.flitIn_of_not_accepted {s : State} {p : Fin 2} {flit : List Byte} (hlive : s.live) (hup : s.kports[p].st = .up)
    (h : flitGood flit = false ∨ ¬ s.kports[p].accepts flit) : ∃ k : KPort, s.flitIn p flit = s.setPort p k ∧ k.rxNext = s.kports[p].rxNext ∧
      k.rxStream = s.kports[p].rxStream := by
  have hacked := s.acked_transmits p flit
  by_cases hgood : flitGood flit = true
  · have hnot : ¬ s.kports[p].accepts flit := h.resolve_left (by rw [hgood]; decide)
    by_cases hdata : fieldAt flit 0 1 = 1
    · have hnot' : ¬ (s.acked p flit).accepts flit := by
        unfold KPort.accepts at hnot ⊢
        rw [hacked.rxNext_eq]
        exact hnot
      rw [State.flitIn_of_data hlive hup hgood hdata, KPort.receive_of_not_accepts hnot', List.append_nil]
      exact ⟨_, rfl, (s.acked p flit).nak_rx.1.trans hacked.rxNext_eq, (s.acked p flit).nak_rx.2.trans hacked.rxStream_eq⟩
    · exact ⟨_, State.flitIn_of_other hlive hup hgood hdata, hacked.rxNext_eq, hacked.rxStream_eq⟩
  · exact ⟨_, State.flitIn_of_bad hlive hup (Bool.eq_false_iff.2 hgood), KPort.nak_rx _⟩

/-- A good IDLE flit's ACK takes what it covers out of the replay buffer of a port with nothing to say (R306). -/
theorem State.acked_of_ack {s : State} {p : Fin 2} {flit : List Byte} (hvalid : bitOf (fieldAt flit 0xFA 1) 0 = true)
    (hnak : bitOf (fieldAt flit 0xFA 1) 1 = false) (hqueue : s.kports[p].txQueue = []) (hstream : s.kports[p].txStream = []) :
    (s.acked p flit).txAcked = fieldAt flit 0xF8 2 % 1024 ∧
      (s.acked p flit).replay = s.kports[p].replay.dropWhile fun x => decide ((fieldAt flit 0xF8 2 % 1024 + 1024 - x.1 - 1) % 1024 < 64) := by
  have hacks : ∀ k : KPort, k.txQueue = [] → k.txStream = [] → k.acks flit = k.ack (fieldAt flit 0xF8 2 % 1024) := fun k hq hs => by
    have hheed : k.heed flit = k.ack (fieldAt flit 0xF8 2 % 1024) := by
      unfold KPort.heed
      dsimp only
      rw [if_pos hvalid, if_neg (by rw [hnak]; decide)]
    rw [KPort.acks, if_pos hvalid, hheed, KPort.pump_of_silent (by exact hs) (by exact hq)]
  unfold State.acked KPort.acksAt
  rw [hacks _ (by exact hqueue) (by exact hstream)]
  dsimp only
  split <;> exact ⟨rfl, rfl⟩

/-- Settles O39: the one flit that is accepted, every other, and what an ACK and a NAK do. -/
theorem flitsAcceptedInOrder : Obligations.FlitsAcceptedInOrder := by
  intro s p rx hlive
  refine ⟨fun hdown => ⟨?_, ?_⟩, fun hup hgood hfits => ?accepted, fun hup hnot i hi => ?other, fun hup hgood htype hvalid hnak hqueue hstream => ?ack,
    fun hup hbad hfor => ?nak⟩
  · rw [exec_dataFlit, State.flitIn_of_not_up hdown]
  · rw [exec_idleFlit, State.flitIn_of_not_up hdown]
  case accepted =>
    have hacked := s.acked_transmits p (decodeFlit rx)
    have hfits' : (s.acked p (decodeFlit rx)).accepts (decodeFlit rx) := by
      unfold KPort.accepts
      rw [hacked.rxNext_eq]
      exact hfits
    obtain ⟨hnext, hst, hmsgs⟩ := KPort.receive_of_accepts hgood hfits'
    refine ⟨_, (exec_dataFlit p rx s).trans (congrArg _ (State.flitIn_of_data hlive hup hgood hfits.1)), ?_, ?_, ?_, fun q hq => ?_, rfl⟩
    · exact (congrArg KPort.rxNext (s.setPort_self p _)).trans (hnext.trans (by rw [hacked.rxNext_eq]))
    · exact (congrArg KPort.st (s.setPort_self p _)).trans ((hst.trans hacked.st_eq).trans hup)
    · rw [hmsgs, hacked.rxStream_eq]
    · exact s.setPort_ne hq _
  case other =>
    obtain ⟨k, hk, hnext, hstream⟩ := State.flitIn_of_not_accepted hlive hup hnot
    have hexec : exec i s = .next (s.setPort p k) := by
      rcases hi with rfl | rfl
      · rw [exec_dataFlit, hk]
      · rw [exec_idleFlit, hk]
    exact ⟨_, hexec, by rw [s.setPort_self, hnext], by rw [s.setPort_self, hstream], fun q hq => s.setPort_ne hq _, rfl⟩
  case ack =>
    obtain ⟨hacked, hreplay⟩ := State.acked_of_ack hvalid hnak hqueue hstream
    refine ⟨_, (exec_idleFlit p rx s).trans (congrArg _ (State.flitIn_of_other hlive hup hgood (by rw [htype]; decide))), rfl, ?_, ?_⟩
    · rw [s.setPort_self, hacked]
    · rw [s.setPort_self, hreplay]
  case nak =>
    rw [exec_dataFlit, State.flitIn_of_bad hlive hup hbad, KPort.nak, if_neg hfor]
    rfl

/-! ### Sending again (R306, R307) -/

/-- What is sent again goes in order, and the NAK that is due goes with the first of it (R306). -/
theorem KPort.emitAgain_sent (l : List (Nat × List Byte × Nat)) (p : KPort) (n : Nat) :
    (l.foldl KPort.emitAgain p).sent = p.sent ++ (l.zipIdx n).map fun y =>
      flitBytes 1 (fieldAt y.1.2.1 0 1) y.1.1 (y.1.2.1.length - 1) (y.1.2.1.drop 1) p.rxNext (1 + 2 * b2n (p.nakDue && y.2 == n)) := by
  induction l generalizing p n with
  | nil => simp
  | cons x l ih =>
    have hlater : ∀ y ∈ l.zipIdx (n + 1), (y.2 == n) = false := fun y hy => by
      have hle := List.le_snd_of_mem_zipIdx hy
      exact beq_eq_false_iff_ne.2 (by omega)
    rw [List.foldl_cons, ih _ (n + 1), List.zipIdx_cons, List.map_cons]
    simp only [KPort.emitAgain, KPort.emit, List.append_assoc, List.singleton_append, beq_self_eq_true, Bool.and_true, Bool.false_and]
    refine congrArg (p.sent ++ ·) (congrArg (List.cons _) (List.map_congr_left fun y hy => ?_))
    rw [hlater y hy, Bool.and_false]

theorem KPort.heldFrom_first {p : KPort} {x : Nat × List Byte × Nat} {l : List (Nat × List Byte × Nat)} (h : p.replay = x :: l) :
    (p.replay.takeWhile fun y => y.1 != x.1) = [] ∧ p.heldFrom x.1 = p.replay := by
  have hnone : (p.replay.takeWhile fun y => y.1 != x.1) = [] := by
    rw [h]
    exact List.takeWhile_cons_of_neg (by simp)
  refine ⟨hnone, ?_⟩
  rw [KPort.heldFrom, hnone]
  rfl

/-- Settles O40: everything held is sent again from the oldest, and the retrain of the limit keeps what is held. -/
theorem unacknowledgedFlitsAreResent : Obligations.UnacknowledgedFlitsAreResent := by
  intro s p hlive hup
  refine ⟨fun x l hreplay => ?_, fun ⟨x, hx, hlimit⟩ => ?_⟩
  · have hexec : exec (.replayTimeout p) s = .next ((s.untilCount (s.kports[p].lastAck + s.replayTime)).setPort p
        { s.kports[p].resend x.1 with lastAck := (s.untilCount (s.kports[p].lastAck + s.replayTime)).count }) :=
      calc exec (.replayTimeout p) s = execReplayTimeout p s := rfl
        _ = _ := by
          rw [execReplayTimeout]
          dsimp only
          rw [hreplay]
          exact if_pos (by rw [hlive.linkRuns_eq_true, hup]; rfl)
    obtain ⟨hold, hheld⟩ := KPort.heldFrom_first hreplay
    have hsent := KPort.emitAgain_sent s.kports[p].replay s.kports[p] 0
    have hkept := s.kports[p].emitAgain_eq s.kports[p].replay
    have hresend := s.kports[p].resend_eq x.1
    rw [hold, hheld] at hresend
    refine ⟨_, hexec, ?_, ?_, ?_, ?_, ?_, rfl, fun q hq => State.setPort_ne _ hq _⟩ <;> rw [State.setPort_self, hresend]
    · rfl
    · exact hsent
    · rw [hkept]
    · rw [hkept]
  · calc exec (.resendLimitRetrain p) s = execResendLimitRetrain p s := rfl
      _ = _ := by
        have hany : (s.kports[p].replay.any fun x => decide (8 ≤ x.2.2)) = true := List.any_eq_true.2 ⟨x, hx, by simpa using hlimit⟩
        exact if_pos (by rw [hlive.linkRuns_eq_true, hup, hany]; rfl)

/-! ### HELLO in T5 (R303) -/

theorem exec_hello_of_training {s : State} {p : Fin 2} {rx : FlitRx} (hlive : s.live) (hgood : flitGood (decodeFlit rx) = true)
    (htype : fieldAt (decodeFlit rx) 0 1 = 5) (hst : s.kports[p].st = .training) (hphase : s.kports[p].phase = 5) :
    exec (.hello p rx) s = .next (s.helloIn p (decodeFlit rx)) := by
  have hheard : ¬ (!s.linkRuns || flitGood (decodeFlit rx) = false || fieldAt (decodeFlit rx) 0 1 != 5) = true := by
    rw [hlive.linkRuns_eq_true, hgood, htype]
    decide
  calc exec (.hello p rx) s = execHello p rx s := rfl
    _ = _ := (if_neg hheard).trans (if_pos ⟨hst, hphase⟩)

/-- The port as it goes DOWN, with its entry and interrupt (R301). -/
def State.portLeft (s : State) (p : Fin 2) (reason : Nat) : State :=
  ((s.setPort p { s.kports[p] with
    st := .down, reason := reason, txNext := 0, txAcked := 0, replay := [], rxNext := 0, nakFor := none, nakDue := false
    rxStream := [], txStream := [], txQueue := [], helloOn := false, fromT1 := false }).log0 codePort 0 (p.val + 256 * reason)).irq 7

theorem State.portDown_eq (s : State) (p : Fin 2) (reason : Nat) : s.portDown p reason =
    let u := s.portLeft p reason
    let t := (((u.scarfs.filter fun x => u.routeOf x.sin == .port p).map (·.sin)).foldl (fun (s : State) m => s.dropScarf m) u).abandonShares
      fun m => u.routeOf m == .port p
    if t.image.role = 1 ∧ t.image.parentPort = p.val then t.unlock 1 else t := rfl

theorem State.abandonShares_of_nil {s : State} (h : s.shares = []) (f : Nat → Bool) : s.abandonShares f = s := by
  rw [State.abandonShares, h]
  rfl

/-- A port that goes DOWN with nothing behind it: only its state, an entry and its interrupt (R301). -/
theorem State.portDown_of_alone {s : State} (hscarfs : s.scarfs = []) (hshares : s.shares = []) (hrole : s.image.role ≠ 1) (p : Fin 2) (reason : Nat) :
    s.portDown p reason = s.portLeft p reason := by
  have hscarfs' : (s.portLeft p reason).scarfs = [] := hscarfs
  have hshares' : (s.portLeft p reason).shares = [] := hshares
  rw [State.portDown_eq]
  simp only [hscarfs', List.filter_nil, List.map_nil, List.foldl_nil, State.abandonShares_of_nil hshares']
  exact if_neg fun h => hrole h.1

theorem State.portLeft_port (s : State) (p : Fin 2) (reason : Nat) :
    (s.portLeft p reason).kports[p].st = .down ∧ (s.portLeft p reason).kports[p].reason = reason := by
  have hport : (s.portLeft p reason).kports[p] = _ := s.setPort_self p _
  rw [hport]
  exact ⟨rfl, rfl⟩

/-- A HELLO flit of this end leaves (R303). -/
theorem State.sendHello_eq (s : State) (p : Fin 2) : s.sendHello p = s.setPort p { s.kports[p] with
    sent := s.kports[p].sent ++ [flitBytes 5 0 0 0 (s.helloPayload p s.kports[p].seen) s.kports[p].rxNext (1 + 2 * b2n s.kports[p].nakDue)]
    nakDue := false } := rfl

theorem State.setPort_setPort (s : State) (p : Fin 2) (k k' : KPort) : (s.setPort p k).setPort p k' = s.setPort p k' := by
  simp only [State.setPort, Vector.set_set]

/-- The port after the answer to a HELLO that matches (R303). -/
def State.helloAnswered (s : State) (p : Fin 2) : KPort :=
  { s.kports[p] with
    seen := true, nakDue := false
    sent := s.kports[p].sent ++ [flitBytes 5 0 0 0 (s.helloPayload p true) s.kports[p].rxNext (1 + 2 * b2n s.kports[p].nakDue)] }

theorem State.sendHello_seen (s : State) (p : Fin 2) : (s.setPort p { s.kports[p] with seen := true }).sendHello p = s.setPort p (s.helloAnswered p) := by
  rw [State.sendHello_eq, State.setPort_setPort, State.setPort_self]
  rfl

/-- The port as a HELLO that says SEEN brings it up (R303, R307). -/
def State.helloUp (s : State) (p : Fin 2) (flit : List Byte) : KPort :=
  (({ s.helloAnswered p with st := .up, fromT1 := false, lastAck := s.count } : KPort).heed flit).resume

theorem State.helloUp_facts (s : State) (p : Fin 2) (flit : List Byte) : (s.helloUp p flit).st = .up ∧ (s.helloUp p flit).lastAck = s.count := by
  have hkept := (KPort.heed_transmits ({ s.helloAnswered p with st := .up, fromT1 := false, lastAck := s.count } : KPort) flit).trans
    (KPort.resume_transmits _)
  unfold State.helloUp
  rw [hkept]
  exact ⟨rfl, rfl⟩

theorem State.portUp_answered (s : State) (p : Fin 2) (flit : List Byte) :
    (s.setPort p (s.helloAnswered p)).portUp p flit = (s.setPort p (s.helloUp p flit)).irq 7 := by
  unfold State.portUp
  rw [State.setPort_self]
  dsimp only
  rw [State.setPort_setPort]
  rfl

/-- What the peer's port must be, as `helloIn` judges it (R303). -/
theorem State.helloIn_of_wrong {s : State} {p : Fin 2} {flit : List Byte}
    (h : ¬ (fieldAt (flit.drop 8) 0 2 % 4096 = (s.image.ports.getD p.val {}).peerSin ∧ fieldAt (flit.drop 8) 2 1 = (s.image.ports.getD p.val {}).peerPort)) :
    s.helloIn p flit = s.portDown p 2 := if_pos (Classical.not_and_iff_not_or_not.1 h)

section Right
variable {s : State} {p : Fin 2} {flit : List Byte}
  (h : fieldAt (flit.drop 8) 0 2 % 4096 = (s.image.ports.getD p.val {}).peerSin ∧ fieldAt (flit.drop 8) 2 1 = (s.image.ports.getD p.val {}).peerPort)
include h

theorem State.helloIn_of_wrong_map (hmap : sliceOf (flit.drop 8) 8 32 ≠ padTo 32 s.image.mapDigest) : s.helloIn p flit = s.portDown p 3 :=
  (if_neg fun hne => hne.elim (· h.1) (· h.2)).trans (if_pos hmap)

theorem State.helloIn_of_right (hmap : sliceOf (flit.drop 8) 8 32 = padTo 32 s.image.mapDigest) : s.helloIn p flit =
    if bitOf (fieldAt (flit.drop 8) 5 1) 0 = true then (s.setPort p (s.helloUp p flit)).irq 7 else s.setPort p (s.helloAnswered p) := by
  have hjudged : s.helloIn p flit = if bitOf (fieldAt (flit.drop 8) 5 1) 0 = true then
      ((s.setPort p { s.kports[p] with seen := true }).sendHello p).portUp p flit
      else (s.setPort p { s.kports[p] with seen := true }).sendHello p :=
    (if_neg fun hne => hne.elim (· h.1) (· h.2)).trans (if_neg (Classical.not_not.2 hmap))
  rw [hjudged, State.sendHello_seen, State.portUp_answered]

end Right

/-- Settles O42: the HELLO judged in T5. -/
theorem helloDecidesThePort : Obligations.HelloDecidesThePort := by
  intro s p rx flit hlive hgood htype hst hphase
  have hexec := exec_hello_of_training hlive hgood htype hst hphase
  refine ⟨fun hright hmap hseen => ?up, fun hright hmap hseen => ?answered, fun hscarfs hshares hrole hwrong => ?wrong,
    fun hscarfs hshares hrole hright hmap => ?map⟩
  case up =>
    obtain ⟨hup, hack⟩ := s.helloUp_facts p (decodeFlit rx)
    rw [State.helloIn_of_right hright hmap, if_pos hseen] at hexec
    exact ⟨_, hexec, (congrArg KPort.st (s.setPort_self p _)).trans hup, (congrArg KPort.lastAck (s.setPort_self p _)).trans hack, rfl, rfl,
      fun q hq => s.setPort_ne hq _⟩
  case answered =>
    rw [State.helloIn_of_right hright hmap, if_neg (by rw [hseen]; decide)] at hexec
    refine ⟨_, hexec, ?_, ?_, ?_, rfl⟩ <;> rw [s.setPort_self]
    · exact hst
    · rfl
    · exact List.length_append
  case wrong =>
    rw [State.helloIn_of_wrong hwrong, State.portDown_of_alone hscarfs hshares hrole] at hexec
    exact ⟨_, hexec, (s.portLeft_port p 2).1, (s.portLeft_port p 2).2, rfl⟩
  case map =>
    rw [State.helloIn_of_wrong_map hright hmap, State.portDown_of_alone hscarfs hshares hrole] at hexec
    exact ⟨_, hexec, (s.portLeft_port p 3).1, (s.portLeft_port p 3).2, rfl⟩

end Sys2Proof.Machine
end

section
/-! PROOFS. The training of a Klody port (12_ R301, R302). -/

namespace Sys2Proof.Machine

/-- What one lane of a training port sends (R302). -/
def laneFrame (p : Fin 2) (free : Nat) (k : KPort) (n : Nat) : KPort :=
  let l := (k.lanes.getD n {}).next (k.phase == 2) (Config.eqRequest p.val n free)
  { k with lanes := setAt k.lanes n l, frames := k.frames ++ [(n, l.txControl, l.answer + 64 * b2n l.done)] }

/-- A training port after a frame on each of its lanes. -/
def State.framesSent (s : State) (p : Fin 2) : KPort := (s.portLanes p).foldl (laneFrame p s.free) s.kports[p]

theorem foldl_laneFrame (p : Fin 2) (free : Nat) (l : List Nat) (k : KPort) :
    l.foldl (laneFrame p free) k = { k with lanes := (l.foldl (laneFrame p free) k).lanes, frames := (l.foldl (laneFrame p free) k).frames } ∧
      ∃ fs : List (Nat × Nat × Nat), (l.foldl (laneFrame p free) k).frames = k.frames ++ fs ∧ fs.map (·.1) = l := by
  induction l generalizing k with
  | nil => exact ⟨rfl, [], (List.append_nil _).symm, rfl⟩
  | cons n l ih =>
    obtain ⟨hframe, fs, hfs, hmap⟩ := ih (laneFrame p free k n)
    rw [List.foldl_cons]
    refine ⟨?_, _ :: fs, hfs.trans (List.append_assoc k.frames [_] fs), congrArg (n :: ·) hmap⟩
    rw [hframe]
    rfl

/-- The frames of a training port leave, and beside them a HELLO while this end sends HELLO (R302, R303). -/
theorem exec_trainingFrameSend_of_training {s : State} {p : Fin 2} (hlive : s.live) (hsignal : s.kports[p].signal = .training) :
    exec (.trainingFrameSend p) s = .next (if s.kports[p].helloOn then
      ({ s.setPort p (s.framesSent p) with free := s.free + 1 } : State).sendHello p
      else { s.setPort p (s.framesSent p) with free := s.free + 1 }) :=
  calc exec (.trainingFrameSend p) s = execTrainingFrameSend p s := rfl
    _ = _ := if_pos ⟨hlive.linkRuns_eq_true, hsignal⟩

theorem exec_trainingPhaseTimeout {s : State} {p : Fin 2} (hlive : s.live) (hst : s.kports[p].st = .training) (hphase : 1 ≤ s.kports[p].phase) :
    exec (.trainingPhaseTimeout p) s =
      let u := s.pass (s.kports[p].phaseStart + phaseLimit s.kports[p].phase - s.clk.edges)
      .next (if s.kports[p].restarts < 3 then u.setPort p { s.kports[p].train 0 u.clk.edges with restarts := s.kports[p].restarts + 1 }
        else u.portDown p (if s.kports[p].fromT1 then 4 else 1)) :=
  calc exec (.trainingPhaseTimeout p) s = execTrainingPhaseTimeout p s := rfl
    _ = _ := if_pos ⟨hlive.linkRuns_eq_true, hst, hphase⟩

/-- Settles O43: what a training port sends and takes, and how its phases follow one another. -/
theorem trainingRunsItsPhases : Obligations.TrainingRunsItsPhases := by
  refine ⟨fun s p hlive hup hhello => ?up, fun s p hlive hst => ⟨fun lane marker control status hmark => ?unmarked,
    fun lane control status hlane => ?marked, fun hphase => ?silent, fun hphase => ?frames, fun hphase hequal => ?done, fun hphase hequal => ?kept,
    fun hphase hleft => ?again, fun hphase hspent hscarfs hshares hrole => ?down⟩⟩
  case up =>
    have hsignal : s.kports[p].signal ≠ .training := by rw [KPort.signal, hup]; exact fun h => nomatch h
    calc exec (.trainingFrameSend p) s = execTrainingFrameSend p s := rfl
      _ = .next (s.sendHello p) := (if_neg fun h => hsignal h.2).trans (if_pos ⟨hlive.linkRuns_eq_true, hup, hhello⟩)
      _ = _ := rfl
  case unmarked =>
    calc exec (.trainingFrame p lane marker control status) s = execTrainingFrame p lane marker control status s := rfl
      _ = .next s := if_neg fun h => hmark h.2.2.2
  case marked =>
    calc exec (.trainingFrame p lane 0x7E6A5A3C#32 control status) s = execTrainingFrame p lane 0x7E6A5A3C#32 control status s := rfl
      _ = _ := if_pos ⟨hlive.linkRuns_eq_true, hst, List.contains_iff_mem.2 hlane, rfl⟩
  case silent =>
    have hsignal : s.kports[p].signal = .prbs13q := by simp only [KPort.signal, hst, hphase, if_true]
    refine ⟨hsignal, ?_⟩
    calc exec (.trainingFrameSend p) s = execTrainingFrameSend p s := rfl
      _ = .next s := (if_neg fun h => by rw [hsignal] at h; exact nomatch h.2).trans (if_neg fun h => by rw [hst] at h; exact nomatch h.2.1)
  case frames =>
    have hsignal : s.kports[p].signal = .training := by simp only [KPort.signal, hst, hphase, if_false]
    obtain ⟨hframe, fs, hfs, hlanes⟩ := foldl_laneFrame p s.free (s.portLanes p) s.kports[p]
    have hnew : ((s.framesSent p).frames.drop s.kports[p].frames.length).map (·.1) = s.portLanes p ∧
        (s.framesSent p).frames.take s.kports[p].frames.length = s.kports[p].frames := by
      rw [State.framesSent, hfs, List.drop_left, List.take_left]
      exact ⟨hlanes, rfl⟩
    have hport : ∀ k : KPort, ({ s.setPort p k with free := s.free + 1 } : State).kports[p] = k := fun k => s.setPort_self p k
    refine ⟨_, exec_trainingFrameSend_of_training hlive hsignal, ?_⟩
    by_cases hhello : s.kports[p].helloOn = true
    · rw [if_pos hhello, if_pos hhello, State.sendHello_eq, State.setPort_self, hport]
      refine ⟨hnew.1, hnew.2, ?_, rfl⟩
      dsimp only
      rw [State.framesSent, hframe]
      rfl
    · rw [if_neg hhello, if_neg hhello, hport, List.append_nil]
      refine ⟨hnew.1, hnew.2, ?_, rfl⟩
      rw [State.framesSent, hframe]
  case done =>
    have hexec : exec (.trainingPhaseDone p) s = .next (if s.kports[p].phase = 4 then
        (s.setPort p { s.kports[p] with phase := s.kports[p].phase + 1, phaseStart := s.clk.edges, helloOn := decide (s.kports[p].phase = 4) }).sendHello p
        else s.setPort p { s.kports[p] with phase := s.kports[p].phase + 1, phaseStart := s.clk.edges, helloOn := decide (s.kports[p].phase = 4) }) :=
      calc exec (.trainingPhaseDone p) s = execTrainingPhaseDone p s := rfl
        _ = _ := if_pos ⟨hlive.linkRuns_eq_true, hst, hphase, hequal⟩
    refine ⟨_, hexec, ?_⟩
    split
    · rw [State.sendHello_eq, State.setPort_setPort, State.setPort_self, State.setPort_self]
      exact ⟨rfl, hst, rfl, rfl, rfl⟩
    · rw [State.setPort_self]
      exact ⟨rfl, hst, rfl, rfl, rfl⟩
  case kept =>
    calc exec (.trainingPhaseDone p) s = execTrainingPhaseDone p s := rfl
      _ = .next s := if_neg fun h => by rw [h.2.2.2 hphase] at hequal; exact nomatch hequal
  case again =>
    refine ⟨_, exec_trainingPhaseTimeout hlive hst hphase, ?_⟩
    rw [if_pos hleft, State.setPort_self]
    exact ⟨rfl, rfl, rfl, rfl⟩
  case down =>
    refine ⟨_, exec_trainingPhaseTimeout hlive hst hphase, ?_⟩
    rw [if_neg (Nat.not_lt.2 hspent), State.portDown_of_alone (by exact hscarfs) (by exact hshares) (by exact hrole)]
    exact ⟨(State.portLeft_port _ p _).1, (State.portLeft_port _ p _).2, rfl⟩

end Sys2Proof.Machine
end

section
/-! PROOFS. The stop of the tie ring (12_ R311; 15_ R394; 16_ R408). -/

namespace Sys2Proof.Machine

/-- Does the stop only forward and discard (R408)? -/
def State.deaf (s : State) : Bool := !s.pins.rstN || s.nv.phase == 0

theorem State.deaf_eq_true_iff (s : State) : s.deaf = true ↔ s.pins.rstN = false ∨ s.nv.phase = 0 := by
  rw [State.deaf, Bool.or_eq_true, Bool.not_eq_true', beq_iff_eq]

theorem exec_tieRingBeat {s : State} (h : s.stopped = false) (cw : Bool) (data : List Byte) (par : List Bool) :
    exec (.tieRingBeat cw data par) s = .next (s.ringBeat cw data par s.deaf) :=
  calc exec (.tieRingBeat cw data par) s = execTieRingBeat cw data par s := rfl
    _ = _ := if_neg (ne_true_of_eq_false h)

/-- Beats driven stand behind those before. -/
theorem RingStop.drive_beats (k : RingStop) (now : Nat) (l : List (Bool × List Byte × List Bool)) : (k.drive now l).beats = k.beats ++ l := by
  have hkeep : ∀ (l : List (Bool × List Byte × List Bool)) (k : RingStop), (l.foldl (fun (k : RingStop) x =>
      if x.1 then { k with cw := k.cw.sendOne now } else { k with ccw := k.ccw.sendOne now }) k).beats = k.beats := fun l => by
    induction l with
    | nil => exact fun _ => rfl
    | cons x l ih =>
      intro k
      rw [List.foldl_cons, ih]
      split <;> rfl
  exact hkeep l _

/-- The direction a beat comes in on (R408). -/
def RingStop.dir (k : RingStop) (cw : Bool) : RingDir := if cw then k.cw else k.ccw

/-- The stop with that direction changed, a credit going back for the beat (R408). -/
def RingStop.put (k : RingStop) (cw : Bool) (x : RingDir) : RingStop :=
  if cw then { k with cw := { x with returned := (k.dir cw).returned + 1 } } else { k with ccw := { x with returned := (k.dir cw).returned + 1 } }

theorem RingStop.put_beats (k : RingStop) (cw : Bool) (x : RingDir) : (k.put cw x).beats = k.beats := by
  cases cw <;> rfl

/-- The stop's answer to a beat, by what its direction is at (R408). -/
theorem State.ringBeat_eq (s : State) (cw : Bool) (b : List Byte) (par : List Bool) (deaf : Bool) :
    let d := s.stop.dir cw
    let n := ringBeatCount b - 1
    s.ringBeat cw b par deaf =
      if 0 < d.fwd then (s.setDir cw { d with fwd := d.fwd - 1 }).passBeat cw b par
      else if 0 < d.drop then s.setDir cw { d with drop := d.drop - 1 }
      else if 0 < d.need then s.consumeBeat cw d (d.need - 1) b par
      else if fieldAt b 0 1 % 64 ≠ s.params.stop then
        (if deaf then (s.setDir cw { d with fwd := n }).passBeat cw b par
         else ((s.setDir cw { d with fwd := n }).passBeat cw b par).scarfPassed b)
      else if deaf then s.setDir cw { d with drop := n }
      else s.consumeBeat cw d n b par := rfl

theorem State.consumeBeat_of_bad {s : State} {cw : Bool} {b : List Byte} {par : List Bool} (h : beatParity b par = false) (left : Nat) :
    s.consumeBeat cw (s.stop.dir cw) left b par =
      ({ s with stop := s.stop.put cw { s.stop.dir cw with rx := [], need := 0, drop := left } } : State).ringFault := by
  rw [State.consumeBeat, if_neg (ne_true_of_eq_false h)]
  rfl

theorem State.consumeBeat_of_more {s : State} {cw : Bool} {b : List Byte} {par : List Bool} (h : beatParity b par = true) {left : Nat}
    (hleft : 0 < left) : s.consumeBeat cw (s.stop.dir cw) left b par =
      { s with stop := s.stop.put cw { s.stop.dir cw with rx := (s.stop.dir cw).rx ++ b, need := left } } := by
  rw [State.consumeBeat, if_pos h, if_neg (by omega)]
  rfl

theorem State.consumeBeat_of_last {s : State} {cw : Bool} {b : List Byte} {par : List Bool} (h : beatParity b par = true) :
    s.consumeBeat cw (s.stop.dir cw) 0 b par =
      ({ s with stop := s.stop.put cw { s.stop.dir cw with rx := [], need := 0 } } : State).ringDeliver ((s.stop.dir cw).rx ++ b) := by
  rw [State.consumeBeat, if_pos h, if_pos rfl]
  rfl

/-- Settles O38: a beat is forwarded, dropped, refused with a ring fault, or assembled and delivered, by the direction's counters. -/
theorem ringStopForwardsOrConsumes : Obligations.RingStopForwardsOrConsumes := by
  intro s cw data par hgo d put passed n deaf
  have hd : d = s.stop.dir cw := rfl
  have hexec := (exec_tieRingBeat hgo cw data par).trans (congrArg _ (s.ringBeat_eq cw data par s.deaf))
  have hconsume : ∀ left, let b := d.rx ++ data
      let w : State := { s with stop := put { d with rx := [], need := 0 } }
      exec (.tieRingBeat cw data par) s = .next (s.consumeBeat cw d left data par) →
      (beatParity data par = false → exec (.tieRingBeat cw data par) s =
        .next ({ s with stop := put { d with rx := [], need := 0, drop := left } } : State).ringFault) ∧
      (beatParity data par = true → 0 < left → exec (.tieRingBeat cw data par) s = .next { s with stop := put { d with rx := b, need := left } }) ∧
      (beatParity data par = true → left = 0 → exec (.tieRingBeat cw data par) s =
        .next (if bitOf (fieldAt b 0 1) 7 = true then w.freezeFrame none (b.drop 20)
          else { w with inbox := s.inbox ++ [(envOfBytes (b.drop 4), sliceOf b 20 (envOfBytes (b.drop 4)).len)] })) := by
    intro left b w hthis
    refine ⟨fun hbad => ?_, fun hgood hleft => ?_, fun hgood hleft => ?_⟩
    · rw [hthis, hd, State.consumeBeat_of_bad hbad]
      rfl
    · rw [hthis, hd, State.consumeBeat_of_more hgood hleft]
      rfl
    · rw [hthis, hleft, hd, State.consumeBeat_of_last hgood]
      rfl
  refine ⟨fun x => ?beats, fun hfwd => ?fwd, fun hfwd hdrop => ?drop, fun hfwd hdrop hneed hother => ?other, fun hfwd hdrop hneed hhere hdeaf => ?discard,
    fun hfwd hdrop hends => ?consume⟩
  case beats => exact (RingStop.drive_beats _ _ _).trans (congrArg (· ++ _) (s.stop.put_beats cw x))
  case fwd => exact hexec.trans (congrArg _ (if_pos hfwd))
  case drop => exact hexec.trans (congrArg _ ((if_neg (Nat.not_lt.2 (Nat.le_of_eq hfwd))).trans (if_pos hdrop)))
  case other =>
    have hfirst := hexec.trans (congrArg _ ((if_neg (Nat.not_lt.2 (Nat.le_of_eq hfwd))).trans ((if_neg (Nat.not_lt.2 (Nat.le_of_eq hdrop))).trans
      ((if_neg (Nat.not_lt.2 (Nat.le_of_eq hneed))).trans (if_pos hother)))))
    rw [hfirst]
    by_cases hdeaf : s.deaf = true
    · rw [if_pos hdeaf, if_pos (Or.inl (s.deaf_eq_true_iff.1 hdeaf))]
      rfl
    · rw [if_neg hdeaf, State.scarfPassed]
      by_cases hfreeze : bitOf (fieldAt data 0 1) 7 = true
      · rw [if_pos hfreeze, if_pos (Or.inr hfreeze)]
        rfl
      · rw [if_neg hfreeze, if_neg (fun h => h.elim (fun h => hdeaf (s.deaf_eq_true_iff.2 h)) hfreeze)]
        rfl
  case discard =>
    exact hexec.trans (congrArg _ ((if_neg (Nat.not_lt.2 (Nat.le_of_eq hfwd))).trans ((if_neg (Nat.not_lt.2 (Nat.le_of_eq hdrop))).trans
      ((if_neg (Nat.not_lt.2 (Nat.le_of_eq hneed))).trans ((if_neg (Classical.not_not.2 hhere)).trans (if_pos (s.deaf_eq_true_iff.2 hdeaf)))))))
  case consume =>
    intro left b w
    refine hconsume left (hexec.trans (congrArg _ ((if_neg (Nat.not_lt.2 (Nat.le_of_eq hfwd))).trans ((if_neg (Nat.not_lt.2 (Nat.le_of_eq hdrop))).trans ?_))))
    by_cases hneed : 0 < d.need
    · have hleft : left = d.need - 1 := if_pos hneed
      rw [hleft]
      exact if_pos hneed
    · obtain ⟨hhere, hhears⟩ := hends.resolve_left hneed
      have hleft : left = n := if_neg hneed
      rw [hleft]
      exact (if_neg hneed).trans ((if_neg (Classical.not_not.2 hhere)).trans (if_neg fun h => hhears (s.deaf_eq_true_iff.1 h)))

end Sys2Proof.Machine
end

section
/-! PROOFS. The fault of an attempt (15_ R381 to R386), and what faults, freezes and messages leave alone. -/

namespace Sys2Proof.Machine

/-! ### The fault of an attempt (R382, R385, R386) -/

theorem State.dropOffcut_eq (s : State) (p : Part) :
    s.dropOffcut p = { s with port := (s.dropOffcut p).port, offcut := (s.dropOffcut p).offcut, offcutUse := (s.dropOffcut p).offcutUse } := by
  unfold State.dropOffcut
  split
  · dsimp only
    split <;> rfl
  · rfl

theorem State.dropWaiting_eq (s : State) (p : Part) : s.dropWaiting p =
    { s with port := (s.dropWaiting p).port, offcut := (s.dropWaiting p).offcut, offcutUse := (s.dropWaiting p).offcutUse } := by
  unfold State.dropWaiting
  dsimp only
  rw [s.dropOffcut_eq p]

theorem State.breakPromise_eq (s : State) (c : Fin 16) : s.breakPromise c = { s with sched := (s.breakPromise c).sched } := by
  unfold State.breakPromise
  split <;> rfl

/-- How an attempt that faults is disposed of (R385, R386). -/
def faultDisp (e : Entry) (strand : Bool) : Disposition :=
  if (Desc.parse e.desc).accum || strand || decide (3 ≤ e.attempt) then .stranded else .reexec

/-- The entries of a fault (R382, R386). -/
def State.faultLogged (s : State) (c : Fin 16) (e : Entry) (code detail : Nat) (place : Option (Nat × Nat)) (strand : Bool) (seq : Nat) : State :=
  let t := s.logDesc code (if faultDisp e strand = .stranded then 3 else 2) s.sin c.val e.attempt seq ((s.cfg c).gang != 0) place detail
  if decide (3 ≤ e.attempt) then t.logDesc codeLimit 3 s.sin c.val e.attempt seq ((s.cfg c).gang != 0) none 0 else t

theorem State.faultLogged_eq (s : State) (c : Fin 16) (e : Entry) (code detail : Nat) (place : Option (Nat × Nat)) (strand : Bool) (seq : Nat) :
    s.faultLogged c e code detail place strand seq =
      { s with log := (s.faultLogged c e code detail place strand seq).log, irqStatus := s.irqStatus ||| 64 } := by
  have htwice : s.irqStatus ||| 64 ||| 64 = s.irqStatus ||| 64 := by rw [BitVec.or_assoc, BitVec.or_self]
  unfold State.faultLogged
  dsimp only
  split
  · rw [← htwice]
    rfl
  · rfl

/-- The channel of a fault of its head `e`: halted, its validation gone, its job draining (R382, R385). -/
def Chan.faulted (x : Chan) (e : Entry) (l : List Entry) (strand : Bool) (now : Nat) (lost : Option Nat) : Chan :=
  { x with
    st := .halt, val := none, job := x.job.map Job.drain
    halted := some { disp := faultDisp e strand, time := now, start := match x.job with | some j => j.start | none => now, lostUntil := lost }
    queue := { e with
      attempt := if faultDisp e strand = .reexec then e.attempt + 1 else e.attempt
      blocks := mergeBlocks ((x.val.map (·.blocks)).getD []) e.blocks } :: l }

/-- The state of a fault of the head before its channel changes: entries made, what waited dropped, the promise ended (R98, R382). -/
def State.faultBegun (s : State) (c : Fin 16) (e : Entry) (code detail : Nat) (place : Option (Nat × Nat)) (strand : Bool) (seq : Nat) : State :=
  ((s.faultLogged c e code detail place strand seq).dropWaiting (.chan c)).breakPromise c

theorem State.faultBegun_eq (s : State) (c : Fin 16) (e : Entry) (code detail : Nat) (place : Option (Nat × Nat)) (strand : Bool) (seq : Nat) :
    let u := s.faultBegun c e code detail place strand seq
    u = { s with port := u.port, offcut := u.offcut, offcutUse := u.offcutUse, sched := u.sched, log := u.log
                 irqStatus := s.irqStatus ||| 64 } := by
  unfold State.faultBegun
  dsimp only
  rw [State.breakPromise_eq, State.dropWaiting_eq, s.faultLogged_eq c e code detail place strand seq]

theorem State.onHead_onChan (u : State) (c : Fin 16) (f : Chan → Chan) (g : Entry → Entry) {e : Entry} {l : List Entry}
    (hq : (f u.chans[c]).queue = e :: l) :
    (u.onChan c f).onHead c g = { u with chans := u.chans.set c { f u.chans[c] with queue := g e :: l } } := by
  simp only [State.onHead, State.onChan, State.setChan, getElem_set_fin_self, Vector.set_set, hq]

/-- A fault of the head: its channel, what of it waited, the promise, the entries. -/
theorem State.faultHead_eq {s : State} {c : Fin 16} {e : Entry} {l : List Entry} (hq : s.chans[c].queue = e :: l) (code detail : Nat)
    (place : Option (Nat × Nat)) (strand : Bool) (seq : Nat) (lost : Option Nat) : s.faultHead c code detail place strand seq lost =
      { s.faultBegun c e code detail place strand seq with chans := s.chans.set c (s.chans[c].faulted e l strand s.count lost) } := by
  have hchans : (s.faultBegun c e code detail place strand seq).chans = s.chans := by rw [s.faultBegun_eq c e code detail place strand seq]
  have hsteps : s.faultHead c code detail place strand seq lost = ((s.faultBegun c e code detail place strand seq).onChan c fun x => { x with
      st := .halt, val := none, job := x.job.map Job.drain
      halted := some { disp := faultDisp e strand, time := s.count, start := (match s.chans[c].job with | some j => j.start | none => s.count)
                       lostUntil := lost } }).onHead c fun y => { y with
      attempt := if faultDisp e strand = .reexec then y.attempt + 1 else y.attempt
      blocks := mergeBlocks ((s.chans[c].val.map (·.blocks)).getD []) y.blocks } := by
    unfold State.faultHead
    rw [hq]
    rfl
  rw [hsteps, State.onHead_onChan _ _ _ _ (by rw [hchans]; exact hq), hchans]
  rfl

theorem State.faultHead_chans {s : State} {c : Fin 16} {e : Entry} {l : List Entry} (hq : s.chans[c].queue = e :: l) (code detail : Nat)
    (place : Option (Nat × Nat)) (strand : Bool) (seq : Nat) (lost : Option Nat) :
    (s.faultHead c code detail place strand seq lost).chans = s.chans.set c (s.chans[c].faulted e l strand s.count lost) := by
  rw [State.faultHead_eq hq]

theorem faultDisp_eq (e : Entry) (strand : Bool) :
    faultDisp e strand = if !((Desc.parse e.desc).accum || strand || decide (3 ≤ e.attempt)) then .reexec else .stranded := by
  unfold faultDisp
  cases (Desc.parse e.desc).accum || strand || decide (3 ≤ e.attempt) <;> rfl

/-- Settles O11: the fault's channel, with its attempt counted up exactly where it is to be re-executed. -/
theorem faultHaltsTheChannel : Obligations.FaultHaltsTheChannel := by
  intro s c e l code detail seq place strand lost hq t again
  have hchans : t.chans = s.chans.set c (s.chans[c].faulted e l strand s.count lost) := State.faultHead_chans hq code detail place strand seq lost
  have hchan : t.chans[c] = s.chans[c].faulted e l strand s.count lost := by rw [hchans, getElem_set_fin_self]
  have hdisp : faultDisp e strand = if again then .reexec else .stranded := faultDisp_eq e strand
  have hattempt : (if faultDisp e strand = .reexec then e.attempt + 1 else e.attempt) = if again then e.attempt + 1 else e.attempt := by
    rw [hdisp]
    cases again <;> rfl
  refine ⟨by rw [hchan]; rfl, by rw [hchan]; rfl, ?_, ⟨_, by rw [hchan]; rfl, hdisp, rfl, rfl, rfl⟩, fun j hj => ?_, fun k hk => ?_, ?_⟩
  · rw [hchan, ← hattempt]
    rfl
  · rw [hchan, Chan.faulted, hj]
    rfl
  · rw [hchans, getElem_set_fin_ne _ _ hk]
  · have ht : t = _ := State.faultHead_eq hq code detail place strand seq lost
    rw [ht, s.faultBegun_eq c e code detail place strand seq]

/-! ### What a fault of the instance and a freeze leave alone (R370, R396) -/

/-- `t` is `s` after messages, faults and freezes: the clocks, the image, the settings, the ownership and the raises stand. -/
def State.Struck (s t : State) : Prop :=
  t = { s with
    chans := t.chans, shares := t.shares, port := t.port, offcut := t.offcut, offcutUse := t.offcutUse, sched := t.sched, log := t.log
    irqStatus := t.irqStatus, ctr := t.ctr, net := t.net, stop := t.stop, kports := t.kports, lg := t.lg, draining := t.draining
    frz := t.frz, pins := t.pins, bays := { s.bays with configCE := t.bays.configCE } }

theorem State.Struck.refl (s : State) : s.Struck s := rfl

theorem State.Struck.trans {s t u : State} (h : s.Struck t) (k : t.Struck u) : s.Struck u := by
  unfold State.Struck at *
  rw [k, h]

theorem State.Struck.foldl {α : Type} {step : State → α → State} (hstep : ∀ (s : State) (x : α), s.Struck (step s x)) (l : List α) (s : State) :
    s.Struck (l.foldl step s) := by
  induction l generalizing s with
  | nil => exact .refl s
  | cons a l ih => exact (hstep s a).trans (ih _)

theorem State.Halts.struck {s t : State} (h : s.Halts t) : s.Struck t := by
  unfold State.Struck
  rw [h]

theorem State.Sends.struck {s t : State} (h : s.Sends t) : s.Struck t := h.halts.struck

theorem State.Struck.clk_eq {s t : State} (h : s.Struck t) : t.clk = s.clk := by rw [h]

theorem State.startFreeze_struck (s : State) (cause origin id scope hops : Nat) (frames : Bool) (except : Option (Fin 2)) :
    s.Struck (s.startFreeze cause origin id scope hops frames except) := by
  unfold State.startFreeze
  dsimp only
  split <;> rfl

theorem State.freezeHere_struck (s : State) (cause : Nat) : s.Struck (s.freezeHere cause) := by
  unfold State.freezeHere
  split
  · rfl
  · refine (s.startFreeze_struck cause s.sin s.newFreezeId s.frz.scope 0 s.frz.propagate none).trans ?_
    rfl

theorem State.enterFault_struck (s : State) (entry : List Byte) : s.Struck (s.enterFault entry) := by
  refine State.Struck.trans ?_ (s.enterFault_halts entry).struck
  rfl

theorem State.instanceFault_struck (s : State) (entry : List Byte) : s.Struck (s.instanceFault entry) := by
  unfold State.instanceFault
  split
  · rfl
  · split
    · split <;> rfl
    · split
      · refine (s.freezeHere_struck 4).trans ?_
        rfl
      · exact s.enterFault_struck entry

theorem State.readConfig_struck (s : State) : s.Struck s.readConfig := by
  have hclear : s.Struck { s with bays := { s.bays with configCE := [] } } := rfl
  have hread := hclear.trans (State.Struck.foldl (step := fun s _ => s.corrected 5 0) (fun s _ => (s.corrected_halts 5 0).struck) s.bays.configCE _)
  unfold State.readConfig
  dsimp only
  split
  · exact hread
  · refine hread.trans (State.Struck.trans ?_ (State.instanceFault_struck _ _))
    rfl

theorem State.netSend_struck (s : State) (e : Envelope) (b : List Byte) : s.Struck (s.netSend e b) := by
  unfold State.netSend
  dsimp only
  split
  · exact s.readConfig_struck
  · exact s.readConfig_struck.trans (State.netPut_sends _ e b).struck

theorem State.sendScarf_struck (s : State) (ready : Bool) : s.Struck (s.sendScarf ready) := by
  unfold State.sendScarf
  split
  · rfl
  · dsimp only
    split
    · refine s.readConfig_struck.trans ?_
      unfold State.putScarf
      split
      · rfl
      · exact State.Struck.foldl (fun t h => (t.netPut_sends _ _).struck) _ _
    · exact s.readConfig_struck

theorem State.sendRingTime_struck (s : State) (l : List Nat) : s.Struck (s.sendRingTime l) := by
  unfold State.sendRingTime
  split
  · rfl
  · exact State.Struck.foldl (fun t m => t.netSend_struck _ _) _ _

theorem State.faultHead_struck (s : State) (c : Fin 16) (code detail : Nat) (place : Option (Nat × Nat)) (strand : Bool) (seq : Nat)
    (lost : Option Nat) : s.Struck (s.faultHead c code detail place strand seq lost) := by
  cases hq : s.chans[c].queue with
  | nil =>
    have hnone : s.faultHead c code detail place strand seq lost = s := by
      unfold State.faultHead
      rw [hq]
    rw [hnone]
    exact .refl s
  | cons e l =>
    rw [State.faultHead_eq hq, s.faultBegun_eq c e code detail place strand seq]
    rfl

theorem State.checkGangs_struck (s : State) : s.Struck s.checkGangs := by
  refine State.Struck.foldl (fun t c => ?_) channels s
  dsimp only
  split
  · split
    · exact t.faultHead_struck c _ _ _ _ _ _
    · rfl
  · rfl

end Sys2Proof.Machine
end

section
/-! PROOFS. Time transfer (12_ R317 to R324): TIME flits, the servo, the ring pulse of a SYNC instance and of a time source. -/

namespace Sys2Proof.Machine

/-! ### What the passage of time leaves of the clocks -/

/-- `t` is the clocks `c` after edges of the plumb clock: the servo's part stands. -/
def Clk.Runs (c t : Clk) : Prop :=
  t = { c with count := t.count, frac := t.frac, edges := t.edges, mgmt := t.mgmt, arith := t.arith, arithPhase := t.arithPhase }

theorem Clk.run_runs (c : Clk) (on : Bool) (m n : Nat) : c.Runs (c.run on m n) := by
  cases on <;> rfl

theorem State.untilCount_runs (s : State) (n : Nat) : s.clk.Runs (s.untilCount n).clk := Clk.run_runs _ _ _ _

/-! ### TIME flits (R323) -/

theorem b2n_mod_byte (b : Bool) : b2n b % 256 = b2n b := by cases b <;> rfl

theorem State.timePayload_untilCount (s : State) (n : Nat) (p : Fin 2) : (s.untilCount n).timePayload p = s.timePayload p := by
  have hlocked : (s.untilCount n).clk.locked = s.clk.locked := by rw [s.untilCount_runs n]
  unfold State.timePayload
  rw [hlocked]
  rfl

/-- Table 12.11's payload, field by field. -/
theorem State.timePayload_fields (s : State) (p : Fin 2) :
    fieldAt (s.timePayload p) 0 2 = s.sin % 2 ^ 16 ∧ fieldAt (s.timePayload p) 2 1 = s.image.role % 2 ^ 8 ∧
    fieldAt (s.timePayload p) 3 1 = b2n s.clk.locked ∧ fieldAt (s.timePayload p) 4 4 = s.kports[p].txTid % 2 ^ 32 ∧
    fieldAt (s.timePayload p) 8 8 = ((s.kports[p].txTs.lookup ((s.kports[p].txTid + 2 ^ 32 - 1) % 2 ^ 32)).getD 0) % 2 ^ 64 ∧
    fieldAt (s.timePayload p) 16 4 = s.kports[p].rxTid % 2 ^ 32 ∧ fieldAt (s.timePayload p) 24 8 = s.kports[p].rxTs % 2 ^ 64 := by
  have hzeros : zeros 4 = natLE 4 0 := rfl
  have hlast : ∀ n v, fieldAt (natLE n v) 0 n = v % 256 ^ n := fun n v => by
    have h := fieldAt_natLE n v []
    rwa [List.append_nil] at h
  unfold State.timePayload
  simp only [List.append_assoc, hzeros]
  simp (disch := decide) only [fieldAt_natLE_append, fieldAt_natLE, hlast, Nat.reduceSub, Nat.reducePow, b2n_mod_byte, and_self]

/-! ### The servo (R321, R322) -/

theorem State.unlock_clk (s : State) (detail : Nat) : (s.unlock detail).clk =
    if s.clk.locked = true ∧ s.nv.phase = 7 then { s.clk with locked := false } else s.clk := by
  unfold State.unlock
  by_cases h : s.clk.locked = true ∧ s.nv.phase = 7
  · rw [if_pos (by simpa using h), if_pos h, (State.checkGangs_struck _).clk_eq, (State.sendScarf_struck _ _).clk_eq]
    rfl
  · rw [if_neg (by simpa using h), if_neg h]

theorem State.lockNow_clk (s : State) : s.lockNow.clk = { s.clk with locked := true } := by
  unfold State.lockNow
  rw [(State.sendRingTime_struck _ _).clk_eq, (State.sendScarf_struck _ _).clk_eq]

/-- The estimates after one more (R322): counted after READY, and in alignment once stepped or where it is good. -/
def State.estimates (s : State) (theta : Int) (good : Bool) : List Int :=
  let es := if s.nv.phase == 7 || (s.nv.phase == 6 && (s.clk.stepped || good)) then s.clk.estimates ++ [theta] else s.clk.estimates
  es.drop (es.length - 256)

/-- The state with the estimate noted. -/
def State.estimated (s : State) (theta : Int) (good : Bool) : State :=
  { s with clk := { s.clk with theta := theta, estimates := s.estimates theta good } }

theorem State.estimate_of_ready {s : State} (h : s.nv.phase = 7) (theta : Int) (good : Bool) : s.estimate theta good =
    if s.clk.locked = true ∧ (theta < -8192 ∨ 8192 < theta) then (s.estimated theta good).unlock 0 else (s.estimated theta good).trimmed := if_pos h

theorem State.estimate_of_alignment {s : State} (h : s.nv.phase = 6) (theta : Int) (good : Bool) : s.estimate theta good =
    if s.clk.stepped then
      (if settled (s.estimates theta good) ∧ s.clk.locked = false then (s.estimated theta good).trimmed.lockNow else (s.estimated theta good).trimmed)
    else if (s.estimates theta good).length = 256 then
      { s.estimated theta good with clk := (s.estimated theta good).clk.stepBack (s.estimates theta good).sum }
    else s.estimated theta good := (if_neg (by rw [h]; decide)).trans (if_pos h)

theorem State.estimate_of_other {s : State} (h : s.nv.phase ≠ 7) (h' : s.nv.phase ≠ 6) (theta : Int) (good : Bool) :
    s.estimate theta good = s.estimated theta good := (if_neg h).trans (if_neg h')

/-- The estimate shown is the last one made (R322). -/
theorem State.estimate_theta (s : State) (theta : Int) (good : Bool) : (s.estimate theta good).clk.theta = theta := by
  by_cases h7 : s.nv.phase = 7
  · rw [State.estimate_of_ready h7]
    split
    · rw [State.unlock_clk]
      split <;> rfl
    · rfl
  · by_cases h6 : s.nv.phase = 6
    · rw [State.estimate_of_alignment h6]
      split
      · split
        · rw [State.lockNow_clk]
          rfl
        · rfl
      · split <;> rfl
    · rw [State.estimate_of_other h7 h6]
      rfl

/-- TRIM stays within its range and within 100 ppm of the rate that alignment left (R317, R322). -/
theorem within_rate {rate t : Int} (hlow : -(2 : Int) ^ 22 ≤ rate) (hhigh : rate ≤ (2 : Int) ^ 22) :
    rate - 429496 ≤ within 0 ((2 : Int) ^ 22) (within rate 429496 t) ∧ within 0 ((2 : Int) ^ 22) (within rate 429496 t) ≤ rate + 429496 ∧
      -(2 : Int) ^ 22 ≤ within 0 ((2 : Int) ^ 22) (within rate 429496 t) ∧ within 0 ((2 : Int) ^ 22) (within rate 429496 t) ≤ (2 : Int) ^ 22 := by
  unfold within
  omega

/-- COUNT set back by a mean of 256 offsets (R322, R324). -/
theorem Clk.stepBack_time (c : Clk) (sum : Int) : (c.stepBack sum).time = (c.time - sum * (2 : Int) ^ 15) % (2 : Int) ^ 96 := by
  have h := count_mul_add_frac 0#64 ((c.time - sum * (2 : Int) ^ 15) / (2 : Int) ^ 32) ((c.time - sum * (2 : Int) ^ 15) % (2 : Int) ^ 32)
    (Int.emod_nonneg _ (by decide)) (Int.emod_lt_of_pos _ (by decide))
  rw [BitVec.zero_add, BitVec.toNat_zero] at h
  refine h.trans (congrArg (· % (2 : Int) ^ 96) ?_)
  rw [Int.natCast_zero, Int.zero_mul, Int.zero_add, Int.mul_comm, Int.mul_ediv_add_emod]

/-! ### A TIME flit taken (R323, R324) -/

section TimeIn
variable {s : State} {p : Fin 2} {flit : List Byte}

/-- The port after a TIME flit's contents. -/
def KPort.timed (k : KPort) (flit : List Byte) (ts : Nat) : KPort :=
  { k with rxTid := fieldAt (flit.drop 8) 4 4, rxTs := ts, rxHist := ((fieldAt (flit.drop 8) 4 4, ts) :: k.rxHist).take 2 }

theorem State.timeIn_of_other (h : ¬ (s.image.role = 1 ∧ s.image.parentPort = p.val)) (ts : Nat) :
    s.timeIn p flit ts = s.setPort p (s.kports[p].timed flit ts) := by
  unfold State.timeIn
  dsimp only
  split
  case isTrue hchild => exact absurd hchild h
  case isFalse => rfl

theorem State.timeIn_of_child (h : s.image.role = 1 ∧ s.image.parentPort = p.val) {ts b1 b2 : Nat}
    (h1 : (((fieldAt (flit.drop 8) 4 4, ts) :: s.kports[p].rxHist).take 2).lookup ((fieldAt (flit.drop 8) 4 4 + 2 ^ 32 - 1) % 2 ^ 32) = some b1)
    (h2 : s.kports[p].txTs.lookup (fieldAt (flit.drop 8) 16 4) = some b2) : s.timeIn p flit ts =
      (s.setPort p (s.kports[p].timed flit ts)).estimate (tsDiff b1 (fieldAt (flit.drop 8) 8 8) - tsDiff (fieldAt (flit.drop 8) 24 8) b2 -
        2 * (s.image.ports.getD p.val {}).asym) (bitOf (fieldAt (flit.drop 8) 3 1) 0) := by
  unfold State.timeIn
  dsimp only
  split
  case isTrue =>
    split
    next c1 c2 hc1 hc2 =>
      obtain rfl := Option.some.inj (h1.symm.trans hc1)
      obtain rfl := Option.some.inj (h2.symm.trans hc2)
      rfl
    next hnone => exact absurd h2 (hnone _ _ h1)
  case isFalse hchild => exact absurd h hchild

end TimeIn

/-- A good TIME flit on an up port, when it has arrived. -/
theorem exec_timeFlit {s : State} {p : Fin 2} {rx : FlitRx} (hlive : s.live) (hup : s.kports[p].st = .up) (hgood : flitGood (decodeFlit rx) = true)
    (htype : fieldAt (decodeFlit rx) 0 1 = 3) (arrival : Word64) : exec (.timeFlit p rx arrival) s =
      let v := s.untilCount arrival.toNat
      .next ((v.setPort p (v.acked p (decodeFlit rx))).timeIn p (decodeFlit rx) v.clk.stamp) := by
  have hlive' : (s.untilCount arrival.toNat).live := hlive
  have hin := State.flitIn_of_other hlive' hup hgood (by rw [htype]; decide)
  have hheard : ((s.untilCount arrival.toNat).linkRuns && (s.untilCount arrival.toNat).kports[p].st == .up && flitGood (decodeFlit rx) &&
      fieldAt (decodeFlit rx) 0 1 == 3) = true := by
    have hup' : (s.untilCount arrival.toNat).kports[p].st = .up := hup
    rw [hlive'.linkRuns_eq_true, hup', hgood, htype]
    rfl
  calc exec (.timeFlit p rx arrival) s = execTimeFlit p rx arrival s := rfl
    _ = _ := (if_pos hheard).trans (by rw [hin])

/-- R323: the TIME flit of a port leaves 4,096 counts after the last one. -/
theorem exec_timeFlitSend {s : State} {p : Fin 2} (hlive : s.live) (hup : s.kports[p].st = .up) (departure : Word64) :
    exec (.timeFlitSend p departure) s =
      let k := s.kports[p]
      let v := s.untilCount (k.timeAt + 4096)
      let w := v.untilCount departure.toNat
      .next (w.setPort p { k.emit 3 0 0 0 (s.timePayload p) with
        txTs := ((k.txTid, w.clk.stamp) :: k.txTs).take 16, txTid := (k.txTid + 1) % 2 ^ 32, timeAt := v.count }) := by
  have hsends : (s.linkRuns && s.kports[p].st == .up) = true := by
    rw [hlive.linkRuns_eq_true, hup]
    rfl
  rw [show exec (.timeFlitSend p departure) s = execTimeFlitSend p departure s from rfl, execTimeFlitSend]
  simp only [hsends, if_true, State.timePayload_untilCount]

/-! ### A child's estimate (R324) -/

theorem State.trimmed_trim {s : State} (h7 : s.nv.phase = 7) :
    s.trimmed.clk.trim = within 0 ((2 : Int) ^ 22) (within s.clk.rate 429496 (Config.servoTrim s.free)) :=
  congrArg (within 0 ((2 : Int) ^ 22)) (if_pos h7)

section Child
variable {s : State} {theta : Int} {good : Bool}

theorem State.estimate_unlocks (h7 : s.nv.phase = 7) (hlocked : s.clk.locked = true) (hfar : theta < -8192 ∨ 8192 < theta) :
    (s.estimate theta good).clk.locked = false ∧ (s.estimate theta good).clk.trim = s.clk.trim := by
  rw [State.estimate_of_ready h7, if_pos ⟨hlocked, hfar⟩, State.unlock_clk, if_pos ⟨hlocked, h7⟩]
  exact ⟨rfl, rfl⟩

theorem State.estimate_trims (h7 : s.nv.phase = 7) (hnear : s.clk.locked = false ∨ (-8192 ≤ theta ∧ theta ≤ 8192))
    (hlow : -(2 : Int) ^ 22 ≤ s.clk.rate) (hhigh : s.clk.rate ≤ (2 : Int) ^ 22) :
    (s.estimate theta good).clk.locked = s.clk.locked ∧ s.clk.rate - 429496 ≤ (s.estimate theta good).clk.trim ∧
      (s.estimate theta good).clk.trim ≤ s.clk.rate + 429496 ∧
      -(2 : Int) ^ 22 ≤ (s.estimate theta good).clk.trim ∧ (s.estimate theta good).clk.trim ≤ (2 : Int) ^ 22 := by
  have hstays : ¬ (s.clk.locked = true ∧ (theta < -8192 ∨ 8192 < theta)) := by
    rintro ⟨hlocked, hfar⟩
    rcases hnear with hnot | hnear
    · rw [hlocked] at hnot
      exact nomatch hnot
    · omega
  rw [State.estimate_of_ready h7, if_neg hstays, State.trimmed_trim (s := s.estimated theta good) h7]
  exact ⟨rfl, within_rate hlow hhigh⟩

/-- Before the step an estimate against a parent that is not locked is not one of the 256. -/
theorem State.estimate_of_unlocked_parent (h6 : s.nv.phase = 6) (hstepped : s.clk.stepped = false) (hcount : s.clk.estimates.length < 256) :
    s.estimate theta false = s.estimated theta false := by
  have hes : s.estimates theta false = s.clk.estimates := by
    unfold State.estimates
    rw [h6, hstepped]
    simp only [Nat.reduceBEq, Bool.or_self, Bool.and_false, Bool.false_eq_true, if_false]
    rw [Nat.sub_eq_zero_of_le (Nat.le_of_lt hcount), List.drop_zero]
  rw [State.estimate_of_alignment h6, if_neg (by rw [hstepped]; decide), hes, if_neg (Nat.ne_of_lt hcount)]

/-- The 256th estimate against a locked parent sets COUNT back by the mean (R324). -/
theorem State.estimate_steps (h6 : s.nv.phase = 6) (hstepped : s.clk.stepped = false) (hcount : s.clk.estimates.length = 255) :
    s.estimate theta true =
      { s.estimated theta true with clk := (s.estimated theta true).clk.stepBack (s.clk.estimates.sum + theta) } := by
  have hes : s.estimates theta true = s.clk.estimates ++ [theta] := by
    unfold State.estimates
    rw [h6, hstepped]
    simp only [Nat.reduceBEq, BEq.rfl, Bool.or_true, Bool.and_self, if_true, List.length_append, hcount, List.length_singleton,
      Nat.reduceAdd, Nat.sub_self, List.drop_zero]
  rw [State.estimate_of_alignment h6, if_neg (by rw [hstepped]; decide), hes, if_pos (by rw [List.length_append, hcount]; rfl),
    List.sum_append, List.sum_singleton]

end Child

/-! ### Pulses (R319, R325) -/

theorem exec_syncInEdge {s : State} (hlive : s.live) (hvisible : s.visible = true) (hrole : s.image.role = 2) (ts pulse : Nat) :
    exec (.syncInEdge ts pulse) s =
      let v := s.untilCount (ts / 8)
      if s.nv.phase = 6 ∧ s.clk.stepped = false ∧ s.clk.ringTime = some pulse then
        .next { v with clk := { v.clk with
          count := BitVec.ofNat 64 (pulse + (160 + s.image.syncDelay) / 8), frac := BitVec.ofNat 32 ((160 + s.image.syncDelay) % 8 * 2 ^ 29)
          stepped := true, estimates := [], ringTime := none } }
      else .next (v.estimate (64 * syncError ts s.image.syncDelay) false) := by
  have hhears : ¬ (s.pins.rstN = false ∨ s.lg = .frozen ∨ s.visible = false ∨ s.image.role ≠ 2) := by
    rintro (h | h | h | h)
    · exact Bool.noConfusion (hlive.1.symm.trans h)
    · exact hlive.lg_ne_frozen h
    · exact Bool.noConfusion (hvisible.symm.trans h)
    · exact h hrole
  have hruns := s.untilCount_runs (ts / 8)
  have hstepped : (s.untilCount (ts / 8)).clk.stepped = s.clk.stepped := by rw [hruns]
  have hring : (s.untilCount (ts / 8)).clk.ringTime = s.clk.ringTime := by rw [hruns]
  rw [show exec (.syncInEdge ts pulse) s = execSyncInEdge ts pulse s from rfl, execSyncInEdge, if_neg hhears]
  dsimp only
  rw [hstepped, hring]
  rfl

theorem exec_syncOutPulse {s : State} (hlive : s.live) (hvisible : s.visible = true) (hrole : s.image.role ≠ 2) :
    exec .syncOutPulse s =
      let n := roundUp s.count 4096
      .next { s.untilCount n with pins := { s.pins with syncOut := s.pins.syncOut + 1, syncTill := n + 64 } } := by
  have hsources : ¬ (s.pins.rstN = false ∨ s.visible = false ∨ s.image.role = 2) := by
    rintro (h | h | h)
    · exact Bool.noConfusion (hlive.1.symm.trans h)
    · exact Bool.noConfusion (hvisible.symm.trans h)
    · exact hrole h
  exact if_neg hsources

/-- A counter that does not run fast meets each count exactly. -/
theorem State.untilCount_eq_of_slow {s : State} (hinv : s.Inv) {n : Nat} (hge : s.count ≤ n) (hn : n < 2 ^ 64 - 1) (hslow : s.clk.trim ≤ 0) :
    (s.untilCount n).count = n := by
  have hlow := hinv.trimLow
  by_cases hnow : n ≤ s.count
  · rw [State.untilCount_of_le hinv hnow]
    omega
  · have hlt : s.clk.count.toNat < n := Nat.lt_of_not_le hnow
    obtain ⟨hreached, hwithin, -⟩ := Clk.edgesTo_spec hlt (show 0 < (2 : Int) ^ 32 + s.clk.trim by omega)
    have hcount := State.pass_count_eq (s := s) (m := s.clk.edgesTo n) (by omega) (by omega)
    rw [State.untilCount]
    omega

/-- Settles O41: what each of the four events of time transfer does. -/
theorem timeIsKeptAndSent : Obligations.TimeIsKeptAndSent := by
  intro s hlive
  refine ⟨fun p departure hup => ⟨exec_timeFlitSend hlive hup departure, s.timePayload_fields p⟩, ?flit, ?edge, ?pulse⟩
  case flit =>
    intro p rx arrival flit hup hgood htype v b tid ts hist
    have hexec : exec (.timeFlit p rx arrival) s = .next ((v.setPort p (v.acked p flit)).timeIn p flit ts) :=
      exec_timeFlit hlive hup hgood htype arrival
    have hacked : KPort.Transmits _ (v.acked p flit) := v.acked_transmits p flit
    have hself : (v.setPort p (v.acked p flit)).kports[p] = v.acked p flit := v.setPort_self p _
    have hhist : (v.acked p flit).rxHist = s.kports[p].rxHist := by
      rw [hacked]
      rfl
    have hts : (v.acked p flit).txTs = s.kports[p].txTs := by
      rw [hacked]
      rfl
    refine ⟨fun hnot => ?_, fun b1 b2 hrole hparent h1 h2 => ?_⟩
    · have hother := State.timeIn_of_other (s := v.setPort p (v.acked p flit)) (p := p) (flit := flit) hnot ts
      refine ⟨_, hexec.trans (congrArg _ hother), ?_, ?_, ?_, fun q hq => ?_, rfl⟩
      · rw [State.setPort_self]
        rfl
      · rw [State.setPort_self]
        rfl
      · rw [State.setPort_self, hself]
        unfold KPort.timed
        rw [hhist]
      · rw [State.setPort_ne _ hq, State.setPort_ne _ hq]
        rfl
    · have hprev : ((tid, ts) :: (v.setPort p (v.acked p flit)).kports[p].rxHist).take 2 = hist := by rw [hself, hhist]
      have hsent : (v.setPort p (v.acked p flit)).kports[p].txTs = s.kports[p].txTs := by rw [hself, hts]
      have hchild := State.timeIn_of_child (s := v.setPort p (v.acked p flit)) (p := p) (flit := flit) (ts := ts) ⟨hrole, hparent⟩
        ((congrArg _ hprev).trans h1) ((congrArg _ hsent).trans h2)
      have hruns := s.untilCount_runs arrival.toNat
      generalize hu : (v.setPort p (v.acked p flit)).setPort p ((v.setPort p (v.acked p flit)).kports[p].timed flit ts) = u at hchild
      have hclk : u.clk = v.clk := by rw [← hu]; rfl
      have hphase : u.nv.phase = s.nv.phase := by rw [← hu]; rfl
      have hlockedEq : u.clk.locked = s.clk.locked := by rw [hclk, hruns]
      have htrimEq : u.clk.trim = s.clk.trim := by rw [hclk, hruns]
      have hrateEq : u.clk.rate = s.clk.rate := by rw [hclk, hruns]
      have hsteppedEq : u.clk.stepped = s.clk.stepped := by rw [hclk, hruns]
      have hestEq : u.clk.estimates = s.clk.estimates := by rw [hclk, hruns]
      rw [← hphase, ← hclk]
      intro theta
      refine ⟨_, hexec.trans (congrArg _ hchild), State.estimate_theta _ _ _, fun h7 hlocked hfar => ?_, fun h7 hnear hlow hhigh => ?_,
        fun h6 hstepped hgood' hcount => ?_, fun h6 hstepped hgood' hcount => ?_⟩
      · obtain ⟨hunlocked, htrim⟩ := State.estimate_unlocks (s := u) (good := bitOf (fieldAt b 3 1) 0) h7 (by rw [hlockedEq, hlocked]) hfar
        exact ⟨hunlocked, htrim.trans htrimEq⟩
      · have htrims := State.estimate_trims (s := u) (good := bitOf (fieldAt b 3 1) 0) h7 (by rw [hlockedEq]; exact hnear)
          (by rw [hrateEq]; exact hlow) (by rw [hrateEq]; exact hhigh)
        rw [hlockedEq, hrateEq] at htrims
        exact htrims
      · have hstep := (congrArg (u.estimate theta) hgood').trans
          (State.estimate_of_unlocked_parent h6 (hsteppedEq.trans hstepped) (by rw [hestEq]; exact hcount))
        exact ⟨congrArg (·.clk.count) hstep, (congrArg (·.clk.stepped) hstep).trans (hsteppedEq.trans hstepped)⟩
      · have hstep := (congrArg (u.estimate theta) hgood').trans
          (State.estimate_steps h6 (hsteppedEq.trans hstepped) (by rw [hestEq]; exact hcount))
        rw [hestEq] at hstep
        exact ⟨congrArg (·.clk.stepped) hstep, (congrArg (·.clk.time) hstep).trans (Clk.stepBack_time _ _)⟩
  case edge =>
    intro ts pulse hvisible hrole
    have hexec := exec_syncInEdge hlive hvisible hrole ts pulse
    refine ⟨fun h6 hstepped hring => ?_, fun hnot => ?_⟩
    · exact ⟨_, hexec.trans (if_pos ⟨h6, hstepped, hring⟩), rfl, rfl, rfl, rfl, rfl⟩
    · exact ⟨_, hexec.trans (if_neg hnot), State.estimate_theta _ _ _⟩
  case pulse =>
    intro hvisible hrole hinv hroom
    have hexec := exec_syncOutPulse hlive hvisible hrole
    have hfirst : s.count ≤ roundUp s.count 4096 ∧ roundUp s.count 4096 < s.count + 4096 ∧ roundUp s.count 4096 % 4096 = 0 := by
      unfold roundUp ceilDiv
      omega
    obtain ⟨hge, hlt, hmultiple⟩ := hfirst
    obtain ⟨hreached, hbefore⟩ := State.untilCount_first hinv (n := roundUp s.count 4096) (by omega)
    refine ⟨_, hmultiple, hge, hlt, hexec, hreached, hbefore, fun hslow => State.untilCount_eq_of_slow hinv hge (by omega) hslow, fun t ht => ?_⟩
    obtain rfl := Host.Outcome.next.inj (hexec.symm.trans ht)
    rfl

end Sys2Proof.Machine
end

section
/-! PROOFS. Freeze and thaw (14_ R370 to R374). -/

namespace Sys2Proof.Machine

/-! ### A thaw that changes an absent port -/

/-- An instance frozen since READY, owned by master 0, of a gang whose head is reached through port 0, which is absent. -/
def State.frozenWithAbsentPort : State :=
  { own := { owner := some 0 }, pins := { rstN := true }, lg := .frozen, frz := { frozenFrom := 1 }
    image := { sin := 1, gangs := [(1, [0, 1])], routes := [.port 0] } }

/-- The messages that wait at port 0 after a thaw of it. -/
def State.frozenWithAbsentPort.waitingAfterThaw : Nat :=
  match exec (.thaw 0 0 false) State.frozenWithAbsentPort with
  | .next t => t.kports[(0 : Fin 2)].txQueue.length
  | _ => 0

theorem State.frozenWithAbsentPort.waitingAfterThaw_eq : State.frozenWithAbsentPort.waitingAfterThaw = 1 := by decide +kernel

/-- Refutes O55: an absent port does not stay as it was where it is the route to a head, for the thaw of an instance that is READY again
sends its SCARF, which waits at that port. -/
theorem not_thawRestartsOrIsRefused : ¬ Obligations.ThawRestartsOrIsRefused := by
  intro h
  have howned : State.frozenWithAbsentPort.ownedBy 0 := by decide +kernel
  have hgood : ¬ (State.frozenWithAbsentPort.lg ≠ .frozen ∨ State.frozenWithAbsentPort.frz.preReady = true ∨
      State.frozenWithAbsentPort.frz.memTimeout = true ∨ false = true) := by decide +kernel
  obtain ⟨t, hexec, -, -, -, -, -, -, -, -, -, -, -, -, -, hports⟩ :=
    (h State.frozenWithAbsentPort 0 0 false howned).2 hgood rfl rfl rfl (by decide +kernel) rfl rfl rfl rfl (by decide +kernel)
  have hport : t.kports[(0 : Fin 2)] = State.frozenWithAbsentPort.kports[(0 : Fin 2)] := hports 0
  have hwaiting := State.frozenWithAbsentPort.waitingAfterThaw_eq
  rw [State.frozenWithAbsentPort.waitingAfterThaw, hexec] at hwaiting
  simp only [hport] at hwaiting
  exact absurd hwaiting (by decide)

/-! ### A freeze begins (R370, R371) -/

theorem leNat_lt (b : List Byte) : leNat b < 256 ^ b.length := by
  induction b with
  | nil => decide
  | cons x l ih =>
    have hx := x.isLt
    rw [leNat, List.length_cons, Nat.pow_succ]
    omega

theorem fieldAt_lt (b : List Byte) (off n : Nat) : fieldAt b off n < 256 ^ n :=
  Nat.lt_of_lt_of_le (leNat_lt _) (Nat.pow_le_pow_right (by decide) (by rw [sliceOf, List.length_take]; exact Nat.min_le_left _ _))

/-- A freeze of a cause has begun from `s`, and the work is as it was. -/
def State.FreezeBegun (s t : State) (cause : Nat) : Prop :=
  t.frz.running = true ∧ t.frz.cause = cause ∧ t.frz.frozenFrom = s.lgCode ∧ t.frz.startedAt = s.count ∧
    t.frz.preReady = decide (s.nv.phase ≠ 7) ∧ t.pins.freezeOut = (s.pins.freezeOut || t.frz.driveOut) ∧ t.lg = s.lg ∧ t.chans = s.chans ∧
    t.shares = s.shares ∧ t.bays = s.bays ∧ t.port = s.port ∧ t.own = s.own ∧ t.raising = s.raising ∧ t.log = s.log

theorem bne_seven (n : Nat) : (n != 7) = decide (n ≠ 7) := by
  by_cases h : n = 7
  · rw [h]
    rfl
  · rw [decide_eq_true h, bne_iff_ne.2 h]

section Begin
variable (s : State) (cause origin id scope hops : Nat) (frames : Bool) (except : Option (Fin 2))

theorem State.sendFreeze_eq : s.sendFreeze id origin scope hops except =
    { s with kports := (s.sendFreeze id origin scope hops except).kports, stop := (s.sendFreeze id origin scope hops except).stop } := rfl

theorem State.startFreeze_begun : s.FreezeBegun (s.startFreeze cause origin id scope hops frames except) cause := by
  cases frames <;> exact ⟨rfl, rfl, rfl, rfl, bne_seven _, rfl, rfl, rfl, rfl, rfl, rfl, rfl, rfl, rfl⟩

/-- What a freeze begun by a frame shows of it (R371). -/
theorem State.startFreeze_frame : (s.startFreeze 3 origin id scope hops frames except).frz.id = BitVec.ofNat 32 id ∧
    (s.startFreeze 3 origin id scope hops frames except).frz.origin = origin ∧
    (s.startFreeze 3 origin id scope hops frames except).frz.seen = s.frz.seen := by
  cases frames <;> exact ⟨rfl, rfl, rfl⟩

theorem State.startFreeze_rest : (s.startFreeze cause origin id scope hops frames except).mg = s.mg ∧
    (s.startFreeze cause origin id scope hops frames except).pins.freezeIn = s.pins.freezeIn ∧
    (s.startFreeze cause origin id scope hops frames except).frz.driveOut = s.frz.driveOut := by
  cases frames <;> exact ⟨rfl, rfl, rfl⟩

end Begin

/-- A freeze that begins here, by the pin, the owner's write or a fault. -/
theorem State.freezeHere_begun {s : State} (h : s.stopped = false) (cause : Nat) :
    s.FreezeBegun (s.freezeHere cause) cause ∧ (s.freezeHere cause).mg = s.mg ∧ (s.freezeHere cause).pins.freezeIn = s.pins.freezeIn ∧
      (s.freezeHere cause).frz.driveOut = s.frz.driveOut := by
  rw [State.freezeHere, if_neg (ne_true_of_eq_false h)]
  exact ⟨s.startFreeze_begun cause s.sin s.newFreezeId s.frz.scope 0 s.frz.propagate none,
    s.startFreeze_rest cause s.sin s.newFreezeId s.frz.scope 0 s.frz.propagate none⟩

/-! ### A FREEZE frame (R328) -/

section Frame
variable {s : State} {src : Option (Fin 2)} {payload : List Byte}

theorem State.freezeFrame_of_seen (h : fieldAt payload 0 4 ∈ s.frz.seen) : s.freezeFrame src payload = s :=
  if_pos (List.contains_iff_mem.2 h)

/-- A FREEZE_ID noted as acted on. -/
def State.noted (s : State) (id : Nat) : State := { s with frz := { s.frz with seen := (id :: s.frz.seen).take 8 } }

theorem State.freezeFrame_here_iff (scope : Nat) :
    (scope == 0 || ((s.image.gangs.lookup scope).getD []).contains s.sin) = true ↔ s.sin ∈ s.gangMembers scope := by
  unfold State.gangMembers
  by_cases h : scope = 0
  · rw [if_pos h, h]
    simp
  · rw [if_neg h, beq_eq_false_iff_ne.2 h, Bool.false_or, List.contains_iff_mem]

theorem State.freezeFrame_of_here (hnew : fieldAt payload 0 4 ∉ s.frz.seen) (hruns : s.stopped = false)
    (hhere : s.sin ∈ s.gangMembers (fieldAt payload 6 2 % 4096)) : s.freezeFrame src payload =
      (s.noted (fieldAt payload 0 4)).startFreeze 3 (fieldAt payload 4 2 % 4096) (fieldAt payload 0 4) (fieldAt payload 6 2 % 4096)
        (fieldAt payload 8 1 + 1) (decide (fieldAt payload 8 1 < 7)) src := by
  have hstop : (s.noted (fieldAt payload 0 4)).stopped = false := hruns
  have hgo := Bool.and_eq_true_iff.2
    ⟨(State.freezeFrame_here_iff (s := s.noted (fieldAt payload 0 4)) _).2 hhere, congrArg (! ·) hstop⟩
  exact (if_neg fun hin => hnew (List.contains_iff_mem.1 hin)).trans (if_pos hgo)

theorem State.freezeFrame_of_elsewhere (hnew : fieldAt payload 0 4 ∉ s.frz.seen)
    (hhere : s.sin ∉ s.gangMembers (fieldAt payload 6 2 % 4096)) : s.freezeFrame src payload =
      if fieldAt payload 8 1 < 7 then
        (s.noted (fieldAt payload 0 4)).sendFreeze (fieldAt payload 0 4) (fieldAt payload 4 2 % 4096) (fieldAt payload 6 2 % 4096)
          (fieldAt payload 8 1 + 1) src
      else s.noted (fieldAt payload 0 4) := by
  have hnot : ∀ b : Bool, ¬ ((_ && b) = true) := fun b h =>
    hhere ((State.freezeFrame_here_iff (s := s.noted (fieldAt payload 0 4)) _).1 (Bool.and_eq_true_iff.1 h).1)
  exact (if_neg fun hin => hnew (List.contains_iff_mem.1 hin)).trans (if_neg (hnot _))

end Frame

/-! ### The end of a freeze (R366, R374) -/

/-- Does a request of the memory port still wait for its response as the clocks stop (R372)? -/
def State.awaits (s : State) : Bool :=
  s.port.out.any fun q => !(s.port.held.any fun i => match i with
    | .memoryReadResponse tag _ _ _ => tag == q.tag
    | .memoryWriteAck tag _ => tag == q.tag
    | .validationBlockReadDone c blk _ _ => q.use == .block c blk
    | .completionRecordWriteAck c _ => q.use == .record c
    | .ringRecordWriteAck r _ => q.use == .ringRecord r
    | _ => false)

theorem State.awaits_of_out_nil {s : State} (h : s.port.out = []) : s.awaits = false := by rw [State.awaits, h, List.any_nil]

theorem State.awaits_of_held_nil {s : State} (hout : s.port.out ≠ []) (h : s.port.held = []) : s.awaits = true := by
  obtain ⟨q, l, hq⟩ := List.exists_cons_of_ne_nil hout
  rw [State.awaits, h, hq]
  rfl

theorem exec_freezeComplete {s : State} (hrst : s.pins.rstN = true) (hrun : s.frz.running = true) :
    exec .freezeComplete s = .next { s with
      lg := .frozen
      frz := { s.frz with
        running := false, memTimeout := s.awaits, plumb := s.clk.count
        mgmtCopy := (List.range 1024).map fun k => BitVec.ofNat 32 (s.regWord (4 * k)), ueRead := 0, ueFirst := 0, ueWords := [] }
      irqStatus := s.irqStatus ||| 32 } := if_pos ⟨hrst, hrun⟩

theorem exec_freezeFrame {s : State} {src : Option (Fin 2)} {rx : FlitRx} {u : State}
    (hu : u = match src with | some p => s.flitIn p (decodeFlit rx) | none => s) (h : s.hearsFreeze src (decodeFlit rx) = true) :
    exec (.freezeFrame src rx) s = .next (u.freezeFrame src (freezePayload src (decodeFlit rx))) := by
  subst hu
  exact if_pos h

/-- Settles O54: what begins a freeze, the FREEZE flit as a flit of its port, and the end of the sequence. -/
theorem freezeSequenceRuns : Obligations.FreezeSequenceRuns := by
  refine ⟨fun s hlive => ⟨?pin, ?write, ?frame⟩, fun s hrst hrun => ?complete⟩
  case pin =>
    have hruns : ({ s with pins := { s.pins with freezeIn := true } } : State).stopped = false := hlive.2
    obtain ⟨hbegun, hmg, hpin, -⟩ := State.freezeHere_begun hruns 1
    exact ⟨_, if_pos hlive.1, hbegun, hpin, hmg⟩
  case write =>
    intro m v howner hthaw
    have hgo : ((v ||| 1).getLsbD 1 && s.thawBarred) = false := by
      rw [BitVec.getLsbD_or, hthaw]
      rfl
    have hfreeze : (v ||| 1).getLsbD 0 = true := by
      rw [BitVec.getLsbD_or]
      exact Bool.or_true _
    have hthaw' : (v ||| 1).getLsbD 1 = false := by
      rw [BitVec.getLsbD_or, hthaw]
      rfl
    have hdrive : (v ||| 1).getLsbD 16 = v.getLsbD 16 := by
      rw [BitVec.getLsbD_or]
      exact Bool.or_false _
    have hruns : (({ s with frz := s.frz.controls (v ||| 1) } : State).answered m 0).stopped = false := hlive.2
    obtain ⟨hbegun, hmg, -, hout⟩ := State.freezeHere_begun hruns 2
    have hexec : exec (.freeze m v) s = .next ((({ s with frz := s.frz.controls (v ||| 1) } : State).answered m 0).freezeHere 2) := by
      rw [exec_freeze, State.byOwner_of_ownedBy ⟨hlive.1, howner⟩, State.freezeCtl, if_neg (ne_true_of_eq_false hgo), hthaw', hfreeze]
      rfl
    exact ⟨_, hexec, hbegun, hout.trans hdrive, hmg⟩
  case frame =>
    intro src rx hsrc b u id scope
    have hpayload : freezePayload src (decodeFlit rx) = b := by cases src <;> rfl
    have hport : u = { s with kports := u.kports } ∧ (∀ p : Fin 2, src = some p → u.kports[p].helloOn = false) ∧
        s.hearsFreeze src (decodeFlit rx) = true := by
      have hlg : (s.lg != .frozen) = true := bne_iff_ne.2 hlive.lg_ne_frozen
      rcases hsrc with ⟨rfl, hphase⟩ | ⟨p, rfl, hup, hgood, htype⟩
      · refine ⟨rfl, fun p hp => (nomatch hp), ?_⟩
        rw [State.hearsFreeze, hlive.1, hlg]
        exact decide_eq_true (Nat.pos_of_ne_zero hphase)
      · have hin : u = s.setPort p (s.acked p (decodeFlit rx)) := State.flitIn_of_other hlive hup hgood (by rw [htype]; decide)
        refine ⟨by rw [hin]; rfl, fun q hq => ?_, ?_⟩
        · obtain rfl := Option.some.inj hq
          rw [hin, State.setPort_self, s.acked_transmits p (decodeFlit rx), htype]
          exact Bool.and_false _
        · rw [State.hearsFreeze, hlive.1, hlg]
          rw [hup, hgood, htype]
          rfl
    obtain ⟨hu, hhello, hhears⟩ := hport
    have hexec := exec_freezeFrame (rx := rx) (show u = _ from rfl) hhears
    rw [hpayload] at hexec
    have hseen : u.frz.seen = s.frz.seen := by rw [hu]
    have hgangs : u.gangMembers scope = s.gangMembers scope := by rw [hu]; rfl
    have hsin : u.sin = s.sin := by rw [hu]; rfl
    refine ⟨hu, hhello, fun hin => hexec.trans (congrArg _ (State.freezeFrame_of_seen (hseen ▸ hin))), fun hnew hhere => ?_, fun hnew hhere => ?_⟩
    · have hruns : u.stopped = false := by rw [hu]; exact hlive.2
      have hframe := State.freezeFrame_of_here (s := u) (src := src) (payload := b) (hseen ▸ hnew) hruns
        (by rw [hsin]; exact hgangs ▸ hhere)
      have hbegun := (u.noted id).startFreeze_begun 3 (fieldAt b 4 2 % 4096) id scope (fieldAt b 8 1 + 1) (decide (fieldAt b 8 1 < 7)) src
      obtain ⟨hid, horigin, hlist⟩ :=
        (u.noted id).startFreeze_frame (fieldAt b 4 2 % 4096) id scope (fieldAt b 8 1 + 1) (decide (fieldAt b 8 1 < 7)) src
      refine ⟨_, hexec.trans (congrArg _ hframe), ?_, ?_, horigin, ?_⟩
      · rw [hu] at hbegun ⊢
        exact hbegun
      · rw [hid, BitVec.toNat_ofNat]
        exact Nat.mod_eq_of_lt (fieldAt_lt b 0 4)
      · rw [hlist]
        exact List.mem_cons_self
    · have hframe := State.freezeFrame_of_elsewhere (s := u) (src := src) (payload := b) (hseen ▸ hnew) (by rw [hsin]; exact hgangs ▸ hhere)
      refine ⟨_, hexec.trans (congrArg _ hframe), ?_⟩
      split
      · rw [State.sendFreeze_eq, State.noted, hu]
      · rw [State.noted, hu]
  case complete =>
    exact ⟨_, exec_freezeComplete hrst hrun, rfl, rfl, rfl, rfl, State.awaits_of_out_nil, State.awaits_of_held_nil, rfl⟩

end Sys2Proof.Machine
end

section
/-! PROOFS. The scrub (15_ R377, R378, R421), a tile's bytes in the yards (R31), the slot table at work (03_ R94 to R97). -/

namespace Sys2Proof.Machine

/-! ### The scrub -/

/-- Correctable words counted one by one; what a full log or a crossed threshold adds is in the log and its interrupt. -/
theorem State.foldl_corrected (unit off : Nat) (l : List Nat) (s : State) :
    let t := l.foldl (fun (s : State) _ => s.corrected unit off) s
    t = { s with ctr := { s.ctr with eccCe := s.ctr.eccCe + BitVec.ofNat 64 l.length }, log := t.log, irqStatus := t.irqStatus } := by
  induction l generalizing s with
  | nil => simp
  | cons x l ih =>
    have hone : s.corrected unit off = { s with
        ctr := { s.ctr with eccCe := s.ctr.eccCe + 1 }, log := (s.corrected unit off).log, irqStatus := (s.corrected unit off).irqStatus } := by
      unfold State.corrected
      dsimp only
      split <;> rfl
    have hlength : BitVec.ofNat 64 (x :: l).length = 1 + BitVec.ofNat 64 l.length := by
      rw [List.length_cons, Nat.add_comm, BitVec.ofNat_add]
      rfl
    refine (ih (s.corrected unit off)).trans ?_
    rw [List.foldl_cons, hlength, ← BitVec.add_assoc]
    generalize (l.foldl (fun (s : State) _ => s.corrected unit off) (s.corrected unit off)) = t
    rw [hone]

/-- Settles O25: the fold of the corrections. -/
theorem scrubCorrectsConfiguration : Obligations.ScrubCorrectsConfiguration := by
  intro s hrst hlg hue
  have hfold := State.foldl_corrected 5 0 s.bays.configCE { s with bays := { s.bays with configCE := [] } }
  generalize ht : s.bays.configCE.foldl (fun (s : State) _ => s.corrected 5 0) { s with bays := { s.bays with configCE := [] } } = t at hfold
  have hread : s.readConfig = t := by
    have hclean : t.bays.configUE = [] := by
      rw [hfold]
      exact hue
    unfold State.readConfig
    rw [ht]
    dsimp only
    rw [hclean]
  refine ⟨t, (if_neg ?_).trans (congrArg _ hread), by rw [hfold], by rw [hfold], by rw [hfold]⟩
  rintro (h | h)
  · exact hlg h
  · exact Bool.noConfusion (hrst.symm.trans h)

/-! ### Bytes written to the yards -/

/-- Bytes written at the addresses a map gives their places. -/
def Bays.putBytes (addr : Nat → Option Nat) (y : Bays) (l : List (Byte × Nat)) : Bays :=
  l.foldl (fun (y : Bays) x => match addr x.2 with
    | some p => y.setByte p x.1
    | none => y) y

section PutBytes
variable {addr : Nat → Option Nat}

/-- A physical byte read after one written, where no byte is undefined. -/
theorem Bays.byteAt_setByte {y : Bays} (hwf : cellsWf y.yard = true) (hdef : y.undef = []) (a p : Nat) (v : Byte) :
    (y.setByte a v).byteAt p = if p = a then v else y.byteAt p := by
  unfold Bays.byteAt Bays.setByte
  rw [hdef]
  exact getCell_setCell a p v y.yard hwf

theorem Bays.setByte_undef {y : Bays} (hdef : y.undef = []) (a : Nat) (v : Byte) : (y.setByte a v).undef = [] := by
  unfold Bays.setByte
  rw [hdef]
  rfl

theorem Bays.putBytes_cons (y : Bays) (x : Byte × Nat) (l : List (Byte × Nat)) : y.putBytes addr (x :: l) =
    (match addr x.2 with | some p => y.setByte p x.1 | none => y).putBytes addr l := rfl

theorem Bays.byteAt_putBytes_ne (p : Nat) (l : List (Byte × Nat)) {y : Bays} (hwf : cellsWf y.yard = true) (hdef : y.undef = [])
    (hne : ∀ x ∈ l, addr x.2 ≠ some p) : (y.putBytes addr l).byteAt p = y.byteAt p := by
  induction l generalizing y with
  | nil => rfl
  | cons x l ih =>
    obtain ⟨hx, hl⟩ := List.forall_mem_cons.1 hne
    rw [Bays.putBytes_cons]
    cases ha : addr x.2 with
    | none => exact ih hwf hdef hl
    | some a =>
      refine (ih (y.setByte_wf a x.1 hwf) (Bays.setByte_undef hdef a x.1) hl).trans ?_
      rw [Bays.byteAt_setByte hwf hdef, if_neg]
      rintro rfl
      exact hx ha

/-- Bytes written at places of their own read back. -/
theorem Bays.byteAt_putBytes (b : List Byte) (k : Nat) {y : Bays} (hwf : cellsWf y.yard = true) (hdef : y.undef = [])
    (hinj : ∀ i j p, addr i = some p → addr j = some p → i = j) {i p : Nat} (hi : i < b.length) (hp : addr (k + i) = some p) :
    (y.putBytes addr (b.zipIdx k)).byteAt p = b.getD i 0#8 := by
  induction b generalizing y k i with
  | nil => exact absurd hi (Nat.not_lt_zero i)
  | cons v b ih =>
    rw [List.zipIdx_cons, Bays.putBytes_cons]
    cases i with
    | zero =>
      rw [Nat.add_zero] at hp
      dsimp only
      rw [hp]
      dsimp only
      have hrest : ∀ x ∈ b.zipIdx (k + 1), addr x.2 ≠ some p := fun x hx hxp => by
        have hplace := List.le_snd_of_mem_zipIdx hx
        have := hinj _ _ _ hxp hp
        omega
      rw [Bays.byteAt_putBytes_ne p _ (y.setByte_wf p v hwf) (Bays.setByte_undef hdef p v) hrest, Bays.byteAt_setByte hwf hdef, if_pos rfl]
      rfl
    | succ i =>
      have hi' : i < b.length := Nat.lt_of_succ_lt_succ hi
      have hp' : addr (k + 1 + i) = some p := by rw [← hp]; congr 1; omega
      rw [List.getD_cons_succ]
      dsimp only
      cases addr k with
      | none => exact ih (k + 1) hwf hdef hi' hp'
      | some a => exact ih (k + 1) (y.setByte_wf a v hwf) (Bays.setByte_undef hdef a v) hi' hp'

theorem Bays.putBytes_enabled (l : List (Byte × Nat)) (y : Bays) : (y.putBytes addr l).enabled = y.enabled := by
  induction l generalizing y with
  | nil => rfl
  | cons x l ih =>
    rw [Bays.putBytes_cons]
    cases addr x.2 with
    | none => exact ih y
    | some a => exact ih (y.setByte a x.1)

end PutBytes

/-- No two addresses of the yard space are one physical byte (R30, R31). -/
theorem State.yardAddr_injective {s : State} (h : s.bays.enabled.Nodup) {i j p : Nat} (hi : s.yardAddr i = some p) (hj : s.yardAddr j = some p) :
    i = j := by
  obtain ⟨a, ha, rfl⟩ := Option.map_eq_some_iff.1 hi
  obtain ⟨b, hb, hab⟩ := Option.map_eq_some_iff.1 hj
  obtain rfl : a = b := by omega
  have hbay : i / 2 ^ 20 = j / 2 ^ 20 := by
    obtain ⟨hlt, -⟩ := List.getElem?_eq_some_iff.1 ha
    exact (List.getElem?_inj hlt h).1 (ha.trans hb.symm)
  omega

theorem State.yardAddr_isSome {s : State} {a : Nat} (h : a < s.bayCount * 2 ^ 20) : ∃ p, s.yardAddr a = some p := by
  have hbay : a / 2 ^ 20 < s.bays.enabled.length := Nat.div_lt_of_lt_mul (Nat.mul_comm _ _ ▸ h)
  exact ⟨_, congrArg (Option.map _) (List.getElem?_eq_getElem hbay)⟩

/-- In a yard without error marks a write is its bytes. -/
theorem State.yardWrite_of_clean {s : State} (hue : s.bays.yardUE = []) (hce : s.bays.yardCE = []) (a : Nat) (b : List Byte) :
    s.yardWrite a b = { s with bays := s.bays.putBytes (fun i => s.yardAddr (a + i)) b.zipIdx } := by
  unfold State.yardWrite
  rw [hue, hce]
  rfl

/-- Settles O31: a byte written reads back, for no two addresses are one physical byte. -/
theorem tileBytesLandInTheYard : Obligations.TileBytesLandInTheYard := by
  intro s off b hinv hue hce hdef hnodup hroom t
  have ht : t = { s with bays := s.bays.putBytes (fun i => s.yardAddr (off + i)) b.zipIdx } := State.yardWrite_of_clean hue hce off b
  have hbays : t.bays = s.bays.putBytes (fun i => s.yardAddr (off + i)) b.zipIdx := by rw [ht]
  have haddr : t.yardAddr = s.yardAddr := by
    have henabled : t.bays.enabled = s.bays.enabled := by rw [hbays, Bays.putBytes_enabled]
    unfold State.yardAddr State.physical
    rw [henabled]
  have hinj : ∀ i j p, s.yardAddr (off + i) = some p → s.yardAddr (off + j) = some p → i = j := fun i j p hi hj =>
    Nat.add_left_cancel (State.yardAddr_injective hnodup hi hj)
  refine ⟨fun i hi => ?_, fun a ha => ?_, ?_⟩
  · obtain ⟨p, hp⟩ := State.yardAddr_isSome (s := s) (a := off + i) (by omega)
    rw [State.yardByte, haddr, hp, hbays]
    exact Bays.byteAt_putBytes b 0 hinv.yard hdef hinj hi (by rw [Nat.zero_add]; exact hp)
  · rw [State.yardByte, State.yardByte, haddr, hbays]
    cases hp : s.yardAddr a with
    | none => rfl
    | some p =>
      refine Bays.byteAt_putBytes_ne p _ hinv.yard hdef fun x hx hxp => ?_
      have hplace : x.2 < b.length := Nat.zero_add b.length ▸ List.snd_lt_add_of_mem_zipIdx hx
      have := State.yardAddr_injective hnodup hxp hp
      omega
  · rw [ht]

/-! ### The slot table at work -/

theorem State.untilArith_eq (s : State) (a : Nat) : s.untilArith a = { s with clk := (s.untilArith a).clk } := by
  unfold State.untilArith
  split <;> rfl

theorem State.rotates_iff {s : State} : s.rotates = true ↔ s.pins.rstN = true ∧ s.nv.phase = 7 ∧ s.stopped = false := by
  simp [State.rotates, and_assoc]

theorem exec_slotBoundary {s : State} (h : s.rotates = true) (hclean : s.configClean) :
    exec .slotBoundary s =
      let v := s.untilArith (s.sched.slotStart + 256)
      .next ({ v with sched := v.slotSched ((s.sched.slot + 1) % 64) (s.sched.slotStart + 256) } : State).progressAll := by
  have hruns : (s.untilArith (s.sched.slotStart + 256)).stopped = false := by
    rw [s.untilArith_eq]
    exact (State.rotates_iff.1 h).2.2
  have hread : (s.untilArith (s.sched.slotStart + 256)).readConfig = s.untilArith (s.sched.slotStart + 256) :=
    State.readConfig_of_clean (by rw [s.untilArith_eq]; exact hclean)
  calc exec .slotBoundary s = execSlotBoundary s := rfl
    _ = _ := by
      rw [execSlotBoundary, if_pos h]
      dsimp only
      rw [hread, if_neg (ne_true_of_eq_false hruns), State.enterSlot_eq]

/-- The grant goes to the first participant with work after the last grantee (R96). -/
theorem State.nextGrant_spec (s : State) :
    match s.nextGrant with
    | some p => s.hasWork p = true ∧ ∃ k, k < 17 ∧ p = (s.sched.grantPtr + 1 + k) % 17 ∧
        ∀ i, i < k → s.hasWork ((s.sched.grantPtr + 1 + i) % 17) = false
    | none => ∀ p, p < 17 → s.hasWork p = false := by
  cases hg : s.nextGrant with
  | some p =>
    obtain ⟨hwork, k, hk, hp, hbefore⟩ := List.find?_eq_some_iff_getElem.1 hg
    rw [List.length_map, List.length_range] at hk
    refine ⟨hwork, k, hk, ?_, fun i hi => ?_⟩
    · rw [← hp, List.getElem_map, List.getElem_range]
    · have := hbefore i hi
      rw [List.getElem_map, List.getElem_range] at this
      simpa using this
  | none =>
    intro p hp
    have hsum : s.sched.grantPtr + 1 + (p + 16 * (s.sched.grantPtr + 1)) = p + 17 * (s.sched.grantPtr + 1) := by omega
    have hnone := List.find?_eq_none.1 hg ((s.sched.grantPtr + 1 + (p + 16 * (s.sched.grantPtr + 1)) % 17) % 17)
      (List.mem_map.2 ⟨_, List.mem_range.2 (Nat.mod_lt _ (by decide)), rfl⟩)
    rw [show (s.sched.grantPtr + 1 + (p + 16 * (s.sched.grantPtr + 1)) % 17) % 17 = p by
      rw [Nat.add_mod_mod, hsum, Nat.add_mul_mod_self_left, Nat.mod_eq_of_lt hp]] at hnone
    exact Bool.eq_false_iff.2 hnone

/-- The owner of a bay in a slot (R97). -/
def State.slotOwner (s : State) (n j : Nat) : BayOwner :=
  if slotPlumb (s.slotWord n) ∧ j ∈ slotBays (s.slotWord n) then .plumb (slotChan (s.slotWord n))
  else match s.nextGrant with | some p => .pool p | none => .none

theorem State.slotSched_owners (s : State) (n start : Nat) {j : Nat} (hj : j < s.bayCount) :
    (s.slotSched n start).owners[j]? = some (s.slotOwner n j) := by
  have howner : ∀ o : BayOwner, (if (if slotPlumb (s.slotWord n) = true then slotBays (s.slotWord n) else []).contains j = true then
      BayOwner.plumb (slotChan (s.slotWord n)) else o) =
      if slotPlumb (s.slotWord n) ∧ j ∈ slotBays (s.slotWord n) then .plumb (slotChan (s.slotWord n)) else o := fun o => by
    by_cases hplumb : slotPlumb (s.slotWord n) = true <;> simp [hplumb]
  unfold State.slotSched State.slotOwner
  dsimp only
  rw [List.getElem?_map, List.getElem?_range hj, Option.map_some]
  exact congrArg some (howner _)

/-- A gap stands exactly where a new owner takes a bay (R97). -/
theorem State.mem_slotSched_gap (s : State) (n start j : Nat) : j ∈ (s.slotSched n start).gap ↔ j < s.bayCount ∧
    (s.slotSched n start).owners.getD j .none ≠ .none ∧
    (s.slotSched n start).owners.getD j .none ≠ s.sched.owners.getD j .none := by
  unfold State.slotSched
  simp only [List.mem_filter, List.mem_range, Bool.and_eq_true, bne_iff_ne]

/-- Settles O18: the slot's state field by field, and the search for the grantee. -/
theorem slotBoundaryGrantsThePool : Obligations.SlotBoundaryGrantsThePool := by
  intro s hrot hclean v n
  have hv : v = { s with clk := v.clk } := s.untilArith_eq _
  have hsched : v.sched = s.sched := by rw [hv]
  have hbays : v.bayCount = s.bayCount := by rw [hv]; rfl
  have hword : v.slotWord n = s.slotWord n := by rw [hv]; rfl
  refine ⟨_, exec_slotBoundary hrot hclean, rfl, rfl, rfl, rfl, show v.sched.broken = _ by rw [hsched],
    show v.sched.owners = _ by rw [hsched], show v.sched.serving = _ by rw [hsched], ?_, fun j hj => ?_, fun j => ?_, ?_⟩
  · show (if v.nextGrant = some 16 then v.shareOfSlot else v.sched.serving) = if v.nextGrant = some 16 then v.shareOfSlot else s.sched.serving
    rw [hsched]
  · rw [← hbays] at hj
    rw [← hword]
    exact v.slotSched_owners n _ hj
  · have hgap := v.mem_slotSched_gap n (s.sched.slotStart + 256) j
    rw [hbays, hsched] at hgap
    exact hgap
  · have hspec := v.nextGrant_spec
    rw [hsched] at hspec
    show match v.nextGrant with
      | some p => v.nextGrant.getD v.sched.grantPtr = p ∧ v.hasWork p = true ∧ ∃ k, k < 17 ∧ p = (s.sched.grantPtr + 1 + k) % 17 ∧
           ∀ i, i < k → v.hasWork ((s.sched.grantPtr + 1 + i) % 17) = false
      | none => v.nextGrant.getD v.sched.grantPtr = s.sched.grantPtr ∧ ∀ p, p < 17 → v.hasWork p = false
    cases hg : v.nextGrant with
    | some p =>
      rw [hg] at hspec
      exact ⟨rfl, hspec⟩
    | none =>
      rw [hg] at hspec
      exact ⟨congrArg Sched.grantPtr hsched, hspec⟩

/-- Settles O19: the end of the gaps and of a bay's hold. -/
theorem holdsEndAndWorkGoesOn : Obligations.HoldsEndAndWorkGoesOn := by
  refine ⟨fun s hrot hgap => ?_, fun s bay h hlive hfind => ?_⟩
  · intro v
    have hexec : exec .handoverGapEnd s = .next ({ v with sched := { v.sched with gap := [], leaving := [], served := none } } : State).progressAll :=
      if_pos ⟨hrot, hgap⟩
    have hsched : v.sched = s.sched := by rw [show v = { s with clk := v.clk } from s.untilArith_eq _]
    rw [hexec, hsched]
  · have hexec : exec (.spareMapInDone bay) s = .next ({ s.untilArith h.2 with
        bays := { (s.untilArith h.2).bays with hold := (s.untilArith h.2).bays.hold.filter (·.1 != bay.val) } } : State).progressAll := by
      rw [show exec (.spareMapInDone bay) s = execSpareMapInDone bay s from rfl, execSpareMapInDone,
        if_neg (ne_true_of_eq_false hlive.idle_eq_false), hfind]
    have hbays : (s.untilArith h.2).bays = s.bays := by rw [s.untilArith_eq]
    rw [hbays] at hexec
    refine ⟨_, hexec, fun x hx => ?_, fun x hx hne => ?_, rfl, rfl⟩
    · exact bne_iff_ne.1 (List.mem_filter.1 hx).2
    · exact List.mem_filter.2 ⟨hx, bne_iff_ne.2 hne⟩

end Sys2Proof.Machine
end

section
/-! PROOFS. The answers of the memory port (16_ R397 to R400), rings (10_ R260, R261), taps (16_ R408) and lanes (15_ R381). -/

namespace Sys2Proof.Machine

/-! ### The memory port's answers -/

/-- A live instance takes a response at once. -/
theorem State.live.hears {s : State} (h : s.live) : ¬ (s.pins.rstN = false ∨ s.lg = .frozen) := by
  rintro (hrst | hlg)
  · exact Bool.noConfusion (h.1.symm.trans hrst)
  · exact h.lg_ne_frozen hlg

theorem State.live.hears' {s : State} (h : s.live) : ¬ (s.lg = .frozen ∨ s.pins.rstN = false) := fun k => h.hears k.symm

theorem State.live.not_idle {s : State} (h : s.live) : ¬ ((s.stopped || !s.pins.rstN) = true) := ne_true_of_eq_false h.idle_eq_false

theorem State.live.not_freezing {s : State} (h : s.live) : ¬ (s.frz.running = true) := ne_true_of_eq_false h.frz_running_eq_false

theorem exec_memoryReadResponse {s : State} (h : s.live) (tag status : Nat) (data : List Byte) (ok : Bool) :
    exec (.memoryReadResponse tag status data ok) s = .next (s.readResponse tag status data ok) :=
  (if_neg h.hears).trans (if_neg h.not_freezing)

theorem exec_memoryWriteAck {s : State} (h : s.live) (tag status : Nat) : exec (.memoryWriteAck tag status) s = .next (s.writeResponse tag status) :=
  (if_neg h.hears).trans (if_neg h.not_freezing)

theorem exec_validationBlockReadDone {s : State} (h : s.live) (c : Fin 16) (blk : Nat) (err : Bool) (data : List Byte) :
    exec (.validationBlockReadDone c blk err data) s = .next (s.blockReadDone c blk err data) :=
  (if_neg h.hears).trans (if_neg h.not_freezing)

/-- Nothing goes out of a port at which nothing waits. -/
theorem State.reissue_of_waiting_nil {s : State} (h : s.port.waiting = []) : s.reissue = s := by
  unfold State.reissue
  split
  · rfl
  · rw [h]
    rfl

theorem State.reissue_eq (s : State) : s.reissue = { s with port := s.reissue.port } := by
  unfold State.reissue
  split <;> rfl

/-- A response that no outstanding request awaits, for a tag that is reserved, frees the tag (R400). -/
theorem State.lateResponse_eq {s : State} (hwait : s.port.waiting = []) (tag : Nat) :
    s.lateResponse tag = { s with port := { s.port with dead := s.port.dead.filter (· != tag) } } := State.reissue_of_waiting_nil hwait

theorem State.outstanding_eq_none {s : State} {tag : Nat} (h : ∀ r ∈ s.port.out, r.tag ≠ tag) (write : Bool) : s.outstanding tag write = none :=
  List.find?_eq_none.2 fun r hr hit => h r hr (beq_iff_eq.1 (Bool.and_eq_true_iff.1 hit).1)

/-- A response stands in its queue while the clocks stop, and is lost with the port in reset or stopped (R372, R399). -/
theorem exec_of_response {s : State} {i : Instr}
    (hi : (∃ tag status data ok, i = .memoryReadResponse tag status data ok) ∨ (∃ tag status, i = .memoryWriteAck tag status) ∨
      (∃ c blk err data, i = .validationBlockReadDone c blk err data) ∨ (∃ c err, i = .completionRecordWriteAck c err) ∨
      ∃ r err, i = .ringRecordWriteAck r err) :
    (s.pins.rstN = false ∨ s.lg = .frozen → exec i s = .next s) ∧
    (s.pins.rstN = true → s.lg ≠ .frozen → s.frz.running = true →
      exec i s = .next { s with port := { s.port with held := s.port.held ++ [i] } }) := by
  have hnot : s.pins.rstN = true → s.lg ≠ .frozen → ¬ (s.pins.rstN = false ∨ s.lg = .frozen) := by
    rintro hrst hlg (h | h)
    · exact Bool.noConfusion (hrst.symm.trans h)
    · exact hlg h
  rcases hi with ⟨tag, status, data, ok, rfl⟩ | ⟨tag, status, rfl⟩ | ⟨c, blk, err, data, rfl⟩ | ⟨c, err, rfl⟩ | ⟨r, err, rfl⟩
  · exact ⟨fun h => if_pos h, fun hrst hlg hrun => (if_neg (hnot hrst hlg)).trans (if_pos hrun)⟩
  · exact ⟨fun h => if_pos h, fun hrst hlg hrun => (if_neg (hnot hrst hlg)).trans (if_pos hrun)⟩
  · exact ⟨fun h => if_pos h, fun hrst hlg hrun => (if_neg (hnot hrst hlg)).trans (if_pos hrun)⟩
  · exact ⟨fun h => if_pos h.symm, fun hrst hlg hrun => (if_neg fun h => hnot hrst hlg h.symm).trans (if_pos hrun)⟩
  · exact ⟨fun h => if_pos h.symm, fun hrst hlg hrun => (if_neg fun h => hnot hrst hlg h.symm).trans (if_pos hrun)⟩

/-- Settles O22: the time limit, the late response, and the responses no running port takes. -/
theorem lateResponsesAreHeldOrLost : Obligations.LateResponsesAreHeldOrLost := by
  refine ⟨fun s tag q hlive => ⟨fun hfind => ?_, fun hnone hdead hwait status data ok => ⟨?_, ?_⟩⟩, fun s i hi => exec_of_response hi⟩
  · rw [show exec (.memoryResponseTimeout tag) s = execMemoryResponseTimeout tag s from rfl, execMemoryResponseTimeout, if_neg hlive.not_idle, hfind]
    rfl
  · rw [exec_memoryReadResponse hlive, State.readResponse, State.outstanding_eq_none hnone]
    exact congrArg _ ((if_pos (List.contains_iff_mem.2 hdead)).trans (State.lateResponse_eq hwait tag))
  · rw [exec_memoryWriteAck hlive, State.writeResponse, State.outstanding_eq_none hnone]
    exact congrArg _ ((if_pos (List.contains_iff_mem.2 hdead)).trans (State.lateResponse_eq hwait tag))

/-! ### Responses of running work -/

section Responses
variable {s : State} {tag status : Nat} {q : MemReq} {p : Part} {j : Job}

/-- The state with a request's answer taken from the port. -/
def State.took (s : State) (tag : Nat) : State := { s with port := s.port.take tag }

theorem State.took_job (s : State) (tag : Nat) (p : Part) : (s.took tag).job p = s.job p := by cases p <;> rfl

theorem State.readResponse_of_outstanding (h : s.outstanding tag false = some q) (status : Nat) (data : List Byte) (ok : Bool) :
    s.readResponse tag status data ok = ((s.took tag).readAnswered q data
      (if status ≠ 0 then some (codeMem, q.addr) else if ok = false then some (codeParity, unitDetail 9 0) else none)).reissue := by
  rw [State.readResponse, h]
  rfl

theorem State.writeResponse_of_outstanding (h : s.outstanding tag true = some q) (status : Nat) :
    s.writeResponse tag status = ((s.took tag).writeAnswered q (status != 0)).reissue := by
  rw [State.writeResponse, h]
  rfl

theorem State.readAnswered_input (huse : q.use = .input p) (data : List Byte) :
    s.readAnswered q data none = s.chunkIn p q.addr data := by
  unfold State.readAnswered
  rw [huse]

theorem State.readAnswered_input_error (huse : q.use = .input p) (data : List Byte) (e : Nat × Nat) :
    s.readAnswered q data (some e) = s.readFault p e.1 e.2 := by
  unfold State.readAnswered
  rw [huse]

theorem State.readFault_of_haltable (hjob : s.job p = some j) (hhalt : s.haltable p j = true) (code detail : Nat) :
    s.readFault p code detail = s.faultPart p code detail none false := by
  rw [State.readFault, hjob]
  exact if_pos hhalt

theorem State.touchPart_of_job (hjob : s.job p = some j) : s.touchPart p = s.setJob p (some (j.touch s)) := by
  rw [State.touchPart, hjob]

theorem State.writeDone_output (huse : q.use = .output p) : s.writeDone q = (s.touchPart p).progress 16 p := by
  unfold State.writeDone
  rw [huse]

theorem State.writeFailed_output (huse : q.use = .output p) (hjob : s.job p = some j) (code detail : Nat) : s.writeFailed q code detail =
    if j.d.chain = 45 ∧ j.phase = .writing then (s.log0 code 0 detail).request [{ q with tries := q.tries + 1, bad := false }]
    else s.readFault p code detail := by
  unfold State.writeFailed
  rw [huse]
  dsimp only
  rw [hjob]

theorem State.writeAnswered_error (status : Nat) (h : status ≠ 0) :
    s.writeAnswered q (status != 0) = s.writeFailed q codeMem (q.addr / 64 * 64) := if_pos (bne_iff_ne.2 h)

/-- Settles O21: the answer of a request by its use, and by the work it belongs to. -/
theorem memoryResponsesServeTheirWork : Obligations.MemoryResponsesServeTheirWork := by
  refine ⟨fun s tag status data ok q p j hlive hout huse hjob hphase => ?_, fun s tag status q p j hlive hout huse hjob => ?_⟩
  · have hujob : (s.took tag).job p = some j := (s.took_job tag p).trans hjob
    rw [exec_memoryReadResponse hlive, State.readResponse_of_outstanding hout]
    refine ⟨fun hstatus hok => ?_, fun hhalt hstatus => ?_, fun hhalt hstatus hok => ?_⟩
    · rw [if_neg (not_not_intro hstatus), if_neg (by rw [hok]; decide), State.readAnswered_input huse, State.chunkIn, hujob]
      dsimp only
      rw [Job.arrived, hphase]
      rfl
    · rw [if_pos hstatus, State.readAnswered_input_error huse, State.readFault_of_haltable hujob hhalt]
      rfl
    · rw [if_neg (not_not_intro hstatus), if_pos hok, State.readAnswered_input_error huse, State.readFault_of_haltable hujob hhalt]
      rfl
  · have hujob : (s.took tag).job p = some j := (s.took_job tag p).trans hjob
    rw [exec_memoryWriteAck hlive, State.writeResponse_of_outstanding hout]
    refine ⟨fun hstatus hbad => ?_, fun hhalt hnot => ⟨fun hstatus => ?_, fun hstatus hbad => ?_⟩, fun hchain hphase hstatus => ?_⟩
    · subst hstatus
      rw [State.writeAnswered, if_neg (by decide), if_neg (ne_true_of_eq_false hbad), State.writeDone_output huse, State.touchPart_of_job hujob]
      rfl
    · rw [State.writeAnswered_error status hstatus, State.writeFailed_output huse hujob, if_neg hnot, State.readFault_of_haltable hujob hhalt]
      rfl
    · subst hstatus
      rw [State.writeAnswered, if_neg (by decide), if_pos hbad, State.writeFailed_output huse hujob, if_neg hnot,
        State.readFault_of_haltable hujob hhalt]
      rfl
    · rw [State.writeAnswered_error status hstatus, State.writeFailed_output huse hujob, if_pos ⟨hchain, hphase⟩]
      rfl

end Responses

/-! ### The blocks of a validation (R82) -/

/-- A validation goes no further while a block is awaited. -/
theorem State.finishValidation_of_awaited {s : State} {c : Fin 16} {v : Validation} (hval : s.chans[c].val = some v) (h : v.awaited ≠ []) :
    s.finishValidation c = s := by
  have hwaits : (v.passed || !v.awaited.isEmpty || !s.mayValidate) = true := by
    rw [List.isEmpty_eq_false_iff.2 h]
    simp
  unfold State.finishValidation
  rw [hval]
  cases s.chans[c].queue with
  | nil => rfl
  | cons e l => exact if_pos hwaits

/-- A validation with a block that has arrived. -/
def Validation.with (v : Validation) (blk : Nat) (b : List Byte) : Validation :=
  { v with blocks := v.blocks ++ [(blk, b)], awaited := v.awaited.filter (·.1 != blk) }

section Block
variable {s : State} {c : Fin 16} {blk : Nat} {v : Validation} {x : Nat × Nat × Nat × Nat}

/-- The state without the requests of a block. -/
def State.blockTook (s : State) (c : Fin 16) (blk : Nat) : State :=
  { s with port := { s.port with
      out := s.port.out.filter fun r => r.use != Use.block c blk, waiting := s.port.waiting.filter fun r => r.use != Use.block c blk } }

theorem State.blockReadDone_of_awaited (hval : s.chans[c].val = some v) (hfind : v.awaited.find? (·.1 == blk) = some x) (err : Bool)
    (data : List Byte) : s.blockReadDone c blk err data =
      (if err then (s.blockTook c blk).blockError c (x.2.2.1 / 64 * 64) else (s.blockTook c blk).blockArrived c blk (sliceOf data 0 x.2.2.2)).reissue := by
  unfold State.blockReadDone
  rw [hval]
  dsimp only
  rw [hfind]
  rfl

theorem State.blockArrived_of_awaited (hval : s.chans[c].val = some v) (hfind : v.awaited.find? (·.1 == blk) = some x)
    (hmore : ∃ b ∈ v.awaited, b.1 ≠ blk) (b : List Byte) :
    s.blockArrived c blk b = { s with chans := s.chans.set c { s.chans[c] with val := some (v.with blk b) } } := by
  have hany : v.awaited.any (·.1 == blk) = true := by
    rw [List.any_eq_true]
    exact ⟨x, List.mem_of_find?_eq_some hfind, List.find?_some (p := fun y : Nat × Nat × Nat × Nat => y.1 == blk) hfind⟩
  have hblocks : (s.onChan c fun x => { x with val := x.val.map fun v => { v with
      blocks := if v.awaited.any (·.1 == blk) then v.blocks ++ [(blk, b)] else v.blocks,
      awaited := v.awaited.filter (·.1 != blk) } }) = { s with chans := s.chans.set c { s.chans[c] with val := some (v.with blk b) } } := by
    unfold State.onChan State.setChan
    dsimp only
    rw [hval, Option.map_some, hany]
    rfl
  rw [State.blockArrived, hblocks]
  refine State.finishValidation_of_awaited (v := v.with blk b) ?_ ?_
  · exact congrArg Chan.val (getElem_set_fin_self _ _ _)
  · obtain ⟨y, hy, hne⟩ := hmore
    exact List.ne_nil_of_mem (List.mem_filter.2 ⟨hy, bne_iff_ne.2 hne⟩)

end Block

/-- Settles O12: a block in error faults the head; a good one is kept while another is awaited. -/
theorem validationBlockAnswered : Obligations.ValidationBlockAnswered := by
  intro s c blk addr len kind data v e l hlive hqueue hval hfind
  rw [exec_validationBlockReadDone hlive, exec_validationBlockReadDone hlive, State.blockReadDone_of_awaited hval hfind,
    State.blockReadDone_of_awaited hval hfind]
  refine ⟨?_, fun hmore => ?_⟩
  · have hqueue' : (s.blockTook c blk).chans[c].queue = e :: l := hqueue
    have herror : (s.blockTook c blk).blockError c (addr / 64 * 64) =
        (s.blockTook c blk).faultHead c codeMem (addr / 64 * 64) none false (Desc.parse e.desc).seq none := by
      have hval' : (s.blockTook c blk).chans[c].val = some v := hval
      unfold State.blockError
      rw [hqueue', hval']
    have hchans := State.faultHead_chans hqueue' codeMem (addr / 64 * 64) none false (Desc.parse e.desc).seq none
    generalize (s.blockTook c blk).faultHead c codeMem (addr / 64 * 64) none false (Desc.parse e.desc).seq none = t at herror hchans
    rw [if_pos rfl, herror, State.reissue_eq]
    have hchan : t.chans[c] = (s.chans[c].faulted e l false s.count none) := by rw [hchans]; exact getElem_set_fin_self _ _ _
    refine ⟨_, rfl, (congrArg Chan.st hchan).trans rfl, (congrArg Chan.val hchan).trans rfl,
      ⟨_, (congrArg Chan.halted hchan).trans rfl, rfl⟩, fun k hk => ?_⟩
    show t.chans[k] = _
    rw [hchans]
    exact getElem_set_fin_ne _ _ hk
  · rw [if_neg (by decide), State.blockArrived_of_awaited (s := s.blockTook c blk) hval hfind hmore, State.reissue_eq]
    exact ⟨_, rfl, rfl, rfl⟩

end Sys2Proof.Machine
end

section
/-! PROOFS. Releases and completions (03_ R90, R91, R101 to R103, 15_ R396) and the records of rings (10_ R260, R261). -/

namespace Sys2Proof.Machine

/-! ### Releases at rest -/

section Rest
variable {s : State}

theorem State.releaseGo_of_no_release {c : Fin 16} (h : s.chans[c].rel = none) (f : Nat) : State.releaseGo f s c = s := by
  cases f with
  | zero => rfl
  | succ f =>
    unfold State.releaseGo
    rw [h]

theorem State.takeRing_offcut_of_nil (h : s.offcut = []) : s.takeRing .offcut = s := by
  have hitems : s.itemsOf .offcut = [] := by
    unfold State.itemsOf
    rw [h]
  unfold State.takeRing
  rw [hitems]
  cases s.useOf .offcut <;> rfl

/-- No channel releases a package and no offcut record waits. -/
theorem State.pumpRings_of_idle (hrel : ∀ k : Fin 16, s.chans[k].rel = none) (hoff : s.offcut = []) : s.pumpRings = s := by
  have hfold : ∀ l : List (Fin 16), l.foldl (fun (s : State) c => s.releaseGo 4 c) s = s := fun l => by
    induction l with
    | nil => rfl
    | cons c l ih => rw [List.foldl_cons, State.releaseGo_of_no_release (hrel c), ih]
  unfold State.pumpRings
  rw [hfold, State.takeRing_offcut_of_nil hoff]

theorem State.mem_channels (k : Fin 16) : k ∈ channels := List.mem_map.2 ⟨k.val, List.mem_range.2 k.isLt, by simp⟩

end Rest

/-! ### COMPLETE (R90, R101 to R103) -/

theorem State.returnCredits_eq (l : List (Nat × Nat × Nat)) (s : State) : s.returnCredits l = { s with credits := (s.returnCredits l).credits } := by
  unfold State.returnCredits
  induction l generalizing s with
  | nil => rfl
  | cons x l ih =>
    rw [List.foldl_cons, ih]
    split <;> rfl

/-- next-SEQ after a release (R90). -/
def State.seqAfter (s : State) (c : Fin 16) (p : Package) : Vector (BitVec 32) 4 :=
  if p.advance then s.nextSeq.set (s.cfg c).group (s.nextSeq[(s.cfg c).group] + 1) else s.nextSeq

theorem State.complete_eq {s : State} {c : Fin 16} {r : Release} (h : s.chans[c].rel = some r) : s.complete c =
    { s with
      sent := s.sent ++ [((s.cfg c).source, completeMsg c.val r.pkg.record.status r.pkg.record.seq r.pkg.credit
        (if r.pkg.viaMsg then r.pkg.record.bytes else []))]
      ctr := s.ctr.take r.pkg.record r.pkg.drift
      nextSeq := s.seqAfter c r.pkg
      credits := (s.complete c).credits
      chans := s.chans.set c { s.chans[c] with rel := none, lastSeq := r.pkg.record.seq } } := by
  unfold State.complete State.seqAfter
  rw [h]
  dsimp only
  rw [State.returnCredits_eq]
  split <;> rfl

theorem State.pumpRings_complete {s : State} {c : Fin 16} {r : Release} (h : s.chans[c].rel = some r)
    (hothers : ∀ k : Fin 16, k ≠ c → s.chans[k].rel = none) (hoff : s.offcut = []) : (s.complete c).pumpRings = s.complete c := by
  refine State.pumpRings_of_idle (fun k => ?_) (by rw [State.complete_eq h]; exact hoff)
  rw [State.complete_eq h]
  by_cases hk : k = c
  · rw [hk]
    exact congrArg Chan.rel (getElem_set_fin_self _ _ _)
  · exact (congrArg Chan.rel (getElem_set_fin_ne _ _ hk)).trans (hothers k hk)

/-- Settles O17: the write's acknowledgment completes the release. -/
theorem completeFollowsRecordWrite : Obligations.CompleteFollowsRecordWrite := by
  intro s c r q hlive hrel hsent hvia htiles hbad hothers hoff hout huse hwait
  have hfind : s.port.out.find? (fun q => q.use == .record c) = some q := by
    rw [hout]
    exact List.find?_cons_of_pos (beq_iff_eq.2 huse)
  have htaken : (s.port.take q.tag).out = [] := by
    unfold MemPort.take
    rw [hout]
    simp
  have hrel' : (s.took q.tag).chans[c].rel = some r := hrel
  have hacked : (s.took q.tag).recordAcked c = (s.took q.tag).complete c := by
    have hdone : (s.took q.tag).inFlight (.record c) = false := by
      unfold State.inFlight
      rw [show (s.took q.tag).port.out = [] from htaken, show (s.took q.tag).port.waiting = [] from hwait]
      rfl
    unfold State.recordAcked
    rw [hrel']
    dsimp only
    rw [hsent, hdone, htiles, if_pos (by rfl)]
    exact State.pumpRings_complete hrel' hothers hoff
  have hcomplete := State.complete_eq hrel'
  have hexec : exec (.completionRecordWriteAck c false) s = .next ((s.took q.tag).complete c) := by
    have hstep : exec (.completionRecordWriteAck c false) s = .next ((s.took q.tag).recordAcked c).reissue := by
      rw [show exec (.completionRecordWriteAck c false) s = execCompletionRecordWriteAck c false s from rfl, execCompletionRecordWriteAck,
        if_neg hlive.hears', if_neg hlive.not_freezing, hfind]
      dsimp only
      rw [if_neg (by decide), if_neg (ne_true_of_eq_false hbad)]
      rfl
    rw [hstep, hacked, State.reissue_of_waiting_nil (by rw [hcomplete]; exact hwait)]
  generalize (s.took q.tag).complete c = t at hexec hcomplete
  refine ⟨t, hexec, ?_, by rw [hcomplete]; rfl, by rw [hcomplete]; exact htaken, by rw [hcomplete]; rfl, by rw [hcomplete]; rfl⟩
  rw [hcomplete, hvia]
  unfold completeMsg
  rw [if_neg (by decide), List.append_nil]
  rfl

/-! ### Packages released (R90, R91, R396) -/

theorem State.holdMet_iff (s : State) (c : Fin 16) (p : Package) : s.holdMet c p = true ↔
    p.barred = false ∧ (p.freely = true ∨ (s.nextSeq[(s.cfg c).group]).toNat = p.record.seq) ∧ ¬ (s.lg = .fault ∧ p.record.status = stFault) := by
  unfold State.holdMet
  simp only [Bool.and_eq_true, Bool.or_eq_true, Bool.not_eq_true', beq_iff_eq, Bool.and_eq_false_iff, beq_eq_false_iff_ne, Classical.not_and_iff_not_or_not]
  exact and_assoc.trans (and_congr_right fun _ => and_comm)

section ReleasePackage
variable {s : State} {c : Fin 16} {p : Package} {l : List Package}

theorem State.nextPackage_of_met (hheld : s.chans[c].held = p :: l) (h : s.holdMet c p = true) : s.nextPackage c = some (p, l) := by
  unfold State.nextPackage
  rw [hheld]
  exact if_pos h

theorem State.nextPackage_of_turn (hheld : s.chans[c].held = p :: l) (h : ¬ s.holdMet c p = true) (hturn : s.faultTurn c = true) :
    s.nextPackage c = ((p :: l).find? fun q => q.record.status == stFault).map fun q => (q, (p :: l).erase q) := by
  unfold State.nextPackage
  rw [hheld]
  exact (if_neg h).trans (if_pos hturn)

theorem State.nextPackage_of_no_turn (hheld : s.chans[c].held = p :: l) (h : ¬ s.holdMet c p = true) (hturn : ¬ s.faultTurn c = true) :
    s.nextPackage c = none := by
  unfold State.nextPackage
  rw [hheld]
  exact (if_neg h).trans (if_neg hturn)

theorem exec_releasePackage_of_none (hlive : s.live) (h : s.nextPackage c = none) : exec (.releasePackage c) s = .next s := by
  rw [show exec (.releasePackage c) s = execReleasePackage c s from rfl, execReleasePackage, if_neg hlive.not_idle, h]
  cases s.chans[c].rel <;> rfl

/-- The state as a channel begins to release a package. -/
def State.releasing (s : State) (c : Fin 16) (q : Package) (rest : List Package) : State :=
  s.onChan c fun x => { x with held := rest, rel := some { pkg := q } }

/-- A release with nothing for a ring, its record in COMPLETE. -/
theorem State.releaseGo_of_message {r : Release} (hrel : s.chans[c].rel = some r) (hsent : r.recordSent = false) (huse : r.use = none)
    (hshaves : r.pkg.shaves = []) (hpoles : r.pkg.poles = []) (hvia : r.pkg.viaMsg = true) (f : Nat) :
    State.releaseGo (f + 1) s c = s.complete c := by
  rw [State.releaseGo, hrel]
  dsimp only
  rw [hsent, huse, hshaves, hpoles, if_neg (by decide), if_neg (by decide), if_neg (by decide), if_pos hvia]

/-- A package with nothing for a ring and its record in COMPLETE is sent at once. -/
theorem exec_releasePackage_of_message {q : Package} {rest : List Package} (hlive : s.live) (hidle : s.ringsIdle)
    (h : s.nextPackage c = some (q, rest)) (hvia : q.viaMsg = true) (hshaves : q.shaves = []) (hpoles : q.poles = []) :
    exec (.releasePackage c) s = .next ((s.releasing c q rest).complete c) := by
  obtain ⟨hrel, hoff⟩ := hidle
  have hrel' : (s.releasing c q rest).chans[c].rel = some { pkg := q } := congrArg Chan.rel (getElem_set_fin_self _ _ _)
  have hgo := State.releaseGo_of_message hrel' rfl rfl hshaves hpoles hvia 3
  have hpump := State.pumpRings_complete hrel' (fun k hk => (congrArg Chan.rel (getElem_set_fin_ne _ _ hk)).trans (hrel k)) hoff
  rw [show exec (.releasePackage c) s = execReleasePackage c s from rfl, execReleasePackage, if_neg hlive.not_idle, h, hrel c]
  show Host.Outcome.next (State.releaseGo 4 (s.releasing c q rest) c).pumpRings = _
  rw [hgo, hpump]

end ReleasePackage

/-- In FAULT it is a channel's turn once no hold is met anywhere and the channels before it have no FAULT completion to come (R396). -/
theorem State.faultTurn_of_last {s : State} {c : Fin 16} (hlg : s.lg = .fault) (hrel : ∀ k : Fin 16, s.chans[k].rel = none)
    (hnone : ∀ (k : Fin 16) (x : Package) (r : List Package), s.chans[k].held = x :: r → ¬ s.holdMet k x = true)
    (hbefore : ∀ k : Fin 16, k < c → (∀ x ∈ s.chans[k].held, x.record.status ≠ stFault) ∧
      ∀ h, s.chans[k].halted = some h → h.drained = true) : s.faultTurn c = true := by
  have hheads : ∀ k : Fin 16, (s.chans[k].held.head?.map (s.holdMet k)).getD false = false := fun k => by
    cases hk : s.chans[k].held with
    | nil => rfl
    | cons x r => exact Bool.eq_false_iff.2 (hnone k x r hk)
  unfold State.faultTurn
  rw [hlg, Bool.and_eq_true_iff]
  refine ⟨rfl, List.all_eq_true.2 fun k _ => ?_⟩
  rw [hrel k, hheads k]
  by_cases hle : c.val ≤ k.val
  · rw [decide_eq_true hle]
    rfl
  · obtain ⟨hheld, hdrained⟩ := hbefore k (Fin.lt_def.2 (Nat.lt_of_not_le hle))
    have hany : (s.chans[k].held.any fun p => p.record.status == stFault) = false :=
      List.any_eq_false.2 fun x hx h => hheld x hx (beq_iff_eq.1 h)
    rw [hany]
    cases hk : s.chans[k].halted with
    | none => simp
    | some h => simp [hdrained h hk]

/-- Settles O16: which package a channel releases next, and what its release sends. -/
theorem packageReleasedWhenHoldIsMet : Obligations.PackageReleasedWhenHoldIsMet := by
  refine ⟨fun s c e r shaves poles hlg hstatus => ?_, fun s c p l hlive hidle hheld => ?_⟩
  · show (s.lg == .fault && r.status != stFault) = true
    rw [hlg, bne_iff_ne.2 hstatus]
    rfl
  intro met goes
  have hmet : ∀ k q, s.holdMet k q = true ↔ met k q := fun k q => s.holdMet_iff k q
  have hgoes : ∀ q rest, s.nextPackage c = some (q, rest) → goes q rest := by
    intro q rest hnext hvia hshaves hpoles
    have hrel : (s.releasing c q rest).chans[c].rel = some { pkg := q } := congrArg Chan.rel (getElem_set_fin_self _ _ _)
    have hexec := exec_releasePackage_of_message hlive hidle hnext hvia hshaves hpoles
    have hcomplete := State.complete_eq hrel
    generalize (s.releasing c q rest).complete c = t at hexec hcomplete
    refine ⟨t, hexec, ?_, ?_, by rw [hcomplete]; rfl, by rw [hcomplete]; rfl, by rw [hcomplete]; rfl, by rw [hcomplete]; rfl⟩
    · rw [hcomplete, hvia]
      rfl
    · rw [hcomplete]
      simp only [State.releasing, State.onChan, State.setChan, getElem_set_fin_self, Vector.set_set]
  refine ⟨fun hlg hnot => ?_, fun hlg hbarred hstatus => ?_, fun hlg hnot hother => ?_, fun hyes => ?_, fun hlg q hfind hnone hbefore => ?_⟩
  · have hturn : ¬ s.faultTurn c = true := fun h => hlg (beq_iff_eq.1 (Bool.and_eq_true_iff.1 h).1)
    exact exec_releasePackage_of_none hlive (State.nextPackage_of_no_turn hheld (fun h => hnot ((hmet c p).1 h)) hturn)
  · have hnot : ¬ s.holdMet c p = true := fun h => Bool.noConfusion (((hmet c p).1 h).1.symm.trans hbarred)
    by_cases hturn : s.faultTurn c = true
    · have hnone : (p :: l).find? (fun q => q.record.status == stFault) = none :=
        List.find?_eq_none.2 fun q hq h => hstatus q hq (beq_iff_eq.1 h)
      have hnext := State.nextPackage_of_turn hheld hnot hturn
      rw [hnone] at hnext
      exact exec_releasePackage_of_none hlive hnext
    · exact exec_releasePackage_of_none hlive (State.nextPackage_of_no_turn hheld hnot hturn)
  · obtain ⟨k, x, r, hx, hyes⟩ := hother
    have hturn : ¬ s.faultTurn c = true := fun h => by
      have hk := List.all_eq_true.1 (Bool.and_eq_true_iff.1 h).2 k (State.mem_channels k)
      rw [hx, List.head?_cons, Option.map_some, Option.getD_some, (hmet k x).2 hyes] at hk
      simp at hk
    exact exec_releasePackage_of_none hlive (State.nextPackage_of_no_turn hheld (fun h => hnot ((hmet c p).1 h)) hturn)
  · exact hgoes p l (State.nextPackage_of_met hheld ((hmet c p).2 hyes))
  · have hturn : s.faultTurn c = true := State.faultTurn_of_last hlg hidle.1 (fun k x r hx h => hnone k x r hx ((hmet k x).1 h)) hbefore
    have hnext := State.nextPackage_of_turn hheld (fun h => hnone c p l hheld ((hmet c p).1 h)) hturn
    rw [hfind] at hnext
    exact hgoes q _ hnext

/-! ### A record's HEAD, and a ring that waits (R260, R261) -/

section Ring
variable {s : State} {r : RingSite} {u : RingUse}

theorem State.recordWritten_of_record {n : Nat} (huse : s.useOf r = some u) (hphase : u.phase = .record n) : s.recordWritten r =
    if n ≤ 1 then (if (s.putHead r u).2 then (s.putHead r u).1.recordPlaced r u else (s.putHead r u).1)
    else s.setUse r (some { u with phase := .record (n - 1) }) := by
  unfold State.recordWritten
  rw [huse]
  dsimp only
  rw [hphase]

theorem State.putHead_of_memory (h : u.ring.headKind ≠ 1) : s.putHead r u =
    ((s.setUse r (some { u with phase := .head })).request (writeReqs (.ringHead r) u.ring.headAddr (natLE 4 u.newHead)), false) := if_neg h

theorem State.putHead_of_yard (h : u.ring.headKind = 1) : s.putHead r u =
    ((s.setUse r (some { u with phase := .head })).siteWrite r u.ring.headAddr (natLE 4 u.newHead),
      !(((s.setUse r (some { u with phase := .head })).siteWrite r u.ring.headAddr (natLE 4 u.newHead)).siteWaits r)) := if_pos h

theorem exec_ringRecordWriteAck {q : MemReq} (hlive : s.live) (hfind : s.port.out.find? (fun x => x.use == .ringRecord r) = some q)
    (hbad : q.bad = false) : exec (.ringRecordWriteAck r false) s = .next ((s.took q.tag).recordWritten r).reissue := by
  rw [show exec (.ringRecordWriteAck r false) s = execRingRecordWriteAck r false s from rfl, execRingRecordWriteAck,
    if_neg hlive.hears', if_neg hlive.not_freezing, hfind]
  dsimp only
  rw [if_neg (by decide), if_neg (ne_true_of_eq_false hbad)]
  rfl

theorem exec_ringSpacePoll_of_wait (hlive : s.live) (huse : s.useOf r = some u) (hphase : u.phase = .wait) : exec (.ringSpacePoll r) s =
    if u.ring.headKind = 1 then
      .next (((s.yardRing u.ring).1.setUse r (some { u with ring := (s.yardRing u.ring).2 })).placeRecords (s.ringFuel r) r
        { u with ring := (s.yardRing u.ring).2 }).pumpRings
    else .next (s.readRing r u) := by
  rw [show exec (.ringSpacePoll r) s = execRingSpacePoll r s from rfl, execRingSpacePoll, if_neg hlive.not_idle, huse]
  exact if_pos hphase

theorem State.yardRing_of_clean (hce : s.bays.yardCE = []) (hue : s.bays.yardUE = []) (ring : Ring) : s.yardRing ring =
    (s, { ring with head := fieldAt (s.blockBytes ring.headAddr 8) 0 4, tail := fieldAt (s.blockBytes ring.headAddr 8) 4 4 }) := by
  have hcheck : s.yardCheck ring.headAddr 8 = (s, none) := by
    unfold State.yardCheck
    rw [hce, hue]
    rfl
  unfold State.yardRing
  rw [hcheck]

end Ring

/-- Settles O28: HEAD after the record's last write; a waiting ring's HEAD and TAIL read again. -/
theorem ringRecordsPrecedeTheirHead : Obligations.RingRecordsPrecedeTheirHead := by
  refine ⟨fun s r u q n hlive hfind huse hphase hbad => ?_, fun s r u hlive huse hphase hbytes => ?_⟩
  · have hwritten := State.recordWritten_of_record (s := s.took q.tag) (r := r) (u := u) (by cases r <;> exact huse) hphase
    rw [exec_ringRecordWriteAck hlive hfind hbad, hwritten]
    refine ⟨fun hlast hmem => ?_, fun hlast hyard => ?_, fun hmore => ?_⟩
    · rw [if_pos hlast, State.putHead_of_memory hmem]
      rfl
    · have hswap : ∀ (b : Bool) (x y : State), (if (!b) = true then x else y) = if b = true then y else x := fun b x y => by cases b <;> rfl
      rw [if_pos hlast, State.putHead_of_yard hyard, hswap]
      rfl
    · rw [if_neg (Nat.not_le.2 hmore)]
      rfl
  · rw [exec_ringSpacePoll_of_wait hlive huse hphase]
    refine ⟨fun hmem => ?_, fun hyard hce hue => ?_⟩
    · rw [if_neg hmem, State.readRing, if_neg hbytes]
    · rw [if_pos hyard, State.yardRing_of_clean hce hue]

end Sys2Proof.Machine
end

section
/-! PROOFS. Tap beats (16_ R408) and the lane check (15_ R381). -/

namespace Sys2Proof.Machine

/-! ### Tap beats -/

section Tap
variable {s : State} {bay : Fin 16} {data : List Word} {par : List Bool}

/-- The work a tap's beat leaves: the beat added to its bay's, with the ARITH cycle of its transfer. -/
def Job.tapped (j : Job) (k : Nat) (data : List Word) (cycle : Nat) : Job :=
  { j with
    taps := (j.taps ++ List.replicate (k + 1 - j.taps.length) []).modify k (· ++ [data])
    beats := j.beats ++ [(k, cycle)] }

theorem exec_tapBeat (hlive : s.live) (hbay : bay.val ∈ s.bays.enabled) (hissues : ∀ h ∈ s.bays.hold, h.1 ≠ bay.val) :
    exec (.tapBeat bay data par) s =
      let k := s.bays.enabled.findIdx (· == bay.val)
      match s.tapTaker k with
      | none => .next s
      | some (p, j) =>
        if ((data.zip par).all fun x => parityRight x.1 x.2) = true then
          let t := j.tapped k data (s.clk.arith - j.startArith)
          .next ((s.setJob p (some (if t.tapsIn then { t with due := s.tapDue p t } else t))).progress 16 p)
        else .next (s.faultPart p codeParity (unitDetail 12 0) (inBay bay.val) false) := by
  have hgo : s.bays.enabled.contains bay.val = true ∧ ¬ s.stopped = true ∧ (s.bays.hold.all fun h => h.1 != bay.val) = true ∧
      s.pins.rstN = true := by
    obtain ⟨hrst, hruns⟩ := hlive
    exact ⟨List.contains_iff_mem.2 hbay, ne_true_of_eq_false hruns, List.all_eq_true.2 fun h hh => bne_iff_ne.2 (hissues h hh), hrst⟩
  rw [show exec (.tapBeat bay data par) s = execTapBeat bay data par s from rfl, execTapBeat, if_pos hgo]
  rfl

/-- A list padded to hold place `k` reads at every place as before. -/
theorem getD_append_replicate {α : Type} (l : List (List α)) (m n : Nat) : (l ++ List.replicate m []).getD n [] = l.getD n [] := by
  rw [List.getD_eq_getElem?_getD, List.getD_eq_getElem?_getD]
  by_cases h : n < l.length
  · rw [List.getElem?_append_left h]
  · rw [List.getElem?_append_right (Nat.le_of_not_lt h), List.getElem?_replicate, List.getElem?_eq_none (Nat.le_of_not_lt h)]
    split <;> rfl

theorem Job.tapped_taps (j : Job) (k : Nat) (data : List Word) (cycle : Nat) : (j.tapped k data cycle).taps.getD k [] = j.taps.getD k [] ++ [data] ∧
    ∀ n, n ≠ k → (j.tapped k data cycle).taps.getD n [] = j.taps.getD n [] := by
  have hfull := getD_append_replicate j.taps (k + 1 - j.taps.length)
  have hlength : k < (j.taps ++ List.replicate (k + 1 - j.taps.length) []).length := by
    rw [List.length_append, List.length_replicate]
    omega
  unfold Job.tapped
  generalize j.taps ++ List.replicate (k + 1 - j.taps.length) [] = full at hfull hlength
  refine ⟨?_, fun n hn => ?_⟩
  · rw [← hfull k, List.getD_eq_getElem?_getD, List.getD_eq_getElem?_getD, List.getElem?_modify_eq, List.getElem?_eq_getElem hlength]
    rfl
  · rw [← hfull n, List.getD_eq_getElem?_getD, List.getD_eq_getElem?_getD, List.getElem?_modify_ne _ _ hn.symm]

end Tap

/-- Settles O23: the beat by its parity, and by the work that takes it. -/
theorem tapBeatTransfers : Obligations.TapBeatTransfers := by
  intro s bay data par hlive hbay hissues k
  have hexec := exec_tapBeat (data := data) (par := par) hlive hbay hissues
  refine ⟨fun hnone => ?_, fun p j htaker => ⟨fun hgood => ?_, fun hbad => ?_⟩⟩
  · rw [hexec]
    dsimp only
    rw [hnone]
  · obtain ⟨hsame, hother⟩ := j.tapped_taps k data (s.clk.arith - j.startArith)
    have hall : ((data.zip par).all fun x => parityRight x.1 x.2) = true := List.all_eq_true.2 hgood
    generalize hj : j.tapped k data (s.clk.arith - j.startArith) = t at hsame hother
    refine ⟨t.taps, if t.tapsIn then s.tapDue p t else j.due, ?_, hsame, hother⟩
    rw [hexec]
    dsimp only
    rw [htaker]
    dsimp only
    rw [if_pos hall, hj]
    have hdue : (if t.tapsIn = true then { t with due := s.tapDue p t } else t) =
        { t with due := if t.tapsIn = true then s.tapDue p t else j.due } := by
      rw [← hj]
      split <;> rfl
    rw [hdue, ← hj]
    rfl
  · have hall : ¬ ((data.zip par).all fun x => parityRight x.1 x.2) = true := fun h => by
      obtain ⟨x, hx, hwrong⟩ := hbad
      exact Bool.noConfusion ((List.all_eq_true.1 h x hx).symm.trans hwrong)
    rw [hexec]
    dsimp only
    rw [htaker]
    dsimp only
    rw [if_neg hall]
    rfl

/-! ### The lane check -/

section Lane
variable {s : State} {bay : Fin 16} {lane op : Nat} {seen : LaneSeen} {p : Part} {j : Job}

/-- The DETAIL of a lane's entry: the operation and the format (Table 15.3). -/
def laneDetail (op : Nat) (seen : LaneSeen) : Nat := op % 64 + 256 * (seen.fmt % 16)

/-- The trip of a lane counted. -/
def State.tripped (s : State) : State := { s with ctr := { s.ctr with laneCheck := s.ctr.laneCheck + 1 } }

/-- Is a bay's spare lane gone (R22)? -/
def Bays.spareGone (b : Bays) (bay : Nat) : Bool := b.spared.any (·.1 == bay) || b.spareBad.contains bay

theorem exec_laneCheck_of_good (hlive : s.live) (hwork : s.workOn bay.val = some (p, j))
    (hgood : crossTrips op (laneVal seen.p) (laneVal seen.e) = false) : exec (.laneCheck bay lane op seen) s = .next s := by
  rw [show exec (.laneCheck bay lane op seen) s = execLaneCheck bay lane op seen s from rfl, execLaneCheck, if_neg hlive.not_idle, hwork]
  exact if_neg (by rw [hgood, Bool.and_false]; decide)

section Trips
variable (hlive : s.live) (hwork : s.workOn bay.val = some (p, j)) (hready : s.lg = .ready) (hactive : s.bays.laneActive bay.val lane = true)
  (hbay : bay.val ∈ s.bays.enabled) (htrips : crossTrips op (laneVal seen.p) (laneVal seen.e) = true)
include hlive hwork hready hactive hbay htrips

theorem exec_laneCheck_of_trip : exec (.laneCheck bay lane op seen) s =
    if s.bays.spareGone bay.val then
      match s.tripped.heldSpare bay.val lane with
      | some l =>
        let t := s.tripped.retireLower bay.val l lane (laneDetail op seen)
        .next (t.instanceFault (t.secondEntry j bay.val l (laneDetail op seen)))
      | none => .next (s.tripped.instanceFault (s.tripped.secondEntry j bay.val lane (laneDetail op seen)))
    else
      .next ((({ s.tripped with bays := { s.bays with
          spared := s.bays.spared ++ [(bay.val, lane)], hold := s.bays.hold ++ [(bay.val, s.clk.arith + 64)] } } : State).breakLent bay.val).faultPart
            p codeLane (laneDetail op seen) (some (bay.val, lane)) false) := by
  have hgo : (s.bays.laneActive bay.val lane && s.bays.enabled.contains bay.val && s.lg == .ready &&
      crossTrips op (laneVal seen.p) (laneVal seen.e)) = true := by
    rw [hactive, List.contains_iff_mem.2 hbay, hready, htrips]
    rfl
  rw [show exec (.laneCheck bay lane op seen) s = execLaneCheck bay lane op seen s from rfl, execLaneCheck, if_neg hlive.not_idle, hwork]
  exact if_pos hgo

end Trips
end Lane

/-- Settles O24: within the bounds, a first trip, a second one, and two in one cycle. -/
theorem laneCheckMapsInTheSpare : Obligations.LaneCheckMapsInTheSpare := by
  intro s bay lane op seen p j hlive hwork hready hactive hbay u second
  refine ⟨exec_laneCheck_of_good hlive hwork, fun htrips => ?_⟩
  have hexec := exec_laneCheck_of_trip hlive hwork hready hactive hbay htrips
  refine ⟨fun hgone hlower => ?_, fun n hfind hlane hhold => ?_, fun hspare => ?_⟩
  · have hgone' : s.bays.spareGone bay.val = true := hgone
    have hlower' : s.tripped.heldSpare bay.val lane = none := hlower
    rw [hexec, if_pos hgone', hlower']
    rfl
  · have hgone : s.bays.spareGone bay.val = true := Bool.or_eq_true_iff.2 (.inl (List.any_eq_true.2
      ⟨_, List.mem_of_find?_eq_some hfind, beq_self_eq_true _⟩))
    have hlower : s.tripped.heldSpare bay.val lane = some n := by
      unfold State.heldSpare
      rw [show s.tripped.bays.spared.find? (·.1 == bay.val) = some (bay.val, n) from hfind]
      exact if_pos ⟨hlane, List.contains_iff_mem.2 hhold⟩
    rw [hexec, if_pos hgone, hlower]
    rfl
  · have hspare' : ¬ s.bays.spareGone bay.val = true := ne_true_of_eq_false hspare
    rw [hexec, if_neg hspare']
    rfl

end Sys2Proof.Machine
end

section
/-! PROOFS. The first validation of a descriptor (03_ R82). -/

namespace Sys2Proof.Machine

/-! ### One channel of a state -/

section OneChannel
variable (s : State) (c : Fin 16) (x y : Chan)

theorem State.setChan_self : s.setChan c s.chans[c] = s := by
  rw [State.setChan, set_getElem_fin_self]

theorem State.setChan_chan : (s.setChan c x).chans[c] = x := getElem_set_fin_self _ _ _

theorem State.setChan_setChan : (s.setChan c x).setChan c y = s.setChan c y := by
  simp only [State.setChan, Vector.set_set]

theorem State.onChan_setChan (f : Chan → Chan) : (s.setChan c x).onChan c f = s.setChan c (f x) := by
  rw [State.onChan, State.setChan_chan, State.setChan_setChan]

theorem State.onHead_setChan {x : Chan} {e : Entry} {l : List Entry} (hq : x.queue = e :: l) (f : Entry → Entry) :
    (s.setChan c x).onHead c f = s.setChan c { x with queue := f e :: l } := by
  rw [State.onHead, State.onChan_setChan, hq]

theorem State.setChan_ne {k : Fin 16} (h : k ≠ c) : (s.setChan c x).chans[k] = s.chans[k] := getElem_set_fin_ne _ _ h

end OneChannel

/-! ### A rejection -/

theorem Bays.clear_queueCE {b : Bays} (h : b.queueCE = []) : ({ b with queueCE := [] } : Bays) = b := by
  rw [← h]

/-- What a rejection of a first attempt leaves: the channel with package `p`, which records it. -/
def State.Rejects (s t : State) (c : Fin 16) (x : Chan) (d : Desc) (status : Nat) : Prop :=
  ∃ p : Package, t = s.setChan c (x.popWith p) ∧
    p.record = { seq := d.seq, status := status, ch := c.val, start := s.count, stop := s.count } ∧ p.credit = true

section Validates
variable {s : State} {c : Fin 16} {x : Chan} {e : Entry} {l : List Entry}

theorem State.reject_setChan (hce : s.bays.queueCE = []) (hue : s.bays.queueUE = []) (hq : x.queue = e :: l) (hfirst : e.attempt = 0)
    {status : Nat} (hstatus : status ≠ stFault) : s.Rejects ((s.setChan c x).reject c status) c x (Desc.parse e.desc) status := by
  refine ⟨(s.setChan c x).package c e { seq := (Desc.parse e.desc).seq, status := status, ch := c.val, start := s.count, stop := s.count } [] [],
    ?_, rfl, bne_iff_ne.2 hstatus⟩
  have hretracts : (s.setChan c x).retracts c e = ([], []) := if_pos hfirst
  unfold State.reject
  rw [State.setChan_chan, hq]
  dsimp only
  rw [hretracts, if_neg (fun h => h.1 hfirst), State.hold_popHead (s := s.setChan c x) hce hue, State.setChan_chan]
  exact State.setChan_setChan s c x _

/-! ### The checks (Table 3.6) -/

theorem State.vctx_setChan (s : State) (c k : Fin 16) (x : Chan) : (s.setChan c x).vctx k = s.vctx k := rfl

theorem State.isLate_setChan (s : State) (c k : Fin 16) (x : Chan) (e : Entry) : (s.setChan c x).isLate k e = s.isLate k e := rfl

/-- A SEQ pending depends on no block read of a descriptor. -/
theorem State.seqPending_setChan (hqueue : ∀ seq, x.queue.any (fun e => e.seqPassed && (Desc.parse e.desc).seq == seq) =
      s.chans[c].queue.any fun e => e.seqPassed && (Desc.parse e.desc).seq == seq)
    (hheld : x.held = s.chans[c].held) (hrel : x.rel = s.chans[c].rel) (g : Fin 4) (seq : Nat) :
    (s.setChan c x).seqPending g seq = s.seqPending g seq := by
  unfold State.seqPending
  refine List.any_congr rfl fun k => ?_
  by_cases hk : k = c
  · subst hk
    rw [State.setChan_chan, hqueue, hheld, hrel]
    rfl
  · rw [State.setChan_ne s c x hk]
    rfl

section Read
variable {v : Validation} (hq : x.queue = e :: l) (hval : x.val = some v) (hpassed : v.passed = false) (hawaited : v.awaited = [])
  (hmay : s.mayValidate = true) (hchain : ¬ (45 ≤ (Desc.parse e.desc).chain ∧ (Desc.parse e.desc).chain ≤ 46))
include hq hval hpassed hawaited hmay hchain

theorem State.finishValidation_of_bad {st : Nat} (hblocks : validateBlocks (Desc.parse e.desc) (s.vctx c) v.blocks = some st) :
    (s.setChan c x).finishValidation c = (s.setChan c { x with queue := { e with blocks := v.blocks } :: l }).reject c st := by
  have hgo : ¬ ((v.passed || !v.awaited.isEmpty || !(s.setChan c x).mayValidate) = true) := by
    rw [hpassed, hawaited, show (s.setChan c x).mayValidate = true from hmay]
    decide
  unfold State.finishValidation
  rw [State.setChan_chan, hq, hval]
  dsimp only
  rw [if_neg hgo, State.onHead_setChan s c hq, if_neg (fun h => hchain h.1), State.vctx_setChan]
  simp only [hblocks]
  rw [hval]

/-- The checks once the blocks are read, of a descriptor that needs none and is not one of chains 45 and 46. -/
theorem State.finishValidation_of_good (hblocks : validateBlocks (Desc.parse e.desc) (s.vctx c) v.blocks = none)
    (hheld : x.held = s.chans[c].held) (hrel : x.rel = s.chans[c].rel) (hqueue : s.chans[c].queue = e :: l) :
    (s.setChan c x).finishValidation c =
      if s.badSeq c e then (s.setChan c { x with queue := { e with blocks := v.blocks } :: l }).reject c stBadSeq
      else if s.isLate c e then (s.setChan c { x with queue := { e with blocks := v.blocks, seqPassed := true } :: l }).reject c stLate
      else s.setChan c { x with
        queue := { e with blocks := v.blocks, seqPassed := true, launchPassed := true } :: l, val := some { v with passed := true } } := by
  have hgo : ¬ ((v.passed || !v.awaited.isEmpty || !(s.setChan c x).mayValidate) = true) := by
    rw [hpassed, hawaited, show (s.setChan c x).mayValidate = true from hmay]
    decide
  have hseq : (s.setChan c { x with queue := { e with blocks := v.blocks } :: l }).badSeq c e = s.badSeq c e := by
    have hpending := State.seqPending_setChan (s := s) (c := c) (x := { x with queue := { e with blocks := v.blocks } :: l })
      (fun seq => by rw [hqueue]; rfl) hheld hrel
    unfold State.badSeq
    simp only [hpending]
    rfl
  unfold State.finishValidation
  rw [State.setChan_chan, hq, hval]
  dsimp only
  rw [if_neg hgo, State.onHead_setChan s c hq, if_neg (fun h => hchain h.1), State.vctx_setChan, hblocks]
  dsimp only
  rw [hseq, State.onHead_setChan s c rfl, State.isLate_setChan, State.onHead_setChan s c rfl, if_neg hchain, State.passValidation,
    State.onChan_setChan, hval]
  rfl

end Read

theorem State.request_nil (h : s.port.waiting = []) : s.request [] = s := by
  have hport : ({ s.port with waiting := s.port.waiting ++ [] } : MemPort) = s.port := by rw [List.append_nil]
  have hissue : MemPort.issue s.port.waiting.length s.port = s.port := by rw [h]; rfl
  unfold State.request
  rw [hport]
  dsimp only
  rw [hissue, ite_self]

section Begin
variable (hce : s.bays.queueCE = []) (hue : s.bays.queueUE = []) (hq : s.chans[c].queue = e :: l)
include hce hue hq

theorem State.beginValidation_of_unscarfed (h : s.scarfed (s.cfg c).gang = false) : s.beginValidation c = s.reject c stSeasoning := by
  have hclean : ({ s with bays := { s.bays with queueCE := [] } } : State) = s := by rw [Bays.clear_queueCE hce]
  unfold State.beginValidation
  rw [hq, hce, hue]
  dsimp only [List.filter_nil, List.foldl_nil]
  rw [hclean, if_pos h]

variable (hscarfed : ¬ s.scarfed (s.cfg c).gang = false)
include hscarfed

theorem State.beginValidation_of_bad_head {st : Nat} (h : validateHead (Desc.parse e.desc) (s.vctx c) = some st) :
    s.beginValidation c = s.reject c st := by
  have hclean : ({ s with bays := { s.bays with queueCE := [] } } : State) = s := by rw [Bays.clear_queueCE hce]
  unfold State.beginValidation
  rw [hq, hce, hue]
  dsimp only [List.filter_nil, List.foldl_nil]
  rw [hclean, if_neg hscarfed]
  simp only [h]

/-- A descriptor that needs no block goes on to the checks of its blocks at once. -/
theorem State.beginValidation_of_good_head (h : validateHead (Desc.parse e.desc) (s.vctx c) = none)
    (hneeds : neededBlocks (Desc.parse e.desc) (s.vctx c) = []) (hfirst : e.attempt = 0) (hwait : s.port.waiting = []) :
    s.beginValidation c = (s.setChan c { s.chans[c] with val := some {} }).finishValidation c := by
  have hclean : ({ s with bays := { s.bays with queueCE := [] } } : State) = s := by rw [Bays.clear_queueCE hce]
  have hkeep : (e.blocks.filter fun b => e.attempt ≠ 0 ∧ (b.1 = 4 ∨ b.1 = 5)) = [] :=
    List.filter_eq_nil_iff.2 fun b _ hb => (of_decide_eq_true hb).1 hfirst
  have hread : (s.setChan c { s.chans[c] with val := some {} }).readBlocks c [] = s.setChan c { s.chans[c] with val := some {} } :=
    calc (s.setChan c { s.chans[c] with val := some {} }).readBlocks c []
        = ((s.setChan c { s.chans[c] with val := some {} }).onChan c fun x => { x with
            val := x.val.map fun v => { v with blocks := v.blocks ++ [], awaited := [] } }).request [] := rfl
      _ = (s.setChan c { s.chans[c] with val := some {} }).request [] := by rw [State.onChan_setChan]; rfl
      _ = s.setChan c { s.chans[c] with val := some {} } := State.request_nil hwait
  unfold State.beginValidation
  rw [hq, hce, hue]
  dsimp only [List.filter_nil, List.foldl_nil]
  rw [hclean, if_neg hscarfed]
  simp only [h, hneeds, hkeep, List.filter_nil]
  exact congrArg (·.finishValidation c) hread

end Begin

end Validates

/-- A rejection of a channel's head as it stands. -/
theorem State.reject_head {s : State} {c : Fin 16} {e : Entry} {l : List Entry} (hce : s.bays.queueCE = []) (hue : s.bays.queueUE = [])
    (hq : s.chans[c].queue = e :: l) (hfirst : e.attempt = 0) {status : Nat} (hstatus : status ≠ stFault) :
    s.Rejects (s.reject c status) c s.chans[c] (Desc.parse e.desc) status := by
  have h := State.reject_setChan (s := s) (c := c) hce hue hq hfirst hstatus
  rwa [State.setChan_self] at h

theorem State.dueValidation_mayValidate {s : State} {c : Fin 16} (h : s.dueValidation c = true) : s.mayValidate = true := by
  simp only [State.dueValidation, Bool.and_eq_true] at h
  exact h.1.1.1.1

theorem exec_validateDescriptor_of_due {s : State} {c : Fin 16} (h : s.dueValidation c = true) (hclean : s.configClean) :
    exec (.validateDescriptor c) s = .next (s.beginValidation c) := by
  rw [show exec (.validateDescriptor c) s = execValidateDescriptor c s from rfl, execValidateDescriptor, if_pos h]
  dsimp only
  rw [State.readConfig_of_clean hclean, if_pos h]

/-- Settles O10: the checks in their order. -/
theorem validationRejectsOrPasses : Obligations.ValidationRejectsOrPasses := by
  intro s c e l hq hdue hclean hce hue hwait hfirst d x rejected
  have hexec := exec_validateDescriptor_of_due hdue hclean
  have hrejected : ∀ (y : Chan) (st : Nat),
      (∀ p, y.popWith p = Chan.next { x with held := x.held ++ [p], queue := l, val := none, job := none, halted := none }) →
      s.Rejects (s.beginValidation c) c y d st → rejected st := by
    rintro y st hy ⟨p, ht, hrecord, hcredit⟩
    refine ⟨p, ?_, hrecord, hcredit⟩
    rw [hexec, ht, hy]
    rfl
  have hhead : ∀ p, x.popWith p = Chan.next { x with held := x.held ++ [p], queue := l, val := none, job := none, halted := none } := fun p => by
    rw [Chan.popWith, hq]
    rfl
  split
  case isTrue hunscarfed =>
    refine hrejected x _ hhead ?_
    rw [State.beginValidation_of_unscarfed hce hue hq hunscarfed]
    exact State.reject_head hce hue hq hfirst (by decide)
  case isFalse hscarfed =>
    split
    case h_1 st hbad =>
      intro hstatus
      refine hrejected x _ hhead ?_
      rw [State.beginValidation_of_bad_head hce hue hq hscarfed hbad]
      exact State.reject_head hce hue hq hfirst hstatus
    case h_2 hgood =>
      intro hneeds hchain
      have hbegin := State.beginValidation_of_good_head hce hue hq hscarfed hgood hneeds hfirst hwait
      have hmay := State.dueValidation_mayValidate hdue
      split
      case h_1 st hbad =>
        intro hstatus
        refine hrejected { x with val := some {}, queue := { e with blocks := [] } :: l } st (fun p => rfl) ?_
        rw [hbegin.trans (State.finishValidation_of_bad (x := { x with val := some {} }) (v := {}) hq rfl rfl rfl hmay hchain hbad)]
        exact State.reject_setChan (e := { e with blocks := [] }) hce hue rfl hfirst hstatus
      case h_2 hblocks =>
        have hfinish := hbegin.trans (State.finishValidation_of_good (x := { x with val := some {} }) (v := {}) hq rfl rfl rfl hmay hchain hblocks rfl rfl hq)
        split
        case isTrue hseq =>
          refine hrejected { x with val := some {}, queue := { e with blocks := [] } :: l } stBadSeq (fun p => rfl) ?_
          rw [hfinish, if_pos hseq]
          exact State.reject_setChan (e := { e with blocks := [] }) hce hue rfl hfirst (by decide)
        case isFalse hseq =>
          split
          case isTrue hlate =>
            refine hrejected { x with val := some {}, queue := { e with blocks := [], seqPassed := true } :: l } stLate (fun p => rfl) ?_
            rw [hfinish, if_neg hseq, if_pos hlate]
            exact State.reject_setChan (e := { e with blocks := [], seqPassed := true }) hce hue rfl hfirst (by decide)
          case isFalse hlate =>
            rw [hexec, hfinish, if_neg hseq, if_neg hlate]
            rfl

end Sys2Proof.Machine
end

section
/-! PROOFS. Retirement (03_ R86, 12_ R313), the drain of an attempt (15_ R382, R383), END records (11_ R294), held tiles (09_ R236). -/

namespace Sys2Proof.Machine

/-! ### What sending does not do: begin a drain, or raise a ring fault -/

/-- From `s` to `t` no drain has begun, and the ring's fault stands as it was. -/
def State.Quiet (s t : State) : Prop := (s.draining = false → t.draining = false) ∧ t.stop.fault = s.stop.fault

theorem State.Quiet.refl (s : State) : s.Quiet s := ⟨id, rfl⟩

theorem State.Quiet.trans {s t u : State} (h : s.Quiet t) (k : t.Quiet u) : s.Quiet u := ⟨k.1 ∘ h.1, k.2.trans h.2⟩

theorem State.Quiet.foldl {α : Type} {step : State → α → State} (hstep : ∀ (s : State) (x : α), s.Quiet (step s x)) (l : List α) (s : State) :
    s.Quiet (l.foldl step s) := by
  induction l generalizing s with
  | nil => exact .refl s
  | cons a l ih => exact (hstep s a).trans (ih _)

theorem RingStop.drive_fault (k : RingStop) (now : Nat) (l : List (Bool × List Byte × List Bool)) : (k.drive now l).fault = k.fault := by
  have hfold : ∀ (l : List (Bool × List Byte × List Bool)) (k : RingStop), (l.foldl (fun (k : RingStop) x =>
      if x.1 then { k with cw := k.cw.sendOne now } else { k with ccw := k.ccw.sendOne now }) k).fault = k.fault := fun l => by
    induction l with
    | nil => exact fun _ => rfl
    | cons x l ih =>
      intro k
      rw [List.foldl_cons, ih]
      split <;> rfl
  exact hfold l _

section Quiet
variable (s : State)

theorem State.netPut_quiet (e : Envelope) (b : List Byte) : s.Quiet (s.netPut e b) := by
  unfold State.netPut
  dsimp only
  split
  · exact .refl s
  · exact .refl s
  · exact ⟨id, RingStop.drive_fault _ _ _⟩
  · exact .refl s

theorem State.putScarf_quiet (ready : Bool) : s.Quiet (s.putScarf ready) := by
  unfold State.putScarf
  split
  · exact .refl s
  · exact State.Quiet.foldl (fun t h => t.netPut_quiet _ _) _ _

theorem State.setJob_quiet (p : Part) (j : Option Job) : s.Quiet (s.setJob p j) := by
  cases p <;> exact .refl s

theorem State.dropOffcut_quiet (p : Part) : s.Quiet (s.dropOffcut p) := by
  unfold State.dropOffcut
  split
  · dsimp only
    split <;> exact .refl s
  · exact .refl s

theorem State.haltForFault_quiet (p : Part) : s.Quiet (s.haltForFault p) := by
  unfold State.haltForFault
  split
  · exact .refl s
  · next j _ =>
    split
    · exact .refl s
    · have hdrop : s.Quiet ((s.setJob p (some j.drain)).dropWaiting p) := (s.setJob_quiet p _).trans (State.dropOffcut_quiet _ p)
      cases p with
      | chan c => exact hdrop
      | share n => exact hdrop.trans (State.setJob_quiet _ _ _)

theorem State.corrected_quiet (unit off : Nat) : s.Quiet (s.corrected unit off) := by
  unfold State.corrected
  dsimp only
  split <;> exact .refl s

theorem State.scanConfig_quiet : s.Quiet s.scanConfig := by
  have hread := State.Quiet.foldl (step := fun s _ => s.corrected 5 0) (fun s _ => s.corrected_quiet 5 0) s.bays.configCE
    { s with bays := { s.bays with configCE := [] } }
  unfold State.scanConfig
  dsimp only
  split <;> exact hread

theorem State.freezeHere_quiet (cause : Nat) : s.Quiet (s.freezeHere cause) := by
  unfold State.freezeHere State.startFreeze
  split
  · exact .refl s
  · dsimp only
    split
    · exact ⟨id, RingStop.drive_fault _ _ _⟩
    · exact .refl s

theorem State.enterFault_quiet (entry : List Byte) : s.Quiet (s.enterFault entry) := by
  have hbegin : s.Quiet (s.faulted entry) := ⟨fun _ => rfl, rfl⟩
  have hwork := hbegin.trans (State.Quiet.foldl (fun t p => t.haltForFault_quiet p) ((s.faulted entry).running.map (·.1)) _)
  rw [State.enterFault_eq]
  dsimp only
  split
  · exact hwork
  · exact hwork.trans ((State.scanConfig_quiet _).trans (State.putScarf_quiet _ _))

theorem State.instanceFault_quiet (entry : List Byte) : s.Quiet (s.instanceFault entry) := by
  unfold State.instanceFault
  split
  · exact .refl s
  · split
    · split <;> exact .refl s
    · split
      · exact s.freezeHere_quiet 4
      · exact s.enterFault_quiet entry

theorem State.readConfig_quiet : s.Quiet s.readConfig := by
  have hread := State.Quiet.foldl (step := fun s _ => s.corrected 5 0) (fun s _ => s.corrected_quiet 5 0) s.bays.configCE
    { s with bays := { s.bays with configCE := [] } }
  unfold State.readConfig
  dsimp only
  split
  · exact hread
  · refine State.Quiet.trans hread (State.Quiet.trans ?_ (State.instanceFault_quiet _ _))
    exact .refl _

theorem State.netSend_quiet (e : Envelope) (b : List Byte) : s.Quiet (s.netSend e b) := by
  unfold State.netSend
  dsimp only
  split
  · exact s.readConfig_quiet
  · exact s.readConfig_quiet.trans (State.netPut_quiet _ e b)

end Quiet

/-! ### Retirement -/

theorem State.checkQuiesce_of_not_draining {s : State} (h : s.draining = false) : s.checkQuiesce = s := by
  unfold State.checkQuiesce
  rw [h]
  rfl

section Retire
variable {s : State} {c : Fin 16} {e : Entry} {l : List Entry} {j : Job} {n : Nat} {p : Part}

theorem exec_descriptorRetire (hlive : s.live) (hjob : s.job p = some j) (hmay : s.mayRetire p j = true) (hdue : j.due = none) :
    exec (.descriptorRetire p) s = .next (s.retire p j) := by
  have hat : s.retireAt j = s := by rw [State.retireAt, hdue]
  have hjobAt : j.atDue s = j := by rw [Job.atDue, hdue]
  rw [show exec (.descriptorRetire p) s = execDescriptorRetire p s from rfl, execDescriptorRetire, if_neg hlive.not_idle, hjob]
  dsimp only
  rw [if_pos hmay, hat, hjobAt]

/-- The package of a retired descriptor, and the channel it leaves. -/
theorem State.retireHead_eq (hq : s.chans[c].queue = e :: l) (hdraining : s.draining = false) (hce : s.bays.queueCE = [])
    (hue : s.bays.queueUE = []) : ∃ shaves poles, s.retireHead c j =
      { s with chans := s.chans.set c (s.chans[c].popWith { s.package c e (s.recordOf j) shaves poles with drift := j.counts.drift }) } := by
  have hretire : ∃ shaves poles, s.retireHead c j =
      ((s.hold c { s.package c e (s.recordOf j) shaves poles with drift := j.counts.drift }).popHead c).checkQuiesce := by
    unfold State.retireHead
    rw [hq]
    exact ⟨_, _, rfl⟩
  obtain ⟨shaves, poles, heq⟩ := hretire
  refine ⟨shaves, poles, ?_⟩
  rw [heq, State.hold_popHead hce hue]
  exact State.checkQuiesce_of_not_draining hdraining

/-- The state with a share's count of CHECK_WORKING added on its member (R255, R383). -/
def State.drifted (s : State) (j : Job) : State :=
  { s with ctr := { s.ctr with
    drift := s.ctr.drift + BitVec.ofNat 64 j.counts.sat.drift
    shareDrift := ((j.head, j.ch, j.d.seq), j.counts.sat.drift) :: s.ctr.shareDrift.filter fun x => !(x.1.1 == j.head && x.1.2.1 == j.ch) } }

theorem State.retireShare_eq (hdraining : s.draining = false) : s.retireShare n j =
    ((s.drifted j).jobSend j 2 j.head (reportBody stDone (recordFlags j.fl j.zeroExtent false false) j.passes j.counts.sat)).dropShare n :=
  State.checkQuiesce_of_not_draining (((s.drifted j).netSend_quiet _ _).1 hdraining)

end Retire

/-- A REPORT body's bytes, STATUS and PASSES (R313). -/
theorem reportBody_fields (status flags passes : Nat) (k : Counts) : (reportBody status flags passes k).length = 24 ∧
    fieldAt (reportBody status flags passes k) 0 1 = status % 256 ∧ fieldAt (reportBody status flags passes k) 2 1 = passes % 256 := by
  have hzero : zeros 1 = natLE 1 0 := rfl
  have hzeros : zeros 4 = natLE 4 0 := rfl
  unfold reportBody
  simp only [List.append_assoc, hzero, hzeros]
  refine ⟨by simp only [List.length_append, natLE_length], ?_, ?_⟩
  · simp (disch := decide) only [fieldAt_natLE, Nat.reducePow]
  · simp (disch := decide) only [fieldAt_natLE_append, fieldAt_natLE, Nat.reduceSub, Nat.reducePow]

theorem Job.passes_lt (j : Job) : j.passes < 256 := by
  unfold Job.passes
  split
  · decide
  · split
    · decide
    · split <;> decide

/-- Settles O15: the package of a descriptor's retirement, the REPORT of a share's. -/
theorem retirementFormsDone : Obligations.RetirementFormsDone := by
  refine ⟨fun s c e l j hlive hq hjob hmay hdue hdraining hce hue => ?_, fun s n j hlive hjob hmay hdue hdraining => ?_⟩
  · obtain ⟨shaves, poles, hretire⟩ := State.retireHead_eq (j := j) hq hdraining hce hue
    have hexec := exec_descriptorRetire (p := .chan c) hlive hjob hmay hdue
    refine ⟨{ s.package c e (s.recordOf j) shaves poles with drift := j.counts.drift }, (hexec.trans (congrArg _ hretire)).trans ?_,
      rfl, rfl, rfl, rfl, rfl, rfl, ?_, ?_⟩
    · rw [Chan.popWith, hq]
      rfl
    · exact (Bool.and_true _).trans (Bool.and_true _)
    · show (s.lg == .fault && true) = _
      rw [Bool.and_true]
      rfl
  · intro u
    have hexec := exec_descriptorRetire (p := .share n) hlive hjob hmay hdue
    obtain ⟨hlength, hstatus, hpasses⟩ := reportBody_fields stDone (recordFlags j.fl j.zeroExtent false false) j.passes j.counts.sat
    refine ⟨_, hexec.trans (congrArg _ (State.retireShare_eq hdraining)), hlength, hstatus, hpasses.trans (Nat.mod_eq_of_lt j.passes_lt)⟩

/-! ### END records -/

/-- Settles O29: the record queued once no DATA record of the work waits. -/
theorem endRecordFollowsData : Obligations.EndRecordFollowsData := by
  intro s p j hlive hjob hcapture hskip hsent hphase hnone
  have hgo : j.d.capture = true ∧ (!j.skip) = true ∧ (!j.endSent) = true ∧ j.phase = .writing ∧ (!(s.offcut.any (·.1 == p))) = true := by
    rw [hskip, hsent, hnone]
    exact ⟨hcapture, rfl, rfl, hphase, rfl⟩
  rw [show exec (.offcutEndRecord p) s = execOffcutEndRecord p s from rfl, execOffcutEndRecord, if_neg hlive.not_idle, hjob]
  exact if_pos hgo

/-! ### Tiles -/

section Tiles
variable {s : State} {e : Envelope} {b : List Byte}

theorem State.live_of_works (h : s.works e = true) : s.live := by
  simp only [State.works, State.hears, Bool.and_eq_true, Bool.not_eq_true'] at h
  exact h.1.1

/-- A tile whose attempt is the one held, or that belongs to no work here (R236). -/
theorem exec_tile_of_current (h : s.works e = true) (hcurrent : ∀ p a, s.workOf e = some (p, a) → a % 256 = e.attempt) :
    exec (.tile e b) s =
      if s.tileHeld e (fieldAt b 16 5 % 2 ^ 36) (fieldAt b 24 2) = true then
        .next { s.taken e b with heldTiles := s.heldTiles ++
          [{ env := e, off := fieldAt b 16 5 % 2 ^ 36, bytes := sliceOf b 32 (fieldAt b 24 2) }] }
      else .next ((s.taken e b).writeTile e (fieldAt b 16 5 % 2 ^ 36) (sliceOf b 32 (fieldAt b 24 2))) := by
  have hwork : (s.taken e b).workOf e = s.workOf e := rfl
  rw [show exec (.tile e b) s = execTile e b s from rfl, execTile, if_pos h]
  dsimp only
  rw [hwork]
  cases hw : s.workOf e with
  | none => rfl
  | some x =>
    dsimp only
    rw [if_neg (not_not_intro (hcurrent x.1 x.2 hw))]
    rfl

theorem exec_tile_of_stale (h : s.works e = true) {p : Part} {a : Nat} (hwork : s.workOf e = some (p, a)) (hstale : a % 256 ≠ e.attempt) :
    exec (.tile e b) s = .next ((s.taken e b).discard e) := by
  have hwork' : (s.taken e b).workOf e = some (p, a) := hwork
  rw [show exec (.tile e b) s = execTile e b s from rfl, execTile, if_pos h]
  dsimp only
  rw [hwork']
  exact if_pos hstale

theorem exec_heldTileWrite (hlive : s.live) : exec .heldTileWrite s =
    .next ((s.heldTiles.filter fun t => !(s.tileHeld t.env t.off t.bytes.length)).foldl (fun (s : State) t => s.writeTile t.env t.off t.bytes)
      { s with heldTiles := s.heldTiles.filter fun t => s.tileHeld t.env t.off t.bytes.length }) := if_neg hlive.not_idle

end Tiles

/-- Settles O30: a tile on its arrival, and those held. -/
theorem tilesAreWrittenOrHeld : Obligations.TilesAreWrittenOrHeld := by
  intro s e b hworks off n u
  have hwrite := exec_heldTileWrite (State.live_of_works hworks)
  refine ⟨fun hcurrent => ⟨fun hheld => ?_, fun hfree => ?_⟩, fun p a hwork hstale => exec_tile_of_stale hworks hwork hstale,
    fun h hone hfree => ?_, fun h hone hheld => ?_, hwrite⟩
  · rw [exec_tile_of_current hworks hcurrent, if_pos hheld]
    rfl
  · rw [exec_tile_of_current hworks hcurrent, if_neg (ne_true_of_eq_false hfree)]
    rfl
  · rw [hwrite, hone, List.filter_cons, List.filter_cons, hfree]
    rfl
  · have hsame : ({ s with heldTiles := [h] } : State) = s := by rw [← hone]
    rw [hwrite, hone, List.filter_cons, List.filter_cons, hheld]
    exact congrArg _ hsame

/-! ### The drain of an attempt -/

section Drain
variable {s : State} {c : Fin 16} {e : Entry} {l : List Entry} {h : Halt}

theorem State.undefine_eq (s : State) (rs : List Rng) : s.undefine rs =
    { s with bays := { s.bays with undef := (s.undefine rs).bays.undef, undefNext := (s.undefine rs).bays.undefNext } } := by
  unfold State.undefine
  dsimp only
  split <;> rfl

/-- The output ranges of a channel's job, whose bytes a fault leaves undefined (R383). -/
def State.undefineJob (s : State) (c : Fin 16) : State := match s.chans[c].job with | some j => s.undefine j.ranges | none => s

theorem State.undefineJob_eq (s : State) (c : Fin 16) : s.undefineJob c =
    { s with bays := { s.bays with undef := (s.undefineJob c).bays.undef, undefNext := (s.undefineJob c).bays.undefNext } } := by
  unfold State.undefineJob
  split
  · exact State.undefine_eq _ _
  · rfl

theorem exec_attemptDrained_of_not_drained {p : Part} (hlive : s.live) (hdrained : s.drained p = false) : exec (.attemptDrained p) s = .next s := by
  refine if_pos ?_
  rw [hlive.idle_eq_false, hdrained]
  rfl

theorem not_waits_of_drained {p : Part} (hlive : s.live) (hdrained : s.drained p = true) : ¬ ((s.stopped || !s.pins.rstN || !(s.drained p)) = true) := by
  rw [hlive.idle_eq_false, hdrained]
  decide

theorem exec_attemptDrained_chan (hlive : s.live) (hq : s.chans[c].queue = e :: l) (hhalt : s.chans[c].halted = some h) (hnew : h.drained = false)
    (hdrained : s.drained (.chan c) = true) (hdraining : s.draining = false) : exec (.attemptDrained (.chan c)) s =
      .next (((s.hold c (s.faultPackage c e h)).undefineJob c).onChan c fun x => { x with job := none, halted := some { h with drained := true } }) := by
  have hquiet : ((((s.hold c (s.faultPackage c e h)).undefineJob c).onChan c fun x =>
      { x with job := none, halted := some { h with drained := true } })).draining = false := by
    rw [State.undefineJob_eq]
    exact hdraining
  have hexec : exec (.attemptDrained (.chan c)) s = .next (((s.hold c (s.faultPackage c e h)).undefineJob c).onChan c fun x =>
      { x with job := none, halted := some { h with drained := true } }).checkQuiesce := by
    rw [show exec (.attemptDrained (.chan c)) s = execAttemptDrained (.chan c) s from rfl, execAttemptDrained,
      if_neg (not_waits_of_drained hlive hdrained)]
    dsimp only
    rw [hhalt, hq]
    exact if_neg (ne_true_of_eq_false hnew)
  rw [hexec, State.checkQuiesce_of_not_draining hquiet]

theorem exec_attemptDrained_share {n : Nat} {j : Job} (hlive : s.live) (hjob : s.job (.share n) = some j) (hdrained : s.drained (.share n) = true) :
    exec (.attemptDrained (.share n)) s = .next (((if j.silent then s.undefine j.ranges
      else (s.undefine j.ranges).jobSend j 2 j.head (reportBody stFault 0 0 {})).dropShare n).endRingFault.checkQuiesce) := by
  rw [show exec (.attemptDrained (.share n)) s = execAttemptDrained (.share n) s from rfl, execAttemptDrained,
    if_neg (not_waits_of_drained hlive hdrained)]
  dsimp only
  rw [hjob]

theorem State.endRingFault_of_no_fault (h : s.stop.fault = false) : s.endRingFault = s := by
  unfold State.endRingFault
  rw [h]
  rfl

end Drain

/-- Settles O26: the FAULT completion of a drained attempt, the REPORT of a drained share. -/
theorem drainEndsInFault : Obligations.DrainEndsInFault := by
  refine ⟨fun s c e l h hlive hq hhalt hnew => ⟨exec_attemptDrained_of_not_drained hlive, fun hdrained hdraining hue => ?_⟩,
    fun s n j hlive hjob hdrained hdraining hfault => ?_⟩
  · have hexec := exec_attemptDrained_chan hlive hq hhalt hnew hdrained hdraining
    have hjob := (s.hold c (s.faultPackage c e h)).undefineJob_eq c
    generalize (s.hold c (s.faultPackage c e h)).undefineJob c = w at hexec hjob
    have hrecord : (s.faultPackage c e h).record =
        { seq := (Desc.parse e.desc).seq, status := stFault, ch := c.val, start := h.start, stop := h.time } := by
      unfold State.faultPackage
      rw [hue]
      rfl
    refine ⟨_, s.faultPackage c e h, hexec, ?_, hrecord, rfl, ?_, rfl, ?_, ?_⟩
    · rw [hjob]
      simp only [State.hold, State.onChan, State.setChan, getElem_set_fin_self, Vector.set_set]
    · exact Bool.and_false _
    · rw [hjob]
      rfl
    · rw [hjob]
      rfl
  · have hquiet : s.Quiet (if j.silent then s.undefine j.ranges
        else (s.undefine j.ranges).jobSend j 2 j.head (reportBody stFault 0 0 {})) := by
      have hundefine : s.Quiet (s.undefine j.ranges) := by
        rw [State.undefine_eq]
        exact .refl s
      split
      · exact hundefine
      · exact hundefine.trans (State.netSend_quiet _ _ _)
    obtain ⟨hlength, hstatus, -⟩ := reportBody_fields stFault 0 0 {}
    refine ⟨reportBody stFault 0 0 {}, hlength, hstatus, (exec_attemptDrained_share hlive hjob hdrained).trans (congrArg _ ?_)⟩
    generalize (if j.silent = true then s.undefine j.ranges else (s.undefine j.ranges).jobSend j 2 j.head (reportBody stFault 0 0 {})) = w at hquiet
    have hring : (w.dropShare n).stop.fault = false := hquiet.2.trans hfault
    rw [State.endRingFault_of_no_fault hring]
    exact State.checkQuiesce_of_not_draining (hquiet.1 hdraining)

end Sys2Proof.Machine
end

section
/-! PROOFS. Raises between instances (12_ R325, R326, 14_ R366 to R369), and the other messages (12_ R309, R311, R320). -/

namespace Sys2Proof.Machine

/-! ### The answers to a raise -/

section Answers
variable {s : State} {e : Envelope} {b : List Byte}

theorem State.hears_iff : s.hears e = true ↔ s.live ∧ e.dest = s.sin := by
  simp only [State.hears, Bool.and_eq_true, Bool.not_eq_true', beq_iff_eq]

theorem State.works_iff : s.works e = true ↔ s.hears e = true ∧ s.nv.phase = 7 := by
  simp only [State.works, Bool.and_eq_true, beq_iff_eq]

theorem exec_raise (h : s.hears e = true) : exec (.raise e b) s =
    let r := s.raiseAnswer (fieldAt b 0 8)
    let u := s.taken e b
    let v := if r = 0 then u.arm (fieldAt b 0 8) e.src (BitVec.ofNat 32 (fieldAt b 8 4)) (fieldAt b 12 2 % 4096) else u
    .next (v.netSend { cls := 9, len := 8, dest := e.src, src := s.sin } (natLE 4 (fieldAt b 8 4) ++ natLE 1 r ++ zeros 3)) := by
  have hsin : ∀ c : Prop, ∀ _ : Decidable c, ∀ n o i k, (if c then (s.taken e b).arm n o i k else s.taken e b).sin = s.sin := fun c _ n o i k => by
    split <;> rfl
  rw [show exec (.raise e b) s = execRaise e b s from rfl, execRaise, if_pos h]
  dsimp only
  rw [State.envTo, hsin]
  rfl

theorem exec_cancel (h : s.hears e = true) : exec (.cancel e b) s =
    .next (if s.raising.armed.isSome ∧ s.raising.armedId.toNat = fieldAt b 8 4 then (s.taken e b).disarm .cancelled else s.taken e b) := if_pos h

theorem exec_raiseAck_of_works (h : s.works e = true) : exec (.raiseAck e b) s = .next { s.taken e b with raising := { s.raising with
    runs := s.raising.runs.map fun r => if r.id.toNat = fieldAt b 0 4 then
      r.answer ((s.gangMembers r.scope).findIdx (· == e.src)) (fieldAt b 4 1 % 16) else r } } := if_pos h

theorem exec_raiseAck_of_not_works (h : s.hears e = true) (hphase : s.nv.phase ≠ 7) : exec (.raiseAck e b) s = .next (s.taken e b) :=
  (if_neg fun hw => hphase (State.works_iff.1 hw).2).trans (congrArg _ (if_pos h))

end Answers

/-- Settles O35: RAISE by its answer, CANCEL by the raise armed, RAISE_ACK by READY. -/
theorem raiseAnsweredAndCancelled : Obligations.RaiseAnsweredAndCancelled := by
  intro s e b hhears n u answer v
  refine ⟨exec_raise hhears, ?_, fun hphase => exec_raiseAck_of_works (State.works_iff.2 ⟨hhears, hphase⟩),
    exec_raiseAck_of_not_works hhears⟩
  rw [exec_cancel hhears]
  have hsome : s.raising.armed.isSome = true ↔ s.raising.armed ≠ none := Option.isSome_iff_ne_none
  simp only [hsome]
  rfl

/-! ### Messages that are not for work -/

/-- Settles O37: RING_TIME, a reserved class, a message for another instance. -/
theorem otherMessagesTakenOrPassedOn : Obligations.OtherMessagesTakenOrPassedOn := by
  intro s e b hlive u
  have hpasses : e.dest ≠ s.sin → ¬ (s.pins.rstN = false ∨ s.stopped = true ∨ e.dest = s.sin) := by
    rintro hdest (h | h | h)
    · exact Bool.noConfusion (hlive.1.symm.trans h)
    · exact Bool.noConfusion (hlive.2.symm.trans h)
    · exact hdest h
  have hforward : e.dest ≠ s.sin → s.visible = true → s.configClean → exec (.messageForward e b) s =
      if e.hops = 7 ∧ s.routeOf e.dest ≠ .none then .next (u.log0 codeRoute 0 (e.dest % 4096))
      else .next ((u.netPut { e with hops := e.hops + 1 } b).scarfSeen e b) := fun hdest hvisible hclean => by
    have hvisible' : ¬ (s.taken e b).visible = false := by
      rw [show (s.taken e b).visible = true from hvisible]
      decide
    have hruns : ¬ (s.taken e b).stopped = true := ne_true_of_eq_false hlive.2
    rw [show exec (.messageForward e b) s = execMessageForward e b s from rfl, execMessageForward, if_neg (hpasses hdest)]
    dsimp only
    rw [if_neg hvisible', State.readConfig_of_clean (s := s.taken e b) hclean, if_neg hruns]
    rfl
  refine ⟨fun hdest => ?_, fun hclass => ?_, fun hdest hvisible => ?_, fun hdest hvisible hclean hhops => ?_,
    fun hdest hvisible hclean hhops hroute => ?_⟩
  · exact if_pos (State.hears_iff.2 ⟨hlive, hdest⟩)
  · exact if_pos ⟨hlive.1, ne_true_of_eq_false hlive.2, hclass⟩
  · exact (if_neg (hpasses hdest)).trans (if_pos hvisible)
  · rw [hforward hdest hvisible hclean, if_neg fun h => hhops h.1]
  · rw [hforward hdest hvisible hclean, if_pos ⟨hhops, hroute⟩]
    rfl

/-! ### The raise edge (R366 to R369) -/

/-- Validations forgotten on some channels, none of which runs. -/
theorem State.foldl_forget (l : List (Fin 16)) {s : State} (hidle : ∀ k : Fin 16, s.chans[k].job = none) :
    let t := l.foldl (fun (s : State) c =>
      if s.chans[c].job.isSome then s else (s.onChan c fun x => { x with val := none }).discardBlocks c) s
    t = { s with chans := t.chans, port := t.port } ∧
      ∀ k : Fin 16, t.chans[k] = if k ∈ l then { s.chans[k] with val := none } else s.chans[k] := by
  induction l generalizing s with
  | nil => exact ⟨rfl, fun k => rfl⟩
  | cons c l ih =>
    have hfirst : (if s.chans[c].job.isSome then s else (s.onChan c fun x => { x with val := none }).discardBlocks c) =
        (s.onChan c fun x => { x with val := none }).discardBlocks c := if_neg (by rw [hidle c]; decide)
    have hchan : ∀ k : Fin 16, ((s.onChan c fun x => { x with val := none }).discardBlocks c).chans[k] =
        if k = c then { s.chans[k] with val := none } else s.chans[k] := fun k => by
      split
      next hk =>
        rw [hk]
        exact getElem_set_fin_self _ _ _
      next hk => exact getElem_set_fin_ne _ _ hk
    have hidle' : ∀ k : Fin 16, ((s.onChan c fun x => { x with val := none }).discardBlocks c).chans[k].job = none := fun k => by
      rw [hchan k]
      split <;> exact hidle k
    obtain ⟨heq, hchans⟩ := ih hidle'
    dsimp only
    rw [List.foldl_cons, hfirst]
    refine ⟨heq.trans rfl, fun k => (hchans k).trans ?_⟩
    rw [hchan k]
    by_cases hk : k = c
    · rw [if_pos hk, if_pos (List.mem_cons.2 (.inl hk))]
      split <;> rfl
    · rw [if_neg hk]
      by_cases hl : k ∈ l
      · rw [if_pos hl, if_pos (List.mem_cons_of_mem _ hl)]
      · rw [if_neg hl, if_neg fun h => (List.mem_cons.1 h).elim hk hl]

theorem State.forgetValidations_of_idle {s : State} (hidle : ∀ k : Fin 16, s.chans[k].job = none) :
    s.forgetValidations = { s with chans := s.forgetValidations.chans, port := s.forgetValidations.port } ∧
      ∀ k : Fin 16, s.forgetValidations.chans[k] = { s.chans[k] with val := none } := by
  obtain ⟨heq, hchans⟩ := State.foldl_forget channels hidle
  exact ⟨heq, fun k => (hchans k).trans (if_pos (State.mem_channels k))⟩

/-- The armed instance with its settings applied (R368). -/
def State.applied (s : State) : State := { s with active := s.shadow, lg := .ready, raising := s.raising.settle .raised }

theorem State.raiseNow_of_idle {s : State} (hclean : s.configClean) (hlg : s.lg = .laidDown) (hgo : s.stopped = false) (hidle : s.running = []) :
    s.raiseNow = { s.applied.forgetValidations with sched := s.applied.forgetValidations.unrotated.slotSched 0 s.clk.arith } := by
  have hjobs := (State.running_eq_nil_iff s).1 hidle
  obtain ⟨hforget, hchans⟩ := State.forgetValidations_of_idle (s := s.applied) hjobs.1
  have hraise : s.raiseNow = s.applied.forgetValidations.beginRotation := rfl
  generalize s.applied.forgetValidations = f at hforget hchans hraise
  have hfclean : f.configClean := by
    rw [hforget]
    exact hclean
  have hfgo : f.stopped = false := by
    rw [hforget]
    rw [State.stopped, hlg] at hgo
    exact (Bool.or_false _).trans ((Bool.or_false _).symm.trans hgo)
  have hfidle : f.running = [] := by
    rw [State.running_eq_nil_iff]
    refine ⟨fun c => by rw [hchans c]; exact hjobs.1 c, ?_⟩
    rw [hforget]
    exact hjobs.2
  have harith : f.clk.arith = s.clk.arith := by
    rw [hforget]
    rfl
  rw [hraise, State.beginRotation_of_idle hfclean hfgo hfidle, harith]

/-- What each target answered, with none for those that did not (R367). -/
def Raising.finalResults (r : Raising) (id : Word) : List Nat :=
  (((r.runs.find? (·.id == id)).map (·.results)).getD []).map fun x => if x = 0 then 15 else x

theorem State.finalRaise_eq (s : State) (id : Word) (o : Outcome) : s.finalRaise id o =
    { s with
      raising := { s.raising with
        outcome := o, originHere := true, origin := s.sin, id := id, results := s.raising.finalResults id, runs := s.raising.runs.filter (·.id != id) }
      irqStatus := s.irqStatus ||| 16 } := rfl

section Edge
variable {s : State} {n : Nat}

theorem exec_raiseEdge_of_laidDown (hrst : s.pins.rstN = true) (harmed : s.raising.armed = some n) (h : s.lg = .laidDown ∧ s.stopped = false) :
    exec .raiseEdge s = .next (if s.raising.armedHere then (s.untilCount n).raiseNow.finalRaise s.raising.armedId .raised
      else (s.untilCount n).raiseNow) := by
  rw [show exec .raiseEdge s = execRaiseEdge s from rfl, execRaiseEdge, harmed]
  exact (if_pos hrst).trans (if_pos ⟨h.1, ne_true_of_eq_false h.2⟩)

theorem exec_raiseEdge_of_missed (hrst : s.pins.rstN = true) (harmed : s.raising.armed = some n) (h : ¬ (s.lg = .laidDown ∧ s.stopped = false)) :
    exec .raiseEdge s = .next (s.untilCount n).missRaise := by
  rw [show exec .raiseEdge s = execRaiseEdge s from rfl, execRaiseEdge, harmed]
  exact (if_pos hrst).trans (if_neg fun hw => h ⟨hw.1, Bool.eq_false_iff.2 hw.2⟩)

end Edge

/-! ### The raise deadline (Table 12.13) -/

/-- Of a raise found before and another one, the one that falls due first. -/
def RaiseRun.first (m : Option RaiseRun) (x : RaiseRun) : Option RaiseRun :=
  match m with
  | some y => if x.count < y.count then some x else some y
  | none => some x

theorem RaiseRun.first_spec (m : Option RaiseRun) (x : RaiseRun) :
    ∃ z, RaiseRun.first m x = some z ∧ (z = x ∨ m = some z) ∧ z.count ≤ x.count ∧ ∀ y, m = some y → z.count ≤ y.count := by
  cases m with
  | none => exact ⟨x, rfl, .inl rfl, Nat.le_refl _, fun y hy => nomatch hy⟩
  | some y =>
    by_cases h : x.count < y.count
    · exact ⟨x, if_pos h, .inl rfl, Nat.le_refl _, fun z hz => Option.some.inj hz ▸ Nat.le_of_lt h⟩
    · exact ⟨y, if_neg h, .inr rfl, Nat.le_of_not_lt h, fun z hz => Option.some.inj hz ▸ Nat.le_refl _⟩

/-- The search through the running raises, from one found before. -/
def RaiseRun.search (l : List RaiseRun) (m : Option RaiseRun) : Option RaiseRun :=
  l.foldl (fun m x => if x.stands then m else RaiseRun.first m x) m

theorem Raising.dueRun_eq (r : Raising) : r.dueRun = RaiseRun.search r.runs none := rfl

theorem RaiseRun.search_of_stands {l : List RaiseRun} (h : ∀ x ∈ l, x.stands = true) (m : Option RaiseRun) : RaiseRun.search l m = m := by
  induction l with
  | nil => rfl
  | cons a l ih =>
    obtain ⟨ha, hl⟩ := List.forall_mem_cons.1 h
    rw [RaiseRun.search, List.foldl_cons, if_pos ha]
    exact ih hl

theorem RaiseRun.search_spec (l : List RaiseRun) {m : Option RaiseRun} {x : RaiseRun} (hx : RaiseRun.search l m = some x) :
    (m = some x ∨ (x ∈ l ∧ x.stands = false)) ∧ (∀ y, m = some y → x.count ≤ y.count) ∧ ∀ y ∈ l, y.stands = false → x.count ≤ y.count := by
  induction l generalizing m with
  | nil =>
    exact ⟨.inl hx, fun y hy => Nat.le_of_eq (congrArg _ (Option.some.inj (hx.symm.trans hy))), fun y hy => absurd hy List.not_mem_nil⟩
  | cons a l ih =>
    rw [RaiseRun.search, List.foldl_cons] at hx
    by_cases ha : a.stands = true
    · rw [if_pos ha] at hx
      obtain ⟨hfrom, hm, hl⟩ := ih hx
      refine ⟨hfrom.imp_right fun h => ⟨List.mem_cons_of_mem _ h.1, h.2⟩, hm, fun y hy hstands => ?_⟩
      rcases List.mem_cons.1 hy with rfl | hy
      · exact Bool.noConfusion (ha.symm.trans hstands)
      · exact hl y hy hstands
    · rw [if_neg ha] at hx
      obtain ⟨z, hz, hsource, hza, hzm⟩ := RaiseRun.first_spec m a
      rw [hz] at hx
      obtain ⟨hfrom, hxz, hl⟩ := ih hx
      have hle : x.count ≤ z.count := hxz z rfl
      refine ⟨?_, fun y hy => Nat.le_trans hle (hzm y hy), fun y hy hstands => ?_⟩
      · rcases hfrom with hfrom | ⟨hmem, hstands⟩
        · obtain rfl := Option.some.inj hfrom
          rcases hsource with rfl | hsource
          · exact .inr ⟨List.mem_cons_self, Bool.eq_false_iff.2 ha⟩
          · exact .inl hsource
        · exact .inr ⟨List.mem_cons_of_mem _ hmem, hstands⟩
      · rcases List.mem_cons.1 hy with rfl | hy
        · exact Nat.le_trans hle hza
        · exact hl y hy hstands

section Deadline
variable {s : State} {r : RaiseRun}

theorem exec_raiseDeadline (hlive : s.live) (hdue : s.raising.dueRun = some r) : exec .raiseDeadline s =
    if r.results.all (· == 1) = true then
      .next { s.untilCount (r.count - 3000) with raising := { s.raising with
        runs := s.raising.runs.map fun x => if x.id = r.id then { x with stands := true } else x } }
    else .next ((s.untilCount (r.count - 3000)).cancelRun r) := by
  rw [show exec .raiseDeadline s = execRaiseDeadline s from rfl, execRaiseDeadline, if_neg hlive.not_idle, hdue]
  rfl

/-- The targets of a raise that have answered ARMED. -/
def State.armedTargets (s : State) (r : RaiseRun) : List (Nat × Nat) := ((s.gangMembers r.scope).zip r.results).filter fun x => x.2 == 1

/-- CANCEL sent to the armed targets (Table 12.13). -/
def State.cancelsSent (s : State) (r : RaiseRun) : State :=
  ((s.armedTargets r).filter (·.1 != s.sin)).foldl (fun (s : State) x =>
    s.netSend (s.envTo 8 x.1 (raiseBody r.count r.id.toNat r.scope 1)) (raiseBody r.count r.id.toNat r.scope 1)) s

theorem State.cancelRun_eq (s : State) (r : RaiseRun) : s.cancelRun r =
    (if (s.armedTargets r).any (·.1 == (s.cancelsSent r).sin) then (s.cancelsSent r).disarm .cancelled else s.cancelsSent r).finalRaise
      r.id .cancelled := rfl

theorem State.cancelsSent_sends (hclean : s.configClean) (r : RaiseRun) : s.Sends (s.cancelsSent r) ∧
    ∀ x ∈ (s.armedTargets r).filter (·.1 != s.sin), s.routeOf x.1 ≠ .none → s.routeOf x.1 ≠ .loc →
      ∃ k ∈ (s.cancelsSent r).net, k.env = s.envTo 8 x.1 (raiseBody r.count r.id.toNat r.scope 1) ∧
        k.body = raiseBody r.count r.id.toNat r.scope 1 := by
  refine State.foldl_netSend (fun x => s.envTo 8 x.1 (raiseBody r.count r.id.toNat r.scope 1)) (fun _ => raiseBody r.count r.id.toNat r.scope 1)
    ((s.armedTargets r).filter (·.1 != s.sin)) hclean fun t x ht _ => ?_
  unfold State.envTo
  rw [ht.sin_eq]

theorem State.mem_armedTargets {m k : Nat} : (m, k) ∈ s.armedTargets r ↔ (m, k) ∈ (s.gangMembers r.scope).zip r.results ∧ k = 1 := by
  rw [State.armedTargets, List.mem_filter, beq_iff_eq]

end Deadline

/-- Settles O36: the edge by LG_STATE and by whose raise it is, the deadline by the answers. -/
theorem raiseEndsAtEdgeOrDeadline : Obligations.RaiseEndsAtEdgeOrDeadline := by
  refine ⟨fun s n hinv hrst harmed hn => ?_, fun s hlive => ⟨fun hstands => ?_, fun r hdue => ?_⟩⟩
  · intro answers ended final
    refine ⟨fun hlg hgo hidle hclean => ?_, fun hmissed hhere => ?_, fun hmissed hhere => ?_⟩
    · have hexec := exec_raiseEdge_of_laidDown hrst harmed ⟨hlg, hgo⟩
      have hreached := (State.untilCount_first hinv hn).1
      have hraise := State.raiseNow_of_idle (s := s.untilCount n) hclean hlg hgo hidle
      have hidle' : (s.untilCount n).running = [] := hidle
      obtain ⟨hforget, hchans⟩ := State.forgetValidations_of_idle (s := (s.untilCount n).applied) ((State.running_eq_nil_iff _).1 hidle').1
      generalize (s.untilCount n).applied.forgetValidations = f at hraise hforget hchans
      generalize (s.untilCount n).raiseNow = w at hexec hraise
      have hkeeps : ∀ c : Fin 16, w.chans[c].queue = s.chans[c].queue ∧ w.chans[c].val = none := fun c => by
        have hqueue : f.chans[c].queue = s.chans[c].queue := by rw [hchans c]; rfl
        have hval : f.chans[c].val = none := by rw [hchans c]
        rw [hraise]
        exact ⟨hqueue, hval⟩
      have hcount : n ≤ w.count := by
        rw [hraise, hforget]
        exact hreached
      cases hhere : s.raising.armedHere with
      | true =>
        rw [hhere, if_pos rfl, State.finalRaise_eq] at hexec
        refine ⟨_, hexec, hcount, ?_, ?_, ?_, ?_, ?_, ?_, ?_, hkeeps, ?_, ?_, ?_, ?_⟩
        all_goals rw [hraise, hforget]; rfl
      | false =>
        rw [hhere, if_neg (by decide)] at hexec
        refine ⟨_, hexec, hcount, ?_, ?_, ?_, ?_, ?_, ?_, ?_, hkeeps, ?_, ?_, ?_, ?_⟩
        all_goals rw [hraise, hforget]; rfl
    · rw [exec_raiseEdge_of_missed hrst harmed hmissed]
      exact congrArg _ (if_neg (ne_true_of_eq_false hhere))
    · rw [exec_raiseEdge_of_missed hrst harmed hmissed]
      exact congrArg _ (if_pos hhere)
  · have hnone : s.raising.dueRun = none := RaiseRun.search_of_stands hstands none
    rw [show exec .raiseDeadline s = execRaiseDeadline s from rfl, execRaiseDeadline, if_neg hlive.not_idle, hnone]
  · intro v
    have hspec := RaiseRun.search_spec s.raising.runs (Raising.dueRun_eq _ ▸ hdue)
    obtain ⟨hfrom, -, hleast⟩ := hspec
    obtain ⟨hmem, hruns⟩ := hfrom.resolve_left fun h => nomatch h
    have hexec := exec_raiseDeadline hlive hdue
    refine ⟨⟨hmem, hruns, hleast⟩, fun hall => ?_, fun hsome hclean hfind => ?_⟩
    · exact hexec.trans (if_pos (List.all_eq_true.2 fun x hx => beq_iff_eq.2 (hall x hx)))
    · have hnot : ¬ r.results.all (· == 1) = true := fun h => by
        obtain ⟨x, hx, hne⟩ := hsome
        exact hne (beq_iff_eq.1 (List.all_eq_true.1 h x hx))
      obtain ⟨hsends, hleft⟩ := State.cancelsSent_sends (s := v) hclean r
      have htarget : (v.armedTargets r).any (·.1 == (v.cancelsSent r).sin) = ((s.gangMembers r.scope).zip r.results).contains (s.sin, 1) := by
        rw [Bool.eq_iff_iff, List.any_eq_true, List.contains_iff_mem, hsends.sin_eq]
        constructor
        · rintro ⟨⟨m, k⟩, hx, hm⟩
          obtain ⟨hzip, rfl⟩ := State.mem_armedTargets.1 hx
          obtain rfl : m = s.sin := beq_iff_eq.1 hm
          exact hzip
        · exact fun hzip => ⟨(s.sin, 1), State.mem_armedTargets.2 ⟨hzip, rfl⟩, beq_self_eq_true _⟩
      have hresults : s.raising.finalResults r.id = r.results.map fun x => if x = 0 then 15 else x := by
        rw [Raising.finalResults, hfind]
        rfl
      have hcancel : ∀ m, (m, 1) ∈ (s.gangMembers r.scope).zip r.results → m ≠ s.sin → s.routeOf m ≠ .none → s.routeOf m ≠ .loc →
          ∃ k ∈ (v.cancelsSent r).net, k.env.cls = 8 ∧ k.env.dest = m ∧ k.env.src = s.sin ∧ k.body = raiseBody r.count r.id.toNat r.scope 1 := by
        intro m hm hne hnone hloc
        obtain ⟨k, hk, henv, hbody⟩ := hleft (m, 1) (List.mem_filter.2 ⟨State.mem_armedTargets.2 ⟨hm, rfl⟩, bne_iff_ne.2 hne⟩) hnone hloc
        exact ⟨k, hk, by rw [henv]; rfl, by rw [henv]; rfl, by rw [henv]; rfl, hbody⟩
      have hirq : ∀ x : BitVec 9, (x ||| 16).getLsbD 4 = true := fun x => by
        rw [BitVec.getLsbD_or]
        exact Bool.or_true _
      rw [if_neg hnot, State.cancelRun_eq, htarget, State.finalRaise_eq] at hexec
      have hraising : (v.cancelsSent r).raising = s.raising := by rw [hsends.1]; rfl
      have hsin : (v.cancelsSent r).sin = s.sin := hsends.sin_eq
      have hframe := hsends.1
      generalize v.cancelsSent r = q at hexec hcancel hraising hsin hframe
      cases hhere : ((s.gangMembers r.scope).zip r.results).contains (s.sin, 1) with
      | true =>
        rw [hhere, if_pos rfl] at hexec
        refine ⟨_, hexec, rfl, rfl, rfl, ?_, ?_, hirq _, rfl, hcancel, ?_⟩
        · show q.raising.runs.filter _ = _
          rw [hraising]
        · show q.raising.finalResults _ = _
          rw [hraising]
          exact hresults
        · rw [hframe]
          rfl
      | false =>
        rw [hhere, if_neg (by decide)] at hexec
        refine ⟨_, hexec, rfl, rfl, rfl, ?_, ?_, hirq _, ?_, hcancel, ?_⟩
        · rw [hraising]
        · rw [hraising]
          exact hresults
        · rw [hraising]
          rfl
        · rw [hframe]

end Sys2Proof.Machine
end

section
/-! PROOFS. The messages of the work classes (12_ R309 to R314, 01_ R39, 15_ R391). -/

namespace Sys2Proof.Machine

/-! ### SHARE -/

section Shares
variable {s : State} {e : Envelope} {b : List Byte}

theorem State.shareComes_eq (s : State) (e : Envelope) :
    s.shareComes e = { s with ctr := (s.shareComes e).ctr, ringKept := (s.shareComes e).ringKept } := by
  unfold State.shareComes
  split <;> rfl

theorem exec_share_of_none (h : s.works e = true) (hnone : s.shares.find? (shareKey e) = none) :
    exec (.share e b) s = .next (((s.taken e b).shareComes e).queueShare e b) := by
  have hshares : ((s.taken e b).shareComes e).shares = s.shares := by
    rw [State.shareComes_eq]
    rfl
  rw [show exec (.share e b) s = execShare e b s from rfl, execShare, if_pos h]
  dsimp only
  rw [hshares, hnone]

theorem exec_share_of_some {x : Share} (h : s.works e = true) (hsome : s.shares.find? (shareKey e) = some x) :
    exec (.share e b) s = .next (if x.attempt < e.attempt then ((s.taken e b).shareComes e).replaceShare x e b
      else ((s.taken e b).shareComes e).discard e) := by
  have hshares : ((s.taken e b).shareComes e).shares = s.shares := by
    rw [State.shareComes_eq]
    rfl
  rw [show exec (.share e b) s = execShare e b s from rfl, execShare, if_pos h]
  dsimp only
  rw [hshares, hsome]

end Shares

/-- Settles O32: a SHARE by the entry held for its work, and by the room of its head. -/
theorem shareQueuedOrRefused : Obligations.ShareQueuedOrRefused := by
  intro s e b hworks g u
  have hu : u = { s with inbox := s.inbox.erase (e, b), ctr := u.ctr, ringKept := u.ringKept } := (s.taken e b).shareComes_eq e
  have hshares : u.shares = s.shares := by rw [hu]
  have hroom : u.headShare e.head = s.headShare e.head := by rw [hu]; rfl
  refine ⟨fun hnone hfree => ?_, fun hnone hfull => ?_, fun x hsome => ⟨fun hold => ?_, fun hnew hjob => ?_, fun j hnew hjob => ?_⟩⟩
  · have hfree' : (u.shares.filter (·.env.head == e.head)).length < u.headShare e.head := by rw [hshares, hroom]; exact hfree
    have hid : u.eligNext = s.eligNext := by rw [hu]
    have hgang : u.gangOf e.head = g := by rw [hu]; rfl
    refine (exec_share_of_none hworks hnone).trans (congrArg _ ((if_pos hfree').trans ?_))
    show ({ u with
        shares := u.shares ++ [{ id := u.eligNext, env := e, gang := u.gangOf e.head, body := b }], eligNext := u.eligNext + 1 } : State) = _
    rw [hshares, hid, hgang]
  · have hfull' : ¬ (u.shares.filter (·.env.head == e.head)).length < u.headShare e.head := by rw [hshares, hroom]; exact hfull
    obtain ⟨hlength, hstatus, -⟩ := reportBody_fields stFault 0 0 {}
    exact ⟨reportBody stFault 0 0 {}, _, (exec_share_of_none hworks hnone).trans (congrArg _ (if_neg hfull')), hstatus, hlength, rfl, rfl, rfl, rfl,
      rfl, rfl⟩
  · exact (exec_share_of_some hworks hsome).trans (congrArg _ (if_neg (Nat.not_lt.2 hold)))
  · rw [exec_share_of_some hworks hsome, if_pos hnew, State.replaceShare, hjob]
    show Host.Outcome.next { u with shares := u.shares.map _ } = _
    rw [hshares]
  · rw [exec_share_of_some hworks hsome, if_pos hnew, State.replaceShare, hjob]
    show Host.Outcome.next (State.dropWaiting { u with shares := u.shares.map _ } _) = _
    rw [hshares]
    rfl

/-! ### A message for running work (R309) -/

section ForWork
variable {s : State} {e : Envelope} {b : List Byte} {p : Part} {a : Nat} {j : Job}

theorem State.taken_job (s : State) (e : Envelope) (b : List Byte) (p : Part) : (s.taken e b).job p = s.job p := by cases p <;> rfl

theorem State.forWork_of_current (h : s.works e = true) (hwork : s.workOf e = some (p, a)) (hjob : s.job p = some j)
    (hattempt : a % 256 = e.attempt) (hphase : j.phase ≠ .draining) (f : State → Part → Job → State) :
    s.forWork e b f = f (s.taken e b) p j := by
  have hwork' : (s.taken e b).workOf e = some (p, a) := hwork
  have hjob' : (s.taken e b).job p = some j := (s.taken_job e b p).trans hjob
  unfold State.forWork
  rw [if_pos h]
  dsimp only
  rw [hwork']
  dsimp only
  rw [if_pos hattempt, hjob']
  exact if_neg hphase

theorem State.forWork_of_stale (h : s.works e = true) (hwork : s.workOf e = some (p, a)) (hjob : s.job p = some j)
    (hstale : a % 256 ≠ e.attempt ∨ j.phase = .draining) (f : State → Part → Job → State) : s.forWork e b f = (s.taken e b).discard e := by
  have hwork' : (s.taken e b).workOf e = some (p, a) := hwork
  have hjob' : (s.taken e b).job p = some j := (s.taken_job e b p).trans hjob
  unfold State.forWork
  rw [if_pos h]
  dsimp only
  rw [hwork']
  dsimp only
  by_cases hattempt : a % 256 = e.attempt
  · rw [if_pos hattempt, hjob']
    exact if_pos (hstale.resolve_left (not_not_intro hattempt))
  · exact if_neg hattempt

/-- Work of a channel is its head's, whose entry is in the queue. -/
theorem State.workOf_chan {c : Fin 16} (h : s.workOf e = some (.chan c, a)) : e.head = s.sin ∧ ∃ x l, s.chans[c].queue = x :: l := by
  unfold State.workOf at h
  split at h
  next hhead =>
    refine ⟨hhead, ?_⟩
    split at h
    next x l hq =>
      split at h
      · obtain ⟨hpart, -⟩ := Prod.mk.inj (Option.some.inj h)
        obtain rfl := Part.chan.inj hpart
        exact ⟨x, l, hq⟩
      · exact nomatch h
    · exact nomatch h
  · cases hfind : s.shares.find? (shareKey e) with
    | none =>
      rw [hfind] at h
      exact nomatch h
    | some x =>
      rw [hfind] at h
      exact nomatch h

theorem State.early_eq_false_of_head (h : e.head = s.sin) : s.early e = false := by
  unfold State.early
  rw [bne_eq_false_iff_eq.2 h]
  rfl

theorem State.faultHead_halts {c : Fin 16} {x : Entry} {l : List Entry} (hq : s.chans[c].queue = x :: l) (code detail : Nat)
    (place : Option (Nat × Nat)) (strand : Bool) (n : Nat) (lost : Option Nat) :
    (s.faultHead c code detail place strand n lost).chans[c].st = .halt := by
  rw [State.faultHead_chans hq, getElem_set_fin_self]
  rfl

theorem State.reportedFault_halts {c : Fin 16} {x : Entry} {l : List Entry} (hq : s.chans[c].queue = x :: l) (n : Nat) :
    (s.reportedFault c n).chans[c].st = .halt :=
  State.faultHead_halts (s := { s with free := s.free + 1 }) hq _ _ _ _ _ _

/-- A partial taken by a share: a return, or the accumulation of a fold it goes on with. -/
theorem Job.takePartial_cases (j : Job) (v : Env) (q : Partial) :
    (∃ r, j.takePartial v q = { j with rets := j.rets ++ [((q.sub, q.row), r)] }) ∨
      ∃ r, j.takePartial v q = { j with carry := j.carry ++ [((q.sub, q.row, q.foldix), r)] } := by
  unfold Job.takePartial
  dsimp only
  split
  · exact .inr ⟨_, rfl⟩
  · exact .inl ⟨_, rfl⟩

theorem exec_partialMsg_of_early (h : s.works e = true) (hearly : s.early e = true) :
    exec (.partialMsg e b) s = .next { s with inbox := s.inbox.erase (e, b), returns := s.returns ++ [(e, b)] } :=
  if_pos (by rw [h, hearly]; rfl)

/-- A PARTIAL taken by its work: an arrival at the head, a return or an accumulation at a member. -/
def State.partialTaken (e : Envelope) (b : List Byte) (s : State) (p : Part) (j : Job) : State :=
  let q := Partial.ofBytes b
  match p with
  | .chan _ =>
    let pos := j.members.findIdx (· == e.src)
    (s.setJob p (some { j with arrivals := j.arrivals ++
      [{ pos := pos, sub := q.sub, row := q.row, foldix := q.foldix, agg := q.agg (accFmt j.d) pos s.clk.arith }] })).progress 16 p
  | .share _ => (s.setJob p (some (j.takePartial (s.jobEnv j) q))).progress 16 p

theorem State.partialTaken_share (e : Envelope) (b : List Byte) (s : State) (n : Nat) (j : Job) : State.partialTaken e b s (.share n) j =
    (s.setJob (.share n) (some (j.takePartial (s.jobEnv j) (Partial.ofBytes b)))).progress 16 (.share n) := rfl

theorem exec_partialMsg_of_not_early (hearly : s.early e = false) :
    exec (.partialMsg e b) s = .next (s.forWork e b (State.partialTaken e b)) :=
  if_neg (by rw [hearly, Bool.and_false]; exact Bool.false_ne_true)

theorem exec_tileAck_of_release (h : s.works e = true) (hhead : e.head = s.sin)
    (hawaits : s.awaitsTile e.ch (e.src, fieldAt b 0 8, fieldAt b 8 2) = true) :
    exec (.tileAck e b) s = .next ((s.taken e b).releaseTile e.ch (e.src, fieldAt b 0 8, fieldAt b 8 2)) :=
  congrArg Host.Outcome.next (if_pos (by rw [h, hawaits, beq_iff_eq.2 hhead]; rfl))

theorem exec_tileAck_of_work (hno : e.head = s.sin → s.awaitsTile e.ch (e.src, fieldAt b 0 8, fieldAt b 8 2) = false) :
    exec (.tileAck e b) s = .next (s.forWork e b fun s p j =>
      (s.setJob p (some { j.touch s with tiles := j.tiles.erase (e.src, fieldAt b 0 8, fieldAt b 8 2) })).progress 16 p) := by
  refine congrArg Host.Outcome.next (if_neg fun h => ?_)
  obtain ⟨hfirst, hawaits⟩ := Bool.and_eq_true_iff.1 h
  rw [hno (beq_iff_eq.1 (Bool.and_eq_true_iff.1 hfirst).2)] at hawaits
  exact Bool.false_ne_true hawaits

theorem State.early_of_waiting (hhead : e.head ≠ s.sin)
    (hshare : s.shares.find? (shareKey e) = none ∨
      ∃ x, s.shares.find? (shareKey e) = some x ∧ x.attempt % 256 = e.attempt ∧ x.job = none) : s.early e = true := by
  unfold State.early
  rw [bne_iff_ne.2 hhead]
  obtain hnone | ⟨x, hsome, hattempt, hjob⟩ := hshare
  · rw [hnone]
    rfl
  · rw [hsome]
    dsimp only
    rw [beq_iff_eq.2 hattempt, hjob]
    rfl

end ForWork

/-- Settles O33: each message by what takes it: its work's function when the attempt is the one held, the discard otherwise. -/
theorem workMessagesFollowTheAttempt : Obligations.WorkMessagesFollowTheAttempt := by
  refine ⟨fun s e b hworks hhead hshare => exec_partialMsg_of_early hworks (State.early_of_waiting hhead hshare), ?_⟩
  intro s e b p a j hworks hwork hjob u tile
  refine ⟨fun hstale => ⟨?_, fun hearly => ?_, fun hno => ?_⟩, fun hhead hawaits => exec_tileAck_of_release hworks hhead hawaits,
    fun hattempt hphase => ?_⟩
  · rintro i (rfl | rfl)
    · exact congrArg Host.Outcome.next (State.forWork_of_stale hworks hwork hjob hstale _)
    · exact congrArg Host.Outcome.next (State.forWork_of_stale hworks hwork hjob hstale _)
  · exact (exec_partialMsg_of_not_early hearly).trans (congrArg _ (State.forWork_of_stale hworks hwork hjob hstale _))
  · exact (exec_tileAck_of_work hno).trans (congrArg _ (State.forWork_of_stale hworks hwork hjob hstale _))
  have hcurrent := State.forWork_of_current (b := b) hworks hwork hjob hattempt hphase
  refine ⟨?_, ?_, fun hno => (exec_tileAck_of_work hno).trans (congrArg _ (hcurrent _)), ?_, ?_, ?_⟩
  · rintro c rfl hstatus
    exact congrArg Host.Outcome.next ((hcurrent _).trans (if_neg hstatus))
  · rintro c rfl hstatus hhalt
    obtain ⟨-, x, l, hq⟩ := State.workOf_chan hwork
    exact ⟨_, congrArg Host.Outcome.next ((hcurrent _).trans ((if_pos hstatus).trans (if_pos hhalt))),
      State.reportedFault_halts (s := s.taken e b) hq _⟩
  · refine ⟨(List.range (fieldAt b 16 4)).map fun i => (fieldAt b 0 1, fieldAt b 8 8 + i, sliceOf b (24 + 16 * i) 16),
      congrArg Host.Outcome.next (hcurrent _), by rw [List.length_map, List.length_range], fun i hi => ?_⟩
    rw [List.getElem?_map, List.getElem?_range hi]
    rfl
  · rintro c rfl
    obtain ⟨hhead, -⟩ := State.workOf_chan hwork
    exact ⟨_, (exec_partialMsg_of_not_early (State.early_eq_false_of_head hhead)).trans (congrArg _ (hcurrent _)), rfl, rfl, rfl, rfl⟩
  · rintro n rfl hearly
    have hexec := (exec_partialMsg_of_not_early (b := b) hearly).trans (congrArg _ ((hcurrent _).trans (State.partialTaken_share _ _ _ _ _)))
    obtain ⟨r, hr⟩ | ⟨r, hr⟩ := j.takePartial_cases ((s.taken e b).jobEnv j) (Partial.ofBytes b)
    · rw [hr] at hexec
      exact .inl ⟨r, hexec⟩
    · rw [hr] at hexec
      exact .inr ⟨r, hexec⟩

end Sys2Proof.Machine
end

section
/-! PROOFS. Scarfing and the ring's ready stops (12_ R316, R320, 01_ R39). -/

namespace Sys2Proof.Machine

/-! ### A gang's check without work -/

section Idle
variable {s : State}

theorem State.checkGangs_of_idle (h : ∀ c : Fin 16, s.chans[c].job = none) : s.checkGangs = s := by
  unfold State.checkGangs
  induction channels with
  | nil => rfl
  | cons c cs ih =>
    rw [List.foldl_cons, h c]
    exact ih

theorem State.dropScarf_of_idle (h : ∀ c : Fin 16, s.chans[c].job = none) (m : Nat) :
    s.dropScarf m = { s with scarfs := s.scarfs.filter (·.sin != m) } :=
  State.checkGangs_of_idle (s := { s with scarfs := s.scarfs.filter (·.sin != m) }) h

end Idle

/-! ### A SCARF stored and seen -/

section Stored
variable {s : State} {x : ScarfEntry}

theorem State.storeScarf_of_stranger (h : s.headedWith x.sin = []) : s.storeScarf x = s := by
  unfold State.storeScarf
  rw [h]
  rfl

theorem State.storeScarf_of_known (hidle : ∀ c : Fin 16, s.chans[c].job = none) (hheads : s.headedWith x.sin ≠ [])
    (hboot : s.boots.lookup x.sin = some x.bootId) :
    s.storeScarf x = { s with scarfs := s.scarfs.filter (·.sin != x.sin) ++ [x] } := by
  have hfresh : (s.boots.lookup x.sin != some x.bootId) = false := by rw [hboot]; exact bne_self_eq_false _
  unfold State.storeScarf
  dsimp only
  rw [if_neg (mt List.isEmpty_iff.1 hheads), hfresh]
  exact State.checkGangs_of_idle (s := { s with scarfs := s.scarfs.filter (·.sin != x.sin) ++ [x] }) hidle

theorem State.storeScarf_of_new (hidle : ∀ c : Fin 16, s.chans[c].job = none) (hheads : s.headedWith x.sin ≠ [])
    (hboot : s.boots.lookup x.sin ≠ some x.bootId) :
    s.storeScarf x = { s with
      scarfs := s.scarfs.filter (·.sin != x.sin) ++ [x]
      boots := (x.sin, x.bootId) :: s.boots.filter (·.1 != x.sin)
      credits := (s.credits.filter fun k => k.2.1 != x.sin) ++ (s.headedWith x.sin).map fun g => (g, x.sin, x.credit) } := by
  have hfresh : (s.boots.lookup x.sin != some x.bootId) = true := bne_iff_ne.2 hboot
  unfold State.storeScarf
  dsimp only
  rw [if_neg (mt List.isEmpty_iff.1 hheads), hfresh, if_pos rfl, if_pos rfl, State.dropScarf_of_idle hidle, List.filter_filter]
  simp only [Bool.and_self]
  exact State.checkGangs_of_idle (s := { s with
    scarfs := s.scarfs.filter (·.sin != x.sin) ++ [x]
    boots := (x.sin, x.bootId) :: s.boots.filter (·.1 != x.sin)
    credits := (s.credits.filter fun k => k.2.1 != x.sin) ++ (s.headedWith x.sin).map fun g => (g, x.sin, x.credit) }) hidle

end Stored

section Seen
variable {s : State} {e : Envelope} {b : List Byte}

/-- The stop's note of a member of its ring: ready or not (R320). -/
def State.noteReady (s : State) (m : Nat) (on : Bool) : State :=
  { s with stop := { s.stop with ready := (if on = true then [m] else []) ++ s.stop.ready.filter (· != m) } }

theorem State.scarfSeen_of_other (h : ¬ (e.cls = 7 ∧ fieldAt b 0 2 % 4096 ∈ s.params.ring ∧ fieldAt b 0 2 % 4096 ≠ s.sin)) :
    s.scarfSeen e b = s := by
  refine if_pos (Classical.not_and_iff_not_or_not.1 h |>.imp_right fun h => ?_)
  refine Classical.not_and_iff_not_or_not.1 h |>.imp (fun h => ?_) Classical.not_not.1
  exact Bool.eq_false_iff.2 (mt List.contains_iff_mem.1 h)

theorem State.scarfSeen_of_stop (hcls : e.cls = 7) (hring : fieldAt b 0 2 % 4096 ∈ s.params.ring) (hother : fieldAt b 0 2 % 4096 ≠ s.sin) :
    s.scarfSeen e b = if bitOf (fieldAt b 3 1) 0 && !s.stop.ready.contains (fieldAt b 0 2 % 4096) && s.clk.locked
      then (s.noteReady (fieldAt b 0 2 % 4096) (bitOf (fieldAt b 3 1) 0)).sendRingTime [fieldAt b 0 2 % 4096]
      else s.noteReady (fieldAt b 0 2 % 4096) (bitOf (fieldAt b 3 1) 0) := by
  have hpasses : ¬ (e.cls ≠ 7 ∨ s.params.ring.contains (fieldAt b 0 2 % 4096) = false ∨ fieldAt b 0 2 % 4096 = s.sin) := by
    rintro (h | h | h)
    · exact h hcls
    · exact Bool.false_ne_true (h.symm.trans (List.contains_iff_mem.2 hring))
    · exact hother h
  refine (if_neg hpasses).trans ?_
  unfold State.noteReady
  cases bitOf (fieldAt b 3 1) 0 <;> rfl

end Seen

/-! ### A SCARF sent -/

theorem padTo_length (n : Nat) (b : List Byte) : (padTo n b).length = n := by
  rw [padTo, List.length_take, List.length_append, zeros, List.length_replicate]
  omega

theorem State.scarfBody_fields (s : State) (head : Nat) (ready : Bool) : (s.scarfBody head ready).length = 64 ∧
    bitOf (fieldAt (s.scarfBody head ready) 3 1) 0 = ready ∧ bitOf (fieldAt (s.scarfBody head ready) 3 1) 1 = s.clk.locked := by
  have hflags : fieldAt (s.scarfBody head ready) 3 1 = (b2n ready + 2 * b2n s.clk.locked) % 256 := by
    unfold State.scarfBody
    simp only [List.append_assoc]
    simp (disch := decide) only [fieldAt_natLE_append, fieldAt_natLE, Nat.reduceSub, Nat.reducePow]
  refine ⟨?_, ?_, ?_⟩
  · simp only [State.scarfBody, List.length_append, natLE_length, padTo_length, zeros, List.length_replicate]
  · rw [hflags]
    cases ready <;> cases s.clk.locked <;> rfl
  · rw [hflags]
    cases ready <;> cases s.clk.locked <;> rfl

theorem State.sendScarf_of_clean {s : State} (hlg : s.lg ≠ .frozen) (hclean : s.configClean) (ready : Bool) :
    s.sendScarf ready = s.putScarf ready := by
  unfold State.sendScarf
  split
  next h =>
    rw [State.putScarf, if_neg hlg, h.resolve_left hlg]
    rfl
  · rw [State.readConfig_of_clean hclean, hclean.2]
    rfl

theorem exec_scarfPeriodic_of_live {s : State} (hlive : s.live) (hvisible : s.visible = true) (hclean : s.configClean) :
    exec .scarfPeriodic s = .next (s.putScarf s.scarfReady) :=
  (if_pos ⟨hvisible, hlive.1, ne_true_of_eq_false hlive.2⟩).trans (congrArg _ (State.sendScarf_of_clean hlive.lg_ne_frozen hclean _))

/-- Settles O34: what the stop sees by the cases of R320, what the head stores by the BOOT_ID it knows, and the SCARFs sent one after the
other. -/
theorem scarfKeptSentAndDropped : Obligations.ScarfKeptSentAndDropped := by
  intro s e b hrunning x m on passes noted seen u
  have hidle : ∀ c : Fin 16, s.chans[c].job = none := ((State.running_eq_nil_iff s).1 hrunning).1
  refine ⟨State.scarfSeen_of_other, ?_, ?_, fun hhears hheads => ?_, fun hhears hheads => ⟨fun hboot => ?_, fun hboot => ?_⟩,
    fun hlive hvisible hclean => ?_, fun hlive n y hfind => ?_⟩
  · rintro ⟨hcls, hring, hother⟩ hquiet
    refine (State.scarfSeen_of_stop hcls hring hother).trans ?_
    split
    next hsend =>
      simp only [Bool.and_eq_true, Bool.not_eq_true', List.contains_eq_mem, decide_eq_false_iff_not] at hsend
      obtain ⟨⟨hon, hnew⟩, hlocked⟩ := hsend
      obtain hoff | hold | hunlocked | hrole := hquiet
      · exact absurd (hon.symm.trans hoff) Bool.noConfusion
      · exact absurd hold hnew
      · exact absurd (hlocked.symm.trans hunlocked) Bool.noConfusion
      · exact if_pos hrole
    · rfl
  · rintro ⟨hcls, hring, hother⟩ hon hnew hlocked
    refine (State.scarfSeen_of_stop hcls hring hother).trans (if_pos ?_)
    rw [show bitOf (fieldAt b 3 1) 0 = true from hon, hlocked, Bool.eq_false_iff.2 (mt List.contains_iff_mem.1 hnew)]
    rfl
  · refine (if_pos hhears).trans (congrArg (fun t : State => Host.Outcome.next (t.scarfSeen e b)) ?_)
    exact State.storeScarf_of_stranger (s := u) hheads
  · refine (if_pos hhears).trans (congrArg (fun t : State => Host.Outcome.next (t.scarfSeen e b)) ?_)
    exact State.storeScarf_of_known (s := u) hidle hheads hboot
  · refine (if_pos hhears).trans (congrArg (fun t : State => Host.Outcome.next (t.scarfSeen e b)) ?_)
    exact State.storeScarf_of_new (s := u) hidle hheads hboot
  · obtain ⟨⟨hsent, -⟩, hall⟩ := s.putScarf_sends s.scarfReady hlive.lg_ne_frozen
    refine ⟨_, exec_scarfPeriodic_of_live hlive hvisible hclean, fun h hh hnone hloc => ?_, hsent⟩
    obtain ⟨k, hk, henv, hbody⟩ := hall h hh hnone hloc
    obtain ⟨hlength, hready, hlocked⟩ := s.scarfBody_fields h s.scarfReady
    rw [← hbody] at hlength hready hlocked
    exact ⟨k, hk, by rw [henv]; rfl, by rw [henv]; rfl, by rw [henv]; rfl, hlength, hready, hlocked⟩
  · refine (if_neg hlive.not_idle).trans ?_
    rw [hfind]
    exact congrArg Host.Outcome.next (State.dropScarf_of_idle (s := s.untilCount (y.heard + 16777216)) hidle n)

end Sys2Proof.Machine
end

section
/-! PROOFS. The start of an attempt (03_ R84, R87; 01_ R37 to R39; 12_ R312). -/

namespace Sys2Proof.Machine

/-! ### Requests in flight (R398, R399) -/

/-- Going out takes no request of a use away. -/
theorem MemPort.issue_any_use (f : Nat) (m : MemPort) (v : Use) :
    ((MemPort.issue f m).out.any (·.use == v) || (MemPort.issue f m).waiting.any (·.use == v)) =
      (m.out.any (·.use == v) || m.waiting.any (·.use == v)) := by
  induction f generalizing m with
  | zero => rfl
  | succ f ih =>
    unfold MemPort.issue
    split
    next r l t hwaiting _ =>
      split
      · rfl
      · rw [ih, hwaiting]
        simp only [List.any_append, List.any_cons, List.any_nil, Bool.or_false, Bool.or_assoc]
    · rfl

theorem State.inFlight_request {s : State} {l : List MemReq} {q : MemReq} {v : Use} (hq : q ∈ l) (huse : q.use = v) :
    (s.request l).inFlight v = true := by
  have hany : (s.port.out.any (·.use == v) || (s.port.waiting ++ l).any (·.use == v)) = true := by
    have hl : l.any (·.use == v) = true := List.any_eq_true.2 ⟨q, hq, beq_iff_eq.2 huse⟩
    rw [List.any_append, hl, Bool.or_true, Bool.or_true]
  unfold State.inFlight State.request
  dsimp only
  split
  · exact hany
  · exact (MemPort.issue_any_use _ _ v).trans hany

/-- A read of some bytes is a request at least. -/
theorem exists_mem_readReqs (v : Use) (a : Nat) {n : Nat} (hn : n ≠ 0) : ∃ q ∈ readReqs v a n, q.use = v := by
  unfold readReqs
  rw [if_neg hn]
  have hpages : 0 < (a + n - 1) / 4096 + 1 - a / 4096 := by omega
  exact ⟨_, List.mem_map.2 ⟨0, List.mem_range.2 hpages, rfl⟩, rfl⟩

/-! ### The launch of a job (R84, R147) -/

section Launch
variable (s : State) (p : Part) (j : Job)

theorem State.openTallies_eq (d : Desc) : s.openTallies p d = { s with bays := { s.bays with
    tallies := (s.openTallies p d).bays.tallies, tallyCE := (s.openTallies p d).bays.tallyCE, tallyUE := (s.openTallies p d).bays.tallyUE } } := by
  unfold State.openTallies
  split <;> rfl

/-- The job in its place, its tallies open. -/
def State.withTallies : State := (s.setJob p (some j)).openTallies p j.d

/-- The requests of a job's inputs. -/
def State.inputReads : List MemReq := ((s.jobSpans j).filter (·.1 == 0)).flatMap fun x => readReqs (.input p) x.2.1 x.2.2

/-- The job in its place, its reads asked for; a chain that reads node after node asks as it goes on (R296). -/
def State.launched : State := if j.d.chain = 48 then s.withTallies p j else (s.withTallies p j).request ((s.withTallies p j).inputReads p j)

theorem State.launched_eq : s.launched p j = { s.setJob p (some j) with
    port := (s.launched p j).port
    bays := { s.bays with
      tallies := (s.launched p j).bays.tallies, tallyCE := (s.launched p j).bays.tallyCE, tallyUE := (s.launched p j).bays.tallyUE } } := by
  have htallies : s.withTallies p j = { s.setJob p (some j) with bays := { s.bays with
      tallies := (s.withTallies p j).bays.tallies, tallyCE := (s.withTallies p j).bays.tallyCE, tallyUE := (s.withTallies p j).bays.tallyUE } } := by
    cases p <;> exact State.openTallies_eq _ _ _
  unfold State.launched
  generalize s.withTallies p j = t at htallies
  split
  · rw [htallies]
  · unfold State.request
    rw [htallies]

variable {s p j}

theorem State.launch_eq (hskip : j.skip = false) (hcapture : j.d.capture = false) : s.launch p j = (s.launched p j).progress 16 p := by
  have hhead : (s.withTallies p j).captureHead p j = s.withTallies p j := if_pos (by rw [hcapture]; rfl)
  have hlaunch : s.launch p j = if j.skip = true then (((s.withTallies p j).captureHead p j).conclude p j).progress 16 p
      else (if j.d.capture || j.d.chain == 48 then (s.withTallies p j).captureHead p j
        else ((s.withTallies p j).captureHead p j).request (((s.withTallies p j).captureHead p j).inputReads p j)).progress 16 p := rfl
  rw [hlaunch, hskip, hhead, hcapture, if_neg Bool.false_ne_true, Bool.false_or, State.launched]
  by_cases hchain : j.d.chain = 48
  · rw [if_pos hchain, if_pos (beq_iff_eq.2 hchain)]
  · rw [if_neg hchain, if_neg (mt beq_iff_eq.1 hchain)]

end Launch

/-- A job that waits for its first inputs and may not issue stands still: what it reads node by node is in flight. -/
theorem State.progress_of_not_issuing {s : State} {p : Part} {j : Job} (f : Nat) (hjob : s.job p = some j) (hphase : j.phase = .inputs)
    (hcapture : j.d.capture = false) (hreads : s.nodesWanted j ≠ [] → s.inFlight (.input p) = true) (hissue : s.mayIssue p = false) :
    s.progress (f + 1) p = s := by
  unfold State.progress
  rw [hjob]
  dsimp only
  rw [hphase, hcapture, hissue]
  dsimp only
  rw [Bool.false_and, Bool.and_false]
  split
  · rfl
  · split
    next hwanted => exact if_pos (hreads fun h => by rw [h] at hwanted; exact Bool.noConfusion hwanted)
    · rfl

/-- What a job just launched reads from memory is in flight. -/
theorem State.launched_inFlight {s : State} {p : Part} {j : Job} (hchain : j.d.chain ≠ 48) (hwanted : (s.launched p j).nodesWanted j ≠ []) :
    (s.launched p j).inFlight (.input p) = true := by
  rw [State.launched, if_neg hchain] at hwanted ⊢
  obtain ⟨x, hx⟩ := List.exists_mem_of_ne_nil _ hwanted
  unfold State.nodesWanted at hx
  split at hx
  · obtain ⟨hspan, hneeded⟩ := List.mem_filter.1 hx
    obtain ⟨hkind, hmissing⟩ := Bool.and_eq_true_iff.1 hneeded
    have hlength : x.2.2 ≠ 0 := by
      intro h
      rw [h] at hmissing
      exact Bool.noConfusion hmissing
    obtain ⟨q, hq, huse⟩ := exists_mem_readReqs (.input p) x.2.1 hlength
    exact State.inFlight_request (List.mem_flatMap.2 ⟨x, List.mem_filter.2 ⟨hspan, hkind⟩, hq⟩) huse
  · exact absurd hx List.not_mem_nil

/-! ### The start of a head (R39, R87) -/

section Head
variable (s : State) (c : Fin 16) (e : Entry) (l : List Entry)

/-- The job of a head that starts, but for the edge its retirement is due at. -/
def State.headJob : Job :=
  s.mkJob e.desc e.blocks s.sin c e.attempt (s.cfg c).gang (s.gangMembers (s.cfg c).gang) (e.elig.getD (0, 0)).1 (s.vctx c).reserve none

/-- The yard ranges of a head that starts. -/
def State.headRanges : List Rng := yardRanges (Desc.parse e.desc) e.blocks (s.headJob c e).bays.sum (s.vctx c).reserve

/-- The state of a start before its SHAREs: the credits taken, the channel running, its head marked. -/
def State.headMarked : State :=
  { s with
    credits := (s.takeCredits c e).1.credits
    chans := s.chans.set c { s.chans[c] with
      st := .run, val := none, halted := none
      queue := { e with started := true, credits := (s.takeCredits c e).2, ranges := s.headRanges c e } :: l } }

/-- A job's SHAREs to members, one after the other (R312). -/
def State.sendShares (s : State) (j : Job) (ms : List Nat) : State :=
  ms.foldl (fun (s : State) m =>
    let r := unitRange j.d j.blocks j.bays (j.members.findIdx (· == m))
    s.jobSend j 1 m (shareBody j.desc j.blocks r.1 r.2)) s

/-- A marked head's job sends its SHAREs and is launched. -/
def State.launchShared (s : State) (c : Fin 16) (j : Job) : State :=
  let t := s.sendShares j (sharers j (s.otherMembers c))
  t.launch (.chan c) { j with due := t.plumbDue c j }

/-- The state of a start with its SHAREs sent. -/
def State.headShared : State := (s.headMarked c e l).sendShares (s.headJob c e) (sharers (s.headJob c e) (s.otherMembers c))

/-- The job of a head that starts. -/
def State.headJobDue : Job := { s.headJob c e with due := (s.headShared c e l).plumbDue c (s.headJob c e) }

/-- The state of a start before the job goes on. -/
def State.headLaunched : State := (s.headShared c e l).launched (.chan c) (s.headJobDue c e l)

variable {s c e l}

theorem State.takeCredits_eq : (s.takeCredits c e).1 = { s with credits := (s.takeCredits c e).1.credits } := by
  unfold State.takeCredits
  split <;> rfl

theorem State.startHead_eq (hq : s.chans[c].queue = e :: l) :
    s.startHead c = (s.headShared c e l).launch (.chan c) (s.headJobDue c e l) := by
  have hmarked : (((s.takeCredits c e).1.onChan c fun x => { x with st := .run, val := none, halted := none }).onHead c fun e' =>
      { e' with
        started := true, credits := (s.takeCredits c e).2
        ranges := yardRanges (Desc.parse e.desc) e'.blocks (s.headJob c e).bays.sum (s.vctx c).reserve }) = s.headMarked c e l := by
    rw [State.takeCredits_eq, State.onHead_onChan _ _ _ _ (e := e) (l := l) hq]
    rfl
  unfold State.startHead
  rw [hq]
  exact congrArg (fun t : State => t.launchShared c (s.headJob c e)) hmarked

theorem State.startHead_progress (hq : s.chans[c].queue = e :: l) (hworks : processesNone (Desc.parse e.desc) s.active.digestN.toNat = false)
    (hcapture : (Desc.parse e.desc).capture = false) : s.startHead c = (s.headLaunched c e l).progress 16 (.chan c) :=
  (State.startHead_eq hq).trans (State.launch_eq hworks hcapture)

/-- The channel of a start, its job in place. -/
theorem State.headLaunched_chans (hkeep : (s.headShared c e l).chans = (s.headMarked c e l).chans) :
    (s.headLaunched c e l).chans = s.chans.set c { s.chans[c] with
      st := .run, val := none, halted := none, job := some (s.headJobDue c e l)
      queue := { e with started := true, credits := (s.takeCredits c e).2, ranges := s.headRanges c e } :: l } := by
  have hset : (s.headLaunched c e l).chans = (s.headShared c e l).chans.set c
      { (s.headShared c e l).chans[c] with job := some (s.headJobDue c e l) } := by
    rw [State.headLaunched, State.launched_eq]
    rfl
  rw [hset, hkeep]
  simp only [State.headMarked, getElem_set_fin_self, Vector.set_set]

theorem State.headLaunched_eq : s.headLaunched c e l = { s.headShared c e l with
    chans := (s.headLaunched c e l).chans
    port := (s.headLaunched c e l).port
    bays := { (s.headShared c e l).bays with
      tallies := (s.headLaunched c e l).bays.tallies
      tallyCE := (s.headLaunched c e l).bays.tallyCE
      tallyUE := (s.headLaunched c e l).bays.tallyUE } } := by
  rw [State.headLaunched, State.launched_eq]
  rfl

end Head

/-! ### A start with no other member -/

section Alone
variable {s : State} {c : Fin 16} {e : Entry} {l : List Entry}

theorem State.otherMembers_of_no_gang (h : (s.cfg c).gang = 0) : s.otherMembers c = [] := by
  rw [State.otherMembers, State.gangMembers, if_pos h, List.filter_cons, bne_self_eq_false]
  rfl

theorem State.takeCredits_of_alone (h : s.otherMembers c = []) : s.takeCredits c e = (s, e.credits) := by
  unfold State.takeCredits
  split
  · rfl
  next hcredits =>
    have hnone : e.credits = [] := by simpa using hcredits
    simp [h, hnone]

theorem State.headShared_of_alone (h : s.otherMembers c = []) : s.headShared c e l = s.headMarked c e l := by
  have hnone : sharers (s.headJob c e) (s.otherMembers c) = [] := by
    rw [h, sharers, ite_self]
  rw [State.headShared, hnone]
  rfl

theorem State.headMarked_of_alone (h : s.otherMembers c = []) : s.headMarked c e l = { s with chans := (s.headMarked c e l).chans } := by
  unfold State.headMarked
  rw [State.takeCredits_of_alone h]

end Alone

/-! ### A start on a gang (R39, R312) -/

section Gang
variable {s : State} {c : Fin 16} {e : Entry} {l : List Entry}

theorem State.takeCredits_snd : (s.takeCredits c e).2 = if e.credits = [] then
    (s.otherMembers c).map fun m => ((s.cfg c).gang, m, (s.boots.lookup m).getD 0) else e.credits := by
  unfold State.takeCredits
  cases e.credits <;> rfl

theorem State.takeCredits_credits : (s.takeCredits c e).1.credits = if e.credits = [] then s.credits.map fun x =>
    if x.1 = (s.cfg c).gang ∧ x.2.1 ∈ s.otherMembers c then (x.1, x.2.1, x.2.2 - 1) else x else s.credits := by
  unfold State.takeCredits
  cases e.credits with
  | nil => simp only [List.isEmpty_nil, Bool.not_true, Bool.false_eq_true, if_false, if_true, List.contains_iff_mem]
  | cons x l => rfl

/-- The SHAREs of a job all leave, each for its member. -/
theorem State.sendShares_sends (hclean : s.configClean) (j : Job) (ms : List Nat) :
    s.Sends (s.sendShares j ms) ∧ ∀ m ∈ ms, s.routeOf m ≠ .none → s.routeOf m ≠ .loc → ∃ x ∈ (s.sendShares j ms).net,
      x.env.cls = 1 ∧ x.env.dest = m ∧ x.env.src = s.sin ∧ x.env.head = j.head ∧ x.env.ch = j.ch ∧ x.env.attempt = j.attempt % 256 ∧
        x.env.seq = j.d.seq ∧ x.body.take 128 = padTo 128 j.desc := by
  have hbody : ∀ r : Nat × Nat, (shareBody j.desc j.blocks r.1 r.2).take 128 = padTo 128 j.desc := fun r => by
    simp only [shareBody, List.append_assoc]
    exact List.take_left' (padTo_length _ _)
  let body := fun m => let r := unitRange j.d j.blocks j.bays (j.members.findIdx (· == m)); shareBody j.desc j.blocks r.1 r.2
  obtain ⟨hsends, hall⟩ := State.foldl_netSend (fun m => s.jobEnvelope j 1 m (body m)) body ms hclean
    (step := fun (s : State) m => s.jobSend j 1 m (body m)) fun t m ht _ => by rw [ht.1]; rfl
  refine ⟨hsends, fun m hm hnone hloc => ?_⟩
  obtain ⟨x, hx, henv, hbytes⟩ := hall m hm hnone hloc
  refine ⟨x, hx, by rw [henv]; rfl, by rw [henv]; rfl, by rw [henv]; rfl, by rw [henv]; rfl, by rw [henv]; rfl, by rw [henv]; rfl,
    by rw [henv]; rfl, ?_⟩
  rw [hbytes]
  exact hbody _

theorem sharers_of_working {j : Job} (halone : headAlone j.d = false) (hskip : j.skip = false) (ms : List Nat) : sharers j ms = ms := by
  rw [sharers, halone, hskip]
  rfl

/-- A descriptor that starts on its gang (R39, R87, R309). -/
theorem State.startHead_startsOnGang (hq : s.chans[c].queue = e :: l) (halone : headAlone (Desc.parse e.desc) = false)
    (hworks : processesNone (Desc.parse e.desc) s.active.digestN.toNat = false) (hcapture : (Desc.parse e.desc).capture = false)
    (hclean : s.configClean) : s.startsOnGang c e l (.next (s.startHead c)) := by
  obtain ⟨hsends, hshares⟩ := State.sendShares_sends (s := s.headMarked c e l) hclean (s.headJob c e) (s.otherMembers c)
  have hshared : s.headShared c e l = (s.headMarked c e l).sendShares (s.headJob c e) (s.otherMembers c) :=
    congrArg _ (sharers_of_working (j := s.headJob c e) halone hworks _)
  rw [← hshared] at hsends hshares
  have hlaunched := State.headLaunched_eq (s := s) (c := c) (e := e) (l := l)
  have hchans := State.headLaunched_chans (s := s) (c := c) (e := e) (l := l) (by rw [hsends.1])
  have hnet : (s.headLaunched c e l).net = (s.headShared c e l).net := by rw [hlaunched]
  have hcredits : (s.headLaunched c e l).credits = (s.takeCredits c e).1.credits := by
    rw [hlaunched, hsends.1]
    rfl
  refine ⟨s.headLaunched c e l, s.headJobDue c e l, s.headRanges c e, congrArg _ (State.startHead_progress hq hworks hcapture), ?_, rfl, rfl, rfl,
    rfl, rfl, rfl, hcredits.trans State.takeCredits_credits, fun m hm hnone hloc => ?_, ?_⟩
  · rw [hchans, State.takeCredits_snd]
  · rw [hnet]
    exact hshares m hm hnone hloc
  · rw [hlaunched, hsends.1]
    rfl

end Gang

end Sys2Proof.Machine
end

section
/-! PROOFS. The start of a descriptor and of a share (03_ R87, R88; 01_ R38, R39; 12_ R310). -/

namespace Sys2Proof.Machine

/-! ### A descriptor of no gang -/

section Alone
variable {s : State} {c : Fin 16} {e : Entry} {l : List Entry}

theorem State.headLaunched_of_alone (h : s.otherMembers c = []) :
    (s.headLaunched c e l).chans = s.chans.set c { s.chans[c] with
      st := .run, val := none, halted := none, job := some (s.headJobDue c e l)
      queue := { e with started := true, ranges := s.headRanges c e } :: l } ∧
    s.headLaunched c e l = { s with
      chans := (s.headLaunched c e l).chans
      port := (s.headLaunched c e l).port
      bays := { s.bays with
        tallies := (s.headLaunched c e l).bays.tallies
        tallyCE := (s.headLaunched c e l).bays.tallyCE
        tallyUE := (s.headLaunched c e l).bays.tallyUE } } := by
  have hshared : s.headShared c e l = s.headMarked c e l := State.headShared_of_alone h
  refine ⟨?_, ?_⟩
  · rw [State.headLaunched_chans (by rw [hshared]), State.takeCredits_of_alone h]
  · rw [State.headLaunched_eq, hshared, State.headMarked_of_alone h]

theorem State.mayIssue_chan (s : State) (c : Fin 16) : s.mayIssue (.chan c) = s.issues (s.ownerOf (.chan c)) := Bool.and_true _

/-- While its bays issue nothing for it, a head just started stands still. -/
theorem State.headLaunched_stands (h : s.otherMembers c = []) (hcapture : (Desc.parse e.desc).capture = false)
    (hchain : (Desc.parse e.desc).chain ≠ 48) (hissue : s.issues (s.ownerOf (.chan c)) = false) :
    (s.headLaunched c e l).progress 16 (.chan c) = s.headLaunched c e l := by
  obtain ⟨hchans, hframe⟩ := State.headLaunched_of_alone (e := e) (l := l) h
  have hjob : (s.headLaunched c e l).job (.chan c) = some (s.headJobDue c e l) := by
    rw [State.job, hchans, getElem_set_fin_self]
  refine State.progress_of_not_issuing 15 hjob rfl hcapture (fun hwanted => State.launched_inFlight hchain hwanted) ?_
  rw [State.mayIssue_chan, hframe]
  exact hissue

theorem exec_descriptorStart_of_chan (hmay : s.canStart c = true) (hgranted : s.granted c = true) :
    exec (.descriptorStart (.chan c)) s = .next (s.startHead c) :=
  if_pos (by rw [hmay, hgranted]; rfl)

end Alone

/-! ### A share (R38, R310) -/

/-- Partials taken one after the other: each is a return or an accumulation of the job, and nothing else of it changes. -/
theorem Job.foldl_takePartial (v : Env) (l : List Partial) (j : Job) : ∃ rs cs,
    l.foldl (fun (k : Job) q => k.takePartial v q) j = { j with rets := j.rets ++ rs, carry := j.carry ++ cs } ∧
      ∀ q ∈ l, (q.sub, q.row) ∈ rs.map Prod.fst ∨ (q.sub, q.row, q.foldix) ∈ cs.map Prod.fst := by
  induction l generalizing j with
  | nil => exact ⟨[], [], by simp only [List.foldl_nil, List.append_nil], fun _ h => absurd h List.not_mem_nil⟩
  | cons q l ih =>
    obtain ⟨rs, cs, hrest, hall⟩ := ih (j.takePartial v q)
    rw [List.foldl_cons, hrest]
    obtain ⟨r, hr⟩ | ⟨r, hr⟩ := j.takePartial_cases v q
    · refine ⟨((q.sub, q.row), r) :: rs, cs, by rw [hr]; simp only [List.append_assoc, List.singleton_append], fun y hy => ?_⟩
      obtain rfl | hy := List.mem_cons.1 hy
      · exact .inl List.mem_cons_self
      · exact (hall y hy).imp_left (List.mem_cons_of_mem _)
    · refine ⟨rs, ((q.sub, q.row, q.foldix), r) :: cs, by rw [hr]; simp only [List.append_assoc, List.singleton_append], fun y hy => ?_⟩
      obtain rfl | hy := List.mem_cons.1 hy
      · exact .inr List.mem_cons_self
      · exact (hall y hy).imp_right (List.mem_cons_of_mem _)

section Share
variable {s : State} {x : Share}

/-- The job of a share that starts, with the returns that came before it. -/
def State.shareJobIn (s : State) (x : Share) : Job :=
  (s.returnsOf x).foldl (fun (k : Job) q => k.takePartial (s.jobEnv (s.shareJob x)) q) (s.shareJob x)

/-- The state of a share's start before its job is in place. -/
def State.shareServed (s : State) (x : Share) : State :=
  { s with
    sched := { s.sched with serving := some x.id }
    returns := s.returns.filter fun m => !(m.1.head == x.env.head && m.1.ch == x.env.ch) }

/-- The early returns of a share's channel are all its own. -/
def State.ownReturns (s : State) (x : Share) : Prop :=
  ∀ m ∈ s.returns, m.1.head = x.env.head → m.1.ch = x.env.ch → m.1.seq = x.env.seq ∧ m.1.attempt = x.env.attempt

theorem State.ownReturns.isOwn (hown : s.ownReturns x) {m : Envelope × List Byte} (hm : m ∈ s.returns) (hhead : m.1.head = x.env.head)
    (hch : m.1.ch = x.env.ch) : (shareKey m.1 x && m.1.attempt == x.env.attempt) = true := by
  obtain ⟨hseq, hattempt⟩ := hown m hm hhead hch
  simp only [shareKey, hhead, hch, hseq, hattempt, beq_self_eq_true, Bool.and_self]

theorem State.takeReturns_of_own (hown : s.ownReturns x) : s.takeReturns x =
    { s with returns := s.returns.filter fun m => !(m.1.head == x.env.head && m.1.ch == x.env.ch) } := by
  have hstale : ((s.returns.filter fun m => m.1.head == x.env.head && m.1.ch == x.env.ch).filter
      fun m => !(shareKey m.1 x && m.1.attempt == x.env.attempt)) = [] := by
    refine List.filter_eq_nil_iff.2 fun m hm => ?_
    obtain ⟨hm, hkey⟩ := List.mem_filter.1 hm
    obtain ⟨hhead, hch⟩ := Bool.and_eq_true_iff.1 hkey
    rw [hown.isOwn hm (beq_iff_eq.1 hhead) (beq_iff_eq.1 hch)]
    exact Bool.false_ne_true
  unfold State.takeReturns
  dsimp only
  rw [hstale]
  rfl

theorem Bays.shareMarks_of_none {b : Bays} (hce : b.shareCE = []) (hue : b.shareUE = []) : { b with shareCE := [], shareUE := [] } = b := by
  cases b
  cases hce
  cases hue
  rfl

theorem State.startShare_eq (hown : s.ownReturns x) (hce : s.bays.shareCE = []) (hue : s.bays.shareUE = []) :
    s.startShare x = (s.shareServed x).launch (.share x.id) (s.shareJobIn x) := by
  have htake : State.takeReturns { s with sched := { s.sched with serving := some x.id } } x = s.shareServed x :=
    State.takeReturns_of_own (s := { s with sched := { s.sched with serving := some x.id } }) hown
  have hce' : (s.shareServed x).bays.shareCE = [] := hce
  have hue' : (s.shareServed x).bays.shareUE = [] := hue
  unfold State.startShare
  dsimp only
  rw [htake, hce', hue', List.filter_nil, List.foldl_nil, List.filter_nil]
  exact congrArg (fun b : Bays => ({ s.shareServed x with bays := b } : State).launch (.share x.id) (s.shareJobIn x))
    (Bays.shareMarks_of_none hce hue)

/-- What came before a share started is in its job. -/
theorem State.shareJobIn_spec (s : State) (x : Share) : ∃ rs cs,
    s.shareJobIn x = { s.shareJob x with rets := rs, carry := cs } ∧ ∀ q ∈ s.returnsOf x, (q.sub, q.row) ∈ rs.map Prod.fst ∨
      (q.sub, q.row, q.foldix) ∈ cs.map Prod.fst :=
  Job.foldl_takePartial _ _ _

theorem State.ownReturns.mem_returnsOf (hown : s.ownReturns x) {m : Envelope × List Byte} (hm : m ∈ s.returns) (hhead : m.1.head = x.env.head)
    (hch : m.1.ch = x.env.ch) : Partial.ofBytes m.2 ∈ s.returnsOf x :=
  List.mem_map.2 ⟨m, List.mem_filter.2 ⟨hm, hown.isOwn hm hhead hch⟩, rfl⟩

theorem exec_descriptorStart_of_share {n : Nat} (hfind : s.shares.find? (·.id == n) = some x) (hjob : x.job = none)
    (hslot : s.sched.grantee = some 16) (hready : s.shareReady x = true) (hserved : s.servedNow = some n) :
    exec (.descriptorStart (.share n)) s = .next (s.startShare x) := by
  have hstart : exec (.descriptorStart (.share n)) s = execDescriptorStart (.share n) s := rfl
  rw [hstart, execDescriptorStart, hfind]
  exact if_pos (by rw [hjob, hslot, hready, hserved]; simp only [Option.isNone_none, beq_self_eq_true, Bool.and_self])

end Share

/-- Settles O14: the state that a start reaches before its work goes on, of a descriptor alone, of one on a gang, of a share. -/
theorem workStartsWhenItMay : Obligations.WorkStartsWhenItMay := by
  refine ⟨fun s c e l hq hmay hgranted hgang hworks hcapture => ?_,
    fun s c e l hq hmay hgranted _ halone hworks hcapture hclean => ?_,
    fun s n x hfind hjob hslot hready hserved hce hue hown hskip hcapture => ?_⟩
  · have halone := State.otherMembers_of_no_gang hgang
    obtain ⟨hchans, hframe⟩ := State.headLaunched_of_alone (e := e) (l := l) halone
    exact ⟨s.headLaunched c e l, s.headJobDue c e l, s.headRanges c e,
      (exec_descriptorStart_of_chan hmay hgranted).trans (congrArg _ (State.startHead_progress hq hworks hcapture)), hchans, rfl, rfl, rfl, rfl,
      rfl, hframe, State.headLaunched_stands halone hcapture⟩
  · rw [exec_descriptorStart_of_chan hmay hgranted]
    exact State.startHead_startsOnGang hq halone hworks hcapture hclean
  · have hid : x.id = n := beq_iff_eq.1 (List.find?_some (p := fun y : Share => y.id == n) hfind)
    obtain ⟨rs, cs, hjobIn, hall⟩ := s.shareJobIn_spec x
    have hlaunched := (s.shareServed x).launched_eq (.share x.id) (s.shareJobIn x)
    have hexec := (exec_descriptorStart_of_share hfind hjob hslot hready hserved).trans (congrArg _ ((State.startShare_eq hown hce hue).trans
      (State.launch_eq (by rw [hjobIn]; exact hskip) (by rw [hjobIn]; exact hcapture))))
    generalize (s.shareServed x).launched (.share x.id) (s.shareJobIn x) = u at hlaunched hexec
    rw [hid] at hlaunched hexec
    refine ⟨u, hexec, ?_, ⟨s.shareJobIn x, ?_, by rw [hjobIn]; rfl, by rw [hjobIn]; rfl, by rw [hjobIn]; rfl, fun m hm hhead hch => ?_⟩, ?_, ?_⟩
    · rw [hlaunched, ← hid]
      rfl
    · rw [hlaunched]
      rfl
    · rw [hjobIn]
      exact hall _ (State.ownReturns.mem_returnsOf hown hm hhead hch)
    · rw [hlaunched]
      rfl
    · rw [hlaunched]
      rfl

end Sys2Proof.Machine
end

section
/-! PROOFS. Execution again, and the loss of a gang (15_ R385, R392). -/

namespace Sys2Proof.Machine

/-! ### Execution again (R385) -/

section Again
variable {s : State} {c : Fin 16}

theorem exec_reexecutionStart (h : s.pins.rstN = true) : exec (.reexecutionStart c) s = .next (s.reexecute c) := if_pos h

theorem State.reexecute_of_not_may (h : s.mayReexecute c = false) : s.reexecute c = s := if_neg (ne_true_of_eq_false h)

/-- Once its validation has passed, a drained descriptor starts where its conditions hold. -/
theorem State.reexecute_of_validated {e : Entry} {l : List Entry} {v : Validation} (hmay : s.mayReexecute c = true)
    (hq : s.chans[c].queue = e :: l) (hval : s.chans[c].val = some v) (hstart : s.canStart c = true) (hgranted : s.granted c = true) :
    s.reexecute c = s.startHead c := by
  unfold State.reexecute
  rw [if_pos hmay, hq, hval]
  exact if_pos (by rw [hstart, hgranted]; rfl)

end Again

/-! ### A fault leaves the other channels' work alone -/

section Others
variable {s t : State} {c k : Fin 16}

theorem any_filter_of_imp {α : Type} {p q : α → Bool} (l : List α) (h : ∀ a, q a = true → p a = true) : (l.filter p).any q = l.any q := by
  rw [List.any_filter]
  congr 1
  funext a
  cases hq : q a
  · exact Bool.and_false _
  · rw [h a hq]
    rfl

/-- Dropping what waits of one channel keeps the outputs that wait of another. -/
theorem State.outputWaits_dropWaiting (hne : k ≠ c) : (s.dropWaiting (.chan k)).outputWaits (.chan c) = s.outputWaits (.chan c) := by
  have huse : ∀ q : MemReq, (q.use == .output (.chan c) && q.tries == 0) = true → q.use = .output (.chan c) := fun q h =>
    beq_iff_eq.1 (Bool.and_eq_true_iff.1 h).1
  have hoffcut : (s.dropOffcut (.chan k)).outputWaits (.chan c) = s.outputWaits (.chan c) := by
    unfold State.dropOffcut
    split
    · dsimp only
      split
      · exact any_filter_of_imp _ fun q h => by rw [huse q h]; rfl
      · rfl
    · rfl
  have hpart : ∀ q : MemReq, (q.use == .output (.chan c) && q.tries == 0) = true → (!(q.use.ofPart (.chan k))) = true := fun q h => by
    have hother : (Part.chan c == Part.chan k) = false := beq_eq_false_iff_ne.2 fun h => hne (Part.chan.inj h).symm
    rw [huse q h]
    exact congrArg not hother
  exact (any_filter_of_imp (s.dropOffcut (.chan k)).port.waiting hpart).trans hoffcut

/-- `t` is `s` but for faults of other channels than `c`. -/
def State.SparesChan (c : Fin 16) (s t : State) : Prop :=
  t = { s with chans := t.chans, port := t.port, offcut := t.offcut, offcutUse := t.offcutUse, sched := t.sched, log := t.log
               irqStatus := t.irqStatus } ∧
    t.chans[c] = s.chans[c] ∧ t.outputWaits (.chan c) = s.outputWaits (.chan c)

theorem State.SparesChan.refl (c : Fin 16) (s : State) : s.SparesChan c s := ⟨rfl, rfl, rfl⟩

theorem State.faultHead_spares (hne : k ≠ c) {e : Entry} {l : List Entry} (hq : s.chans[k].queue = e :: l) (code detail : Nat)
    (place : Option (Nat × Nat)) (strand : Bool) (n : Nat) (lost : Option Nat) :
    s.SparesChan c (s.faultHead k code detail place strand n lost) := by
  have hwaits : (s.faultBegun k e code detail place strand n).outputWaits (.chan c) = s.outputWaits (.chan c) := by
    unfold State.faultBegun
    rw [State.breakPromise_eq]
    refine (State.outputWaits_dropWaiting hne).trans ?_
    rw [State.faultLogged_eq]
    rfl
  rw [State.faultHead_eq hq]
  refine ⟨?_, getElem_set_fin_ne _ _ hne.symm, hwaits⟩
  have hbegun := s.faultBegun_eq k e code detail place strand n
  dsimp only at hbegun
  generalize s.faultBegun k e code detail place strand n = u at hbegun
  rw [hbegun]

end Others

/-! ### The check of one channel's gang (R392) -/

/-- A channel's part of the check of the gangs. -/
def State.checkGang (s : State) (c : Fin 16) : State :=
  match s.chans[c].job, s.chans[c].queue with
  | some j, e :: _ =>
    if (s.cfg c).gang ≠ 0 ∧ s.haltable (.chan c) j ∧ s.scarfed (s.cfg c).gang = false then
      s.faultHead c codeGang (s.cfg c).gang none false (Desc.parse e.desc).seq (some (s.count + 16777216))
    else s
  | _, _ => s

/-- A channel runs work of a gang that is not scarfed any more. -/
structure State.Exposed (c : Fin 16) (e : Entry) (l : List Entry) (j : Job) (s : State) : Prop where
  queue : s.chans[c].queue = e :: l
  job : s.chans[c].job = some j
  gang : (s.cfg c).gang ≠ 0
  haltable : s.haltable (.chan c) j = true
  unscarfed : s.scarfed (s.cfg c).gang = false

/-- A channel halted for the loss of its gang at a count. -/
structure State.LostAt (c : Fin 16) (n : Nat) (s : State) : Prop where
  count : s.count = n
  halted : s.chans[c].st = .halt
  job : ∃ j, s.chans[c].job = some j ∧ j.phase = .draining
  halt : ∃ h, s.chans[c].halted = some h ∧ h.time = n ∧ h.lostUntil = some (n + 16777216)

section Check
variable {s t : State} {c k : Fin 16} {e : Entry} {l : List Entry} {j : Job} {n : Nat}

theorem State.checkGang_spares (hne : k ≠ c) : s.SparesChan c (s.checkGang k) := by
  unfold State.checkGang
  split
  next hq =>
    split
    · exact State.faultHead_spares hne hq _ _ _ _ _ _
    · exact .refl c s
  · exact .refl c s

theorem State.Exposed.spared (hexposed : s.Exposed c e l j) (h : s.SparesChan c t) : t.Exposed c e l j := by
  obtain ⟨hframe, hchan, hwaits⟩ := h
  have hcfg : t.cfg c = s.cfg c := by rw [hframe]; rfl
  have hscarfed : ∀ g, t.scarfed g = s.scarfed g := fun g => by rw [hframe]; rfl
  refine ⟨hchan ▸ hexposed.queue, hchan ▸ hexposed.job, hcfg ▸ hexposed.gang, ?_, ?_⟩
  · rw [State.haltable, hwaits]
    exact hexposed.haltable
  · rw [hcfg, hscarfed]
    exact hexposed.unscarfed

theorem State.LostAt.spared (hlost : s.LostAt c n) (h : s.SparesChan c t) : t.LostAt c n := by
  obtain ⟨hframe, hchan, -⟩ := h
  have hcount : t.count = s.count := by rw [hframe]; rfl
  exact ⟨hcount.trans hlost.count, hchan ▸ hlost.halted, hchan ▸ hlost.job, hchan ▸ hlost.halt⟩

theorem State.LostAt.checkGang (hlost : s.LostAt c n) (k : Fin 16) : (s.checkGang k).LostAt c n := by
  by_cases hk : k = c
  · obtain ⟨j, hjob, hphase⟩ := hlost.job
    have hsame : s.checkGang k = s := by
      subst hk
      unfold State.checkGang
      rw [hjob]
      split
      next hq =>
        obtain rfl := Option.some.inj ‹_›
        refine if_neg fun h => ?_
        rw [State.haltable, hphase] at h
        exact Bool.false_ne_true h.2.1
      · rfl
    rw [hsame]
    exact hlost
  · exact hlost.spared (State.checkGang_spares hk)

/-- An exposed channel's own check halts it. -/
theorem State.Exposed.checkGang_self (h : s.Exposed c e l j) : (s.checkGang c).LostAt c s.count := by
  have hfault : s.checkGang c =
      s.faultHead c codeGang (s.cfg c).gang none false (Desc.parse e.desc).seq (some (s.count + 16777216)) := by
    unfold State.checkGang
    rw [h.job, h.queue]
    exact if_pos ⟨h.gang, h.haltable, h.unscarfed⟩
  have hchan : (s.checkGang c).chans[c] = s.chans[c].faulted e l false s.count (some (s.count + 16777216)) := by
    rw [hfault, State.faultHead_chans h.queue, getElem_set_fin_self]
  have hcount : (s.checkGang c).count = s.count := by
    rw [hfault, State.count, (State.faultHead_struck _ _ _ _ _ _ _ _).clk_eq]
    rfl
  refine ⟨hcount, by rw [hchan]; rfl, ⟨j.drain, by rw [hchan, Chan.faulted, h.job]; rfl, rfl⟩, ?_⟩
  rw [hchan]
  exact ⟨_, rfl, rfl, rfl⟩

theorem State.LostAt.foldl_checkGang (h : s.LostAt c n) (cs : List (Fin 16)) : (cs.foldl State.checkGang s).LostAt c n := by
  induction cs generalizing s with
  | nil => exact h
  | cons k cs ih => exact ih (h.checkGang k)

theorem State.Exposed.foldl_checkGang (h : s.Exposed c e l j) {cs : List (Fin 16)} (hc : c ∈ cs) :
    (cs.foldl State.checkGang s).LostAt c s.count := by
  induction cs generalizing s with
  | nil => exact absurd hc List.not_mem_nil
  | cons k cs ih =>
    by_cases hk : k = c
    · subst hk
      exact h.checkGang_self.foldl_checkGang cs
    · have hspares := State.checkGang_spares (s := s) hk
      have hcount : (s.checkGang k).count = s.count := by rw [hspares.1]; rfl
      rw [← hcount]
      exact ih (h.spared hspares) ((List.mem_cons.1 hc).resolve_left (Ne.symm hk))

theorem State.Exposed.checkGangs (h : s.Exposed c e l j) : s.checkGangs.LostAt c s.count := h.foldl_checkGang (State.mem_channels c)

end Check

/-- A gang is not scarfed without the entry of one of its other members. -/
theorem State.scarfed_of_missing {s : State} {g m : Nat} (hg : g ≠ 0) (hm : m ∈ s.gangMembers g) (hother : m ≠ s.sin)
    (hnone : s.scarfs.find? (·.sin == m) = none) : s.scarfed g = false := by
  unfold State.scarfed
  rw [beq_eq_false_iff_ne.2 hg, Bool.false_or]
  refine List.all_eq_false.2 ⟨m, hm, ?_⟩
  rw [if_neg hother, hnone]
  exact Bool.false_ne_true

/-- Settles O27: the re-execution is the start of its channel, the loss of a gang a fault at its channel's turn of the check. -/
theorem reexecutionStartsOrWaits : Obligations.ReexecutionStartsOrWaits := by
  refine ⟨fun s c e l v hrst hq => ⟨fun hmay => ?_, fun hmay hval hstart hgranted hgang hworks hcapture => ?_,
      fun hmay hval hstart hgranted _ halone hworks hcapture hclean => ?_⟩,
    fun s c e l j m x hlive hq hjob hgang hhaltable hm hfind => ?_, fun s c h n hlive hhalted hlost => ?_⟩
  · rw [exec_reexecutionStart hrst, State.reexecute_of_not_may hmay]
  · have halone := State.otherMembers_of_no_gang hgang
    obtain ⟨hchans, hframe⟩ := State.headLaunched_of_alone (e := e) (l := l) halone
    refine ⟨s.headLaunched c e l, s.headJobDue c e l, s.headRanges c e, ?_, hchans, rfl, rfl, rfl, rfl, hframe⟩
    rw [exec_reexecutionStart hrst, State.reexecute_of_validated hmay hq hval hstart hgranted, State.startHead_progress hq hworks hcapture]
  · rw [exec_reexecutionStart hrst, State.reexecute_of_validated hmay hq hval hstart hgranted]
    exact State.startHead_startsOnGang hq halone hworks hcapture hclean
  · obtain ⟨hmember, hother⟩ := List.mem_filter.1 hm
    let u : State := { s.untilCount (x.heard + 16777216) with scarfs := s.scarfs.filter (·.sin != m) }
    have hmissing : u.scarfs.find? (·.sin == m) = none := by
      refine List.find?_eq_none.2 fun y hy heq => ?_
      exact bne_iff_ne.1 (List.mem_filter.1 hy).2 (beq_iff_eq.1 heq)
    have hexposed : u.Exposed c e l j :=
      ⟨hq, hjob, hgang, hhaltable, State.scarfed_of_missing (s := u) hgang hmember (bne_iff_ne.1 hother) hmissing⟩
    obtain ⟨hcount, hst, -, k, hk, htime, huntil⟩ := hexposed.checkGangs
    refine ⟨u.checkGangs, (if_neg hlive.not_idle).trans ?_, hst, k, hk, by rw [hcount]; exact htime, by rw [hcount]; exact huntil⟩
    rw [hfind]
    rfl
  · refine (if_neg hlive.not_idle).trans ?_
    rw [hhalted]
    dsimp only
    rw [hlost]
    rfl

end Sys2Proof.Machine
end
